-- ==== Sys2Proof/Word.lean ====
section
/-! DEFINITION. The word types of the ZR-4096 and their plainest readings (spec/02 R48, R50; spec/03 R74-R78). -/

namespace Sys2Proof

/-- A general register, control register or address: 64 bits (R48). -/
abbrev Word := BitVec 64

/-- One instruction word: 32 bits (R71). -/
abbrev Code := BitVec 32

/-- A byte of memory. -/
abbrev Byte := BitVec 8

/-- A register field of 7 bits, naming g0-g127 (R78). -/
abbrev Reg := BitVec 7

/-- A reference-register field, naming h0-h7 (R78). -/
abbrev HReg := BitVec 3

end Sys2Proof
end

