-- ==== Sys2Proof/Syntax.lean ====
section
/-! DEFINITION. The instructions and events of the ZR-4096: one constructor per row of spec/opcode_table.json.

The first 225 constructors are instruction words (spec/03, spec/04); their arguments are the word's fields, turned
into names. The other 102 are the indivisible steps that no instruction word asks for (spec/95): their arguments say
on what the step acts (a packet in flight by its place, a core, a slot, a tile, a job) and what the outside supplies. -/

namespace Sys2Proof

/-- The ordering of an atomic, its fn (R104, R147). -/
inductive Order where
  | relaxed | acq | rel | ar
  deriving DecidableEq, Repr

/-- The type of a scalar floating operation, its fn (R104). -/
inductive FType where
  | s | h | b
  deriving DecidableEq, Repr

/-- The direction of a binding (R105, R162). -/
inductive BindDir where
  | rd | wr | rw
  deriving DecidableEq, Repr

/-- What another package, or the host link, answers to a request that leaves the package (R138, R286). -/
inductive PeerAnswer where
  | none                         -- nothing: the request is served inside the package
  | words (ws : List (BitVec 64)) -- served, with the words it returns
  | fails (cause : BitVec 8)     -- the far side's check failed with this cause
  deriving DecidableEq, Repr

/-- A leaf of a pool: of a slot's register window, or of a core's scratchpad (R25). -/
inductive LeafRef where
  | register (slot leaf : Nat)
  | scratch (core leaf : Nat)
  deriving DecidableEq, Repr

/-- Where an uncorrectable error strikes (R388). The test of a struck tile is the outside's. -/
inductive Struck where
  | tile (tile : Nat) (testFails : Bool)
  | memory (job : Nat)
  | image (job : Nat)
  deriving DecidableEq, Repr

/-- A firmware image offered to the boot ROM (R417): the measurement it extends, its key, signature and version. -/
structure Firmware where
  measures : BitVec 3
  body : List Byte
  key : List Byte
  signature : List Byte
  version : Nat
  deriving DecidableEq, Repr

/-- A message of the Ultra Ethernet fabric (R404-R407): the package and tenant of its other end, the tenant of this end, and its
service: 0 ROD, 1 RUD, 2 UUD. -/
structure NetMessage where
  package : BitVec 6
  tenant : BitVec 6
  source : BitVec 6
  tag : BitVec 32
  service : BitVec 2
  payload : List Byte
  deriving DecidableEq, Repr

/-- What a request of another package asks of its home here (R286, R408), and the revoke and the recall that a home there
sends to a core of this package (R147, R279, R283). -/
inductive RemoteKind where
  | load
  | fetch
  | store (bytes : List Byte)
  | atomic (op : BitVec 7) (frm : BitVec 2) (operands : List (BitVec 64))
  | revoke
  | recall
  deriving DecidableEq, Repr

/-- A request of another package (R408): `core` is the core there that asks, or for a revoke or recall the core here that owned. -/
structure RemoteAccess where
  package : BitVec 6
  core : Nat
  kind : RemoteKind
  address : BitVec 64
  size : Nat
  deriving DecidableEq, Repr

/-- An instruction or event: one constructor per row of spec/opcode_table.json, in its order. -/
inductive Instr where
  | add (d a b : Reg) (la lb : Bool)
  | sub (d a b : Reg) (la lb : Bool)
  | and (d a b : Reg) (la lb : Bool)
  | or (d a b : Reg) (la lb : Bool)
  | xor (d a b : Reg) (la lb : Bool)
  | andn (d a b : Reg) (la lb : Bool)
  | orn (d a b : Reg) (la lb : Bool)
  | xnor (d a b : Reg) (la lb : Bool)
  | shl (d a b : Reg) (la lb : Bool)
  | shr (d a b : Reg) (la lb : Bool)
  | sra (d a b : Reg) (la lb : Bool)
  | rol (d a b : Reg) (la lb : Bool)
  | mul (d a b : Reg) (la lb : Bool)
  | mulh (d a b : Reg) (la lb : Bool)
  | mulhz (d a b : Reg) (la lb : Bool)
  | mulhsz (d a b : Reg) (la lb : Bool)
  | div (d a b : Reg) (la lb : Bool)
  | divz (d a b : Reg) (la lb : Bool)
  | rem (d a b : Reg) (la lb : Bool)
  | remz (d a b : Reg) (la lb : Bool)
  | min (d a b : Reg) (la lb : Bool)
  | max (d a b : Reg) (la lb : Bool)
  | minz (d a b : Reg) (la lb : Bool)
  | maxz (d a b : Reg) (la lb : Bool)
  | slt (d a b : Reg) (la lb : Bool)
  | sltz (d a b : Reg) (la lb : Bool)
  | seq (d a b : Reg) (la lb : Bool)
  | sne (d a b : Reg) (la lb : Bool)
  | clz (d a : Reg) (la : Bool)
  | ctz (d a : Reg) (la : Bool)
  | popc (d a : Reg) (la : Bool)
  | brev (d a : Reg) (la : Bool)
  | bfx (d a b : Reg) (la lb : Bool)
  | bfxz (d a b : Reg) (la lb : Bool)
  | bfi (d a b : Reg) (la lb : Bool)
  | cnz (d a : Reg) (la : Bool)
  | csrr (d : Reg) (csr : BitVec 11)
  | csrw (d a : Reg) (csr : BitVec 11)
  | csrs (d a : Reg) (csr : BitVec 11)
  | csrc (d a : Reg) (csr : BitVec 11)
  | sleep (d a : Reg) (la : Bool)
  | sret
  | dflush (d a : Reg) (la : Bool)
  | ckpt (d a : Reg) (la : Bool)
  | addi (d a : Reg) (imm : BitVec 11)
  | andi (d a : Reg) (imm : BitVec 11)
  | ori (d a : Reg) (imm : BitVec 11)
  | xori (d a : Reg) (imm : BitVec 11)
  | shli (d a : Reg) (n : BitVec 6)
  | shri (d a : Reg) (n : BitVec 6)
  | srai (d a : Reg) (n : BitVec 6)
  | roli (d a : Reg) (n : BitVec 6)
  | slti (d a : Reg) (imm : BitVec 11)
  | sltzi (d a : Reg) (imm : BitVec 11)
  | muli (d a : Reg) (imm : BitVec 11)
  | lil (d : Reg) (imm : BitVec 18)
  | lis (d : Reg) (imm : BitVec 18)
  | apc (d : Reg) (imm : BitVec 18)
  | beq (a b : Reg) (imm : BitVec 11)
  | bne (a b : Reg) (imm : BitVec 11)
  | blt (a b : Reg) (imm : BitVec 11)
  | bge (a b : Reg) (imm : BitVec 11)
  | bltz (a b : Reg) (imm : BitVec 11)
  | bgez (a b : Reg) (imm : BitVec 11)
  | jal (d : Reg) (imm : BitVec 18)
  | jalr (d a : Reg) (imm : BitVec 11)
  | dbnz (a : Reg) (imm : BitVec 11)
  | ldS8 (d a : Reg) (imm : BitVec 11)
  | ldZ8 (d a : Reg) (imm : BitVec 11)
  | ldS16 (d a : Reg) (imm : BitVec 11)
  | ldZ16 (d a : Reg) (imm : BitVec 11)
  | ldS32 (d a : Reg) (imm : BitVec 11)
  | ldZ32 (d a : Reg) (imm : BitVec 11)
  | ld64 (d a : Reg) (imm : BitVec 11)
  | ldAcq (d a : Reg) (la : Bool)
  | ldAcqD (d a : Reg) (la : Bool)
  | st8 (a b : Reg) (imm : BitVec 11)
  | st16 (a b : Reg) (imm : BitVec 11)
  | st32 (a b : Reg) (imm : BitVec 11)
  | st64 (a b : Reg) (imm : BitVec 11)
  | stRel (a b : Reg) (la lb : Bool)
  | stRelD (a b : Reg) (la lb : Bool)
  | fenceAcq
  | fenceRel
  | fenceFull
  | fenceD
  | ldPair (d a : Reg) (la : Bool)
  | stPair (a b : Reg) (la lb : Bool)
  | amoAdd (d a b : Reg) (order : Order) (la lb : Bool)
  | amoAnd (d a b : Reg) (order : Order) (la lb : Bool)
  | amoOr (d a b : Reg) (order : Order) (la lb : Bool)
  | amoXor (d a b : Reg) (order : Order) (la lb : Bool)
  | amoMin (d a b : Reg) (order : Order) (la lb : Bool)
  | amoMax (d a b : Reg) (order : Order) (la lb : Bool)
  | amoMinz (d a b : Reg) (order : Order) (la lb : Bool)
  | amoMaxz (d a b : Reg) (order : Order) (la lb : Bool)
  | amoSwap (d a b : Reg) (order : Order) (la lb : Bool)
  | cas (d a b : Reg) (order : Order) (la lb : Bool)
  | cas2 (d a b : Reg) (order : Order) (la lb : Bool)
  | amoFadd (d a b : Reg) (order : Order) (la lb : Bool)
  | mvblk (d a b : Reg)
  | repZero (d b : Reg)
  | repFill (d a b : Reg)
  | repCmp (d a b : Reg)
  | wait (a b : Reg) (la lb : Bool)
  | mkempty (d : Reg)
  | mkemptyTrap (d : Reg)
  | mkfull (d : Reg)
  | drop (d a b : Reg)
  | wake (d a : Reg) (la : Bool)
  | lfoff (a : Reg) (la : Bool)
  | lfret (a : Reg) (la : Bool)
  | bind (d : Reg) (dir : BindDir) (port : BitVec 5)
  | unbind (d : Reg)
  | barInit (a b : Reg) (la lb : Bool)
  | barArr (d a b : Reg) (la lb : Bool)
  | barWait (d a b : Reg) (la lb : Bool)
  | barTst (d a : Reg) (la : Bool)
  | ipop (d b : Reg) (lb : Bool)
  | ipeek (d b : Reg) (lb : Bool)
  | send (a b : Reg) (la lb : Bool)
  | sendw (d a b : Reg) (la lb : Bool)
  | fadd (d a b : Reg) (fmt : FType) (la lb : Bool)
  | fsub (d a b : Reg) (fmt : FType) (la lb : Bool)
  | fmul (d a b : Reg) (fmt : FType) (la lb : Bool)
  | fmin (d a b : Reg) (fmt : FType) (la lb : Bool)
  | fmax (d a b : Reg) (fmt : FType) (la lb : Bool)
  | fma (d a b : Reg) (fmt : FType) (la lb : Bool)
  | flt (d a b : Reg) (fmt : FType) (la lb : Bool)
  | fle (d a b : Reg) (fmt : FType) (la lb : Bool)
  | feq (d a b : Reg) (fmt : FType) (la lb : Bool)
  | fcvtSH (d a : Reg) (la : Bool)
  | fcvtHS (d a : Reg) (la : Bool)
  | fcvtSB (d a : Reg) (la : Bool)
  | fcvtBS (d a : Reg) (la : Bool)
  | fcvtSI (d a : Reg) (la : Bool)
  | fcvtIS (d a : Reg) (la : Bool)
  | fclass (d a : Reg) (la : Bool)
  | fsqrtS (d a : Reg) (la : Bool)
  | fneg (d a : Reg) (la : Bool)
  | fabs (d a : Reg) (la : Bool)
  | fsgn (d a b : Reg) (la lb : Bool)
  | fsqrtH (d a : Reg) (la : Bool)
  | vadd (d a b : Reg) (la lb : Bool)
  | vsub (d a b : Reg) (la lb : Bool)
  | vmul (d a b : Reg) (la lb : Bool)
  | vfma (d a b : Reg) (la lb : Bool)
  | vmin (d a b : Reg) (la lb : Bool)
  | vmax (d a b : Reg) (la lb : Bool)
  | vabs (d a : Reg) (la : Bool)
  | vneg (d a : Reg) (la : Bool)
  | vlt (d a b : Reg) (la lb : Bool)
  | vle (d a b : Reg) (la lb : Bool)
  | veq (d a b : Reg) (la lb : Bool)
  | vsel (d a b : Reg) (la lb : Bool)
  | vexp2 (d a : Reg) (la : Bool)
  | vlog2 (d a : Reg) (la : Bool)
  | vrcp (d a : Reg) (la : Bool)
  | vrsqrt (d a : Reg) (la : Bool)
  | vsum (d a : Reg) (la : Bool)
  | vmaxr (d a : Reg) (la : Bool)
  | vminr (d a : Reg) (la : Bool)
  | vdot (d a b : Reg) (la lb : Bool)
  | vcvt (d a : Reg) (la : Bool)
  | vq (d a : Reg) (la : Bool)
  | vdq (d a : Reg) (la : Bool)
  | vscale (d a b : Reg) (la lb : Bool)
  | vcopy (d a : Reg) (la : Bool)
  | vtr (d a : Reg) (la : Bool)
  | vfill (d a : Reg) (la : Bool)
  | viota (d a : Reg) (la : Bool)
  | vand (d a b : Reg) (la lb : Bool)
  | vor (d a b : Reg) (la lb : Bool)
  | vxor (d a b : Reg) (la lb : Bool)
  | vshl (d a b : Reg) (la lb : Bool)
  | lease (d a : Reg) (la : Bool)
  | lrel
  | lstat (d : Reg)
  | mm (d a b : Reg) (la lb : Bool)
  | mmZ (d a b : Reg) (la lb : Bool)
  | mmW (d a b : Reg) (la lb : Bool)
  | mmWz (d a b : Reg) (la lb : Bool)
  | accRd (d a : Reg) (la : Bool)
  | accRdq (d a : Reg) (la : Bool)
  | accLd (d a : Reg) (la : Bool)
  | accClr (d : Reg)
  | accSv (d a b : Reg) (la lb : Bool)
  | accRs (d a b : Reg) (la lb : Bool)
  | accSt (d a b : Reg) (la lb : Bool)
  | cp (d a : Reg) (la : Bool)
  | cpNet (d a : Reg) (la : Bool)
  | cpStat (d a : Reg) (la : Bool)
  | cpCancel (d a : Reg) (la : Bool)
  | enq (a : Reg) (la : Bool)
  | depInit (a b : Reg) (la lb : Bool)
  | depDec (d a : Reg) (la : Bool)
  | depAdd (a b : Reg) (la lb : Bool)
  | spawn (d a b : Reg) (la lb : Bool)
  | take (d a b : Reg) (la lb : Bool)
  | steal (d a b : Reg) (la lb : Bool)
  | join (d a : Reg) (la : Bool)
  | yield
  | exit
  | migrate (a : Reg) (la : Bool)
  | spawnm (d a b : Reg) (la lb : Bool)
  | splice (a b : Reg) (la lb : Bool)
  | stage (d a : Reg) (la : Bool)
  | sinh (a : Reg) (la : Bool)
  | ldref (d : HReg) (a : HReg) (b : Reg) (lb : Bool)
  | stref (d : HReg) (a : Reg) (b : HReg) (la : Bool)
  | mvref (d : HReg) (a : Reg) (la : Bool)
  | refeq (d : Reg) (a : HReg) (b : HReg)
  | ldh (d : Reg) (a : HReg) (imm : BitVec 11)
  | sth (a : HReg) (b : Reg) (imm : BitVec 11)
  | newobj (d : HReg) (a b : Reg) (la lb : Bool)
  | pin (d : Reg) (a : HReg)
  | unpin (a : HReg)
  | hcmp (d a b : Reg) (la lb : Bool)
  | terr (d : Reg)
  | press (d a : Reg) (la : Bool)
  | pwr (d : Reg)
  | trap (n : BitVec 7)
  | uret
  | brk (n : BitVec 7)
  | halt
  -- the steps that are no instruction words (spec/95)
  | packageReset
  | firmwareLoad (image : Firmware)
  | hbmStackTrained (stack : BitVec 4) (trained : Bool)
  | fullServiceEntry
  | thermalTrip (die : BitVec 2)
  | slotRemoval (core : Nat)
  | slotReturn (core : Nat)
  | clockSkipStep (core : Nat) (above : Bool)
  | shapeClear (core : Nat)
  | clockPause (core : Nat)
  | leafPowerOff (slot leaf : Nat)
  | leafWakeDone (leaf : LeafRef)
  | upcallEntry (slot : Nat)
  | divideResult (slot n : Nat)
  | sqrtResult (slot n : Nat)
  | loadRequest (n : Nat) (peer : PeerAnswer)
  | loadReply (n : Nat)
  | storeRegistration (n : Nat) (peer : PeerAnswer)
  | proxyRegistration (n : Nat)
  | storeAck (n : Nat)
  | revoke (n : Nat)
  | forwardedRead (n : Nat)
  | nearAccess (n : Nat)
  | atomicPerform (n : Nat) (peer : PeerAnswer)
  | atomicReply (n : Nat)
  | walkerTranslation (core : Nat)
  | linkDelivery (core : Nat) (dir : BitVec 2)
  | barrierOperation (n : Nat)
  | barWaitReply (n : Nat)
  | messagePlaced (n : Nat)
  | leaseGrant (tile : Nat)
  | leaseIdleTimeout (tile : Nat)
  | matrixCommand (tile : Nat)
  | accOperation (tile : Nat)
  | accStStore (tile : Nat)
  | tileFetchLine (tile : Nat)
  | arrayOpComplete (tile : Nat)
  | vectorOperation (core : Nat)
  | vectorOpComplete (core : Nat)
  | copySector (core : Nat) (id : BitVec 32) (peer : PeerAnswer)
  | copySectorAck (core : Nat) (id : BitVec 32)
  | copyFaultResume (core : Nat) (id : BitVec 32)
  | copyComplete (core : Nat) (id : BitVec 32)
  | vatRecordArrival (n : Nat) (peer : PeerAnswer)
  | dispatch (tile : Nat) (slice : BitVec 1)
  | vatOfferTimeout (tile : Nat) (slice : BitVec 1)
  | contextArrival (n : Nat)
  | contextPlacement (core : Nat)
  | spillRefill (core : Nat)
  | depCounterOperation (n : Nat)
  | dequeOperation (n : Nat)
  | joinReply (n : Nat)
  | spliceRemoveMove (core : Nat)
  | calenderPage (die : BitVec 2)
  | relocation (die : BitVec 2) (softError : Bool)
  | plbFlushDone (n : Nat)
  | jobEnd (job : Nat)
  | pressureSample
  | deckleDecision (tile : Nat)
  | graceWindowEnd (tile : Nat)
  | threadMove (slot : Nat)
  | cessionCommit (tile : Nat)
  | cessionAbort (tile : Nat)
  | watermarkTimer (job : Nat)
  | stopCycle (job : Nat)
  | flushToken (job tile : Nat)
  | flushComplete (job : Nat)
  | imageComplete (job : Nat)
  | preImageCopy (job granule : Nat)
  | restore (job : Nat)
  | correctableError (tile : Nat)
  | uncorrectableError (struck : Struck)
  | lockstepCheckpoint (core : Nat)
  | lockstepMismatch (core : Nat)
  | launch (vf : BitVec 6) (value : Word)
  | desched (vf : BitVec 6) (value : Word)
  | resume (vf : BitVec 6) (value : Word)
  | faultdone (vf : BitVec 6) (value : Word)
  | debug (vf : BitVec 6) (value : Word)
  | dbggo (vf : BitVec 6) (value : Word)
  | hreserve (vf : BitVec 6) (value : Word)
  | evhead (vf : BitVec 6) (value : Word)
  | pghead (vf : BitVec 6) (value : Word)
  | functionReset (vf : BitVec 6)
  | hostRegisterWrite (vf : Option (BitVec 6)) (offset : Nat) (value : Word)
  | hostMemAccess (write : Option (List Byte)) (address size : Nat)
  | hostSnoop (address : Nat)
  | netSend (core : Nat) (queue : BitVec 3)
  | netReceive (vf : BitVec 6) (message : NetMessage)
  | remoteRequest (request : RemoteAccess)
  | laneShed (link : BitVec 6)
  | deckle (value : Word)
  | pwrlim (value : Word)
  | tcinv (value : Word)
  | pkgid (value : Word)
  | spdmGetCertificate
  | spdmGetMeasurements
  | functionPause (vf : BitVec 6)
  | functionResume (vf : BitVec 6)
  | tileRelease (tile : Nat)
  | haltedSlotRestart (slot : Nat) (pc : Option Word)
  | laneRetrainDone (link : BitVec 6)
  deriving DecidableEq, Repr

end Sys2Proof
end

