-- ==== Sys2Proof/WellFormed.lean ====
section
/-! DEFINITION. Which instructions the encoding admits beyond the ranges of their fields: the register limits of
R107 item 8, the reserved values of item 6, and the one form of `wake` (R156). Events are no words and have no limit. -/

namespace Sys2Proof

/-- A field that names the first register of a pair: even, g2-g126 (R146). -/
def Reg.isPair (r : Reg) : Bool := r != 0 && r.toNat % 2 == 0

/-- d and b nonzero and d, a, b distinct from one another (R152); a may be g0 for `rep.fill` alone. -/
def blockLimits (d a b : Reg) : Bool := d != 0 && b != 0 && d != b && d != a && b != a

/-- The limits of R107 items 6 and 8 and of R156. -/
def Instr.wellFormed : Instr → Bool
  | .ldPair d _ _ => d.isPair
  | .stPair _ b _ _ => b.isPair
  | .cas2 d _ b _ _ _ => d.isPair && b.isPair
  | .ipop d _ _ => d.isPair
  | .ipeek d _ _ => d.isPair
  | .depInit _ b _ _ => b.isPair
  | .mvblk d a b => a != 0 && blockLimits d a b
  | .repZero d b => blockLimits d 0 b
  | .repFill d a b => blockLimits d a b
  | .repCmp d a b => a != 0 && blockLimits d a b
  | .wake d a la => (d == 0 || a == 0) && (d == 0 || !la)
  | .bind d _ p => d != 0 && p != 23
  | .vadd d a b _ _ => d != 0 && a != 0 && b != 0
  | .vsub d a b _ _ => d != 0 && a != 0 && b != 0
  | .vmul d a b _ _ => d != 0 && a != 0 && b != 0
  | .vfma d a b _ _ => d != 0 && a != 0 && b != 0
  | .vmin d a b _ _ => d != 0 && a != 0 && b != 0
  | .vmax d a b _ _ => d != 0 && a != 0 && b != 0
  | .vabs d a _ => d != 0 && a != 0
  | .vneg d a _ => d != 0 && a != 0
  | .vlt d a b _ _ => d != 0 && a != 0 && b != 0
  | .vle d a b _ _ => d != 0 && a != 0 && b != 0
  | .veq d a b _ _ => d != 0 && a != 0 && b != 0
  | .vsel d a b _ _ => d != 0 && a != 0 && b != 0
  | .vexp2 d a _ => d != 0 && a != 0
  | .vlog2 d a _ => d != 0 && a != 0
  | .vrcp d a _ => d != 0 && a != 0
  | .vrsqrt d a _ => d != 0 && a != 0
  | .vsum d a _ => d != 0 && a != 0
  | .vmaxr d a _ => d != 0 && a != 0
  | .vminr d a _ => d != 0 && a != 0
  | .vdot d a b _ _ => d != 0 && a != 0 && b != 0
  | .vcvt d a _ => d != 0 && a != 0
  | .vq d a _ => d != 0 && a != 0
  | .vdq d a _ => d != 0 && a != 0
  | .vscale d a b _ _ => d != 0 && a != 0 && b != 0
  | .vcopy d a _ => d != 0 && a != 0
  | .vtr d a _ => d != 0 && a != 0
  | .vfill d _ _ => d != 0
  | .viota d _ _ => d != 0
  | .vand d a b _ _ => d != 0 && a != 0 && b != 0
  | .vor d a b _ _ => d != 0 && a != 0 && b != 0
  | .vxor d a b _ _ => d != 0 && a != 0 && b != 0
  | .vshl d a b _ _ => d != 0 && a != 0 && b != 0
  | .mm d _ _ _ _ => d != 0
  | .mmZ d _ _ _ _ => d != 0
  | .mmW d _ _ _ _ => d != 0
  | .mmWz d _ _ _ _ => d != 0
  | .accRd d _ _ => d != 0
  | .accRdq d _ _ => d != 0
  | .accLd d _ _ => d != 0
  | .accClr d => d != 0
  | .accSv d _ _ _ _ => d != 0
  | .accRs d _ _ _ _ => d != 0
  | .accSt d _ _ _ _ => d != 0
  | _ => true

end Sys2Proof
end

