-- ==== Sys2Proof/Decode.lean ====
section
/-! DEFINITION. From bytes to instructions and back (spec/03 R71-R80, spec/04 R101-R109). Decoding is total: a word that
is no instruction is refused by the item of R107 it falls under. -/

namespace Sys2Proof

/-- Why a word is no instruction (R107). -/
inductive NotInstr where
  | opcode      -- items 1 and 2
  | function    -- item 3
  | unusedField -- items 4, 5 and 7: a field, bit or last-use bit that must be zero
  | limits      -- items 6 and 8
  | short       -- fewer than four bytes
  deriving DecidableEq, Repr

/-- The fields of a word in every format's reading of it (R74-R77). -/
structure Fields where
  op : Nat
  fn : Nat
  la : Bool
  lb : Bool
  b : Reg
  a : Reg
  d : Reg
  imm11 : BitVec 11
  immS : BitVec 11
  i18 : BitVec 18
  deriving DecidableEq, Repr

/-- The bits [lo + len - 1 : lo] of a number. -/
def bitsOf (w lo len : Nat) : Nat := w / 2 ^ lo % 2 ^ len

/-- The fields of a word (R74-R77). -/
def fieldsOf (w : Code) : Fields :=
  let n := w.toNat
  { op := bitsOf n 0 7, fn := bitsOf n 28 2, la := bitsOf n 31 1 == 1, lb := bitsOf n 30 1 == 1,
    b := BitVec.ofNat 7 (bitsOf n 21 7), a := BitVec.ofNat 7 (bitsOf n 14 7), d := BitVec.ofNat 7 (bitsOf n 7 7),
    imm11 := BitVec.ofNat 11 (bitsOf n 21 11), immS := BitVec.ofNat 11 (bitsOf n 28 4 * 128 + bitsOf n 7 7),
    i18 := BitVec.ofNat 18 (bitsOf n 14 18) }

/-- A field that names an h register holds zero in bits [6:3] (R78). -/
def Fields.aIsH (f : Fields) : Bool := f.a.toNat < 8
/-- A field that names an h register holds zero in bits [6:3] (R78). -/
def Fields.bIsH (f : Fields) : Bool := f.b.toNat < 8
/-- A field that names an h register holds zero in bits [6:3] (R78). -/
def Fields.dIsH (f : Fields) : Bool := f.d.toNat < 8
/-- The h register of field a (R78). -/
def Fields.ha (f : Fields) : HReg := f.a.setWidth 3
/-- The h register of field b (R78). -/
def Fields.hb (f : Fields) : HReg := f.b.setWidth 3
/-- The h register of field d (R78). -/
def Fields.hd (f : Fields) : HReg := f.d.setWidth 3

/-- The ordering that an atomic's fn selects (R104). -/
def Fields.order (f : Fields) : Order :=
  if f.fn == 0 then .relaxed else if f.fn == 1 then .acq else if f.fn == 2 then .rel else .ar

/-- The type that a scalar floating instruction's fn selects; fn 3 is not assigned (R103, R104). -/
def Fields.ftype (f : Fields) : Option FType :=
  if f.fn == 0 then some .s else if f.fn == 1 then some .h else if f.fn == 2 then some .b else none

/-- Accept an instruction when the fields it does not use are zero and its register limits hold (R107). -/
def accept (unusedZero : Bool) (i : Instr) : Except NotInstr Instr :=
  if unusedZero then (if i.wellFormed then .ok i else .error .limits) else .error .unusedField

/-- `bind` reads DIR and PORT from its immediate; DIR 3 is reserved (R105, R106). -/
def bindOf (f : Fields) : Except NotInstr Instr :=
  let zero := f.a == 0 && bitsOf f.imm11.toNat 7 4 == 0
  let port := f.imm11.setWidth 5
  match bitsOf f.imm11.toNat 5 2 with
  | 0 => accept zero (.bind f.d .rd port)
  | 1 => accept zero (.bind f.d .wr port)
  | 2 => accept zero (.bind f.d .rw port)
  | _ => if zero then .error .limits else .error .unusedField

/-- Row 0x00 of the opcode map (R102, R103). -/
def decodeRow0 (f : Fields) : Except NotInstr Instr :=
  if f.op == 0x01 then if f.fn == 0 then accept true (.add f.d f.a f.b f.la f.lb)
    else if f.fn == 1 then accept true (.sub f.d f.a f.b f.la f.lb)
    else if f.fn == 2 then accept true (.and f.d f.a f.b f.la f.lb)
    else if f.fn == 3 then accept true (.or f.d f.a f.b f.la f.lb)
    else .error .function
  else if f.op == 0x02 then if f.fn == 0 then accept true (.xor f.d f.a f.b f.la f.lb)
    else if f.fn == 1 then accept true (.andn f.d f.a f.b f.la f.lb)
    else if f.fn == 2 then accept true (.orn f.d f.a f.b f.la f.lb)
    else if f.fn == 3 then accept true (.xnor f.d f.a f.b f.la f.lb)
    else .error .function
  else if f.op == 0x03 then if f.fn == 0 then accept true (.shl f.d f.a f.b f.la f.lb)
    else if f.fn == 1 then accept true (.shr f.d f.a f.b f.la f.lb)
    else if f.fn == 2 then accept true (.sra f.d f.a f.b f.la f.lb)
    else if f.fn == 3 then accept true (.rol f.d f.a f.b f.la f.lb)
    else .error .function
  else if f.op == 0x04 then if f.fn == 0 then accept true (.mul f.d f.a f.b f.la f.lb)
    else if f.fn == 1 then accept true (.mulh f.d f.a f.b f.la f.lb)
    else if f.fn == 2 then accept true (.mulhz f.d f.a f.b f.la f.lb)
    else if f.fn == 3 then accept true (.mulhsz f.d f.a f.b f.la f.lb)
    else .error .function
  else if f.op == 0x05 then if f.fn == 0 then accept true (.div f.d f.a f.b f.la f.lb)
    else if f.fn == 1 then accept true (.divz f.d f.a f.b f.la f.lb)
    else if f.fn == 2 then accept true (.rem f.d f.a f.b f.la f.lb)
    else if f.fn == 3 then accept true (.remz f.d f.a f.b f.la f.lb)
    else .error .function
  else if f.op == 0x06 then if f.fn == 0 then accept true (.min f.d f.a f.b f.la f.lb)
    else if f.fn == 1 then accept true (.max f.d f.a f.b f.la f.lb)
    else if f.fn == 2 then accept true (.minz f.d f.a f.b f.la f.lb)
    else if f.fn == 3 then accept true (.maxz f.d f.a f.b f.la f.lb)
    else .error .function
  else if f.op == 0x07 then if f.fn == 0 then accept true (.slt f.d f.a f.b f.la f.lb)
    else if f.fn == 1 then accept true (.sltz f.d f.a f.b f.la f.lb)
    else if f.fn == 2 then accept true (.seq f.d f.a f.b f.la f.lb)
    else if f.fn == 3 then accept true (.sne f.d f.a f.b f.la f.lb)
    else .error .function
  else .error .opcode

/-- Row 0x08 of the opcode map (R102, R103). -/
def decodeRow1 (f : Fields) : Except NotInstr Instr :=
  if f.op == 0x08 then if f.fn == 0 then accept (!f.lb && f.b == 0) (.clz f.d f.a f.la)
    else if f.fn == 1 then accept (!f.lb && f.b == 0) (.ctz f.d f.a f.la)
    else if f.fn == 2 then accept (!f.lb && f.b == 0) (.popc f.d f.a f.la)
    else if f.fn == 3 then accept (!f.lb && f.b == 0) (.brev f.d f.a f.la)
    else .error .function
  else if f.op == 0x09 then if f.fn == 0 then accept true (.bfx f.d f.a f.b f.la f.lb)
    else if f.fn == 1 then accept true (.bfxz f.d f.a f.b f.la f.lb)
    else if f.fn == 2 then accept true (.bfi f.d f.a f.b f.la f.lb)
    else if f.fn == 3 then accept (!f.lb && f.b == 0) (.cnz f.d f.a f.la)
    else .error .function
  else if f.op == 0x0A then accept (f.a == 0) (.csrr f.d f.imm11)
  else if f.op == 0x0B then accept true (.csrw f.d f.a f.imm11)
  else if f.op == 0x0C then accept true (.csrs f.d f.a f.imm11)
  else if f.op == 0x0D then accept true (.csrc f.d f.a f.imm11)
  else if f.op == 0x0E then if f.fn == 0 then accept (!f.lb && f.b == 0) (.sleep f.d f.a f.la)
    else if f.fn == 1 then accept (!f.la && !f.lb && f.b == 0 && f.a == 0 && f.d == 0) .sret
    else if f.fn == 2 then accept (!f.lb && f.b == 0) (.dflush f.d f.a f.la)
    else if f.fn == 3 then accept (!f.lb && f.b == 0) (.ckpt f.d f.a f.la)
    else .error .function
  else .error .opcode

/-- Row 0x10 of the opcode map (R102, R103). -/
def decodeRow2 (f : Fields) : Except NotInstr Instr :=
  if f.op == 0x10 then accept true (.addi f.d f.a f.imm11)
  else if f.op == 0x11 then accept true (.andi f.d f.a f.imm11)
  else if f.op == 0x12 then accept true (.ori f.d f.a f.imm11)
  else if f.op == 0x13 then accept true (.xori f.d f.a f.imm11)
  else if f.op == 0x14 then if f.imm11.toNat / 64 == 0 then accept true (.shli f.d f.a (f.imm11.setWidth 6))
    else if f.imm11.toNat / 64 == 1 then accept true (.shri f.d f.a (f.imm11.setWidth 6))
    else if f.imm11.toNat / 64 == 2 then accept true (.srai f.d f.a (f.imm11.setWidth 6))
    else if f.imm11.toNat / 64 == 3 then accept true (.roli f.d f.a (f.imm11.setWidth 6))
    else .error .unusedField
  else if f.op == 0x15 then accept true (.slti f.d f.a f.imm11)
  else if f.op == 0x16 then accept true (.sltzi f.d f.a f.imm11)
  else if f.op == 0x17 then accept true (.muli f.d f.a f.imm11)
  else .error .opcode

/-- Row 0x18 of the opcode map (R102, R103). -/
def decodeRow3 (f : Fields) : Except NotInstr Instr :=
  if f.op == 0x18 then accept true (.lil f.d f.i18)
  else if f.op == 0x19 then accept true (.lis f.d f.i18)
  else if f.op == 0x1A then accept true (.apc f.d f.i18)
  else .error .opcode

/-- Row 0x20 of the opcode map (R102, R103). -/
def decodeRow4 (f : Fields) : Except NotInstr Instr :=
  if f.op == 0x20 then accept true (.beq f.a f.b f.immS)
  else if f.op == 0x21 then accept true (.bne f.a f.b f.immS)
  else if f.op == 0x22 then accept true (.blt f.a f.b f.immS)
  else if f.op == 0x23 then accept true (.bge f.a f.b f.immS)
  else if f.op == 0x24 then accept true (.bltz f.a f.b f.immS)
  else if f.op == 0x25 then accept true (.bgez f.a f.b f.immS)
  else if f.op == 0x26 then accept true (.jal f.d f.i18)
  else if f.op == 0x27 then accept true (.jalr f.d f.a f.imm11)
  else .error .opcode

/-- Row 0x28 of the opcode map (R102, R103). -/
def decodeRow5 (f : Fields) : Except NotInstr Instr :=
  if f.op == 0x28 then accept (f.b == 0) (.dbnz f.a f.immS)
  else .error .opcode

/-- Row 0x30 of the opcode map (R102, R103). -/
def decodeRow6 (f : Fields) : Except NotInstr Instr :=
  if f.op == 0x30 then accept true (.ldS8 f.d f.a f.imm11)
  else if f.op == 0x31 then accept true (.ldZ8 f.d f.a f.imm11)
  else if f.op == 0x32 then accept true (.ldS16 f.d f.a f.imm11)
  else if f.op == 0x33 then accept true (.ldZ16 f.d f.a f.imm11)
  else if f.op == 0x34 then accept true (.ldS32 f.d f.a f.imm11)
  else if f.op == 0x35 then accept true (.ldZ32 f.d f.a f.imm11)
  else if f.op == 0x36 then accept true (.ld64 f.d f.a f.imm11)
  else if f.op == 0x37 then if f.fn == 0 then accept (!f.lb && f.b == 0) (.ldAcq f.d f.a f.la)
    else if f.fn == 1 then accept (!f.lb && f.b == 0) (.ldAcqD f.d f.a f.la)
    else .error .function
  else .error .opcode

/-- Row 0x38 of the opcode map (R102, R103). -/
def decodeRow7 (f : Fields) : Except NotInstr Instr :=
  if f.op == 0x38 then accept true (.st8 f.a f.b f.immS)
  else if f.op == 0x39 then accept true (.st16 f.a f.b f.immS)
  else if f.op == 0x3A then accept true (.st32 f.a f.b f.immS)
  else if f.op == 0x3B then accept true (.st64 f.a f.b f.immS)
  else if f.op == 0x3C then if f.fn == 0 then accept (f.d == 0) (.stRel f.a f.b f.la f.lb)
    else if f.fn == 1 then accept (f.d == 0) (.stRelD f.a f.b f.la f.lb)
    else .error .function
  else if f.op == 0x3D then if f.fn == 0 then accept (!f.la && !f.lb && f.b == 0 && f.a == 0 && f.d == 0) .fenceAcq
    else if f.fn == 1 then accept (!f.la && !f.lb && f.b == 0 && f.a == 0 && f.d == 0) .fenceRel
    else if f.fn == 2 then accept (!f.la && !f.lb && f.b == 0 && f.a == 0 && f.d == 0) .fenceFull
    else if f.fn == 3 then accept (!f.la && !f.lb && f.b == 0 && f.a == 0 && f.d == 0) .fenceD
    else .error .function
  else if f.op == 0x3E then if f.fn == 0 then accept (!f.lb && f.b == 0) (.ldPair f.d f.a f.la)
    else if f.fn == 1 then accept (f.d == 0) (.stPair f.a f.b f.la f.lb)
    else .error .function
  else .error .opcode

/-- Row 0x40 of the opcode map (R102, R103). -/
def decodeRow8 (f : Fields) : Except NotInstr Instr :=
  if f.op == 0x40 then accept true (.amoAdd f.d f.a f.b f.order f.la f.lb)
  else if f.op == 0x41 then accept true (.amoAnd f.d f.a f.b f.order f.la f.lb)
  else if f.op == 0x42 then accept true (.amoOr f.d f.a f.b f.order f.la f.lb)
  else if f.op == 0x43 then accept true (.amoXor f.d f.a f.b f.order f.la f.lb)
  else if f.op == 0x44 then accept true (.amoMin f.d f.a f.b f.order f.la f.lb)
  else if f.op == 0x45 then accept true (.amoMax f.d f.a f.b f.order f.la f.lb)
  else if f.op == 0x46 then accept true (.amoMinz f.d f.a f.b f.order f.la f.lb)
  else if f.op == 0x47 then accept true (.amoMaxz f.d f.a f.b f.order f.la f.lb)
  else .error .opcode

/-- Row 0x48 of the opcode map (R102, R103). -/
def decodeRow9 (f : Fields) : Except NotInstr Instr :=
  if f.op == 0x48 then accept true (.amoSwap f.d f.a f.b f.order f.la f.lb)
  else if f.op == 0x49 then accept true (.cas f.d f.a f.b f.order f.la f.lb)
  else if f.op == 0x4A then accept true (.cas2 f.d f.a f.b f.order f.la f.lb)
  else if f.op == 0x4B then accept true (.amoFadd f.d f.a f.b f.order f.la f.lb)
  else if f.op == 0x4C then if f.fn == 0 then accept (!f.la && !f.lb) (.mvblk f.d f.a f.b)
    else if f.fn == 1 then accept (!f.la && !f.lb && f.a == 0) (.repZero f.d f.b)
    else if f.fn == 2 then accept (!f.la && !f.lb) (.repFill f.d f.a f.b)
    else if f.fn == 3 then accept (!f.la && !f.lb) (.repCmp f.d f.a f.b)
    else .error .function
  else .error .opcode

/-- Row 0x50 of the opcode map (R102, R103). -/
def decodeRowA (f : Fields) : Except NotInstr Instr :=
  if f.op == 0x50 then if f.fn == 0 then accept (f.d == 0) (.wait f.a f.b f.la f.lb)
    else if f.fn == 1 then accept (!f.la && !f.lb && f.b == 0 && f.a == 0) (.mkempty f.d)
    else if f.fn == 2 then accept (!f.la && !f.lb && f.b == 0 && f.a == 0) (.mkemptyTrap f.d)
    else if f.fn == 3 then accept (!f.la && !f.lb && f.b == 0 && f.a == 0) (.mkfull f.d)
    else .error .function
  else if f.op == 0x51 then if f.fn == 0 then accept (!f.la && !f.lb) (.drop f.d f.a f.b)
    else if f.fn == 1 then accept (!f.lb && f.b == 0) (.wake f.d f.a f.la)
    else if f.fn == 2 then accept (!f.lb && f.b == 0 && f.d == 0) (.lfoff f.a f.la)
    else if f.fn == 3 then accept (!f.lb && f.b == 0 && f.d == 0) (.lfret f.a f.la)
    else .error .function
  else if f.op == 0x52 then bindOf f
  else if f.op == 0x53 then if f.fn == 0 then accept (!f.la && !f.lb && f.b == 0 && f.a == 0) (.unbind f.d)
    else .error .function
  else if f.op == 0x54 then if f.fn == 0 then accept (f.d == 0) (.barInit f.a f.b f.la f.lb)
    else if f.fn == 1 then accept true (.barArr f.d f.a f.b f.la f.lb)
    else if f.fn == 2 then accept true (.barWait f.d f.a f.b f.la f.lb)
    else if f.fn == 3 then accept (!f.lb && f.b == 0) (.barTst f.d f.a f.la)
    else .error .function
  else if f.op == 0x55 then if f.fn == 0 then accept (!f.la && f.a == 0) (.ipop f.d f.b f.lb)
    else if f.fn == 1 then accept (!f.la && f.a == 0) (.ipeek f.d f.b f.lb)
    else if f.fn == 2 then accept (f.d == 0) (.send f.a f.b f.la f.lb)
    else if f.fn == 3 then accept true (.sendw f.d f.a f.b f.la f.lb)
    else .error .function
  else .error .opcode

/-- Row 0x58 of the opcode map (R102, R103). -/
def decodeRowB (f : Fields) : Except NotInstr Instr :=
  if f.op == 0x58 then match f.ftype with
    | some y => accept true (.fadd f.d f.a f.b y f.la f.lb)
    | none => .error .function
  else if f.op == 0x59 then match f.ftype with
    | some y => accept true (.fsub f.d f.a f.b y f.la f.lb)
    | none => .error .function
  else if f.op == 0x5A then match f.ftype with
    | some y => accept true (.fmul f.d f.a f.b y f.la f.lb)
    | none => .error .function
  else if f.op == 0x5B then match f.ftype with
    | some y => accept true (.fmin f.d f.a f.b y f.la f.lb)
    | none => .error .function
  else if f.op == 0x5C then match f.ftype with
    | some y => accept true (.fmax f.d f.a f.b y f.la f.lb)
    | none => .error .function
  else if f.op == 0x5D then match f.ftype with
    | some y => accept true (.fma f.d f.a f.b y f.la f.lb)
    | none => .error .function
  else if f.op == 0x5E then match f.ftype with
    | some y => accept true (.flt f.d f.a f.b y f.la f.lb)
    | none => .error .function
  else if f.op == 0x5F then match f.ftype with
    | some y => accept true (.fle f.d f.a f.b y f.la f.lb)
    | none => .error .function
  else .error .opcode

/-- Row 0x60 of the opcode map (R102, R103). -/
def decodeRowC (f : Fields) : Except NotInstr Instr :=
  if f.op == 0x60 then match f.ftype with
    | some y => accept true (.feq f.d f.a f.b y f.la f.lb)
    | none => .error .function
  else if f.op == 0x61 then if f.fn == 0 then accept (!f.lb && f.b == 0) (.fcvtSH f.d f.a f.la)
    else if f.fn == 1 then accept (!f.lb && f.b == 0) (.fcvtHS f.d f.a f.la)
    else if f.fn == 2 then accept (!f.lb && f.b == 0) (.fcvtSB f.d f.a f.la)
    else if f.fn == 3 then accept (!f.lb && f.b == 0) (.fcvtBS f.d f.a f.la)
    else .error .function
  else if f.op == 0x62 then if f.fn == 0 then accept (!f.lb && f.b == 0) (.fcvtSI f.d f.a f.la)
    else if f.fn == 1 then accept (!f.lb && f.b == 0) (.fcvtIS f.d f.a f.la)
    else if f.fn == 2 then accept (!f.lb && f.b == 0) (.fclass f.d f.a f.la)
    else if f.fn == 3 then accept (!f.lb && f.b == 0) (.fsqrtS f.d f.a f.la)
    else .error .function
  else if f.op == 0x63 then if f.fn == 0 then accept (!f.lb && f.b == 0) (.fneg f.d f.a f.la)
    else if f.fn == 1 then accept (!f.lb && f.b == 0) (.fabs f.d f.a f.la)
    else if f.fn == 2 then accept true (.fsgn f.d f.a f.b f.la f.lb)
    else if f.fn == 3 then accept (!f.lb && f.b == 0) (.fsqrtH f.d f.a f.la)
    else .error .function
  else .error .opcode

/-- Row 0x68 of the opcode map (R102, R103). -/
def decodeRowD (f : Fields) : Except NotInstr Instr :=
  if f.op == 0x68 then if f.fn == 0 then accept true (.vadd f.d f.a f.b f.la f.lb)
    else if f.fn == 1 then accept true (.vsub f.d f.a f.b f.la f.lb)
    else if f.fn == 2 then accept true (.vmul f.d f.a f.b f.la f.lb)
    else if f.fn == 3 then accept true (.vfma f.d f.a f.b f.la f.lb)
    else .error .function
  else if f.op == 0x69 then if f.fn == 0 then accept true (.vmin f.d f.a f.b f.la f.lb)
    else if f.fn == 1 then accept true (.vmax f.d f.a f.b f.la f.lb)
    else if f.fn == 2 then accept (!f.lb && f.b == 0) (.vabs f.d f.a f.la)
    else if f.fn == 3 then accept (!f.lb && f.b == 0) (.vneg f.d f.a f.la)
    else .error .function
  else if f.op == 0x6A then if f.fn == 0 then accept true (.vlt f.d f.a f.b f.la f.lb)
    else if f.fn == 1 then accept true (.vle f.d f.a f.b f.la f.lb)
    else if f.fn == 2 then accept true (.veq f.d f.a f.b f.la f.lb)
    else if f.fn == 3 then accept true (.vsel f.d f.a f.b f.la f.lb)
    else .error .function
  else if f.op == 0x6B then if f.fn == 0 then accept (!f.lb && f.b == 0) (.vexp2 f.d f.a f.la)
    else if f.fn == 1 then accept (!f.lb && f.b == 0) (.vlog2 f.d f.a f.la)
    else if f.fn == 2 then accept (!f.lb && f.b == 0) (.vrcp f.d f.a f.la)
    else if f.fn == 3 then accept (!f.lb && f.b == 0) (.vrsqrt f.d f.a f.la)
    else .error .function
  else if f.op == 0x6C then if f.fn == 0 then accept (!f.lb && f.b == 0) (.vsum f.d f.a f.la)
    else if f.fn == 1 then accept (!f.lb && f.b == 0) (.vmaxr f.d f.a f.la)
    else if f.fn == 2 then accept (!f.lb && f.b == 0) (.vminr f.d f.a f.la)
    else if f.fn == 3 then accept true (.vdot f.d f.a f.b f.la f.lb)
    else .error .function
  else if f.op == 0x6D then if f.fn == 0 then accept (!f.lb && f.b == 0) (.vcvt f.d f.a f.la)
    else if f.fn == 1 then accept (!f.lb && f.b == 0) (.vq f.d f.a f.la)
    else if f.fn == 2 then accept (!f.lb && f.b == 0) (.vdq f.d f.a f.la)
    else if f.fn == 3 then accept true (.vscale f.d f.a f.b f.la f.lb)
    else .error .function
  else if f.op == 0x6E then if f.fn == 0 then accept (!f.lb && f.b == 0) (.vcopy f.d f.a f.la)
    else if f.fn == 1 then accept (!f.lb && f.b == 0) (.vtr f.d f.a f.la)
    else if f.fn == 2 then accept (!f.lb && f.b == 0) (.vfill f.d f.a f.la)
    else if f.fn == 3 then accept (!f.lb && f.b == 0) (.viota f.d f.a f.la)
    else .error .function
  else if f.op == 0x6F then if f.fn == 0 then accept true (.vand f.d f.a f.b f.la f.lb)
    else if f.fn == 1 then accept true (.vor f.d f.a f.b f.la f.lb)
    else if f.fn == 2 then accept true (.vxor f.d f.a f.b f.la f.lb)
    else if f.fn == 3 then accept true (.vshl f.d f.a f.b f.la f.lb)
    else .error .function
  else .error .opcode

/-- Row 0x70 of the opcode map (R102, R103). -/
def decodeRowE (f : Fields) : Except NotInstr Instr :=
  if f.op == 0x70 then if f.fn == 0 then accept (!f.lb && f.b == 0) (.lease f.d f.a f.la)
    else if f.fn == 1 then accept (!f.la && !f.lb && f.b == 0 && f.a == 0 && f.d == 0) .lrel
    else if f.fn == 2 then accept (!f.la && !f.lb && f.b == 0 && f.a == 0) (.lstat f.d)
    else .error .function
  else if f.op == 0x71 then if f.fn == 0 then accept true (.mm f.d f.a f.b f.la f.lb)
    else if f.fn == 1 then accept true (.mmZ f.d f.a f.b f.la f.lb)
    else if f.fn == 2 then accept true (.mmW f.d f.a f.b f.la f.lb)
    else if f.fn == 3 then accept true (.mmWz f.d f.a f.b f.la f.lb)
    else .error .function
  else if f.op == 0x72 then if f.fn == 0 then accept (!f.lb && f.b == 0) (.accRd f.d f.a f.la)
    else if f.fn == 1 then accept (!f.lb && f.b == 0) (.accRdq f.d f.a f.la)
    else if f.fn == 2 then accept (!f.lb && f.b == 0) (.accLd f.d f.a f.la)
    else if f.fn == 3 then accept (!f.la && !f.lb && f.b == 0 && f.a == 0) (.accClr f.d)
    else .error .function
  else if f.op == 0x73 then if f.fn == 0 then accept true (.accSv f.d f.a f.b f.la f.lb)
    else if f.fn == 1 then accept true (.accRs f.d f.a f.b f.la f.lb)
    else if f.fn == 2 then accept true (.accSt f.d f.a f.b f.la f.lb)
    else .error .function
  else if f.op == 0x74 then if f.fn == 0 then accept (!f.lb && f.b == 0) (.cp f.d f.a f.la)
    else if f.fn == 1 then accept (!f.lb && f.b == 0) (.cpNet f.d f.a f.la)
    else if f.fn == 2 then accept (!f.lb && f.b == 0) (.cpStat f.d f.a f.la)
    else if f.fn == 3 then accept (!f.lb && f.b == 0) (.cpCancel f.d f.a f.la)
    else .error .function
  else if f.op == 0x76 then if f.fn == 0 then accept (!f.lb && f.b == 0 && f.d == 0) (.enq f.a f.la)
    else if f.fn == 1 then accept (f.d == 0) (.depInit f.a f.b f.la f.lb)
    else if f.fn == 2 then accept (!f.lb && f.b == 0) (.depDec f.d f.a f.la)
    else if f.fn == 3 then accept (f.d == 0) (.depAdd f.a f.b f.la f.lb)
    else .error .function
  else if f.op == 0x77 then if f.fn == 0 then accept true (.spawn f.d f.a f.b f.la f.lb)
    else if f.fn == 1 then accept true (.take f.d f.a f.b f.la f.lb)
    else if f.fn == 2 then accept true (.steal f.d f.a f.b f.la f.lb)
    else if f.fn == 3 then accept (!f.lb && f.b == 0) (.join f.d f.a f.la)
    else .error .function
  else .error .opcode

/-- Row 0x78 of the opcode map (R102, R103). -/
def decodeRowF (f : Fields) : Except NotInstr Instr :=
  if f.op == 0x78 then if f.fn == 0 then accept (!f.la && !f.lb && f.b == 0 && f.a == 0 && f.d == 0) .yield
    else if f.fn == 1 then accept (!f.la && !f.lb && f.b == 0 && f.a == 0 && f.d == 0) .exit
    else if f.fn == 2 then accept (!f.lb && f.b == 0 && f.d == 0) (.migrate f.a f.la)
    else if f.fn == 3 then accept true (.spawnm f.d f.a f.b f.la f.lb)
    else .error .function
  else if f.op == 0x79 then if f.fn == 0 then accept (f.d == 0) (.splice f.a f.b f.la f.lb)
    else if f.fn == 1 then accept (!f.lb && f.b == 0) (.stage f.d f.a f.la)
    else if f.fn == 2 then accept (!f.lb && f.b == 0 && f.d == 0) (.sinh f.a f.la)
    else .error .function
  else if f.op == 0x7A then if f.fn == 0 then accept (!f.la && f.aIsH && f.dIsH) (.ldref f.hd f.ha f.b f.lb)
    else if f.fn == 1 then accept (!f.lb && f.bIsH && f.dIsH) (.stref f.hd f.a f.hb f.la)
    else if f.fn == 2 then accept (!f.lb && f.b == 0 && f.dIsH) (.mvref f.hd f.a f.la)
    else if f.fn == 3 then accept (!f.la && !f.lb && f.bIsH && f.aIsH) (.refeq f.d f.ha f.hb)
    else .error .function
  else if f.op == 0x7B then accept (f.aIsH) (.ldh f.d f.ha f.imm11)
  else if f.op == 0x7C then accept (f.aIsH) (.sth f.ha f.b f.immS)
  else if f.op == 0x7D then if f.fn == 0 then accept (f.dIsH) (.newobj f.hd f.a f.b f.la f.lb)
    else if f.fn == 1 then accept (!f.la && !f.lb && f.b == 0 && f.aIsH) (.pin f.d f.ha)
    else if f.fn == 2 then accept (!f.la && !f.lb && f.b == 0 && f.aIsH && f.d == 0) (.unpin f.ha)
    else if f.fn == 3 then accept true (.hcmp f.d f.a f.b f.la f.lb)
    else .error .function
  else if f.op == 0x7E then if f.fn == 0 then accept (!f.la && !f.lb && f.b == 0 && f.a == 0) (.terr f.d)
    else if f.fn == 1 then accept (!f.lb && f.b == 0) (.press f.d f.a f.la)
    else if f.fn == 2 then accept (!f.la && !f.lb && f.b == 0 && f.a == 0) (.pwr f.d)
    else .error .function
  else if f.op == 0x7F then if f.fn == 0 then accept (!f.la && !f.lb && f.b == 0 && f.a == 0) (.trap f.d)
    else if f.fn == 1 then accept (!f.la && !f.lb && f.b == 0 && f.a == 0 && f.d == 0) .uret
    else if f.fn == 2 then accept (!f.la && !f.lb && f.b == 0 && f.a == 0) (.brk f.d)
    else if f.fn == 3 then accept (!f.la && !f.lb && f.b == 0 && f.a == 0 && f.d == 0) .halt
    else .error .function
  else .error .opcode

/-- The instruction whose fields these are, by the rows of the opcode map (R102). -/
def decodeFields (f : Fields) : Except NotInstr Instr :=
  match f.op / 8 with
  | 0 => decodeRow0 f
  | 1 => decodeRow1 f
  | 2 => decodeRow2 f
  | 3 => decodeRow3 f
  | 4 => decodeRow4 f
  | 5 => decodeRow5 f
  | 6 => decodeRow6 f
  | 7 => decodeRow7 f
  | 8 => decodeRow8 f
  | 9 => decodeRow9 f
  | 10 => decodeRowA f
  | 11 => decodeRowB f
  | 12 => decodeRowC f
  | 13 => decodeRowD f
  | 14 => decodeRowE f
  | 15 => decodeRowF f
  | _ => .error .opcode

/-- Decode one word (R101). -/
def decodeWord (w : Code) : Except NotInstr Instr := decodeFields (fieldsOf w)

/-- The word that four bytes hold, least significant byte first (R50, R71). -/
def wordOfBytes (b0 b1 b2 b3 : Byte) : Code := b3 ++ b2 ++ b1 ++ b0

/-- Decode the instruction at the head of a byte list, and the bytes after it (R71). -/
def decode : List Byte → Except NotInstr (Instr × List Byte)
  | b0 :: b1 :: b2 :: b3 :: rest => (decodeWord (wordOfBytes b0 b1 b2 b3)).map fun i => (i, rest)
  | _ => .error .short

/-- The instruction of an opcode-table row's word: one little-endian word is the whole instruction (R71). -/
def decodeTableWord (_nbits w : Nat) : Option Instr :=
  let c := BitVec.ofNat 32 w
  match decode [c.setWidth 8, (c >>> 8).setWidth 8, (c >>> 16).setWidth 8, (c >>> 24).setWidth 8] with
  | .ok (i, _) => some i
  | .error _ => none

/-- The fn of an ordering (R104). -/
def Order.field : Order → BitVec 2
  | .relaxed => 0 | .acq => 1 | .rel => 2 | .ar => 3

/-- The fn of a floating type (R104). -/
def FType.field : FType → BitVec 2
  | .s => 0 | .h => 1 | .b => 2

/-- DIR of a binding (R105). -/
def BindDir.field : BindDir → BitVec 2
  | .rd => 0 | .wr => 1 | .rw => 2

/-- A last-use bit as one bit. -/
def lastUse (u : Bool) : BitVec 1 := BitVec.ofBool u

/-- A field that names an h register (R78). -/
def hField (h : HReg) : Reg := h.setWidth 7

/-- R format (R74). -/
def encodeR (op : BitVec 7) (fn : BitVec 2) (la lb : Bool) (b a d : Reg) : Code :=
  lastUse la ++ lastUse lb ++ fn ++ b ++ a ++ d ++ op

/-- I format (R75). -/
def encodeI (op : BitVec 7) (imm : BitVec 11) (a d : Reg) : Code := imm ++ a ++ d ++ op

/-- S and B formats (R76). -/
def encodeS (op : BitVec 7) (imm : BitVec 11) (b a : Reg) : Code :=
  imm.extractLsb' 7 4 ++ b ++ a ++ imm.extractLsb' 0 7 ++ op

/-- U and J formats (R77). -/
def encodeU (op : BitVec 7) (imm : BitVec 18) (d : Reg) : Code := imm ++ d ++ op

/-- The immediate of a shift: imm11[10:8] zero, the kind in [7:6], the amount in [5:0] (R105). -/
def shiftField (kind : BitVec 2) (n : BitVec 6) : BitVec 11 := (0 : BitVec 3) ++ kind ++ n

/-- The immediate of `bind`: imm11[10:7] zero, DIR in [6:5], PORT in [4:0] (R105). -/
def bindField (dir : BindDir) (port : BitVec 5) : BitVec 11 := (0 : BitVec 4) ++ dir.field ++ port

/-- The word of an instruction; an event has none (R74-R77, R102, R103). -/
def encode : Instr → Option Code
  | .add d a b la lb => some (encodeR 0x01 0 la lb b a d)
  | .sub d a b la lb => some (encodeR 0x01 1 la lb b a d)
  | .and d a b la lb => some (encodeR 0x01 2 la lb b a d)
  | .or d a b la lb => some (encodeR 0x01 3 la lb b a d)
  | .xor d a b la lb => some (encodeR 0x02 0 la lb b a d)
  | .andn d a b la lb => some (encodeR 0x02 1 la lb b a d)
  | .orn d a b la lb => some (encodeR 0x02 2 la lb b a d)
  | .xnor d a b la lb => some (encodeR 0x02 3 la lb b a d)
  | .shl d a b la lb => some (encodeR 0x03 0 la lb b a d)
  | .shr d a b la lb => some (encodeR 0x03 1 la lb b a d)
  | .sra d a b la lb => some (encodeR 0x03 2 la lb b a d)
  | .rol d a b la lb => some (encodeR 0x03 3 la lb b a d)
  | .mul d a b la lb => some (encodeR 0x04 0 la lb b a d)
  | .mulh d a b la lb => some (encodeR 0x04 1 la lb b a d)
  | .mulhz d a b la lb => some (encodeR 0x04 2 la lb b a d)
  | .mulhsz d a b la lb => some (encodeR 0x04 3 la lb b a d)
  | .div d a b la lb => some (encodeR 0x05 0 la lb b a d)
  | .divz d a b la lb => some (encodeR 0x05 1 la lb b a d)
  | .rem d a b la lb => some (encodeR 0x05 2 la lb b a d)
  | .remz d a b la lb => some (encodeR 0x05 3 la lb b a d)
  | .min d a b la lb => some (encodeR 0x06 0 la lb b a d)
  | .max d a b la lb => some (encodeR 0x06 1 la lb b a d)
  | .minz d a b la lb => some (encodeR 0x06 2 la lb b a d)
  | .maxz d a b la lb => some (encodeR 0x06 3 la lb b a d)
  | .slt d a b la lb => some (encodeR 0x07 0 la lb b a d)
  | .sltz d a b la lb => some (encodeR 0x07 1 la lb b a d)
  | .seq d a b la lb => some (encodeR 0x07 2 la lb b a d)
  | .sne d a b la lb => some (encodeR 0x07 3 la lb b a d)
  | .clz d a la => some (encodeR 0x08 0 la false 0 a d)
  | .ctz d a la => some (encodeR 0x08 1 la false 0 a d)
  | .popc d a la => some (encodeR 0x08 2 la false 0 a d)
  | .brev d a la => some (encodeR 0x08 3 la false 0 a d)
  | .bfx d a b la lb => some (encodeR 0x09 0 la lb b a d)
  | .bfxz d a b la lb => some (encodeR 0x09 1 la lb b a d)
  | .bfi d a b la lb => some (encodeR 0x09 2 la lb b a d)
  | .cnz d a la => some (encodeR 0x09 3 la false 0 a d)
  | .csrr d csr => some (encodeI 0x0A csr 0 d)
  | .csrw d a csr => some (encodeI 0x0B csr a d)
  | .csrs d a csr => some (encodeI 0x0C csr a d)
  | .csrc d a csr => some (encodeI 0x0D csr a d)
  | .sleep d a la => some (encodeR 0x0E 0 la false 0 a d)
  | .sret => some (encodeR 0x0E 1 false false 0 0 0)
  | .dflush d a la => some (encodeR 0x0E 2 la false 0 a d)
  | .ckpt d a la => some (encodeR 0x0E 3 la false 0 a d)
  | .addi d a imm => some (encodeI 0x10 imm a d)
  | .andi d a imm => some (encodeI 0x11 imm a d)
  | .ori d a imm => some (encodeI 0x12 imm a d)
  | .xori d a imm => some (encodeI 0x13 imm a d)
  | .shli d a n => some (encodeI 0x14 (shiftField 0 n) a d)
  | .shri d a n => some (encodeI 0x14 (shiftField 1 n) a d)
  | .srai d a n => some (encodeI 0x14 (shiftField 2 n) a d)
  | .roli d a n => some (encodeI 0x14 (shiftField 3 n) a d)
  | .slti d a imm => some (encodeI 0x15 imm a d)
  | .sltzi d a imm => some (encodeI 0x16 imm a d)
  | .muli d a imm => some (encodeI 0x17 imm a d)
  | .lil d imm => some (encodeU 0x18 imm d)
  | .lis d imm => some (encodeU 0x19 imm d)
  | .apc d imm => some (encodeU 0x1A imm d)
  | .beq a b imm => some (encodeS 0x20 imm b a)
  | .bne a b imm => some (encodeS 0x21 imm b a)
  | .blt a b imm => some (encodeS 0x22 imm b a)
  | .bge a b imm => some (encodeS 0x23 imm b a)
  | .bltz a b imm => some (encodeS 0x24 imm b a)
  | .bgez a b imm => some (encodeS 0x25 imm b a)
  | .jal d imm => some (encodeU 0x26 imm d)
  | .jalr d a imm => some (encodeI 0x27 imm a d)
  | .dbnz a imm => some (encodeS 0x28 imm 0 a)
  | .ldS8 d a imm => some (encodeI 0x30 imm a d)
  | .ldZ8 d a imm => some (encodeI 0x31 imm a d)
  | .ldS16 d a imm => some (encodeI 0x32 imm a d)
  | .ldZ16 d a imm => some (encodeI 0x33 imm a d)
  | .ldS32 d a imm => some (encodeI 0x34 imm a d)
  | .ldZ32 d a imm => some (encodeI 0x35 imm a d)
  | .ld64 d a imm => some (encodeI 0x36 imm a d)
  | .ldAcq d a la => some (encodeR 0x37 0 la false 0 a d)
  | .ldAcqD d a la => some (encodeR 0x37 1 la false 0 a d)
  | .st8 a b imm => some (encodeS 0x38 imm b a)
  | .st16 a b imm => some (encodeS 0x39 imm b a)
  | .st32 a b imm => some (encodeS 0x3A imm b a)
  | .st64 a b imm => some (encodeS 0x3B imm b a)
  | .stRel a b la lb => some (encodeR 0x3C 0 la lb b a 0)
  | .stRelD a b la lb => some (encodeR 0x3C 1 la lb b a 0)
  | .fenceAcq => some (encodeR 0x3D 0 false false 0 0 0)
  | .fenceRel => some (encodeR 0x3D 1 false false 0 0 0)
  | .fenceFull => some (encodeR 0x3D 2 false false 0 0 0)
  | .fenceD => some (encodeR 0x3D 3 false false 0 0 0)
  | .ldPair d a la => some (encodeR 0x3E 0 la false 0 a d)
  | .stPair a b la lb => some (encodeR 0x3E 1 la lb b a 0)
  | .amoAdd d a b order la lb => some (encodeR 0x40 order.field la lb b a d)
  | .amoAnd d a b order la lb => some (encodeR 0x41 order.field la lb b a d)
  | .amoOr d a b order la lb => some (encodeR 0x42 order.field la lb b a d)
  | .amoXor d a b order la lb => some (encodeR 0x43 order.field la lb b a d)
  | .amoMin d a b order la lb => some (encodeR 0x44 order.field la lb b a d)
  | .amoMax d a b order la lb => some (encodeR 0x45 order.field la lb b a d)
  | .amoMinz d a b order la lb => some (encodeR 0x46 order.field la lb b a d)
  | .amoMaxz d a b order la lb => some (encodeR 0x47 order.field la lb b a d)
  | .amoSwap d a b order la lb => some (encodeR 0x48 order.field la lb b a d)
  | .cas d a b order la lb => some (encodeR 0x49 order.field la lb b a d)
  | .cas2 d a b order la lb => some (encodeR 0x4A order.field la lb b a d)
  | .amoFadd d a b order la lb => some (encodeR 0x4B order.field la lb b a d)
  | .mvblk d a b => some (encodeR 0x4C 0 false false b a d)
  | .repZero d b => some (encodeR 0x4C 1 false false b 0 d)
  | .repFill d a b => some (encodeR 0x4C 2 false false b a d)
  | .repCmp d a b => some (encodeR 0x4C 3 false false b a d)
  | .wait a b la lb => some (encodeR 0x50 0 la lb b a 0)
  | .mkempty d => some (encodeR 0x50 1 false false 0 0 d)
  | .mkemptyTrap d => some (encodeR 0x50 2 false false 0 0 d)
  | .mkfull d => some (encodeR 0x50 3 false false 0 0 d)
  | .drop d a b => some (encodeR 0x51 0 false false b a d)
  | .wake d a la => some (encodeR 0x51 1 la false 0 a d)
  | .lfoff a la => some (encodeR 0x51 2 la false 0 a 0)
  | .lfret a la => some (encodeR 0x51 3 la false 0 a 0)
  | .bind d dir port => some (encodeI 0x52 (bindField dir port) 0 d)
  | .unbind d => some (encodeR 0x53 0 false false 0 0 d)
  | .barInit a b la lb => some (encodeR 0x54 0 la lb b a 0)
  | .barArr d a b la lb => some (encodeR 0x54 1 la lb b a d)
  | .barWait d a b la lb => some (encodeR 0x54 2 la lb b a d)
  | .barTst d a la => some (encodeR 0x54 3 la false 0 a d)
  | .ipop d b lb => some (encodeR 0x55 0 false lb b 0 d)
  | .ipeek d b lb => some (encodeR 0x55 1 false lb b 0 d)
  | .send a b la lb => some (encodeR 0x55 2 la lb b a 0)
  | .sendw d a b la lb => some (encodeR 0x55 3 la lb b a d)
  | .fadd d a b fmt la lb => some (encodeR 0x58 fmt.field la lb b a d)
  | .fsub d a b fmt la lb => some (encodeR 0x59 fmt.field la lb b a d)
  | .fmul d a b fmt la lb => some (encodeR 0x5A fmt.field la lb b a d)
  | .fmin d a b fmt la lb => some (encodeR 0x5B fmt.field la lb b a d)
  | .fmax d a b fmt la lb => some (encodeR 0x5C fmt.field la lb b a d)
  | .fma d a b fmt la lb => some (encodeR 0x5D fmt.field la lb b a d)
  | .flt d a b fmt la lb => some (encodeR 0x5E fmt.field la lb b a d)
  | .fle d a b fmt la lb => some (encodeR 0x5F fmt.field la lb b a d)
  | .feq d a b fmt la lb => some (encodeR 0x60 fmt.field la lb b a d)
  | .fcvtSH d a la => some (encodeR 0x61 0 la false 0 a d)
  | .fcvtHS d a la => some (encodeR 0x61 1 la false 0 a d)
  | .fcvtSB d a la => some (encodeR 0x61 2 la false 0 a d)
  | .fcvtBS d a la => some (encodeR 0x61 3 la false 0 a d)
  | .fcvtSI d a la => some (encodeR 0x62 0 la false 0 a d)
  | .fcvtIS d a la => some (encodeR 0x62 1 la false 0 a d)
  | .fclass d a la => some (encodeR 0x62 2 la false 0 a d)
  | .fsqrtS d a la => some (encodeR 0x62 3 la false 0 a d)
  | .fneg d a la => some (encodeR 0x63 0 la false 0 a d)
  | .fabs d a la => some (encodeR 0x63 1 la false 0 a d)
  | .fsgn d a b la lb => some (encodeR 0x63 2 la lb b a d)
  | .fsqrtH d a la => some (encodeR 0x63 3 la false 0 a d)
  | .vadd d a b la lb => some (encodeR 0x68 0 la lb b a d)
  | .vsub d a b la lb => some (encodeR 0x68 1 la lb b a d)
  | .vmul d a b la lb => some (encodeR 0x68 2 la lb b a d)
  | .vfma d a b la lb => some (encodeR 0x68 3 la lb b a d)
  | .vmin d a b la lb => some (encodeR 0x69 0 la lb b a d)
  | .vmax d a b la lb => some (encodeR 0x69 1 la lb b a d)
  | .vabs d a la => some (encodeR 0x69 2 la false 0 a d)
  | .vneg d a la => some (encodeR 0x69 3 la false 0 a d)
  | .vlt d a b la lb => some (encodeR 0x6A 0 la lb b a d)
  | .vle d a b la lb => some (encodeR 0x6A 1 la lb b a d)
  | .veq d a b la lb => some (encodeR 0x6A 2 la lb b a d)
  | .vsel d a b la lb => some (encodeR 0x6A 3 la lb b a d)
  | .vexp2 d a la => some (encodeR 0x6B 0 la false 0 a d)
  | .vlog2 d a la => some (encodeR 0x6B 1 la false 0 a d)
  | .vrcp d a la => some (encodeR 0x6B 2 la false 0 a d)
  | .vrsqrt d a la => some (encodeR 0x6B 3 la false 0 a d)
  | .vsum d a la => some (encodeR 0x6C 0 la false 0 a d)
  | .vmaxr d a la => some (encodeR 0x6C 1 la false 0 a d)
  | .vminr d a la => some (encodeR 0x6C 2 la false 0 a d)
  | .vdot d a b la lb => some (encodeR 0x6C 3 la lb b a d)
  | .vcvt d a la => some (encodeR 0x6D 0 la false 0 a d)
  | .vq d a la => some (encodeR 0x6D 1 la false 0 a d)
  | .vdq d a la => some (encodeR 0x6D 2 la false 0 a d)
  | .vscale d a b la lb => some (encodeR 0x6D 3 la lb b a d)
  | .vcopy d a la => some (encodeR 0x6E 0 la false 0 a d)
  | .vtr d a la => some (encodeR 0x6E 1 la false 0 a d)
  | .vfill d a la => some (encodeR 0x6E 2 la false 0 a d)
  | .viota d a la => some (encodeR 0x6E 3 la false 0 a d)
  | .vand d a b la lb => some (encodeR 0x6F 0 la lb b a d)
  | .vor d a b la lb => some (encodeR 0x6F 1 la lb b a d)
  | .vxor d a b la lb => some (encodeR 0x6F 2 la lb b a d)
  | .vshl d a b la lb => some (encodeR 0x6F 3 la lb b a d)
  | .lease d a la => some (encodeR 0x70 0 la false 0 a d)
  | .lrel => some (encodeR 0x70 1 false false 0 0 0)
  | .lstat d => some (encodeR 0x70 2 false false 0 0 d)
  | .mm d a b la lb => some (encodeR 0x71 0 la lb b a d)
  | .mmZ d a b la lb => some (encodeR 0x71 1 la lb b a d)
  | .mmW d a b la lb => some (encodeR 0x71 2 la lb b a d)
  | .mmWz d a b la lb => some (encodeR 0x71 3 la lb b a d)
  | .accRd d a la => some (encodeR 0x72 0 la false 0 a d)
  | .accRdq d a la => some (encodeR 0x72 1 la false 0 a d)
  | .accLd d a la => some (encodeR 0x72 2 la false 0 a d)
  | .accClr d => some (encodeR 0x72 3 false false 0 0 d)
  | .accSv d a b la lb => some (encodeR 0x73 0 la lb b a d)
  | .accRs d a b la lb => some (encodeR 0x73 1 la lb b a d)
  | .accSt d a b la lb => some (encodeR 0x73 2 la lb b a d)
  | .cp d a la => some (encodeR 0x74 0 la false 0 a d)
  | .cpNet d a la => some (encodeR 0x74 1 la false 0 a d)
  | .cpStat d a la => some (encodeR 0x74 2 la false 0 a d)
  | .cpCancel d a la => some (encodeR 0x74 3 la false 0 a d)
  | .enq a la => some (encodeR 0x76 0 la false 0 a 0)
  | .depInit a b la lb => some (encodeR 0x76 1 la lb b a 0)
  | .depDec d a la => some (encodeR 0x76 2 la false 0 a d)
  | .depAdd a b la lb => some (encodeR 0x76 3 la lb b a 0)
  | .spawn d a b la lb => some (encodeR 0x77 0 la lb b a d)
  | .take d a b la lb => some (encodeR 0x77 1 la lb b a d)
  | .steal d a b la lb => some (encodeR 0x77 2 la lb b a d)
  | .join d a la => some (encodeR 0x77 3 la false 0 a d)
  | .yield => some (encodeR 0x78 0 false false 0 0 0)
  | .exit => some (encodeR 0x78 1 false false 0 0 0)
  | .migrate a la => some (encodeR 0x78 2 la false 0 a 0)
  | .spawnm d a b la lb => some (encodeR 0x78 3 la lb b a d)
  | .splice a b la lb => some (encodeR 0x79 0 la lb b a 0)
  | .stage d a la => some (encodeR 0x79 1 la false 0 a d)
  | .sinh a la => some (encodeR 0x79 2 la false 0 a 0)
  | .ldref d a b lb => some (encodeR 0x7A 0 false lb b (hField a) (hField d))
  | .stref d a b la => some (encodeR 0x7A 1 la false (hField b) a (hField d))
  | .mvref d a la => some (encodeR 0x7A 2 la false 0 a (hField d))
  | .refeq d a b => some (encodeR 0x7A 3 false false (hField b) (hField a) d)
  | .ldh d a imm => some (encodeI 0x7B imm (hField a) d)
  | .sth a b imm => some (encodeS 0x7C imm b (hField a))
  | .newobj d a b la lb => some (encodeR 0x7D 0 la lb b a (hField d))
  | .pin d a => some (encodeR 0x7D 1 false false 0 (hField a) d)
  | .unpin a => some (encodeR 0x7D 2 false false 0 (hField a) 0)
  | .hcmp d a b la lb => some (encodeR 0x7D 3 la lb b a d)
  | .terr d => some (encodeR 0x7E 0 false false 0 0 d)
  | .press d a la => some (encodeR 0x7E 1 la false 0 a d)
  | .pwr d => some (encodeR 0x7E 2 false false 0 0 d)
  | .trap n => some (encodeR 0x7F 0 false false 0 0 n)
  | .uret => some (encodeR 0x7F 1 false false 0 0 0)
  | .brk n => some (encodeR 0x7F 2 false false 0 0 n)
  | .halt => some (encodeR 0x7F 3 false false 0 0 0)
  -- the steps that are no instruction words
  | .packageReset => none
  | .firmwareLoad _ => none
  | .hbmStackTrained _ _ => none
  | .fullServiceEntry => none
  | .thermalTrip _ => none
  | .slotRemoval _ => none
  | .slotReturn _ => none
  | .clockSkipStep _ _ => none
  | .shapeClear _ => none
  | .clockPause _ => none
  | .leafPowerOff _ _ => none
  | .leafWakeDone _ => none
  | .upcallEntry _ => none
  | .divideResult _ _ => none
  | .sqrtResult _ _ => none
  | .loadRequest _ _ => none
  | .loadReply _ => none
  | .storeRegistration _ _ => none
  | .proxyRegistration _ => none
  | .storeAck _ => none
  | .revoke _ => none
  | .forwardedRead _ => none
  | .nearAccess _ => none
  | .atomicPerform _ _ => none
  | .atomicReply _ => none
  | .walkerTranslation _ => none
  | .linkDelivery _ _ => none
  | .barrierOperation _ => none
  | .barWaitReply _ => none
  | .messagePlaced _ => none
  | .leaseGrant _ => none
  | .leaseIdleTimeout _ => none
  | .matrixCommand _ => none
  | .accOperation _ => none
  | .accStStore _ => none
  | .tileFetchLine _ => none
  | .arrayOpComplete _ => none
  | .vectorOperation _ => none
  | .vectorOpComplete _ => none
  | .copySector _ _ _ => none
  | .copySectorAck _ _ => none
  | .copyFaultResume _ _ => none
  | .copyComplete _ _ => none
  | .vatRecordArrival _ _ => none
  | .dispatch _ _ => none
  | .vatOfferTimeout _ _ => none
  | .contextArrival _ => none
  | .contextPlacement _ => none
  | .spillRefill _ => none
  | .depCounterOperation _ => none
  | .dequeOperation _ => none
  | .joinReply _ => none
  | .spliceRemoveMove _ => none
  | .calenderPage _ => none
  | .relocation _ _ => none
  | .plbFlushDone _ => none
  | .jobEnd _ => none
  | .pressureSample => none
  | .deckleDecision _ => none
  | .graceWindowEnd _ => none
  | .threadMove _ => none
  | .cessionCommit _ => none
  | .cessionAbort _ => none
  | .watermarkTimer _ => none
  | .stopCycle _ => none
  | .flushToken _ _ => none
  | .flushComplete _ => none
  | .imageComplete _ => none
  | .preImageCopy _ _ => none
  | .restore _ => none
  | .correctableError _ => none
  | .uncorrectableError _ => none
  | .lockstepCheckpoint _ => none
  | .lockstepMismatch _ => none
  | .launch _ _ => none
  | .desched _ _ => none
  | .resume _ _ => none
  | .faultdone _ _ => none
  | .debug _ _ => none
  | .dbggo _ _ => none
  | .hreserve _ _ => none
  | .evhead _ _ => none
  | .pghead _ _ => none
  | .functionReset _ => none
  | .hostRegisterWrite _ _ _ => none
  | .hostMemAccess _ _ _ => none
  | .hostSnoop _ => none
  | .netSend _ _ => none
  | .netReceive _ _ => none
  | .remoteRequest _ => none
  | .laneShed _ => none
  | .deckle _ => none
  | .pwrlim _ => none
  | .tcinv _ => none
  | .pkgid _ => none
  | .spdmGetCertificate => none
  | .spdmGetMeasurements => none
  | .functionPause _ => none
  | .functionResume _ => none
  | .tileRelease _ => none
  | .haltedSlotRestart _ _ => none
  | .laneRetrainDone _ => none

/-- The instruction word that an upcall reports in uval (R45); an event has none. -/
def Instr.word (i : Instr) : Word := ((encode i).getD 0).setWidth 64

/-- An instruction word, not one of the steps of spec/95. -/
def Instr.isWord (i : Instr) : Bool := (encode i).isSome

end Sys2Proof
end

