-- ==== Sys2Proof/Config.lean ====
section
/-! DEFINITION. What the spec leaves to the implementation or to the world, as constants without a body: nothing in
Lean can evaluate one or prove a value of it, so a theorem about the model holds whatever it is. -/

namespace Sys2Proof

/-- Router cycles that pass between two moves when the agenda says nothing (log 2). -/
opaque Config.elapsed : Nat → Nat

/-- Whole rotations a core lets pass before a turn when the agenda says nothing (log 2). -/
opaque Config.rotations : Nat → Nat

/-- Words of one pass of a block instruction, less one, taken modulo 8 (R153: PassLimit is not architectural). -/
opaque Config.passLimit : Nat → Nat

/-- Which sectors an L1 drops when it takes a new one (R279: replacement is not architectural). -/
opaque Config.l1Drops : Nat → Nat → Bool

/-- The set of an L1 in which a sector is placed, before it is taken modulo their number (R279: placement is not
architectural). -/
opaque Config.l1Set : Nat → Nat

/-- The sector, by its place among those of its set, that a full set of an L1 drops (R279: replacement is not
architectural). -/
opaque Config.l1Victim : Nat → Nat

/-- The set of a slice in which a line is placed, before it is taken modulo their number (R280 gives no function). -/
opaque Config.l2Set : Nat → Nat

/-- The line, by its place among the evictable ones of its set, that a fill evicts (R283). -/
opaque Config.l2Victim : Nat → Nat

/-- Whether an access before tcinv is translated with the cached entry or with the tables (R296). -/
opaque Config.keepsOldEntry : Nat → Bool

/-- Whether a store of a terminated job that was on its way still reaches memory (R424). -/
opaque Config.lateStoreLands : Nat → Nat → Bool

/-- CXL.cache is enabled on the host link (R151, R287). -/
opaque Config.cxlCache : Bool

/-- The host's completer support for an AtomicOp: 0 FetchAdd, 1 Swap, 2 CAS of 64 bits, 3 CAS of 128 (R151). -/
opaque Config.atomicOp : Nat → Bool

/-- The first instruction of a firmware image on a walker slot (R417 gives no address). -/
opaque Config.firmwareEntry : BitVec 3 → BitVec 64

/-- What M0 measures: the boot ROM and the fuse configuration (R418). -/
opaque Config.romAndFuses : List (BitVec 8)

/-- The four key digests fused at manufacture (R417). -/
opaque Config.keyDigests : List (List Byte)

/-- The key slots whose revocation fuse is blown (R417). -/
opaque Config.keyRevoked : Nat → Bool

/-- The fused minimum version (R417). -/
opaque Config.minVersion : Nat

/-- ECDSA verification on P-256: key, digest of the body, signature (R417 names the scheme only). -/
opaque Config.signatureVerifies : List Byte → List Byte → List Byte → Bool

/-- The SPDM certificates for a given boot, from M0-M5 (R419). -/
opaque Config.certificates : List Byte → List Byte

/-- The signature over a byte string by the key derived from M0-M5 (R419). -/
opaque Config.bootSignature : List Byte → List Byte → List Byte

/-- The protection domains the supervisor lets a tenant launch with (R402). -/
opaque Config.tenantDomain : Nat → Nat → Bool

/-- The die whose channel serves a 4 KiB granule that lies in no interleave set (R288; log 41). -/
opaque Config.granuleDie : Nat → Fin 4

/-- The interleave sets that the supervisor lays out when the device enters full service: base, size and channels of each (R288
gives none; log 41). -/
opaque Config.interleaveSets : List (Nat × Nat × List Nat)

/-- EVBASE of the physical function's own event ring (R399 gives it one and no register; log 60). -/
opaque Config.physicalRing : BitVec 64

/-- An entry of a die's proxy table under a home-table version (R285): a tile, by its place among the job's tiles of the die,
and a slice. -/
opaque Config.proxyEntry : Nat → Nat → Nat → Nat × Nat

/-- What a read of the write-only tcinv gives (R296 gives none; log 21). -/
opaque Config.tcinvReads : Nat → BitVec 64

/-- The value that a register holds once a binding has discarded its own (R162; log 23). -/
opaque Config.discarded : Nat → BitVec 64

/-- Bytes that an image occupies beyond its stop record, before its bound (R381: the layout is the device's own). -/
opaque Config.imageBytes : Nat → Nat

/-- The bridge links that the route of a packet from one tile to another crosses (R409 gives the links and no routing; log 66). -/
opaque Config.bridges : Nat → Nat → List Nat

/-- The tile and slice that this package's export table names for a bucket (R286: its supervisor sets it). -/
opaque Config.exportTable : Nat → Nat × Nat

/-- The device address of a core's spill area under a job: a ring of 4,096 records of 256 bytes that the supervisor assigns at
launch (R259 gives no place; log 58). -/
opaque Config.spillArea : Nat → Nat → Nat

/-- What a read of a side table in another package gives: its bytes as a number, or nothing where it faults (R100; log 59). -/
opaque Config.peerRead : Nat → Nat → Nat → Option Nat

/-- The empty heap pages that the supervisor offers for a job's reserve on a die (R301). -/
opaque Config.reservePages : Nat → Nat → Nat → List Nat

end Sys2Proof
end

