-- ==== Sys2Proof/Machine/Store.lean ====
section
/-! DEFINITION. Sparse data by key: the one canonical list form that memory and every table of the machine use.

A store is a list of (key, value) pairs with keys strictly rising and no value equal to what an unlisted key reads as.
`dflt` says what an unlisted key reads as. Equal stores are equal lists. -/

namespace Sys2Proof.Machine

/-- Pairs of key and value, in the canonical form of `storeWf`. -/
abbrev Store (α : Type) := List (Nat × α)

/-- What a key reads as. -/
def storeGet {α : Type} (dflt : Nat → α) : Store α → Nat → α
  | [], k => dflt k
  | (j, v) :: rest, k => if k = j then v else if k < j then dflt k else storeGet dflt rest k

/-- Write a value at a key, keeping the canonical form: a value that an unlisted key reads as is not listed. -/
def storeSet {α : Type} [DecidableEq α] (dflt : Nat → α) : Store α → Nat → α → Store α
  | [], k, v => if v = dflt k then [] else [(k, v)]
  | (j, w) :: rest, k, v =>
    if k = j then (if v = dflt k then rest.dropWhile (fun e => e.1 ≤ k) else (k, v) :: rest)
    else if k < j then (if v = dflt k then (j, w) :: rest else (k, v) :: (j, w) :: rest)
    else (j, w) :: storeSet dflt rest k v

/-- The canonical form, above a lower bound for the first key. -/
def storeWfFrom {α : Type} [DecidableEq α] (dflt : Nat → α) : Nat → Store α → Bool
  | _, [] => true
  | lo, (j, v) :: rest => decide (lo ≤ j) && decide (v ≠ dflt j) && storeWfFrom dflt (j + 1) rest

/-- The canonical form: keys strictly rising, no value equal to what an unlisted key reads as. -/
def storeWf {α : Type} [DecidableEq α] (dflt : Nat → α) (m : Store α) : Bool := storeWfFrom dflt 0 m

/-- A memory: bytes by address. -/
abbrev Memory := Store Byte

/-- What a byte that nothing has written reads as (log 3). -/
def unlistedByte (_address : Nat) : Byte := 0

/-- The canonical form of a memory. -/
def Memory.wf (m : Memory) : Bool := storeWf unlistedByte m

/-- Read one byte. -/
def Memory.byte (m : Memory) (a : Nat) : Byte := storeGet unlistedByte m a

/-- Write one byte. -/
def Memory.setByte (m : Memory) (a : Nat) (b : Byte) : Memory := storeSet unlistedByte m a b

/-- The `n` bytes from address `a` upward. -/
def Memory.bytes (m : Memory) (a : Nat) : Nat → List Byte
  | 0 => []
  | n + 1 => m.byte a :: m.bytes (a + 1) n

/-- Write a list of bytes from address `a` upward. -/
def Memory.setBytes (m : Memory) (a : Nat) : List Byte → Memory
  | [] => m
  | b :: bs => (m.setByte a b).setBytes (a + 1) bs

/-- The number that a list of bytes holds, least significant byte first (R50). -/
def natOfBytes : List Byte → Nat
  | [] => 0
  | b :: bs => b.toNat + 256 * natOfBytes bs

/-- The `n` bytes of a number, least significant first (R50). -/
def bytesOfNat : Nat → Nat → List Byte
  | 0, _ => []
  | n + 1, v => BitVec.ofNat 8 v :: bytesOfNat n (v / 256)

/-- Read a little-endian word of 8 bytes. -/
def Memory.word (m : Memory) (a : Nat) : Word := BitVec.ofNat 64 (natOfBytes (m.bytes a 8))

/-- Write a little-endian word of 8 bytes. -/
def Memory.setWord (m : Memory) (a : Nat) (w : Word) : Memory := m.setBytes a (bytesOfNat 8 w.toNat)

end Sys2Proof.Machine
end

