-- ==== Sys2Proof/Machine/State.lean ====
section
/-! DEFINITION. The state of the ZR-4096 as plain data, the reasons a step stops, and the state after package reset.

Numbers name places: a tile is y·32 + x (R1); a core is 4·tile + its number in the tile; a slot is 64·core + its number
in the core (R2). Each table is a `Store`: what it does not list is in its reset state. -/

namespace Sys2Proof.Machine

/-! ## Registers and threads -/

/-- Presence of a register (R22). WAKING is the leaf's state, not the register's. -/
inductive Presence where
  | full | empty | trap | dead
  deriving DecidableEq, Repr

/-- A register: its value, its presence, and whether it is owed a result (R22, R23). -/
structure RegCell where
  val : Word
  pres : Presence
  owed : Bool
  deriving DecidableEq, Repr

/-- The supply state of a leaf (R25); `waking` is a leaf on its way to FULL (R26, R27). -/
inductive LeafState where
  | full | retain | off | waking
  deriving DecidableEq, Repr

/-- Where a result lands: a window register, a shadow (R18) or a reference register (R17). -/
inductive RegLoc where
  | win (i : Nat) | shadow (i : Nat) | href (i : Nat)
  deriving DecidableEq, Repr

/-- An entry of a binding table (R20). -/
structure Binding where
  reg : Reg
  dir : BindDir
  port : BitVec 5
  deriving DecidableEq, Repr

/-- The state of a slot (R13), with the stops of a supervisor slot (R186) and of the debugger (R183). -/
inductive SlotState where
  | free | run | wait | parked | blocked | halted | debug
  deriving DecidableEq, Repr

/-- The claim of a slot on its tile's array (R213). -/
inductive LeaseState where
  | none | queued | held | spent
  deriving DecidableEq, Repr

/-- A result on its way from a core's own unit, with the flags it raises (R59, R112, R192). -/
structure Landing where
  dst : RegLoc
  val : Word
  flags : BitVec 6
  deriving DecidableEq, Repr

/-- What an access asks for: the right of R295 and the KIND of R299. -/
inductive AccKind where
  | read | write | fetch | atomic | copy | tileFetch
  deriving DecidableEq, Repr

/-- An access that has issued and is not yet checked (R134). With `retry`, the instruction issues again once its page
is translated; otherwise its packet retires it. -/
structure Unchecked where
  va : Nat
  kind : AccKind
  retry : Bool
  deriving DecidableEq, Repr

/-- An entry of the handler list: a completed copy, its handler pc, and the core among whose accepted copies it keeps its
place (R46). -/
structure HandlerEntry where
  id : BitVec 32
  hpc : Word
  core : Nat
  deriving DecidableEq, Repr

/-- What an outstanding `bar.wait` or `join` writes when its reply comes (R172, R255). -/
structure WaitRequest where
  dst : List RegLoc
  dead : List RegLoc
  deriving DecidableEq, Repr

/-- A `newobj` that has delivered some of its object's stores and waits for room for the others (R136, R272). -/
structure NewObject where
  at_ : Nat
  size : Nat
  done : Nat
  deriving DecidableEq, Repr

/-- A thread slot (R13-R18, R29). -/
structure Slot where
  state : SlotState
  job : Nat
  pc : Word
  brPc : Word                       -- the transfer that led to pc, for uval of 0x0F (R72)
  winBase : Nat
  winSize : Nat
  regs : Store RegCell
  leaves : Store LeafState          -- by register / 8
  shadow : Store RegCell            -- 1-7
  href : Store RegCell              -- 0-7
  bindings : List Binding           -- at most eight (R20)
  fsr : BitVec 6
  frm : BitVec 2
  xmode : Bool
  ubase : Word
  uepc : Word
  uval : Word
  code : BitVec 8                   -- ucause.CODE
  active : Bool                     -- ucause.ACTIVE
  pend : BitVec 9                   -- ucause.PEND
  pendVal : Store Word              -- uval of each pending cause, by its bit
  umask : BitVec 9
  fmt0 : BitVec 4
  fmt1 : BitVec 4
  scl0 : Word
  scl1 : Word
  vmask : Word
  stb : Word
  ist : Word
  hbump : Word
  hlim : Word
  handlers : List HandlerEntry      -- R46
  opc : Nat                         -- R136
  odc : Nat                         -- R136
  firstFetch : Bool                 -- a thread of spawnm, stage or a move that has fetched nothing yet (R72)
  unchecked : Option Unchecked      -- R134
  leafWait : Option (Nat × Nat)     -- core and leaf of the scratchpad that its accepted access waits for (R161)
  leafSince : Nat                   -- the move in which that access was accepted (R197)
  acqHold : Bool                    -- an acquire whose invalidation is not done (R142)
  waiting : Option WaitRequest      -- bar.wait or join (R172, R255)
  sends : Nat                       -- messages not yet placed (R179)
  warnings : List (Nat × Nat)       -- tile and cyc of each cession decided while its thread was on the tile (R359)
  alloc : Option NewObject          -- the `newobj` whose stores are not all delivered (R272)
  held : List (RegLoc × Word)       -- results held until the leaf of their register is FULL (R112, R332)
  divs : List Landing               -- R112
  sqrts : List Landing              -- R192
  lease : LeaseState                -- R213
  budget : Nat
  remain : Nat
  leaseDst : List RegLoc            -- the owed destination of `lease`
  sbase : Word                      -- R185
  sepc : Word
  scode : BitVec 8
  sactive : Bool
  sval : Word
  heldFault : Option (BitVec 8 × Word) -- a fault met in a flush, raised when the job goes on (R155)
  deriving DecidableEq, Repr

/-- A register no one has written: DEAD (R16); its value is zero (log 5). -/
def deadCell (_i : Nat) : RegCell := { val := 0, pres := .dead, owed := false }
/-- A shadow or reference register of a new thread: zero and FULL (R17, R18). -/
def zeroCell (_i : Nat) : RegCell := { val := 0, pres := .full, owed := false }
/-- A leaf of a window in use is FULL (R278). -/
def fullLeaf (_i : Nat) : LeafState := .full
/-- The uval of a cause that is not pending. -/
def noVal (_i : Nat) : Word := 0

/-- A user slot that no thread holds (R13); every register at its thread-creation value (R29). -/
def Slot.free : Slot :=
  { state := .free, job := 0, pc := 0, brPc := 0, winBase := 0, winSize := 0, regs := [], leaves := [],
    shadow := [], href := [], bindings := [], fsr := 0, frm := 0, xmode := false, ubase := 0, uepc := 0, uval := 0,
    code := 0, active := false, pend := 0, pendVal := [], umask := 0, fmt0 := 0, fmt1 := 0, scl0 := 0, scl1 := 0,
    vmask := 0, stb := 0, ist := 0, hbump := 0, hlim := 0, handlers := [], opc := 0, odc := 0, firstFetch := false,
    unchecked := none,
    leafWait := none, leafSince := 0, acqHold := false, waiting := none, sends := 0, warnings := [], alloc := none, held := [],
        divs := [], sqrts := [], lease := .none, budget := 0, remain := 0,
    leaseDst := [], sbase := 0, sepc := 0, scode := 0, sactive := false, sval := 0, heldFault := none }

/-- What an unlisted slot is: FREE for 0-61; slots 62 and 63 are never FREE (R13) and stand halted, with registers
outside the pool, until firmware runs (log 4). -/
def slotAt (n : Nat) : Slot :=
  if n % 64 < 62 then Slot.free else { Slot.free with state := .halted, winSize := 128 }

/-! ## Messages, packets and work in flight -/

/-- An inbox message of 16 bytes (R175) and the register through whose binding its word 0 has been read (R165). -/
structure Message where
  w0 : Word
  w1 : Word
  openedBy : Option Reg
  deriving DecidableEq, Repr

/-- A queue entry: 64 bits and a tag, set for a marker (R21). -/
structure QEntry where
  val : Word
  marker : Bool
  deriving DecidableEq, Repr

/-- Who sent a packet, for the order in which packets reach a queue: the device, a slot (R136, R179, R247), a core whose
stages report (R266) or whose contexts go on (R360), or a router that captured it at a stop (R384). -/
inductive Poster where
  | device | slot (n : Nat) | core (c : Nat) | captured
  deriving DecidableEq, Repr

/-- A task record on its way or in a segment: its eight words, the address it came from, its job (R246, R247). -/
structure VatRecord where
  words : List Word
  addr : Word
  job : Nat
  source : Option Nat               -- the slot whose `enq` sent it
  poster : Poster
  deriving DecidableEq, Repr

/-- A context: the 32 words of R258, its job, and the slot it left, for the messages that follow it (R260). -/
structure Context where
  words : List Word
  pendVal : Store Word              -- the uval of each pending cause (R45)
  job : Nat
  origin : Option Nat
  left : Nat                        -- the move in which it left its slot, which tells departures from one slot apart
  creator : Option Nat              -- the core that created it with spawnm (R261)
  warnings : List (Nat × Nat)       -- those of its thread (R359)
  poster : Poster
  reached : Option Nat := none      -- the move in which it reached its core, to wait in the router there (R259)
  deriving DecidableEq, Repr

/-- What retiring an instruction does once its access is checked (R134): last-use, owed destinations, registers that a
block pass lands, the next pc, the stores that begin to count (R136), and the instructions that count as retired: none
between two passes (R153). -/
structure Retire where
  dead : List RegLoc
  owe : List RegLoc
  puts : List (RegLoc × Word)
  pc : Word
  stores : Nat
  count : Nat
  deriving DecidableEq, Repr

/-- Where a load reads (R142): where it is served, or fresh at the home or the die's proxy. -/
inductive Reach where
  | plain | package | die
  deriving DecidableEq, Repr

/-- Where a sector's backing store begins: a physical address, in host memory with `host` (R287, R288). -/
structure Backing where
  pa : Nat
  host : Bool
  deriving DecidableEq, Repr

/-- The check of an access, made at its home in another package, of an instruction whose other field names a bound register:
its word, and the accesses of a block form that are still to be checked (R43, R139). -/
structure Misuse where
  word : Word
  rest : List (Word × AccKind)
  deriving DecidableEq, Repr

/-- A global load on its way to its home (R140, R142, R146), or a fetch from another package (R72). -/
structure LoadPacket where
  slot : Nat
  va : Nat
  size : Nat
  signed : Bool
  dst : List RegLoc
  reach : Reach
  acquire : Bool
  fetch : Bool
  left : Nat                        -- the move in which it left its core (R315)
  frame : Option Backing            -- where its checked access was translated to (R296)
  retire : Option Retire
  misuse : Option Misuse := none    -- the check of an access whose other field names a bound register (R139)
  deriving DecidableEq, Repr

/-- A load's value on its way back (R135). -/
structure ReplyPacket where
  slot : Nat
  va : Nat
  dst : List RegLoc
  vals : List Word
  acquire : Bool
  deriving DecidableEq, Repr

/-- A registration of a store (R136): `proxied` holds the move in which its die proxy acknowledged it (R285). -/
structure StorePacket where
  slot : Nat
  va : Nat
  bytes : List Byte
  proxied : Option Nat
  array : Bool                      -- a store of an `acc.st` (R235)
  frame : Option Backing            -- where its checked access was translated to (R296)
  retire : Option Retire
  deriving DecidableEq, Repr

/-- What a near access does at its target (R132, R134). -/
inductive NearKind where
  | load (signed acquire : Bool)
  | store (bytes : List Byte)
  deriving DecidableEq, Repr

/-- A near access to another core's scratchpad (R134). -/
structure NearPacket where
  slot : Nat
  core : Nat
  offset : Nat
  size : Nat
  ea : Word
  dst : List RegLoc
  kind : NearKind
  retire : Option Retire
  accepted : Option Nat := none     -- the move in which its core accepted it, to wait there for a leaf (R134, R161)
  deriving DecidableEq, Repr

/-- An atomic on its way to the place that performs it (R147): `core` is the scratchpad's, or none for a home. -/
structure AtomicPacket where
  slot : Nat
  op : BitVec 7
  core : Option Nat
  addr : Nat
  ea : Word
  operands : List Word
  frm : BitVec 2
  acquire : Bool
  departed : Bool                   -- its thread has left: the reply is discarded (R260)
  dst : List RegLoc
  retire : Option Retire
  frame : Option Backing := none    -- where its checked access was translated to (R296)
  accepted : Option Nat := none     -- as of a near access
  deriving DecidableEq, Repr

/-- An operation on a barrier object (R169, R172, R173), a join word (R255). -/
inductive BarrierKind where
  | init (b : Word) | arrive (bytes : BitVec 32) | count (bytes : BitVec 32) | wait (seen : BitVec 14) | test | join
  deriving DecidableEq, Repr

/-- A barrier or join request on its way to the object's core (R168). -/
structure BarrierPacket where
  slot : Nat
  core : Nat
  offset : Nat
  ea : Word
  kind : BarrierKind
  dst : List RegLoc
  retire : Option Retire
  accepted : Option Nat := none     -- as of a near access
  deriving DecidableEq, Repr

/-- An operation on a dependence counter (R252). -/
inductive DepKind where
  | init (count record : Word) | dec | add (b : Word)
  deriving DecidableEq, Repr

/-- A counter operation on its way to the counter's core (R251). -/
structure DepPacket where
  slot : Nat
  core : Nat
  offset : Nat
  ea : Word
  kind : DepKind
  dst : List RegLoc
  retire : Option Retire
  accepted : Option Nat := none     -- as of a near access
  deriving DecidableEq, Repr

/-- An operation on a deque (R254). -/
inductive DequeKind where
  | spawn | take | steal
  deriving DecidableEq, Repr

/-- A deque operation on its way to the header's core, with the issuer's frame block (R254). -/
structure DequePacket where
  slot : Nat
  core : Nat
  offset : Nat
  ea : Word
  frame : Nat
  kind : DequeKind
  dst : List RegLoc
  retire : Option Retire
  accepted : Option Nat := none     -- as of a near access
  deriving DecidableEq, Repr

/-- A record to be enqueued, read at its home: that of a counter at zero (R252), or of an `enq` whose record lies in
another package (R247, R286). -/
structure EnqueuePacket where
  slot : Nat
  core : Nat
  job : Nat
  counter : Word
  record : Word
  retire : Option Retire
  fault : Option Nat                -- SEQ of the page fault it waits on
  notice : Option Bool
  deriving DecidableEq, Repr

/-- A message on its way to an inbox (R176), with the sender whose count or register it ends (R179). -/
structure MessagePacket where
  job : Nat
  core : Nat
  w0 : Word
  w1 : Word
  poster : Poster
  sender : Option Nat
  lands : List RegLoc
  follows : Option (Nat × Nat)      -- the departed context that it waits for: its slot, and the move in which it left (R260)
  stopped : Bool := false           -- the device posted it while the job was stopped (R384)
  deriving DecidableEq, Repr

/-- What is in flight in the package's meshes. Each event of the opcode table that delivers one names it by place. -/
inductive Packet where
  | load (p : LoadPacket)
  | forwarded (p : LoadPacket) (owner : Nat)
  | reply (p : ReplyPacket)
  | store (p : StorePacket)
  | ack (slot : Nat) (package die : Bool) (words : List Nat) (array : Bool)
  | revoke (core word : Nat)
  | near (p : NearPacket)
  | atomic (p : AtomicPacket)
  | atomicReply (slot : Nat) (dst : List RegLoc) (vals : List Word) (flags : BitVec 6) (acquire : Bool)
  | barrier (p : BarrierPacket)
  | barReply (slot : Nat) (val : Word)
  | joinReply (slot : Nat) (val : Word)
  | message (p : MessagePacket)
  | record (tile slice : Nat) (r : VatRecord)
  | enqueue (p : EnqueuePacket)
  | context (core : Nat) (c : Context) (sender : Option Nat) (lands : List RegLoc)
  | dep (p : DepPacket)
  | deque (p : DequePacket)
  | plbFlush (slot : Nat) (domain : BitVec 16) (lands : List RegLoc)
  deriving DecidableEq, Repr

/-- A tile vector operation accepted by a core's vector unit (R196, R197). -/
structure VectorOp where
  slot : Nat
  instr : Instr
  a : Word
  b : Word
  d : Word
  mask : Word
  frm : BitVec 2
  dst : List RegLoc
  spans : List (Nat × Nat)          -- scratchpad bytes of its tiles: offset and length (R197)
  copies : List (BitVec 32)         -- copies accepted earlier that touch them (R197)
  since : Nat := 0                  -- the move in which it was accepted (R197)
  done : Bool
  flags : BitVec 6
  deriving DecidableEq, Repr

/-- A 64 KiB page as an array operation found it translated at issue (R219). -/
structure Page where
  first : Nat
  frame : Nat
  host : Bool
  deriving DecidableEq, Repr

/-- An array operation accepted by a tile's array (R218): operands read at issue, the lines the tile fetch unit has
read (R227), the stores of `acc.st` still to deliver (R235), and what it has done. -/
structure ArrayOp where
  slot : Nat
  instr : Option Instr              -- none for a copy with a row in 0xF3
  sel : Word
  a : Word
  b : Word
  descA : List Word
  descB : List Word
  fmtA : Nat
  fmtB : Nat
  scl0 : Word
  scl1 : Word
  dst : List RegLoc
  spans : List (Nat × Nat)          -- scratchpad bytes it reads or writes: offset and length (R236)
  copies : List (BitVec 32)         -- copies accepted earlier that touch them (R236)
  since : Nat := 0                  -- the move in which it was accepted (R197)
  copy : BitVec 32
  pages : List Page
  lines : List (Nat × List Byte)    -- operand lines read, by number: A's, then B's
  pinned : List Nat                 -- keys of the lines it holds pinned (R227)
  stores : List (Nat × List Byte)
  sent : Nat                        -- stores of this operation not yet acknowledged
  done : Bool
  status : BitVec 8
  flags : BitVec 6
  deriving DecidableEq, Repr

/-- A copy accepted by a core's copy slot (R238-R244). -/
structure Copy where
  id : BitVec 32
  slot : Nat
  job : Nat
  src : Word
  dst : Word
  bytes : Nat
  rows : Nat
  sstride : Nat
  dstride : Nat
  bar : Word
  hpc : Word
  net : Bool
  array : Bool
  delivered : Nat
  acked : Nat
  held : List Byte                  -- bytes of an accumulator element not yet whole (R241)
  status : Option (BitVec 8)        -- the cause that ended it
  cancelling : Bool
  cancels : List (Nat × RegLoc)     -- owed destinations of cp.cancel
  fault : Option Nat                -- SEQ of the page fault it waits on
  notice : Option Bool              -- its completion notice: whether the page was refused
  posted : Bool                     -- message posted; kept for its handler entry (R46)
  leafWait : Option (Nat × Nat) := none -- core and leaf of the scratchpad that its sector waits for (R161, R197)
  leafSince : Nat := 0              -- the move in which that access was accepted
  passed : Nat := 0                 -- turns of the copy slot that other copies have had since its own (R329)
  deriving DecidableEq, Repr

/-- A resident configuration of the array (R221). -/
structure ArrayConfig where
  fmtA : Nat
  fmtB : Nat
  scl0 : Word
  scl1 : Word
  mapping : Word
  deriving DecidableEq, Repr

/-! ## Cores, tiles, dies -/

/-- A word the L1 holds, and whether the core owns it (R279). -/
structure L1Word where
  val : Word
  owned : Bool
  deriving DecidableEq, Repr

/-- An entry of the protection lookaside buffer (R297). -/
structure PlbEntry where
  domain : Nat
  generation : Nat
  region : Nat
  rights : BitVec 3
  deriving DecidableEq, Repr

/-- A stage of a pipeline (R262). -/
structure StageEntry where
  slot : Nat
  id : BitVec 8
  mask : BitVec 32
  entry : Word
  running : Bool
  deriving DecidableEq, Repr

/-- An entry of the splice table: SEQ, the issuing slot, and whether a target has matched (R264, R265). -/
structure SpliceEntry where
  seq : BitVec 12
  slot : Nat
  matched : Bool
  deriving DecidableEq, Repr

/-- The removal of a stage under way (R266): from queue, to queue, the stage that exits when it ends. -/
structure QueueMove where
  source : Nat
  target : Nat
  slot : Nat
  deriving DecidableEq, Repr

/-- A waiter of a barrier object or a join word at this core (R172, R255). -/
structure Waiter where
  slot : Nat
  offset : Nat
  seen : Option (BitVec 14)         -- none for join
  deriving DecidableEq, Repr

/-- A forwarding entry (R260): the departed slot and where its context went. -/
structure Forwarding where
  slot : Nat
  core : Nat
  placed : Option Nat               -- the slot its thread took
  left : Nat                        -- the move in which the thread left
  moved : Bool := false             -- a cession moved it: kept as long as its job holds the core (R366)
  deriving DecidableEq, Repr

/-- A word of a network send queue: how many of its bytes are payload, whether it is a message's header, and whether it
ends one (R406). -/
structure SendWord where
  val : Word
  bytes : Nat
  header : Bool
  last : Bool
  deriving DecidableEq, Repr

/-- A network send queue (R406): the words it holds, the payload words that its bound message still lacks, the `cp.net`
whose message is being placed, and the words of the head message that have left already. -/
structure SendQueue where
  words : List SendWord
  left : Nat
  copy : Option (BitVec 32)
  leaving : List SendWord
  deriving DecidableEq, Repr

/-- A write of k0-k15 that is not yet visible (R19). -/
structure KWrite where
  cycle : Nat
  ring : Nat
  reg : Nat
  val : Word
  deriving DecidableEq, Repr

/-- An input that entered a lockstep pair, as its replay log records it: the slot it is for, and its words (R390). -/
structure PairInput where
  slot : Nat
  words : List Word
  deriving DecidableEq, Repr

/-- A cached heap page (R268, R301): its state and epoch. -/
structure HeapPage where
  page : Nat
  hstate : BitVec 2
  epoch : BitVec 4
  deriving DecidableEq, Repr

/-- A core (R21, R24, and the structures each chapter gives it). -/
structure Core where
  queues : Store (List QEntry)
  linkOut : Store (List Word)       -- by direction N, E, S, W
  linkIn : Store (List Word)
  sendQueues : Store SendQueue
  inbox : List Message
  k : Store Word
  kWrites : List KWrite
  clock : Nat                       -- core cycles (R11)
  ring : Nat                        -- ring of the latest turn in that cycle
  scratchLeaves : Store LeafState   -- by leaf of the scratchpad
  l1 : Store (Option L1Word)        -- by word address
  plb : List PlbEntry
  heapCache : List HeapPage
  vector : List VectorOp
  copies : List Copy
  nextCopy : BitVec 32
  waiters : List Waiter
  stages : List StageEntry
  splices : List SpliceEntry
  moves : List QueueMove
  arrivals : List Context
  spill : List Context
  spillHead : Nat                   -- the record of the spill area that holds the oldest of them (R259)
  forwards : List Forwarding
  created : Nat                     -- spawnm contexts not yet started (R261)
  sinceOffer : Nat                  -- contexts placed while a Vat record stood offered (R326)
  outn : Nat                        -- user positions OUT (R36)
  skip : Nat                        -- cycles skipped in every four (R334)
  shape : Bool
  checkpoint : List (Nat × Slot)    -- of a lockstep pair, in its even core (R390)
  mismatched : Bool
  pairRetired : Nat := 0            -- instructions the pair has retired since its checkpoint (R390)
  pairLog : List PairInput := []    -- its replay log, oldest first (R390)
  replay : Option Nat := none       -- instructions it has still to replay (R390)
  deriving DecidableEq, Repr

/-- An empty queue. -/
def noEntries (_q : Nat) : List QEntry := []
/-- An empty link buffer. -/
def noWords (_d : Nat) : List Word := []
/-- An empty send queue. -/
def noSend (_q : Nat) : SendQueue := { words := [], left := 0, copy := none, leaving := [] }
/-- A word the L1 does not hold. -/
def noL1 (_w : Nat) : Option L1Word := none

/-- A core that no job has used: every structure empty, scratchpad leaves FULL (R278, R363). -/
def coreAt (_n : Nat) : Core :=
  { queues := [], linkOut := [], linkIn := [], sendQueues := [], inbox := [], k := [], kWrites := [], clock := 0, ring := 3,
    scratchLeaves := [], l1 := [], plb := [], heapCache := [], vector := [], copies := [], nextCopy := 1, waiters := [],
    stages := [], splices := [], moves := [], arrivals := [], spill := [], spillHead := 0, forwards := [], created := 0,
    sinceOffer := 0, outn := 0, skip := 0, shape := false, checkpoint := [], mismatched := false }

/-- Who asked for a translation (R295). -/
inductive Requester where
  | slot (n : Nat) | copy (core : Nat) (id : BitVec 32) | enqueue (core : Nat) (record : Word)
  | ring (tenant : Nat)             -- a receive ring (R407)
  deriving DecidableEq, Repr

/-- A request in a walker's mailbox (R295). -/
structure WalkRequest where
  va : Nat
  kind : AccKind
  job : Nat
  tile : Nat
  slice : Nat
  who : Requester
  deriving DecidableEq, Repr

/-- A cached translation of a slice (R292). -/
structure Translation where
  slice : Nat
  page : Nat                        -- first byte's va
  size : Nat
  frame : Nat
  host : Bool                       -- LOC
  av : Bool
  adie : BitVec 2
  r : Bool
  w : Bool
  x : Bool
  dirty : Bool
  heap : Bool
  hstate : BitVec 2
  epoch : BitVec 4
  deriving DecidableEq, Repr

/-- A cession or release under way (R360); `moved` and `emptied` say which of its steps are done. -/
structure Cession where
  gainer : Option Nat
  loser : Option Nat
  bidder : Nat
  heir : Nat                        -- N of R360
  decided : Nat                     -- cyc of the decision
  graceEnd : Nat
  moved : Bool                      -- step 2 has begun
  emptied : Bool                    -- steps 3-5 are done
  deriving DecidableEq, Repr

/-- Refusal and abort counters of drefuse (R370). -/
structure Refusals where
  abort : BitVec 10
  pinned : BitVec 10
  held : BitVec 10
  recent : BitVec 10
  conn : BitVec 10
  floor : BitVec 10
  deriving DecidableEq, Repr

/-- Error counters of errstat (R391). -/
structure Errors where
  retired : Bool
  escal : BitVec 16
  mismatch : BitVec 16
  uncorr : BitVec 8
  corr : BitVec 8
  lastUncorr : Option Nat           -- cyc of the last uncorrectable error (R388: a second within 1 s)
  deriving DecidableEq, Repr

/-- A tile (R2, and the structures each chapter gives it). -/
structure Tile where
  owner : Option Nat
  pressure : BitVec 16
  bias : BitVec 13
  pressed : Nat × Nat               -- core cycle and core of the write that gave the bias (R276)
  changed : Nat                     -- period of the last change of owner
  zrun : Nat
  zeroSoFar : Bool                  -- every sample of P in the current period was 0
  sampled : Nat                     -- period of the latest sample
  decided : Nat                     -- one more than the period of the latest decision (R351)
  cession : Option Cession
  refusals : Refusals
  errors : Errors
  traffic : Store Word
  leaseQueues : Store (List (Nat × Nat))  -- by core: slot and budget
  lastGrant : Nat                   -- core of the lease that ended last (R214)
  idleFrom : Nat                    -- the holder's core cycle from which its idle limit runs (R214)
  holder : Option Nat
  arrayOps : List ArrayOp
  configs : Store (Option ArrayConfig)
  seg0 : List VatRecord
  seg1 : List VatRecord
  served : Bool                     -- segment 1 was served last
  headSince0 : Nat                  -- cyc at which the head of segment 0 was last offered on (R327)
  headSince1 : Nat
  mailboxes : Store (List WalkRequest)   -- by core of the tile
  walkWaiting : List WalkRequest    -- requests that wait in a slice while both its mailboxes are full (R295)
  translations : List Translation   -- of its two slices
  captured : List Packet            -- router save buffer and overflow list (R378)
  token : Bool                      -- the flush token has passed (R378)
  withheld : Bool := false          -- the supervisor has retired it and the host has not released it (R388)
  deriving DecidableEq, Repr

/-- No request is queued. -/
def noRequests (_c : Nat) : List (Nat × Nat) := []
/-- No configuration is resident. -/
def noConfig (_t : Nat) : Option ArrayConfig := none
/-- An empty mailbox. -/
def noWalks (_c : Nat) : List WalkRequest := []

/-- A free tile in the scrubbed state, all counters zero (R363, R370, R391). -/
def tileAt (_n : Nat) : Tile :=
  { owner := none, pressure := 0, bias := 0, pressed := (0, 0), changed := 0, zrun := 0, zeroSoFar := true, sampled := 0,
      decided := 0, cession := none,
    refusals := { abort := 0, pinned := 0, held := 0, recent := 0, conn := 0, floor := 0 },
    errors := { retired := false, escal := 0, mismatch := 0, uncorr := 0, corr := 0, lastUncorr := none },
    traffic := [], leaseQueues := [], lastGrant := 3, idleFrom := 0, holder := none, arrayOps := [], configs := [], seg0 := [],
    seg1 := [], served := true, headSince0 := 0, headSince1 := 0, mailboxes := [], walkWaiting := [], translations := [],
        captured := [],
    token := false }

/-- An accumulator element (R66). -/
structure AccElem where
  sum : BitVec 128
  isEmpty : Bool
  nan : Bool
  nx : Bool
  anchor : BitVec 11
  deriving DecidableEq, Repr

/-- The cleared state of an element (R66). -/
def clearedElem (_i : Nat) : AccElem := { sum := 0, isEmpty := true, nan := false, nx := false, anchor := 0 }

/-- The owner of a word: a core of this package or of another (R282). -/
structure Owner where
  package : BitVec 6
  core : Nat
  deriving DecidableEq, Repr

/-- A revoke sent to an owner in another package; with `recalled` its L1 drops the word as well (R147, R283). -/
structure PeerRevoke where
  owner : Owner
  word : Nat
  recalled : Bool
  deriving DecidableEq, Repr

/-- A sector of a slice (R280-R282): its bytes, dirtiness, the owner of each word, the home-table version under which
it was filled, and where its backing store begins (in host memory with `host`). -/
structure Sector where
  bytes : List Byte
  dirty : Bool
  owners : Store (Option Owner)     -- by word of the sector
  version : Nat
  pa : Nat
  host : Bool
  deriving DecidableEq, Repr

/-- A sector no slice holds. -/
def noSector (_s : Nat) : Option Sector := none
/-- A proxy copy that does not exist (R285). -/
def noProxy (_s : Nat) : Option (List Byte) := none
/-- A word that no core owns (R282). -/
def noOwner (_w : Nat) : Option Owner := none
/-- No pin (R282). -/
def noPins (_l : Nat) : Nat := 0

/-! ## Jobs and their images -/

/-- A page-fault record that the host has not resolved (R299). -/
structure FaultRecord where
  seq : Nat
  va : Nat
  job : Nat
  who : List Requester
  deriving DecidableEq, Repr

/-- The image of a job at a stop (R380, R381), by territory-relative places. -/
structure Image where
  stop : Nat
  seq : Nat
  preempt : Bool                    -- KIND 2
  complete : Bool                   -- STATE 1
  version : Nat
  count : Nat
  homeTable : Store Nat
  slots : List (Nat × Slot)
  cores : List (Nat × Core)
  segments : List (Nat × (List VatRecord × List VatRecord × BitVec 13))
  pool : List (Nat × Byte)
  acc : List (Nat × AccElem)
  captured : List Packet
  faults : List FaultRecord
  heap : List (Nat × (BitVec 2 × BitVec 4)) -- heap pages with their HSTATE and HEPOCH (R301, R319)
  reserve : Store (List Nat)        -- empty heap pages by die (R301)
  preImages : List (Nat × List Byte)  -- granules as they stood at the stop (R386)
  deriving DecidableEq, Repr

/-- Why a stop was requested (R376). -/
inductive StopKind where
  | watermark | preempt | contain (tiles : List Nat)
  deriving DecidableEq, Repr

/-- Where a job stands. -/
inductive JobPhase where
  | running
  | stopping (kind : StopKind) (t : Nat)     -- requested; slots run until cycle T (R376)
  | flushing (kind : StopKind) (t : Nat)     -- halted; the flush runs (R378)
  | saving (kind : StopKind) (t : Nat)       -- the image is being written (R380)
  | restoring (t : Nat) (byHost : Bool)      -- R387
  | waiting                                  -- gave up its tiles; waits for RESUME (R382)
  deriving DecidableEq, Repr

/-- What waits to land when a Watermark's image is complete (R186). -/
structure CkptWaiter where
  slot : Nat
  dst : RegLoc
  deriving DecidableEq, Repr

/-- A host event (R403) before it is written to its ring. -/
structure HostEvent where
  job : Nat
  code : BitVec 8
  status : BitVec 8
  value : Word
  double : Bool
  outer : BitVec 8
  cyc : Word
  deriving DecidableEq, Repr

/-- A job (R348, R401). -/
structure Job where
  phase : JobPhase
  tenant : Nat
  recordAt : Nat                    -- device address of its record (COUNT is written there)
  seed : Nat
  floor : Nat
  ceiling : Nat
  count : Nat
  pb0 : Nat
  pb1 : Nat
  pb2 : Nat
  priority : Nat
  lockstep : Bool
  domain : Nat
  generation : Nat
  handler : Word
  ckptArea : Nat
  ckptSize : Nat
  interval : Nat                    -- Watermark interval in µs
  lastStop : Nat                    -- T of the latest complete image, or the launch (R385)
  homeTable : Store Nat             -- by bucket, territory-relative index
  proxyTable : Store Nat            -- by 1,024·die + entry: 2·tile + slice (R285)
  version : Nat
  image : Option Image              -- the latest complete image
  half : Bool                       -- the half it lies in
  writing : Option Image            -- the image being written
  armed : List Nat                  -- granules not yet copied since the image (R386)
  seq : Nat                         -- completed Watermarks
  ckpts : List CkptWaiter
  reserve : Store (List Nat)        -- empty heap pages by die (R301)
  retired : Nat                     -- instructions of ended threads (R403)
  oldTiles : List Nat               -- the tiles it gave up when it began to wait (R383)
  heldFaults : List Word            -- FAULTDONE writes held while stopped (R392)
  heldEvents : List HostEvent       -- R392
  deriving DecidableEq, Repr

/-- A job that does not exist. -/
def jobAt (_n : Nat) : Option Job := none

/-! ## Host, dies and package -/

/-- The registers and rings of one function (R399, R400). -/
structure Tenant where
  rtiles : Word
  jobtab : Word
  evbase : Word
  evhead : Word
  evtail : Word
  pgbase : Word
  pghead : Word
  pgtail : Word
  discard : Word
  debug : Word
  dbgpc : Word
  nsqctx : Store Word
  rxbase : Word
  rxcfg : Word
  eventCount : Nat                  -- ESEQ
  events : List HostEvent           -- raised and not yet in the ring
  faultCount : Nat                  -- SEQ of R299
  faults : List FaultRecord         -- outstanding
  pagerWaiting : List (List Word)   -- records waiting for room in the pager ring
  paused : Bool
  sentMsix : List Nat               -- MSI-X vectors sent, newest first
  deriving DecidableEq, Repr

/-- A function's registers after reset (R400). -/
def tenantAt (_n : Nat) : Tenant :=
  { rtiles := 0, jobtab := 0, evbase := 0, evhead := 0, evtail := 0, pgbase := 0, pghead := 0, pgtail := 0, discard := 0,
    debug := 0, dbgpc := 0, nsqctx := [], rxbase := 0, rxcfg := 0, eventCount := 0, events := [], faultCount := 0,
    faults := [], pagerWaiting := [], paused := false, sentMsix := [] }

/-- A store held on a MOVING object until its relocation commits (R271). -/
structure HeldStore where
  slot : Nat
  href : Nat
  ref : Word
  offset : Nat
  val : Word
  deriving DecidableEq, Repr

/-- One compaction range of a Calender (R302). -/
structure CompactRange where
  job : Nat
  slot : Nat
  dst : List RegLoc
  pages : List Nat
  targetDie : Option Nat
  walk : Option Nat                 -- the object whose turn it is, in the page at the head
  moving : Option (Nat × Nat)       -- object and its new place (R303)
  toPages : List (Nat × Nat)        -- TO pages and the next free byte in each
  count : Nat
  held : List HeldStore
  deriving DecidableEq, Repr

/-- A message that has arrived for a tenant's receive ring and waits for one of its pages: the fault record's SEQ, and the
notice (R240, R407). -/
structure Inbound where
  tenant : Nat
  message : NetMessage
  fault : Nat
  deriving DecidableEq, Repr

/-- A bridge link (R409). -/
structure BridgeLink where
  half : Bool
  retraining : Bool
  deriving DecidableEq, Repr

/-- Every link at full width. -/
def linkAt (_n : Nat) : BridgeLink := { half := false, retraining := false }
/-- No compaction is under way. -/
def noRange (_d : Nat) : List CompactRange := []
/-- An empty reserve of heap pages. -/
def noPages (_d : Nat) : List Nat := []
/-- A measurement at package reset is 32 zero bytes (R418). -/
def zeroMeas (_w : Nat) : Word := 0

/-- Stages of bring-up (R414). -/
inductive BootStage where
  | rom | reduced | full | failed
  deriving DecidableEq, Repr

/-- One move: the router cycles that pass before it, the rotations its core lets pass, and who moves. -/
inductive Turn where
  | issue (slot : Nat)
  | event (e : Instr)
  deriving DecidableEq, Repr

/-- A move of the agenda. -/
structure Move where
  dt : Nat
  rotations : Nat
  turn : Turn
  deriving DecidableEq, Repr

/-- An interleave set of HBM channels (R288). -/
structure InterleaveSet where
  base : Nat
  size : Nat
  channels : List Nat
  deriving DecidableEq, Repr

/-- The whole machine. -/
structure State where
  -- the model's own: time, choice and order
  cyc : Nat                         -- router cycles since package reset (R29)
  moves : Nat
  agenda : List Move
  focus : Nat
  -- memories
  hbm : Memory                      -- by the place that `hbmPlace` gives a device physical address (R288)
  sets : List InterleaveSet         -- the supervisor's interleave sets (R288, R289)
  host : Memory                     -- by bus address
  pool : Memory                     -- scratchpads: 2^18·core + offset (R24)
  acc : Store AccElem               -- 2^14·tile + 4096·accumulator tile + 64·row + column (R230)
  l2 : Store (Option Sector)        -- 2^56·(2·tile + slice) + the sector's first va (R281)
  pins : Store Nat                  -- 2^56·(2·tile + slice) + the line's first va (R227)
  proxyCopies : Store (Option (List Byte)) -- 2^56·(2·tile + slice) + the sector's first va (R285)
  net : List Packet
  -- places
  slots : Store Slot
  cores : Store Core
  tiles : Store Tile
  jobs : Store (Option Job)
  tenants : Store Tenant            -- 0-63 the virtual functions, 64 the physical function
  calenders : Store (List CompactRange)
  links : Store BridgeLink          -- vertical edges 0-31, horizontal 32-63 (R409)
  -- package registers
  pkgid : BitVec 6
  ptroot : Word
  ddir : Word
  pwrlim : Word
  deckle : Word                     -- in force
  deckleNext : Word                 -- from the next period (R350)
  period : Nat
  periodStart : Nat
  lastSample : Nat                  -- cyc div 2000 of the latest pressure sample
  stage : BootStage
  fail : BitVec 8
  trained : BitVec 16
  meas : Store Word                 -- 4·i + w (R418)
  tripped : Bool
  heldLaunches : List (Nat × Word)  -- R416
  spdm : List Byte                  -- the latest SPDM answer (R419)
  sent : List NetMessage            -- messages that left through Ethernet, newest first (R406)
  peerAnswers : List (BitVec 6 × PeerAnswer) -- answers sent to other packages, newest first (R408)
  malformed : List (Nat × Word)     -- malformed page-table entries reported to the host, newest first (R295)
  peerRevokes : List PeerRevoke     -- revokes sent to owners in other packages, newest first (R147, R283)
  hostRead : List Byte              -- what the latest CXL.mem read returned (R398)
  inbound : List Inbound            -- received messages that wait for a page of their ring, oldest first (R407)
  stackFailed : Bool                -- an HBM stack has failed to train while a job ran (R416)
  deriving DecidableEq, Repr

/-- Why the machine stops with a fault. -/
inductive Fault where
  deriving DecidableEq, Repr

/-- Why the machine gives an instruction no meaning. -/
inductive Refusal where
  /-- Raised by exec alone, for an instruction whose meaning is not written. Safe. -/
  | notModelled (mnemonic : String)
  deriving DecidableEq, Repr

/-- The machine right after package reset (R414): every counter zero, every tile free, no job, nothing in flight. -/
def State.reset : State :=
  { cyc := 0, moves := 0, agenda := [], focus := 0, hbm := [], sets := [], host := [], pool := [], acc := [], l2 := [], pins := [],
    proxyCopies := [], net := [], slots := [], cores := [], tiles := [], jobs := [], tenants := [], calenders := [],
    links := [], pkgid := 0, ptroot := 0, ddir := 0, pwrlim := 0x02EE_0BB8,
    deckle := 0x8000_0014_0100_0040, deckleNext := 0x8000_0014_0100_0040, period := 0, periodStart := 0,
    lastSample := 0, stage := .rom, fail := 0, trained := 0, meas := [], tripped := false, heldLaunches := [],
    spdm := [], sent := [], peerAnswers := [], malformed := [], peerRevokes := [], hostRead := [], inbound := [],
    stackFailed := false }

end Sys2Proof.Machine
end

