-- ==== Sys2Proof/Machine/Places.lean ====
section
/-! DEFINITION. Reading and updating the machine's tables: slots, cores, tiles, jobs, functions; places and their
geometry (R1, R2, R40); bit fields of 64-bit words. -/

namespace Sys2Proof.Machine

/-- What a step answers. -/
abbrev Result := Host.Outcome State Fault Refusal

/-! ## Numbers and bits -/

/-- Bits [lo + len - 1 : lo] of a word, as a number. -/
def fieldOf (w : Word) (lo len : Nat) : Nat := bitsOf w.toNat lo len

/-- One bit of a word. -/
def bitOf (w : Word) (n : Nat) : Bool := w.toNat.testBit n

/-- A number as a word, modulo 2^64. -/
def wordOf (n : Nat) : Word := BitVec.ofNat 64 n

/-- An integer as a word, modulo 2^64. -/
def wordOfInt (n : Int) : Word := BitVec.ofInt 64 n

/-- All ones: what several operations return for "none". -/
def allOnes : Word := BitVec.ofNat 64 (2 ^ 64 - 1)

/-- Update the head-most element that satisfies a test. -/
def updateFirst {α : Type} (p : α → Bool) (f : α → α) : List α → List α
  | [] => []
  | x :: xs => if p x then f x :: xs else x :: updateFirst p f xs

/-- Drop the entries of a store whose key lies in [lo, hi). -/
def storeDrop {α : Type} (lo hi : Nat) (m : Store α) : Store α := m.filter fun e => e.1 < lo || hi ≤ e.1

/-! ## Places -/

/-- The tile of a slot (R2). -/
def tileOfSlot (n : Nat) : Nat := n / 256
/-- The core of a slot, numbered over the package. -/
def coreOfSlot (n : Nat) : Nat := n / 64
/-- A slot's number in its core: tid (R29). -/
def tidOf (n : Nat) : Nat := n % 64
/-- The slots 0-61 are user slots (R2). -/
def isUserSlot (n : Nat) : Bool := n % 64 < 62
/-- Slot 63 of a core is its walker slot, the only slot that runs supervisor code (R41). -/
def isWalkerSlot (n : Nat) : Bool := n % 64 == 63
/-- The user positions that a core has out of rotation are its highest (R332). -/
def isOutPosition (outn n : Nat) : Bool := 62 - outn ≤ n % 64 && n % 64 < 62
/-- The column of a tile (R1). -/
def tileX (t : Nat) : Nat := t % 32
/-- The row of a tile (R1). -/
def tileY (t : Nat) : Nat := t / 32
/-- The die of a tile (R1). -/
def dieOfTile (t : Nat) : Nat := tileX t / 16 + 2 * (tileY t / 16)
/-- The number of tiles. -/
def tileCount : Nat := 1024

/-- The edge-neighbour of a tile to the N, E, S or W (0-3), if it is on the mesh (R1). -/
def neighbour (t dir : Nat) : Option Nat :=
  match dir with
  | 0 => if 32 ≤ t then some (t - 32) else none
  | 1 => if t % 32 < 31 then some (t + 1) else none
  | 2 => if t < 992 then some (t + 32) else none
  | _ => if 0 < t % 32 then some (t - 1) else none

/-- The direction that faces a direction: N and S, E and W. -/
def opposite (dir : Nat) : Nat := (dir + 2) % 4

/-- The bridge link between a tile and its neighbour in a direction, where they stand on two dies: the vertical edges' 0-31
by row, the horizontal edges' 32-63 by column (R409). -/
def bridgeOf (t dir : Nat) : Option Nat :=
  match neighbour t dir with
  | some u =>
    if dieOfTile t = dieOfTile u then none else some (if dir % 2 = 1 then tileY t else 32 + tileX t)
  | none => none

/-- Two tiles share an edge. -/
def adjacent (t u : Nat) : Bool := (List.range 4).any fun d => neighbour t d == some u

/-- Mesh hops between two tiles. -/
def hops (t u : Nat) : Nat :=
  (max (tileX t) (tileX u) - min (tileX t) (tileX u)) + (max (tileY t) (tileY u) - min (tileY t) (tileY u))

/-! ## Tables -/

/-- A slot. -/
def State.slot (s : State) (n : Nat) : Slot := storeGet slotAt s.slots n
/-- Replace a slot. -/
def State.setSlot (s : State) (n : Nat) (x : Slot) : State := { s with slots := storeSet slotAt s.slots n x }
/-- Change a slot. -/
def State.onSlot (s : State) (n : Nat) (f : Slot → Slot) : State := s.setSlot n (f (s.slot n))
/-- A core. -/
def State.core (s : State) (c : Nat) : Core := storeGet coreAt s.cores c
/-- Replace a core. -/
def State.setCore (s : State) (c : Nat) (x : Core) : State := { s with cores := storeSet coreAt s.cores c x }
/-- Change a core. -/
def State.onCore (s : State) (c : Nat) (f : Core → Core) : State := s.setCore c (f (s.core c))
/-- A tile. -/
def State.tile (s : State) (t : Nat) : Tile := storeGet tileAt s.tiles t
/-- Replace a tile. -/
def State.setTile (s : State) (t : Nat) (x : Tile) : State := { s with tiles := storeSet tileAt s.tiles t x }
/-- Change a tile. -/
def State.onTile (s : State) (t : Nat) (f : Tile → Tile) : State := s.setTile t (f (s.tile t))
/-- A job, if it exists. -/
def State.job (s : State) (j : Nat) : Option Job := storeGet jobAt s.jobs j
/-- Replace a job. -/
def State.setJob (s : State) (j : Nat) (x : Job) : State := { s with jobs := storeSet jobAt s.jobs j (some x) }
/-- Change a job, if it exists. -/
def State.onJob (s : State) (j : Nat) (f : Job → Job) : State :=
  match s.job j with
  | some x => s.setJob j (f x)
  | none => s
/-- A function's registers. -/
def State.tenant (s : State) (v : Nat) : Tenant := storeGet tenantAt s.tenants v
/-- Change a function's registers. -/
def State.onTenant (s : State) (v : Nat) (f : Tenant → Tenant) : State :=
  { s with tenants := storeSet tenantAt s.tenants v (f (s.tenant v)) }
/-- Send a packet into the mesh. -/
def State.post (s : State) (p : Packet) : State := { s with net := s.net ++ [p] }
/-- Remove the packet at a place. -/
def State.taken (s : State) (n : Nat) : State := { s with net := s.net.eraseIdx n }

/-- A slot is OUT of rotation (R13, R332). -/
def State.isOut (s : State) (n : Nat) : Bool := isOutPosition (s.core (coreOfSlot n)).outn n
/-- The slots the state lists for a core, in order; an unlisted user slot is FREE. -/
def slotsOfCore (c : Nat) : List Nat := (List.range 64).map fun k => 64 * c + k
/-- The four cores of a tile. -/
def coresOfTile (t : Nat) : List Nat := [4 * t, 4 * t + 1, 4 * t + 2, 4 * t + 3]
/-- The numbers of the slots that hold a thread of a job. -/
def State.jobSlots (s : State) (j : Nat) : List Nat :=
  (s.slots.filter fun e => e.2.state != .free && e.2.job == j && isUserSlot e.1).map (·.1)

/-! ## Territories (R40, R348) -/

/-- The tiles of a job in ascending index. -/
def State.territory (s : State) (j : Nat) : List Nat := (s.tiles.filter fun e => e.2.owner == some j).map (·.1)
/-- The tile that a territory-relative index names (R40). -/
def State.tileAtIndex (s : State) (j i : Nat) : Option Nat := (s.territory j)[i]?
/-- The territory-relative index of a tile (R40). -/
def State.indexOfTile (s : State) (j t : Nat) : Nat := (s.territory j).findIdx (· == t)
/-- The slots of a core that hold a thread (R13). -/
def State.coreJob (s : State) (c : Nat) : Option Nat := (s.tile (c / 4)).owner
/-- pb0, pb1, pb2 of a slot's job (R24); zero where there is no job. -/
def State.bounds (s : State) (j : Nat) : Nat × Nat × Nat :=
  match s.job j with
  | some x => (x.pb0, x.pb1, x.pb2)
  | none => (0, 0, 0)
/-- The size of a job's scratchpads: pb1 - pb0 (R24). -/
def State.scratchSize (s : State) (j : Nat) : Nat := (s.bounds j).2.1 - (s.bounds j).1
/-- The job of a tile's owner, if it exists. -/
def State.ownerJob (s : State) (t : Nat) : Option Job :=
  match (s.tile t).owner with
  | some j => s.job j
  | none => none

/-- A near access of a job reaches a tile that the job has lost, or is losing after its lines have gone: it is accepted as if
its leaves were FULL and zero (R366). -/
def State.lostTile (s : State) (j core : Nat) : Bool :=
  (s.tile (core / 4)).owner != some j
    || (match (s.tile (core / 4)).cession with | some x => x.loser == some j && x.emptied | none => false)

/-- The core whose slots a core's number stands for: the even core of a lockstep pair, which both cores mirror (R389). -/
def State.pairCore (s : State) (j c : Nat) : Nat :=
  match s.job j with
  | some x => if x.lockstep then c / 2 * 2 else c
  | none => c

/-- The slot whose state a slot of a lockstep pair shows: both cores of the pair hold the same threads, in the same slots and
windows, so one copy, in the even core, is the state of both (R389). -/
def State.pairSlot (s : State) (n : Nat) : Nat :=
  match s.ownerJob (n / 256) with
  | some x => if x.lockstep then 64 * (n / 64 / 2 * 2) + n % 64 else n
  | none => n

/-- A slot as its core shows it, of either core of a lockstep pair (R389). -/
def State.shownSlot (s : State) (n : Nat) : Slot := s.slot (s.pairSlot n)

/-- A core is the even one of a lockstep pair, which stands for both (R389). -/
def State.pairs (s : State) (c : Nat) : Bool :=
  c % 2 == 0 && (match s.ownerJob (c / 4) with | some x => x.lockstep | none => false)

/-- An input enters a lockstep pair, and its replay log records it (R389, R390). -/
def State.logInput (s : State) (n : Nat) (ws : List Word) : State :=
  if s.pairs (n / 64) then
    s.onCore (n / 64) fun k => { k with pairLog := k.pairLog ++ [{ slot := n, words := ws }] }
  else s

/-- A lockstep pair has retired an instruction (R390). -/
def State.countPair (s : State) (n count : Nat) : State :=
  if s.pairs (n / 64) then s.onCore (n / 64) fun k => { k with pairRetired := k.pairRetired + count } else s

/-- The entries that a pair's replay log holds (R390). -/
def pairLogSize : Nat := 512

/-- A lockstep pair must take its checkpoint before it goes on: it has retired 4,096 instructions, or its log is full (R390). -/
def Core.checkpointDue (k : Core) : Bool := 4096 ≤ k.pairRetired || pairLogSize ≤ k.pairLog.length

/-- The job halts its slots: a stop has reached its cycle and the job has not continued (R377). -/
def Job.halted (x : Job) : Bool :=
  match x.phase with
  | .running => false
  | .stopping _ _ => false
  | _ => true

/-- The job is halted by a synchronised stop, or is gone. -/
def State.jobHalted (s : State) (j : Nat) : Bool := match s.job j with
  | some x => x.halted
  | none => true

/-- A slot's lockstep pair takes no further input now: it replays, or its log is full until its checkpoint. A pair that a stop has
halted in its replay takes what the flush brings (R378, R390). -/
def State.pairHolds (s : State) (n : Nat) : Bool :=
  let k := s.core (n / 64)
  s.pairs (n / 64) && (if k.replay.isSome then !s.jobHalted (s.slot n).job else pairLogSize ≤ k.pairLog.length)

/-- A stop's cycle T has come: from it on no instruction of the job issues (R377). -/
def Job.reached (x : Job) (cyc : Nat) : Bool :=
  match x.phase with
  | .stopping _ t => decide (t ≤ cyc)
  | _ => false

/-- A containment of the job has struck a tile: its cores halt at once, whichever of the tiles struck it is (R377). -/
def Job.strikes (x : Job) (t : Nat) : Bool :=
  match x.phase with
  | .stopping (.contain ts) _ => ts.contains t
  | _ => false

/-- A synchronised stop of the job is outstanding (R368). -/
def Job.stopped (x : Job) : Bool :=
  match x.phase with
  | .running => false
  | _ => true

end Sys2Proof.Machine
end

