-- ==== Sys2Proof/Machine/Home.lean ====
section
/-! DEFINITION. The stores behind a global address: lines and sectors (R280), homes and proxies (R284, R285), page
tables and the walker's mailboxes (R292-R295), protection (R297), the slices (R282, R283) and the L1 (R279). -/

namespace Sys2Proof.Machine

/-! ## Lines, sectors, homes -/

/-- The first va of the 48-byte sector of a byte (R280). -/
def sectorStart (va : Nat) : Nat := va - va % 65536 % 48
/-- The bytes of a sector: 48, or 16 for the last of a granule (R280). -/
def sectorLen (va : Nat) : Nat := if va % 65536 < 65520 then 48 else 16
/-- The line of a byte within its granule, 0-341 (R280). -/
def lineOf (va : Nat) : Nat := va % 65536 / 192
/-- The first va of the line of a byte. -/
def lineStart (va : Nat) : Nat := va - va % 65536 % 192
/-- The bytes of a line: 192, or 64 for line 341 (R280). -/
def lineLen (va : Nat) : Nat := if lineOf va < 341 then 192 else 64
/-- The package field of a global address: bits [55:50] (R38). -/
def packageOf (va : Nat) : Nat := bitsOf va 50 6
/-- The number of ones in a number of 64 bits. -/
def popCount (n : Nat) : Nat := ((List.range 64).filter fun k => n.testBit k).length

/-- The bucket of a line (R284). -/
def bucketOf (va : Nat) : Nat :=
  let h := bitsOf va 16 34
  (bitsOf h 0 12 ^^^ bitsOf h 12 12 ^^^ bitsOf h 24 10 ^^^ lineOf va) % 4096

/-- The slice of a line at its home tile (R284). -/
def sliceOf (va : Nat) : Nat := popCount (bitsOf va 16 34 ^^^ lineOf va) % 2

/-- A bucket that no commit has moved names index 0: the seed is the launch's only tile (R284). -/
def homeIndexZero (_bucket : Nat) : Nat := 0

/-- A slice of the package. -/
structure Place where
  tile : Nat
  slice : Nat
  deriving DecidableEq, Repr

/-- A slice's number. -/
def Place.id (p : Place) : Nat := 2 * p.tile + p.slice
/-- The key of a sector at a slice (R281). -/
def Place.sectorKey (p : Place) (va : Nat) : Nat := 2 ^ 56 * p.id + sectorStart va
/-- The key of a line at a slice. -/
def Place.lineKey (p : Place) (va : Nat) : Nat := 2 ^ 56 * p.id + lineStart va

/-- The home of a line of this package under a job's table (R284). -/
def State.homeOf (s : State) (j va : Nat) : Place :=
  match s.job j with
  | some x =>
    { tile := (s.tileAtIndex j (storeGet homeIndexZero x.homeTable (bucketOf va))).getD x.seed, slice := sliceOf va }
  | none => { tile := 0, slice := sliceOf va }

/-- An entry of a die's proxy table that no rebuild has written names a slice of the seed, the launch's only tile (R285). -/
def Job.proxySeed (x : Job) (k : Nat) : Nat := 2 * x.seed + (Config.proxyEntry 1 (k / 1024) (k % 1024)).2 % 2

/-- The proxy slice that the table of a die on which the job has tiles names for a line (R285). -/
def State.proxyOf (s : State) (j die va : Nat) : Option Place :=
  match s.job j with
  | none => none
  | some x =>
    if (s.territory j).any fun t => dieOfTile t == die then
      let e := storeGet x.proxySeed x.proxyTable (1024 * die + bucketOf va % 1024)
      some { tile := e / 2, slice := e % 2 }
    else none

/-- Every die's proxy table of a job as it is rebuilt with the home table: each entry a slice of one of its tiles of that die
(R285). -/
def State.rebuildProxies (s : State) (j : Nat) : State :=
  s.onJob j fun x => { x with
    proxyTable := (List.range 4096).foldl (fun m k =>
      let tiles := (s.territory j).filter fun t => dieOfTile t == k / 1024
      let e := Config.proxyEntry x.version (k / 1024) (k % 1024)
      match tiles[e.1 % tiles.length]? with
      | some t => storeSet x.proxySeed m k (2 * t + e.2 % 2)
      | none => m) [] }

/-- The entries of a job's proxy tables that name a slice of a tile it loses name the slice of the same number on its tile of
lowest index on that die (R362). -/
def State.moveProxies (s : State) (j lost : Nat) : State :=
  match (s.territory j).find? fun t => t != lost && dieOfTile t == dieOfTile lost with
  | none => s
  | some u => s.onJob j fun x => { x with
    proxyTable := (List.range 1024).foldl (fun m i =>
      let k := 1024 * dieOfTile lost + i
      let e := storeGet x.proxySeed x.proxyTable k
      if e / 2 = lost then storeSet x.proxySeed m k (2 * u + e % 2) else m) x.proxyTable }

/-- The home of a line lies on another die than a tile, and that die has a proxy: the slice (R285). -/
def State.proxyFor (s : State) (j tile va : Nat) : Option Place :=
  if dieOfTile (s.homeOf j va).tile == dieOfTile tile then none else s.proxyOf j (dieOfTile tile) va

/-- A global address of this package (R284, R422). -/
def State.isOurs (s : State) (va : Nat) : Bool := packageOf va == s.pkgid.toNat

/-! ## Physical memory -/

/-- The bytes of each of the package's 512 channels: 2 GB (R3, R288). DESIGN CHOICE: a GB is 2^30 bytes (R8; assumption 41). -/
def channelBytes : Nat := 2 ^ 31

/-- The interleave set of a device physical address (R288). -/
def State.setOf (s : State) (pa : Nat) : Option InterleaveSet :=
  s.sets.find? fun t => t.base ≤ pa && pa < t.base + t.size

/-- The channel that serves an address of a set (R288). -/
def InterleaveSet.channel (t : InterleaveSet) (pa : Nat) : Nat :=
  t.channels.getD ((pa - t.base) / 4096 % t.channels.length) 0

/-- The byte of its channel that an address of a set names (R288). -/
def InterleaveSet.offset (t : InterleaveSet) (pa : Nat) : Nat :=
  (pa - t.base) / 4096 / t.channels.length * 4096 + pa % 4096

/-- Where `hbm` keeps the byte of a device physical address: a byte of a channel where a set covers it, numbered above every
address; else a byte of its own (log 41). -/
def State.hbmPlace (s : State) (pa : Nat) : Nat :=
  match s.setOf pa with
  | some t => 2 ^ 52 + channelBytes * t.channel pa + t.offset pa % channelBytes
  | none => pa

/-- The die whose channel serves an address (R288). -/
def State.dieOfAddress (s : State) (pa : Nat) : Nat :=
  match s.setOf pa with
  | some t => t.channel pa / 128
  | none => (Config.granuleDie (pa / 4096)).val

/-- Bytes of HBM from a device physical address on. -/
def State.hbmBytes (s : State) (pa : Nat) : Nat → List Byte
  | 0 => []
  | n + 1 => s.hbm.byte (s.hbmPlace pa) :: s.hbmBytes (pa + 1) n

/-- A memory of HBM with bytes written from a device physical address on, each at its place. -/
def State.hbmWith (s : State) (pa : Nat) : List Byte → Memory → Memory
  | [], m => m
  | b :: bs, m => s.hbmWith (pa + 1) bs (m.setByte (s.hbmPlace pa) b)

/-- Write bytes of HBM from a device physical address on. -/
def State.setHbm (s : State) (pa : Nat) (bs : List Byte) : State := { s with hbm := s.hbmWith pa bs s.hbm }

/-- Bytes of the backing store: HBM, or host memory with LOC = 1 (R287). -/
def State.backing (s : State) (host : Bool) (pa n : Nat) : List Byte :=
  if host then s.host.bytes pa n else s.hbmBytes pa n

/-- Write bytes to the backing store. -/
def State.setBacking (s : State) (host : Bool) (pa : Nat) (bs : List Byte) : State :=
  if host then { s with host := s.host.setBytes pa bs } else s.setHbm pa bs

/-- The sector that holds an address of the backing store, if a slice holds it. -/
def State.cachedAt (s : State) (host : Bool) (pa : Nat) : Option (Nat × Sector) :=
  s.l2.findSome? fun e =>
    match e.2 with
    | some x => if x.host == host && x.pa ≤ pa && pa < x.pa + x.bytes.length then some (e.1, x) else none
    | none => none

/-- Replace bytes of a list from a place on. -/
def spliceBytes (xs : List Byte) (off : Nat) (ys : List Byte) : List Byte :=
  xs.take off ++ ys ++ xs.drop (off + ys.length)

/-- Set a word's ownership bit in a core's L1, or clear it. -/
def State.setOwned (s : State) (c word : Nat) (owned : Bool) : State :=
  match storeGet noL1 (s.core c).l1 word with
  | some e => s.onCore c fun k => { k with l1 := storeSet noL1 k.l1 word (some { e with owned := owned }) }
  | none => s

/-- Revoke an owner at once: a core of this package loses the bit, another package is sent the revoke (R283). -/
def State.revokeOwner (s : State) (o : Owner) (word : Nat) : State :=
  if o.package = s.pkgid then s.setOwned o.core word false
  else { s with peerRevokes := { owner := o, word := word, recalled := false } :: s.peerRevokes }

/-- Revoke the owners of some words of a sector whose words begin at `base`, and forget them. -/
def State.revokeWords (s : State) (key : Nat) (base : Nat) (ws : List Nat) : State :=
  match storeGet noSector s.l2 key with
  | none => s
  | some x =>
    let s1 := ws.foldl (fun (u : State) w => match storeGet noOwner x.owners (w - base) with
      | some o => u.revokeOwner o w
      | none => u) s
    let y := { x with owners := ws.foldl (fun o w => storeSet noOwner o (w - base) none) x.owners }
    { s1 with l2 := storeSet noSector s1.l2 key (some y) }

/-- A word of the backing store as its home holds it: of the sector that caches it, else of the store (R287, R295). -/
def State.frameWord (s : State) (host : Bool) (pa : Nat) : Word :=
  match s.cachedAt host pa with
  | some (_, x) => wordOf (natOfBytes ((x.bytes.drop (pa - x.pa)).take 8))
  | none => wordOf (natOfBytes (s.backing host pa 8))

/-- Write a word of the backing store at its home; no core owns it any more. -/
def State.setFrameWord (s : State) (host : Bool) (pa : Nat) (w : Word) : State :=
  match s.cachedAt host pa with
  | some (k, x) =>
    let base := k % 2 ^ 56 / 8
    let s1 := s.revokeWords k base [base + (pa - x.pa) / 8]
    match storeGet noSector s1.l2 k with
    | some y => { s1 with
        l2 := storeSet noSector s1.l2 k
          (some { y with bytes := spliceBytes y.bytes (pa - x.pa) (bytesOfNat 8 w.toNat), dirty := true }) }
    | none => s1
  | none => s.setBacking host pa (bytesOfNat 8 w.toNat)

/-- Bytes of the backing store, read a word at a time at their homes. -/
def State.frameRead (s : State) (host : Bool) (pa n : Nat) : List Byte :=
  ((((List.range ((pa % 8 + n + 7) / 8)).flatMap fun k =>
    bytesOfNat 8 (s.frameWord host (pa / 8 * 8 + 8 * k)).toNat)).drop (pa % 8)).take n

/-- Write bytes of the backing store within words at their homes. -/
def State.frameWrite (s : State) (host : Bool) (pa : Nat) (bs : List Byte) : State :=
  (List.range ((pa % 8 + bs.length + 7) / 8)).foldl (fun u k =>
    let at_ := pa / 8 * 8 + 8 * k
    let lo := if k = 0 then pa % 8 else 0
    let part := (bs.drop (if k = 0 then 0 else 8 * k - pa % 8)).take (8 - lo)
    u.setFrameWord host at_ (wordOf (natOfBytes (spliceBytes (bytesOfNat 8 (u.frameWord host at_).toNat) lo part)))) s

/-- A physical read of 8 bytes, at the entry's home (R295). DESIGN CHOICE: past the 1,024 GB of HBM, and where no set covers an
address, memory stands all the same (R4; assumption 41). -/
def State.physWord (s : State) (pa : Nat) : Word := s.frameWord false pa
/-- A physical write of 8 bytes, at the entry's home (R295). -/
def State.setPhysWord (s : State) (pa : Nat) (w : Word) : State := s.setFrameWord false pa w
/-- Physical bytes. -/
def State.physBytes (s : State) (pa n : Nat) : List Byte := s.frameRead false pa n
/-- Write physical bytes. -/
def State.setPhysBytes (s : State) (pa : Nat) (bs : List Byte) : State := s.frameWrite false pa bs

/-! ## Protection (R297) -/

/-- The rights that the domain directory gives a job in the region of an address: the entry a miss fills. -/
def State.directoryEntry (s : State) (x : Job) (va : Nat) : PlbEntry :=
  let entry := bitsOf s.ddir.toNat 20 32 * 2 ^ 20 + 16 * x.domain
  let root := bitsOf (s.physWord entry).toNat 12 40 * 2 ^ 12
  let generation := bitsOf (s.physWord (entry + 8)).toNat 0 8
  let table := (s.physWord (root + 8 * packageOf va)).toNat
  let rights : Nat :=
    if table = 0 then 0 else
      let at_ := table + bitsOf va 30 20
      bitsOf (s.physWord (at_ / 8 * 8)).toNat (8 * (at_ % 8)) 3
  { domain := x.domain, generation := generation, region := va / 2 ^ 30, rights := BitVec.ofNat 3 rights }

/-- The entry that decides an access of a core's job: the buffer's, or the directory's on a miss. -/
def State.protection (s : State) (c : Nat) (x : Job) (va : Nat) : PlbEntry :=
  ((s.core c).plb.find? fun e => e.domain == x.domain && e.generation == x.generation && e.region == va / 2 ^ 30).getD
    (s.directoryEntry x va)

/-- The rights an access asks for: R 0, W 1, X 2 (R295). -/
def AccKind.needs : AccKind → List Nat
  | .read => [0]
  | .write => [1]
  | .fetch => [2]
  | .atomic => [0, 1]
  | .copy => [0]
  | .tileFetch => [0]

/-- Step 6 of R39 (R297): the job's domain permits the access. -/
def State.permits (s : State) (c j : Nat) (k : AccKind) (va : Nat) : Bool :=
  match s.job j with
  | some x =>
    let e := s.protection c x va
    e.generation == x.generation && k.needs.all fun b => e.rights.toNat.testBit b
  | none => false

/-- Keep the entry that decided an access in the core's buffer of 64 entries. -/
def State.keepProtection (s : State) (c j va : Nat) : State :=
  match s.job j with
  | some x =>
    let e := s.protection c x va
    if (s.core c).plb.contains e then s
    else s.onCore c fun k => { k with plb := (e :: k.plb).take 64 }
  | none => s

/-! ## Translation (R292-R295) -/

/-- What the tables say of an address. -/
inductive Walk where
  | invalid
  | malformed (entryAt : Nat)
  | leaf (entryAt : Nat) (t : Translation)
  deriving DecidableEq, Repr

/-- The size of a leaf page at a level (R293). -/
def pageSize (level : Nat) : Nat := if level = 0 then 2 ^ 16 else if level = 1 then 2 ^ 21 else 2 ^ 30
/-- The index of an address at a level (R293). -/
def levelIndex (level va : Nat) : Nat :=
  if level = 0 then bitsOf va 16 5 else if level = 1 then bitsOf va 21 9 else if level = 2 then bitsOf va 30 10
  else bitsOf va 40 10

/-- A table pointer's fields that must be zero are zero, and its level may hold one (R294). -/
def pointerOk (w : Word) (level : Nat) : Bool := level != 0 && fieldOf w 52 10 == 0 && fieldOf w 0 8 == 0

/-- A frame lies in an interleave set whose channels are all on a die (R290). -/
def State.pinnedTo (s : State) (frame die : Nat) : Bool :=
  match s.setOf frame with
  | some t => t.channels.all fun c => c / 128 == die
  | none => false

/-- A leaf is well formed at its level (R294, R290). -/
def State.leafOk (s : State) (w : Word) (level : Nat) : Bool :=
  let frame := fieldOf w 16 36 * 2 ^ 16
  let loc := bitOf w 61
  let av := bitOf w 60
  let heap := bitOf w 15
  level != 3 && fieldOf w 52 6 == 0 && fieldOf w 6 3 == 0 && !bitOf w 0 && frame % pageSize level == 0
    && (!heap || level == 0) && fieldOf w 13 2 != 3 && !(loc && (av || heap))
    && (!av || s.pinnedTo frame (fieldOf w 58 2))

/-- The translation that a leaf gives (R292). -/
def leafTranslation (w : Word) (level slice va : Nat) : Translation :=
  { slice := slice, page := va - va % pageSize level, size := pageSize level, frame := fieldOf w 16 36 * 2 ^ 16,
    host := bitOf w 61, av := bitOf w 60, adie := BitVec.ofNat 2 (fieldOf w 58 2), r := bitOf w 1, w := bitOf w 2,
    x := bitOf w 3, dirty := bitOf w 5, heap := bitOf w 15,
    hstate := BitVec.ofNat 2 (fieldOf w 13 2), epoch := BitVec.ofNat 4 (fieldOf w 9 4) }

/-- Walk the tables downward from a level (R293, R294). -/
def State.walkFrom (s : State) (slice va table : Nat) : Nat → Walk
  | 0 =>
    let at_ := table + 8 * levelIndex 0 va
    let w := s.physWord at_
    if !bitOf w 63 then .invalid
    else if bitOf w 62 && s.leafOk w 0 then .leaf at_ (leafTranslation w 0 slice va)
    else .malformed at_
  | level + 1 =>
    let at_ := table + 8 * levelIndex (level + 1) va
    let w := s.physWord at_
    if !bitOf w 63 then .invalid
    else if bitOf w 62 then
      (if s.leafOk w (level + 1) then .leaf at_ (leafTranslation w (level + 1) slice va) else .malformed at_)
    else if pointerOk w (level + 1) then s.walkFrom slice va (fieldOf w 8 44 * 2 ^ 8) level
    else .malformed at_

/-- Walk the tables from ptroot (R293, R296). -/
def State.walk (s : State) (slice va : Nat) : Walk := s.walkFrom slice va (bitsOf s.ptroot.toNat 13 39 * 2 ^ 13) 3

/-- Two translations give a page the same frame and rights. -/
def Translation.agrees (t u : Translation) : Bool :=
  t.page == u.page && t.size == u.size && t.frame == u.frame && t.host == u.host && t.r == u.r && t.w == u.w
    && t.x == u.x && t.heap == u.heap

/-- The slice's cached translation of an address, with the choice of R296: where the tables no longer agree with it,
each access takes the old entry or the new one. -/
def State.translation (s : State) (p : Place) (va : Nat) : Option Translation :=
  match (s.tile p.tile).translations.find? fun t => t.slice == p.slice && t.page ≤ va && va < t.page + t.size with
  | none => none
  | some t =>
    match s.walk p.slice va with
    | .leaf _ u => if t.agrees u || Config.keepsOldEntry s.moves then some t else none
    | _ => if Config.keepsOldEntry s.moves then some t else none

/-- A translation has the rights of an access; a write through D = 0 is a miss (R292). -/
def Translation.allows (t : Translation) (k : AccKind) : Bool :=
  k.needs.all fun b => if b = 0 then t.r else if b = 1 then t.w else t.x
/-- The access writes. -/
def AccKind.writes : AccKind → Bool
  | .write => true
  | .atomic => true
  | _ => false

/-- What a home says of an access it receives (R134, R295). -/
inductive HomeCheck where
  | held                        -- the sector is there
  | mapped (t : Translation)    -- the page is translated
  | miss                        -- a walker must translate it
  | busy                        -- the slice cannot take it now: its lines are moving, or no way of its set can be freed
  | fails (cause : BitVec 8)
  deriving DecidableEq, Repr

/-- The sector of an address at a slice. -/
def State.sectorAt (s : State) (p : Place) (va : Nat) : Option Sector := storeGet noSector s.l2 (p.sectorKey va)

/-! ### Room in a slice (R280, R283) -/

/-- The sets of a slice: 1,024 lines in 8 ways (R280). -/
def sliceSets : Nat := 128
/-- The ways of a set (R280). -/
def sliceWays : Nat := 8
/-- The set in which a slice places a line (log 42). -/
def setOfLine (line : Nat) : Nat := Config.l2Set line % sliceSets

/-- The first vas of the lines that a slice holds, as their home or as their die's proxy (R2, R280, R285). -/
def State.heldLines (s : State) (p : Place) : List Nat :=
  (((s.l2.map (·.1) ++ s.proxyCopies.map (·.1)).filter fun k => k / 2 ^ 56 == p.id).map fun k =>
    lineStart (k % 2 ^ 56)).eraseDups

/-- A store packet in flight for a line: it keeps the line from eviction (R283). -/
def State.lineBusy (s : State) (line : Nat) : Bool :=
  s.net.any fun q => match q with | .store r => lineStart r.va == line | _ => false

/-- A line may be chosen for eviction: no pin and no registration in flight (R283). -/
def State.evictable (s : State) (p : Place) (line : Nat) : Bool :=
  storeGet noPins s.pins (2 ^ 56 * p.id + line) == 0 && !s.lineBusy line

/-- What taking a line asks of its slice. -/
inductive Room where
  | free                        -- the line is held, or a way of its set is free
  | after (victim : Nat)        -- a line of its set is evicted first
  | none                        -- no line of its set may be evicted
  deriving DecidableEq, Repr

/-- The room of a slice for a line. In stage REDUCED nothing is evicted and the slices hold what is mapped (R415). -/
def State.roomFor (s : State) (p : Place) (va : Nat) : Room :=
  let lines := s.heldLines p
  if s.stage == .reduced || lines.contains (lineStart va) || lines.length < sliceWays then .free
  else
    let mine := lines.filter fun l => setOfLine l == setOfLine (lineStart va)
    if mine.length < sliceWays then .free
    else
      let open_ := mine.filter (s.evictable p)
      match open_[Config.l2Victim s.moves % open_.length]? with
      | some l => .after l
      | Option.none => .none

/-- The slice of a key of `l2`. -/
def placeOfKey (k : Nat) : Place := { tile := k / 2 ^ 57, slice := k / 2 ^ 56 % 2 }

/-- Another key of the slices holds the bytes of a frame, in a line that may not be evicted: it is pinned, or a registration for
it is in flight (R283; assumption 38). -/
def State.heldElsewhere (s : State) (host : Bool) (pa key : Nat) : Bool :=
  match s.cachedAt host pa with
  | some (k, _) => k != key && !s.evictable (placeOfKey k) (lineStart (k % 2 ^ 56))
  | none => false

/-- A cession has moved the lines of a tile on: the slice answers no one until the commit (R362). -/
def State.linesMoving (s : State) (tile : Nat) : Bool :=
  match (s.tile tile).cession with
  | some x => x.loser.isSome && x.emptied
  | none => false

/-- Stage REDUCED lacks a frame: host memory, and device addresses from 96 MiB on (R415). -/
def State.lacksFrame (s : State) (host : Bool) (pa : Nat) : Bool := s.stage == .reduced && (host || 96 * 2 ^ 20 ≤ pa)

/-- Host memory does not support an atomic: its AtomicOp is not among those of the host's completer (R151). -/
def atomicRefused (host : Bool) (op : Option Nat) : Bool :=
  host && !Config.cxlCache && !(match op with | some n => Config.atomicOp n | none => false)

/-- The check of R134 at the home, with R415 for frames that stage REDUCED lacks and R151 for atomics to host memory (0x0D):
`op` is the atomic's AtomicOp. -/
def State.homeCheck (s : State) (p : Place) (va : Nat) (k : AccKind) (op : Option Nat) : HomeCheck :=
  let unsupported (host : Bool) : Bool := k == .atomic && atomicRefused host op
  if s.linesMoving p.tile then .busy else
  match s.sectorAt p va with
  | some x => if unsupported x.host then .fails 0x0D else .held
  | none =>
    match s.translation p va with
    | none => .miss
    | some t =>
      if !t.allows k || s.lacksFrame t.host (t.frame + (va - t.page)) then .fails 0x08
      else if k.writes && !t.dirty then .miss
      else if unsupported t.host then .fails 0x0D
      else if s.roomFor p va == .none || s.heldElsewhere t.host (t.frame + (va - t.page)) (p.sectorKey va) then .busy
      else .mapped t

/-- Put a request into the mailbox of a walker of the slice's tile, merging by page; with both full it waits (R295). -/
def State.askWalker (s : State) (p : Place) (r : WalkRequest) : State :=
  let box (n : Nat) := storeGet noWalks (s.tile p.tile).mailboxes (2 * p.slice + n)
  let pages (n : Nat) := ((box n).map fun q => q.va / 65536).eraseDups
  let put (n : Nat) := s.onTile p.tile fun t =>
    { t with mailboxes := storeSet noWalks t.mailboxes (2 * p.slice + n) (box n ++ [r]) }
  if (box 0).any (fun q => q.who == r.who && q.va == r.va && q.kind == r.kind)
      || (box 1).any (fun q => q.who == r.who && q.va == r.va && q.kind == r.kind) then s
  else if (pages 0).contains (r.va / 65536) then put 0
  else if (pages 1).contains (r.va / 65536) then put 1
  else if (pages 0).length < 16 then put 0
  else if (pages 1).length < 16 then put 1
  else if (s.tile p.tile).walkWaiting.contains r then s
  else s.onTile p.tile fun t => { t with walkWaiting := t.walkWaiting ++ [r] }

/-- The requests that waited in a tile's slices go to its mailboxes as far as these have room (R295). -/
def State.askAgain (s : State) (tile : Nat) : State :=
  let rs := (s.tile tile).walkWaiting
  rs.foldl (fun (u : State) r => u.askWalker { tile := r.tile, slice := r.slice } r)
    (s.onTile tile fun t => { t with walkWaiting := [] })

/-- Cache a translation in its slice, which holds 512 (R292). -/
def State.cacheTranslation (s : State) (tile : Nat) (t : Translation) : State :=
  s.onTile tile fun x =>
    let mine := x.translations.filter fun u => u.slice == t.slice && u.page != t.page
    let others := x.translations.filter fun u => u.slice != t.slice
    { x with translations := t :: mine.take 511 ++ others }

/-! ## The slices (R282, R283) -/

/-- Charge bytes to a traffic counter of a tile (R37, R291). -/
def State.charge (s : State) (tile counter n : Nat) : State :=
  s.onTile tile fun t =>
    { t with traffic := storeSet noVal t.traffic counter (storeGet noVal t.traffic counter + wordOf n) }

/-- Charge bytes that a slice returns to a core's tile (R291). -/
def State.chargeSlice (s : State) (p : Place) (tile n : Nat) : State :=
  s.charge tile (if dieOfTile p.tile = dieOfTile tile then 0 else 1) n

/-- Charge the bytes of an access to another core's scratchpad (R37, R291). -/
def State.chargeNear (s : State) (c tc n : Nat) : State :=
  if tc = c then s else s.charge (c / 4) (if dieOfTile (tc / 4) = dieOfTile (c / 4) then 4 else 5) n

/-- Write a sector back and free it, its owners revoked (R283). -/
def State.evict (s : State) (key : Nat) : State :=
  match storeGet noSector s.l2 key with
  | none => s
  | some x =>
    let word := key % 2 ^ 56 / 8
    let s1 := x.owners.foldl (fun (u : State) o => match o.2 with
      | some c => u.revokeOwner c (word + o.1)
      | none => u) s
    let s2 := if x.dirty then s1.setBacking x.host x.pa x.bytes else s1
    { s2 with l2 := storeSet noSector s2.l2 key none }

/-- Evict every sector of a line, a proxy's copies of it among them (R283, R285). -/
def State.evictLine (s : State) (p : Place) (va : Nat) : State :=
  (List.range 4).foldl (fun (u : State) k =>
    let key := 2 ^ 56 * p.id + lineStart va + 48 * k
    { u with proxyCopies := storeSet noProxy u.proxyCopies key none }.evict key) s

/-- A slice takes a line: one of its set is evicted first where the slice must (R280, R283). -/
def State.makeRoom (s : State) (p : Place) (va : Nat) : State :=
  match s.roomFor p va with
  | .after l => s.evictLine p l
  | _ => s

/-- A die's proxy keeps a copy of a sector, in a line of its slice; without room for one it keeps none (R2, R285). -/
def State.keepProxy (s : State) (q : Place) (va : Nat) (bs : List Byte) : State :=
  if s.roomFor q va == .none then s
  else
    let u := s.makeRoom q va
    { u with proxyCopies := storeSet noProxy u.proxyCopies (q.sectorKey va) (some bs) }

/-- Where the sector of an address begins in the backing store, under a translation. -/
def Translation.backing (t : Translation) (va : Nat) : Backing :=
  { pa := t.frame + (sectorStart va - t.page), host := t.host }

/-- Drop a die's proxy copy of a sector: a later die-reach read is then no older than what was read (R306; log 9). -/
def State.dropProxy (s : State) (j slot va : Nat) : State :=
  match s.proxyFor j (tileOfSlot slot) va with
  | some p => { s with proxyCopies := storeSet noProxy s.proxyCopies (p.sectorKey va) none }
  | none => s

/-- Fill a sector from its backing store, evicting a line of its set if the slice must (R280, R283); another slice that holds
these bytes, for another job or another package, writes them back first (assumption 38). The HBM bytes are charged to the
requester's tile (R291); a requester of another package has none. -/
def State.fill (s : State) (p : Place) (j va tile : Nat) (b : Backing) : State :=
  let n := sectorLen va
  let s0 := match s.cachedAt b.host b.pa with
    | some (k, _) => s.evict k
    | none => s
  let s1 := s0.makeRoom p va
  let s2 := if b.host || tileCount ≤ tile then s1 else s1.charge tile (if s1.dieOfAddress b.pa = dieOfTile tile then 2 else 3) n
  let version := match s.job j with | some x => x.version | none => 0
  { s2 with
    l2 := storeSet noSector s2.l2 (p.sectorKey va)
      (some { bytes := s2.backing b.host b.pa n, dirty := false, owners := [], version := version, pa := b.pa,
              host := b.host }) }

/-- Where a checked access finds its page (R296). -/
def HomeCheck.backing (s : State) (p : Place) (va : Nat) : HomeCheck → Option Backing
  | .held => (s.sectorAt p va).map fun x => { pa := x.pa, host := x.host }
  | .mapped t => some (t.backing va)
  | _ => none

/-- Make the sector of a checked access present at its home. -/
def State.present (s : State) (p : Place) (j va tile : Nat) : HomeCheck → State
  | .mapped t => s.fill p j va tile (t.backing va)
  | _ => s

/-- Bytes of a sector the home holds. -/
def State.homeBytes (s : State) (p : Place) (va n : Nat) : List Byte :=
  match s.sectorAt p va with
  | some x => (x.bytes.drop (va - sectorStart va)).take n
  | none => List.replicate n 0

/-- A host line is not kept without CXL.cache: a read is made afresh, a write goes through (R287). -/
def State.letGo (s : State) (p : Place) (va : Nat) : State :=
  match s.sectorAt p va with
  | some x => if x.host && !Config.cxlCache then s.evict (p.sectorKey va) else s
  | none => s

/-- The granule of an address is armed for some job: the first write to it waits until its pre-image is copied (R386). -/
def State.armed (s : State) (va : Nat) : Bool := s.jobs.any fun e => match e.2 with
  | some x => x.armed.contains (va / 65536)
  | none => false

/-- Copy the pre-image of a granule for every job that has it armed, before a write (R386). -/
def State.preImage (s : State) (va : Nat) : State :=
  let g := va / 65536
  let bytes := match s.walk 0 (65536 * g) with
    | .leaf _ t => s.physBytes (t.frame + (65536 * g - t.page)) 65536
    | _ => []
  (s.jobs.map (·.1)).foldl (fun (u : State) j => match u.job j with
    | some x =>
      if x.armed.contains g then u.setJob j { x with
        armed := x.armed.filter (· != g)
        image := x.image.map fun i => { i with preImages := i.preImages ++ [(g, bytes)] } }
      else u
    | none => u) s

/-- The armed granules of any job that a device physical address lies in. -/
def State.armedAt (s : State) (pa : Nat) : List Nat :=
  ((s.jobs.flatMap fun e => match e.2 with | some x => x.armed | none => []).eraseDups).filter fun g =>
    match s.walk 0 (65536 * g) with
    | .leaf _ t => let first := t.frame + (65536 * g - t.page); decide (first ≤ pa ∧ pa < first + 65536)
    | _ => false

/-- Write a page-table entry on a job's behalf. The write of a granule that is armed waits until it is copied (R386). -/
def State.setEntry (s : State) (pa : Nat) (w : Word) : State := s.setPhysWord pa w

/-- The words of an access. -/
def wordsOf (va n : Nat) : List Nat := (List.range ((n + 7) / 8)).map fun k => va / 8 + k

/-- Merge bytes into a sector at its home, marking it Dirty; `owner` is the core that takes the words, or none for a write that
no core owns. Each former owner of this package is sent a revoke, and one of another package too (R283, R240). -/
def State.merge (s : State) (p : Place) (va : Nat) (bs : List Byte) (owner : Option Owner) : State :=
  match s.sectorAt p va with
  | none => s
  | some x =>
    let base := sectorStart va / 8
    let ws := wordsOf va bs.length
    let former := ws.filterMap fun w => match storeGet noOwner x.owners (w - base) with
      | some o => if some o == owner then none else some (o, w)
      | none => none
    let owners := ws.foldl (fun o w => storeSet noOwner o (w - base) (if x.host && !Config.cxlCache then none else owner))
      x.owners
    let y := { x with bytes := spliceBytes x.bytes (va - sectorStart va) bs, dirty := true, owners := owners }
    { s with
      l2 := storeSet noSector s.l2 (p.sectorKey va) (some y)
      net := s.net ++ (former.filter fun e => e.1.package == s.pkgid).map fun e => Packet.revoke e.1.core e.2
      peerRevokes := ((former.filter fun e => e.1.package != s.pkgid).map fun e =>
        { owner := e.1, word := e.2, recalled := false }) ++ s.peerRevokes }

/-- The core of this package that owns a word at its home, other than a given one. Another package's owner is not asked: the
home holds every byte that it has registered (R279, R283; log 43). -/
def State.ownerAt (s : State) (p : Place) (va : Nat) (other : Nat) : Option Nat :=
  match s.sectorAt p va with
  | some x => match storeGet noOwner x.owners (va / 8 - sectorStart va / 8) with
    | some o => if o.package == s.pkgid && o.core != other then some o.core else none
    | none => none
  | none => none

/-! ## The L1 (R279) -/

/-- The slot that sent a packet, for those of a slot. -/
def Packet.slot : Packet → Option Nat
  | .load p => some p.slot
  | .forwarded p _ => some p.slot
  | .reply p => some p.slot
  | .store p => some p.slot
  | .ack n _ _ _ _ => some n
  | .revoke _ _ => none
  | .near p => some p.slot
  | .atomic p => some p.slot
  | .atomicReply n _ _ _ _ => some n
  | .barrier p => some p.slot
  | .barReply n _ => some n
  | .joinReply n _ => some n
  | .message p => p.sender
  | .record _ _ r => r.source
  | .enqueue p => some p.slot
  | .context _ _ n _ => n
  | .dep p => some p.slot
  | .deque p => some p.slot
  | .plbFlush n _ _ => some n

/-- Address words of the L1: global words by va / 8, near words above them by pool place (R140). -/
def nearWord (core off : Nat) : Nat := 2 ^ 53 + (2 ^ 18 * core + off) / 8
/-- The byte of the L1's addresses that stands for a scratchpad byte. -/
def nearKey (core off : Nat) : Nat := 2 ^ 56 + (2 ^ 18 * core + off)
/-- The pool place of a scratchpad byte. -/
def poolAt (core off : Nat) : Nat := 2 ^ 18 * core + off

/-- The bytes of an access that hits the L1 whole. -/
def State.l1Read (s : State) (c word off n : Nat) : Option (List Byte) :=
  let ws := (List.range ((n + 7) / 8)).map fun k => storeGet noL1 (s.core c).l1 (word + k)
  if ws.all Option.isSome then
    some (((ws.flatMap fun e => match e with | some x => bytesOfNat 8 x.val.toNat | none => []).drop off).take n)
  else none

/-- Every word of an access is in the L1 and owned by the core (R142). -/
def State.l1Owns (s : State) (c word n : Nat) : Bool :=
  (List.range ((n + 7) / 8)).all fun k => match storeGet noL1 (s.core c).l1 (word + k) with
    | some x => x.owned
    | none => false

/-- A store writes its bytes into the words that the L1 holds (R279). -/
def State.l1Write (s : State) (c word off : Nat) (bs : List Byte) : State :=
  s.onCore c fun k => { k with
    l1 := (List.range ((off + bs.length + 7) / 8)).foldl (fun m i =>
    match storeGet noL1 m (word + i) with
    | some x =>
      let old := bytesOfNat 8 x.val.toNat
      let lo := if i = 0 then off else 0
      let part := (bs.drop (8 * i - (if i = 0 then 0 else off))).take (8 - lo)
      storeSet noL1 m (word + i) (some { x with val := wordOf (natOfBytes (spliceBytes old lo part)) })
    | none => m) k.l1 }

/-- Drop the words of an access from the L1 (R147). -/
def State.l1Forget (s : State) (c word n : Nat) : State :=
  s.onCore c fun k => { k with l1 := (List.range ((n + 7) / 8)).foldl (fun m i => storeSet noL1 m (word + i) none) k.l1 }

/-- The invalidation of an acquire: every word of the L1 that the core does not own (R142). -/
def Core.invalidate (k : Core) : Core :=
  { k with l1 := k.l1.filter fun e => match e.2 with | some x => x.owned | none => false }

/-- A core drops a word that it owns: a revoke of it is on its way, or its home lies in another package, whose revoke may be. -/
def State.dropsOwned (s : State) (c w : Nat) : Bool :=
  !s.isOurs (8 * w) || s.net.any fun p => match p with | .revoke d v => d == c && v == w | _ => false

/-- The invalidation of an acquire of a core. A word whose revoke is on its way goes too, for another core has written it; at
package reach the copies of the die's proxies go, so that a later die-reach read is no older than what the acquire established
(R306, R313, R314; log 9). -/
def State.acquire (s : State) (c : Nat) (package : Bool) : State :=
  let s1 := s.onCore c fun k => { k.invalidate with l1 := k.invalidate.l1.filter fun e => !s.dropsOwned c e.1 }
  if package then
    { s1 with proxyCopies := s1.proxyCopies.filter fun e => dieOfTile (e.1 / 2 ^ 57) != dieOfTile (c / 4) }
  else s1

/-- The checked global stores of a core on their way to a word, oldest first, laid over its bytes (R279). -/
def overlay (c word : Nat) (net : List Packet) (bs : List Byte) : List Byte :=
  net.foldl (fun acc q => match q with
    | .store r =>
      if r.slot / 64 = c && r.retire.isNone then
        (List.range r.bytes.length).foldl (fun m i =>
          if (r.va + i) / 8 = word then spliceBytes m ((r.va + i) % 8) [r.bytes.getD i 0] else m) acc
      else acc
    | _ => acc) bs

/-- Two byte ranges share a byte. -/
def rangesMeet (a n b m : Nat) : Bool := a < b + m && b < a + n

/-- Two byte ranges share an aligned word. -/
def wordsMeet (a n b m : Nat) : Bool := rangesMeet (a / 8 * 8) ((a % 8 + n + 7) / 8 * 8) b m

/-- The L1 answers a load of a slot: it holds the bytes, no other slot of the core has a store on its way to their words, those of
the slot itself cover the load, so that what it reads stands at one point of each word's order and is never ahead of it, and no
earlier load of the slot of these bytes waits at an owner (R137, R146, R306, R313, R317). -/
def State.l1Hit (s : State) (n key size : Nat) : Option (List Byte) :=
  let c := n / 64
  let held := s.net.any fun p => match p with
    | .store r => r.slot / 64 == c && r.retire.isNone && wordsMeet key size r.va r.bytes.length
        && (r.slot != n || !(r.va ≤ key && key + size ≤ r.va + r.bytes.length))
    | .forwarded r _ => r.slot == n && rangesMeet key size r.va r.size
    | _ => false
  if held then none else s.l1Read c (key / 8) (key % 8) size

/-- The first word of the sector of an L1 word: 48 bytes of a global line, or of a scratchpad from its offset 0 (R279, R280). -/
def l1Sector (w : Nat) : Nat :=
  if w < 2 ^ 53 then sectorStart (8 * w) / 8
  else
    let p := 8 * (w - 2 ^ 53)
    2 ^ 53 + (p / 2 ^ 18 * 2 ^ 18 + p % 2 ^ 18 / 48 * 48) / 8

/-- The sets of a core's L1: (pb2 - pb1) / 64 sectors in 8 ways (R279). -/
def State.l1Sets (s : State) (c : Nat) : Nat :=
  match s.ownerJob (c / 4) with
  | some x => (x.pb2 - x.pb1) / 512
  | none => 0

/-- Put words of one sector into a core's L1, each as it stands at its home now under the core's own stores in flight. The
words of the sector that the L1 held are replaced with them, so that no sector mixes two instants; a set that is full, and
replacement, drop others (R146, R279). -/
def State.l1Fill (s : State) (c : Nat) (ws : List (Nat × List Byte)) : State :=
  match ws with
  | [] => s
  | (w0, _) :: _ =>
    let sec := l1Sector w0
    let sets := s.l1Sets c
    s.onCore c fun k =>
      let others := k.l1.filter fun e => l1Sector e.1 != sec && !Config.l1Drops s.moves (l1Sector e.1)
      let mates := ((others.map fun e => l1Sector e.1).eraseDups).filter fun t => Config.l1Set t % sets == Config.l1Set sec % sets
      let victim := if mates.length < 8 then none else mates[Config.l1Victim s.moves % mates.length]?
      let kept := others.filter fun e => some (l1Sector e.1) != victim
      if sets = 0 then { k with l1 := kept }
      else { k with
        l1 := ws.foldl (fun m w =>
          let owned := match storeGet noL1 k.l1 w.1 with | some x => x.owned | none => false
          storeSet noL1 m w.1 (some { val := wordOf (natOfBytes (overlay c w.1 s.net w.2)), owned := owned })) kept }

/-- The words of a core's L1 among some are brought up to what their home holds now, under the core's own stores in flight;
those that `owns` names become its own (R279, R283). -/
def State.l1Refresh (s : State) (c : Nat) (ws : List (Nat × List Byte)) (owns : List Nat) : State :=
  s.onCore c fun k => { k with
    l1 := ws.foldl (fun m w => match storeGet noL1 m w.1 with
      | some x => storeSet noL1 m w.1
          (some { val := wordOf (natOfBytes (overlay c w.1 s.net w.2)), owned := x.owned || owns.contains w.1 })
      | none => m) k.l1 }

/-- The words of a sector as its home holds them. -/
def State.sectorWords (s : State) (p : Place) (va : Nat) : List (Nat × List Byte) :=
  match s.sectorAt p va with
  | some x => (List.range (x.bytes.length / 8)).map fun i => (sectorStart va / 8 + i, (x.bytes.drop (8 * i)).take 8)
  | none => []

/-! ## Scratchpads (R24, R27) -/

/-- The supply state of the scratchpad leaf of an offset. -/
def State.scratchLeaf (s : State) (c off : Nat) : LeafState :=
  storeGet fullLeaf (s.core c).scratchLeaves (off / 4096)

/-- Start a scratchpad leaf's wake: from OFF its bytes return as zeros (R27). -/
def State.wakeScratch (s : State) (c off : Nat) : State :=
  let leaf := off / 4096
  match s.scratchLeaf c off with
  | .full => s
  | .waking => s
  | .retain => s.onCore c fun k => { k with scratchLeaves := storeSet fullLeaf k.scratchLeaves leaf .waking }
  | .off =>
    let s1 := s.onCore c fun k => { k with scratchLeaves := storeSet fullLeaf k.scratchLeaves leaf .waking }
    { s1 with pool := storeDrop (poolAt c (4096 * leaf)) (poolAt c (4096 * leaf + 4096)) s1.pool }

/-- Bytes of a scratchpad. -/
def State.scratch (s : State) (c off n : Nat) : List Byte := s.pool.bytes (poolAt c off) n
/-- Write bytes of a scratchpad. -/
def State.setScratch (s : State) (c off : Nat) (bs : List Byte) : State :=
  { s with pool := s.pool.setBytes (poolAt c off) bs }
/-- A word of a scratchpad. -/
def State.scratchWord (s : State) (c off : Nat) : Word := s.pool.word (poolAt c off)
/-- The sector of a near word that holds an offset of a scratchpad, up to the scratchpad's end (R140, R279). -/
def State.nearSector (s : State) (c off limit : Nat) : List (Nat × List Byte) :=
  let first := off / 48 * 48
  (List.range ((min 48 (limit - first)) / 8)).map fun i => (nearWord c (first + 8 * i), s.scratch c (first + 8 * i) 8)
/-- Write a word of a scratchpad. -/
def State.setScratchWord (s : State) (c off : Nat) (w : Word) : State := { s with pool := s.pool.setWord (poolAt c off) w }

end Sys2Proof.Machine
end

