-- ==== Sys2Proof/Machine/Events.lean ====
section
/-! DEFINITION. The host's rings: events (R392, R399, R400, R403) and page-fault records (R299). -/

namespace Sys2Proof.Machine

/-- The number of the physical function among the functions' registers. -/
def physicalFunction : Nat := 64

/-- A ring's base register names a ring of 2^ESZ entries, ESZ from 4 to 12 (R400). -/
def ringEntries (base : Word) : Option Nat :=
  let esz := fieldOf base 0 5
  if 4 ≤ esz && esz ≤ 12 then some (2 ^ esz) else none

/-- A ring has room: its tail is not 2^ESZ ahead of its head (R400). -/
def ringHasRoom (base head tail : Word) : Bool :=
  match ringEntries base with
  | some n => decide ((tail - head).toNat < n)
  | none => false

/-- The bus address of the entry that a tail names. -/
def ringAt (base tail : Word) : Nat :=
  fieldOf base 12 52 * 2 ^ 12 + 32 * (tail.toNat % (ringEntries base).getD 1)

/-- The four words of an event entry (R403). -/
def HostEvent.words (e : HostEvent) (eseq : Nat) : List Word :=
  [wordOf (e.code.toNat + 2 ^ 8 * e.status.toNat + 2 ^ 16 * e.outer.toNat + (if e.double then 2 ^ 24 else 0)
      + 2 ^ 48 * (e.job % 65536)), e.value, e.cyc, wordOf eseq]

/-- Words as bytes, least significant first (R50). -/
def bytesOfWords (ws : List Word) : List Byte := ws.flatMap fun w => bytesOfNat 8 w.toNat

/-- EVBASE of a function's event ring. DESIGN CHOICE: R399 gives the physical function a ring and no register, so its base is a
constant of the model and its host reads each entry at once (assumption 60). -/
def State.eventBase (s : State) (v : Nat) : Word := if v = physicalFunction then Config.physicalRing else (s.tenant v).evbase

/-- A function's event ring takes an entry now: it is not paused and its ring has room (R392, R400). -/
def State.takesEvent (s : State) (v : Nat) : Bool :=
  let t := s.tenant v
  !t.paused && (v == physicalFunction || ringHasRoom t.evbase t.evhead t.evtail)

/-- Write the oldest pending event of a function into its ring, then its MSI-X message (R399). -/
def State.writeEvent (s : State) (v : Nat) : State :=
  let t := s.tenant v
  match t.events with
  | [] => s
  | e :: rest =>
    if !s.takesEvent v then s
    else
      let bytes := bytesOfWords (e.words (t.eventCount + 1))
      let s1 := { s with host := s.host.setBytes (ringAt (s.eventBase v) t.evtail) bytes }
      s1.onTenant v fun t =>
        { t with events := rest, eventCount := t.eventCount + 1, evtail := t.evtail + 1, sentMsix := 0 :: t.sentMsix }

/-- Write a function's pending events as far as its ring has room. -/
def State.drainEvents (s : State) (v : Nat) : State :=
  (List.range (s.tenant v).events.length).foldl (fun u _ => u.writeEvent v) s

/-- Raise an event on a function (R392). -/
def State.postEvent (s : State) (v : Nat) (e : HostEvent) : State :=
  (s.onTenant v fun t => { t with events := t.events ++ [e] }).drainEvents v

/-- An event about a job, with the cyc of its raising. -/
def State.eventOf (s : State) (j code status : Nat) (value : Word) : HostEvent :=
  { job := j, code := BitVec.ofNat 8 code, status := BitVec.ofNat 8 status, value := value, double := false, outer := 0,
    cyc := wordOf s.cyc }

/-- Raise an event for a job on its tenant's function; a descheduled job's events are kept (R392). -/
def State.postJobEvent (s : State) (j : Nat) (e : HostEvent) : State :=
  match s.job j with
  | none => s
  | some x =>
    if x.phase = .waiting then s.setJob j { x with heldEvents := x.heldEvents ++ [e] }
    else s.postEvent x.tenant e

/-- Event 2: a request of a function is refused; VALUE is the register's offset (R403). -/
def State.refuseRequest (s : State) (v j status offset : Nat) : State :=
  s.postEvent v (s.eventOf j 2 status (wordOf offset))

/-- An error report: an entry of the physical function's event ring, then its vector 2 (R399). -/
def State.reportError (s : State) (e : HostEvent) : State :=
  (s.postEvent physicalFunction e).onTenant physicalFunction fun t => { t with sentMsix := 2 :: t.sentMsix }

/-- A fault record is of a job that is descheduled: it is kept until the job resumes (R392). -/
def State.keepsRecord (s : State) (ws : List Word) : Bool :=
  match s.job (fieldOf (ws.getD 1 0) 48 16) with
  | some x => x.phase == .waiting
  | none => false

/-- Write the oldest fault record that waits, and is not kept for its job, into a function's pager ring (R299, R392). -/
def State.writeFault (s : State) (v : Nat) : State :=
  let t := s.tenant v
  match t.pagerWaiting.find? (!s.keepsRecord ·) with
  | none => s
  | some ws =>
    if t.paused || !ringHasRoom t.pgbase t.pghead t.pgtail then s
    else
      let s1 := { s with host := s.host.setBytes (ringAt t.pgbase t.pgtail) (bytesOfWords ws) }
      s1.onTenant v fun t =>
        { t with pagerWaiting := t.pagerWaiting.erase ws, pgtail := t.pgtail + 1, sentMsix := 1 :: t.sentMsix }

/-- Write a function's waiting fault records as far as its pager ring has room. -/
def State.drainFaults (s : State) (v : Nat) : State :=
  (List.range (s.tenant v).pagerWaiting.length).foldl (fun u _ => u.writeFault v) s

/-- The KIND of a fault record (R299). -/
def AccKind.code : AccKind → Nat
  | .read => 1
  | .write => 2
  | .fetch => 3
  | .atomic => 4
  | .copy => 5
  | .tileFetch => 6

/-- The place of a requester: tile, core and slot, 62 for a copy (R299). A receive ring, written as a copy is (R407), has no core:
tile 0 stands for it (log 61). -/
def Requester.place : Requester → Nat × Nat × Nat
  | .slot n => (tileOfSlot n, coreOfSlot n % 4, tidOf n)
  | .copy c _ => (c / 4, c % 4, 62)
  | .enqueue c _ => (c / 4, c % 4, 62)
  | .ring _ => (0, 0, 62)

/-- Record a page fault of a tenant: one record for the requesters of one page, none while that page's request is
pending, to whose record the requesters are added (R299). -/
def State.recordFault (s : State) (v j va : Nat) (k : AccKind) (who : List Requester) : State :=
  let t := s.tenant v
  if t.faults.any fun f => f.va / 65536 == va / 65536 && f.job == j then
    s.onTenant v fun t =>
      { t with faults := t.faults.map fun f =>
          if f.va / 65536 == va / 65536 && f.job == j then { f with who := f.who ++ who.filter (!f.who.contains ·) }
          else f }
  else
    let seq := t.faultCount + 1
    let (tile, core, slot) := match who with
      | w :: _ => w.place
      | [] => (0, 0, 0)
    let ws := [wordOf va, wordOf (2 ^ 48 * j + 2 ^ 24 * tile + 2 ^ 22 * core + 2 ^ 16 * slot + k.code),
      wordOf (seq % 2 ^ 63), 0]
    (s.onTenant v fun t =>
      { t with
        faultCount := seq, faults := t.faults ++ [{ seq := seq, va := va, job := j, who := who }],
        pagerWaiting := t.pagerWaiting ++ [ws] }).drainFaults v

end Sys2Proof.Machine
end

