-- ==== Sys2Proof/Machine/Flags.lean ====
section
/-! DEFINITION. Floating values and their flags: the formats of R51, exact values, the one rounding of R53 and R54, the
NaN rules of R55-R57, comparisons, conversions, roots and the transcendental functions of R204. -/

namespace Sys2Proof.Machine

/-! ## Flags of fsr (R32, R58) -/

/-- A set of fsr flags. -/
abbrev FlagSet := BitVec 6
/-- No flag. -/
def noFlags : FlagSet := 0
/-- Inexact. -/
def flagNX : FlagSet := 1
/-- Underflow. -/
def flagUF : FlagSet := 2
/-- Overflow. -/
def flagOF : FlagSet := 4
/-- Division by zero. -/
def flagDZ : FlagSet := 8
/-- Invalid operation. -/
def flagNV : FlagSet := 16
/-- Accumulator readout flushed a result to zero. -/
def flagAU : FlagSet := 32
/-- A flag, if a condition holds. -/
def flagIf (c : Bool) (f : FlagSet) : FlagSet := if c then f else noFlags

/-! ## Formats and values (R51) -/

/-- An IEEE format: exponent and fraction bits. -/
structure FloatFormat where
  ebits : Nat
  fbits : Nat
  deriving DecidableEq, Repr

/-- FP32. -/
def fp32 : FloatFormat := { ebits := 8, fbits := 23 }
/-- FP16. -/
def fp16 : FloatFormat := { ebits := 5, fbits := 10 }
/-- BF16. -/
def bf16 : FloatFormat := { ebits := 8, fbits := 7 }

/-- The format of a scalar type (R104). -/
def formatOf : FType → FloatFormat
  | .s => fp32
  | .h => fp16
  | .b => bf16

/-- The exponent bias. -/
def FloatFormat.bias (f : FloatFormat) : Nat := 2 ^ (f.ebits - 1) - 1
/-- The exponent of the least significant bit of a subnormal. -/
def FloatFormat.low (f : FloatFormat) : Int := 1 - (f.bias : Int) - f.fbits
/-- Bits of the whole format. -/
def FloatFormat.width (f : FloatFormat) : Nat := f.ebits + f.fbits + 1
/-- The bits of +∞. -/
def FloatFormat.infBits (f : FloatFormat) : Nat := (2 ^ f.ebits - 1) * 2 ^ f.fbits
/-- The canonical quiet NaN (R55). -/
def FloatFormat.nanBits (f : FloatFormat) : Nat := f.infBits + 2 ^ (f.fbits - 1)
/-- The bit of the sign. -/
def FloatFormat.signBit (f : FloatFormat) (neg : Bool) : Nat := if neg then 2 ^ (f.ebits + f.fbits) else 0

/-- A floating value: (−1)^neg · m · 2^e when finite. -/
inductive FVal where
  | nan (signalling : Bool)
  | inf (neg : Bool)
  | fin (neg : Bool) (m : Nat) (e : Int)
  deriving DecidableEq, Repr

/-- The value that bits stand for (R51, R55). -/
def FloatFormat.value (f : FloatFormat) (bits : Nat) : FVal :=
  let frac := bitsOf bits 0 f.fbits
  let ex := bitsOf bits f.fbits f.ebits
  let neg := bits.testBit (f.ebits + f.fbits)
  if ex = 2 ^ f.ebits - 1 then (if frac = 0 then .inf neg else .nan (!frac.testBit (f.fbits - 1)))
  else if ex = 0 then .fin neg frac f.low
  else .fin neg (2 ^ f.fbits + frac) (f.low + (ex - 1 : Nat))

/-- The value is a signalling NaN. -/
def FVal.signals : FVal → Bool
  | .nan s => s
  | _ => false
/-- The value is a NaN. -/
def FVal.isNan : FVal → Bool
  | .nan _ => true
  | _ => false
/-- The value is zero. -/
def FVal.isZero : FVal → Bool
  | .fin _ m _ => m == 0
  | _ => false
/-- The value is infinite. -/
def FVal.isInf : FVal → Bool
  | .inf _ => true
  | _ => false
/-- The sign. -/
def FVal.neg : FVal → Bool
  | .nan _ => false
  | .inf n => n
  | .fin n _ _ => n

/-- Bits of a result and the flags it raises. -/
structure FRes where
  bits : Nat
  flags : FlagSet
  deriving DecidableEq, Repr

/-! ## Rounding (R53, R54) -/

/-- Whether a rounding goes up in magnitude: `odd` the lowest kept bit, `rem` of `half · 2` what is dropped. -/
def roundsUp (mode : BitVec 2) (neg odd : Bool) (rem half : Nat) : Bool :=
  if mode = 0 then decide (half < rem) || (rem == half && odd)
  else if mode = 1 then false
  else if mode = 2 then neg && rem != 0
  else !neg && rem != 0

/-- Divide a magnitude by 2^k and round: the quotient and whether it is inexact. -/
def roundShift (mode : BitVec 2) (neg : Bool) (m k : Nat) : Nat × Bool :=
  if k = 0 then (m, false) else
    let q := m / 2 ^ k
    let rem := m % 2 ^ k
    (if roundsUp mode neg (q % 2 == 1) rem (2 ^ (k - 1)) then q + 1 else q, rem != 0)

/-- The number of bits of a positive number. -/
def bitLength (m : Nat) : Nat := if m = 0 then 0 else Nat.log2 m + 1

/-- The magnitude m · 2^e at quantum 2^q, rounded. -/
def toQuantum (mode : BitVec 2) (neg : Bool) (m : Nat) (e q : Int) : Nat × Bool :=
  if q ≤ e then (m * 2 ^ (e - q).toNat, false) else roundShift mode neg m (q - e).toNat

/-- Round (−1)^neg · m · 2^e to a format once: overflow under R54, tininess after rounding under R53. -/
def FloatFormat.round (f : FloatFormat) (mode : BitVec 2) (neg : Bool) (m : Nat) (e : Int) : FRes :=
  if m = 0 then { bits := f.signBit neg, flags := noFlags } else
    let free : Int := e + bitLength m - (f.fbits + 1)
    let q := max free f.low
    let (sig, inexact) := toQuantum mode neg m e q
    let (sig0, _) := toQuantum mode neg m e free
    let tiny := decide ((bitLength sig0 : Int) + free ≤ f.low + f.fbits)
    if (f.bias : Int) + 1 < bitLength sig + q then
      let toInf := if mode = 0 then true else if mode = 1 then false else if mode = 2 then neg else !neg
      { bits := f.signBit neg + (if toInf then f.infBits else f.infBits - 1), flags := flagOF ||| flagNX }
    else
      { bits := f.signBit neg + (q - f.low).toNat * 2 ^ f.fbits + sig,
        flags := flagIf inexact flagNX ||| flagIf (tiny && inexact) flagUF }

/-- Round an exact integer times 2^e; `zeroNeg` is the sign of an exact zero. -/
def FloatFormat.roundInt (f : FloatFormat) (mode : BitVec 2) (zeroNeg : Bool) (v e : Int) : FRes :=
  if v = 0 then { bits := f.signBit zeroNeg, flags := noFlags } else f.round mode (decide (v < 0)) v.natAbs e

/-- The canonical NaN with NV if a condition holds. -/
def FloatFormat.nan (f : FloatFormat) (invalid : Bool) : FRes := { bits := f.nanBits, flags := flagIf invalid flagNV }
/-- An infinity. -/
def FloatFormat.inf (f : FloatFormat) (neg : Bool) (flags : FlagSet) : FRes :=
  { bits := f.signBit neg + f.infBits, flags := flags }
/-- A zero. -/
def FloatFormat.zero (f : FloatFormat) (neg : Bool) : FRes := { bits := f.signBit neg, flags := noFlags }

/-! ## Arithmetic (R188) -/

/-- The signed integer of a magnitude. -/
def signed (neg : Bool) (m : Nat) : Int := if neg then -(m : Int) else m

/-- The exact sum of two finite values: a numerator and an exponent. -/
def exactSum (na : Bool) (ma : Nat) (ea : Int) (nb : Bool) (mb : Nat) (eb : Int) : Int × Int :=
  let e := min ea eb
  (signed na ma * 2 ^ (ea - e).toNat + signed nb mb * 2 ^ (eb - e).toNat, e)

/-- The sign of an exact zero sum: −0 in RDN, +0 otherwise; of two zeros of one sign, that sign (R188). -/
def zeroSumNeg (mode : BitVec 2) (na nb : Bool) (bothZero : Bool) : Bool :=
  if bothZero && na == nb then na else mode == 2

/-- Round(x + y). -/
def FloatFormat.add (f : FloatFormat) (mode : BitVec 2) (x y : FVal) : FRes :=
  let nv := x.signals || y.signals
  match x, y with
  | .nan _, _ => f.nan nv
  | _, .nan _ => f.nan nv
  | .inf a, .inf b => if a == b then f.inf a noFlags else f.nan true
  | .inf a, .fin _ _ _ => f.inf a noFlags
  | .fin _ _ _, .inf b => f.inf b noFlags
  | .fin na ma ea, .fin nb mb eb =>
    let (v, e) := exactSum na ma ea nb mb eb
    f.roundInt mode (zeroSumNeg mode na nb (ma == 0 && mb == 0)) v e

/-- The value with its sign inverted. -/
def FVal.negate : FVal → FVal
  | .nan s => .nan s
  | .inf n => .inf !n
  | .fin n m e => .fin (!n) m e

/-- Round(x − y). -/
def FloatFormat.sub (f : FloatFormat) (mode : BitVec 2) (x y : FVal) : FRes := f.add mode x y.negate

/-- Round(x × y). -/
def FloatFormat.mul (f : FloatFormat) (mode : BitVec 2) (x y : FVal) : FRes :=
  let nv := x.signals || y.signals
  match x, y with
  | .nan _, _ => f.nan nv
  | _, .nan _ => f.nan nv
  | .inf a, .inf b => f.inf (a != b) noFlags
  | .inf a, .fin b m _ => if m = 0 then f.nan true else f.inf (a != b) noFlags
  | .fin a m _, .inf b => if m = 0 then f.nan true else f.inf (a != b) noFlags
  | .fin a ma ea, .fin b mb eb => f.round mode (a != b) (ma * mb) (ea + eb)

/-- The exact product of two values, none where it is invalid. -/
def exactProduct (x y : FVal) : Option FVal :=
  match x, y with
  | .nan s, _ => some (.nan s)
  | _, .nan s => some (.nan s)
  | .inf a, .inf b => some (.inf (a != b))
  | .inf a, .fin b m _ => if m = 0 then none else some (.inf (a != b))
  | .fin a m _, .inf b => if m = 0 then none else some (.inf (a != b))
  | .fin a ma ea, .fin b mb eb => some (.fin (a != b) (ma * mb) (ea + eb))

/-- Round(x × y + z), rounded once; 0 × ∞ is invalid even with a quiet NaN z (R188). -/
def FloatFormat.fma (f : FloatFormat) (mode : BitVec 2) (x y z : FVal) : FRes :=
  let nv := x.signals || y.signals || z.signals
  match exactProduct x y with
  | none => f.nan true
  | some p =>
    if x.isNan || y.isNan || z.isNan then f.nan nv else f.add mode p z

/-- The order of two values that are not NaN: x < y. −0 and +0 are equal. -/
def FVal.lt (x y : FVal) : Bool :=
  match x, y with
  | .fin na ma ea, .fin nb mb eb => decide ((exactSum na ma ea (!nb) mb eb).1 < 0)
  | .inf a, .inf b => a && !b
  | .inf a, .fin _ _ _ => a
  | .fin _ _ _, .inf b => !b
  | _, _ => false
/-- Two values that are not NaN are equal. -/
def FVal.eq (x y : FVal) : Bool := !x.isNan && !y.isNan && !x.lt y && !y.lt x

/-- x ≤ y of values that are not NaN. -/
def FVal.le (x y : FVal) : Bool := x.lt y || x.eq y

/-- A result and flags of a comparison (R189, R55): any NaN gives false; `flt` and `fle` signal on any NaN. -/
def compareFlags (quiet : Bool) (x y : FVal) : FlagSet :=
  flagIf (x.signals || y.signals || (!quiet && (x.isNan || y.isNan))) flagNV

/-- The smaller of two values with −0 below +0 (R56). -/
def FVal.below (x y : FVal) : Bool := x.lt y || (x.eq y && x.neg && !y.neg)

/-- minimumNumber or maximumNumber of two bit patterns (R56). -/
def FloatFormat.minMax (f : FloatFormat) (wantMax : Bool) (a b : Nat) : FRes :=
  let x := f.value a
  let y := f.value b
  let a := a % 2 ^ f.width
  let b := b % 2 ^ f.width
  let nv := flagIf (x.signals || y.signals) flagNV
  if x.isNan && y.isNan then { bits := f.nanBits, flags := nv }
  else if x.isNan then { bits := b, flags := nv }
  else if y.isNan then { bits := a, flags := nv }
  else { bits := if x.below y == wantMax then b else a, flags := nv }

/-! ## Conversions (R57, R190, R191) -/

/-- Convert a value to a format. -/
def FloatFormat.ofValue (f : FloatFormat) (mode : BitVec 2) (x : FVal) : FRes :=
  match x with
  | .nan s => f.nan s
  | .inf n => f.inf n noFlags
  | .fin n m e => f.round mode n m e

/-- Convert an integer to a format. -/
def FloatFormat.ofInt (f : FloatFormat) (mode : BitVec 2) (v : Int) : FRes := f.roundInt mode false v 0

/-- Convert a value to an integer between bounds: saturation and NaN set NV and not NX (R191, R207). -/
def toIntBetween (mode : BitVec 2) (lo hi : Int) (x : FVal) : Int × FlagSet :=
  match x with
  | .nan _ => (0, flagNV)
  | .inf n => (if n then lo else hi, flagNV)
  | .fin n m e =>
    let (q, inexact) := toQuantum mode n m e 0
    let v := signed n q
    if v < lo then (lo, flagNV) else if hi < v then (hi, flagNV) else (v, flagIf inexact flagNX)

/-- The class bit of a value in a format (R191). -/
def FloatFormat.classBit (f : FloatFormat) (bits : Nat) : Nat :=
  match f.value bits with
  | .nan s => if s then 8 else 9
  | .inf n => if n then 0 else 7
  | .fin n m _ =>
    if m = 0 then (if n then 3 else 4)
    else if m < 2 ^ f.fbits then (if n then 2 else 5)
    else if n then 1 else 6

/-! ## Roots and the functions of R204 -/

/-- The integer square root, found bit by bit from the highest of `k` bits. -/
def isqrtFrom (n : Nat) : Nat → Nat → Nat
  | 0, r => r
  | k + 1, r => if (r + 2 ^ k) * (r + 2 ^ k) ≤ n then isqrtFrom n k (r + 2 ^ k) else isqrtFrom n k r
/-- The integer square root. -/
def isqrt (n : Nat) : Nat := isqrtFrom n (bitLength n / 2 + 1) 0

/-- A magnitude with one more bit that stands for a nonzero remainder. -/
def sticky (m : Nat) (exact : Bool) : Nat := if exact then 2 * m else 2 * m + 1

/-- √x, rounded (R192). -/
def FloatFormat.sqrt (f : FloatFormat) (mode : BitVec 2) (x : FVal) : FRes :=
  match x with
  | .nan s => f.nan s
  | .inf n => if n then f.nan true else f.inf false noFlags
  | .fin n m e =>
    if m = 0 then f.zero n
    else if n then f.nan true
    else
      let k : Nat := 80 + (if e % 2 = 0 then 0 else 1)
      let v := m * 2 ^ k
      let r := isqrt v
      f.round mode false (sticky r (r * r == v)) ((e - k) / 2 - 1)

/-- 1/x, rounded (R204). -/
def FloatFormat.rcp (f : FloatFormat) (mode : BitVec 2) (x : FVal) : FRes :=
  match x with
  | .nan s => f.nan s
  | .inf n => f.zero n
  | .fin n m e =>
    if m = 0 then f.inf n flagDZ
    else
      let v := 2 ^ 80
      f.round mode n (sticky (v / m) (v % m == 0)) (-80 - e - 1)

/-- 1/√x, rounded (R204). -/
def FloatFormat.rsqrt (f : FloatFormat) (mode : BitVec 2) (x : FVal) : FRes :=
  match x with
  | .nan s => f.nan s
  | .inf n => if n then f.nan true else f.zero false
  | .fin n m e =>
    if m = 0 then f.inf n flagDZ
    else if n then f.nan true
    else
      let odd : Nat := if e % 2 = 0 then 0 else 1
      let m1 := m * 2 ^ odd
      let r := isqrt (2 ^ 200 / m1)
      f.round mode false (sticky r (r * r * m1 == 2 ^ 200)) (-100 - (e - odd) / 2 - 1)

/-- Bits of fixed point that the two transcendental functions carry (log 10). -/
def guardBits : Nat := 320

/-- Π of 2^(2^−i) over the set bits i = 1, 2, … of a fraction, from the highest; `root` is 2^(2^−(i−1)). -/
def exp2Fraction : Nat → Nat → Nat → Nat → Nat
  | 0, _, _, acc => acc
  | k + 1, frac, root, acc =>
    let r := isqrt (root * 2 ^ guardBits)
    exp2Fraction k frac r (if frac.testBit k then acc * r / 2 ^ guardBits else acc)

/-- 2^x, rounded (R204): exact for an integer, else from `guardBits` bits with a remainder. -/
def FloatFormat.exp2 (f : FloatFormat) (mode : BitVec 2) (x : FVal) : FRes :=
  match x with
  | .nan s => f.nan s
  | .inf n => if n then f.zero false else f.inf false noFlags
  | .fin n m e =>
    let scaled := signed n m
    let whole : Int := if 0 ≤ e then (if 12 < e then scaled * 2 ^ 12 else scaled * 2 ^ e.toNat)
      else scaled / 2 ^ (-e).toNat
    let places : Nat := if 0 ≤ e then 0 else (-e).toNat
    let frac : Nat := if 0 ≤ e then 0 else (scaled % 2 ^ (-e).toNat).toNat
    let power : Int := max (-2000) (min 2000 whole)
    if frac = 0 then f.round mode false 1 power
    else
      let p := exp2Fraction places frac (2 * 2 ^ guardBits) (2 ^ guardBits)
      f.round mode false (2 * p + 1) (power - guardBits - 1)

/-- The first `k` fraction bits of log2 of y in [1, 2) at `guardBits` places, by repeated squaring. -/
def log2Bits : Nat → Nat → Nat → Nat
  | 0, _, acc => acc
  | k + 1, y, acc =>
    let z := y * y / 2 ^ guardBits
    if 2 * 2 ^ guardBits ≤ z then log2Bits k (z / 2) (2 * acc + 1) else log2Bits k z (2 * acc)

/-- log2 x, rounded (R204): exact for a power of two. -/
def FloatFormat.log2 (f : FloatFormat) (mode : BitVec 2) (x : FVal) : FRes :=
  match x with
  | .nan s => f.nan s
  | .inf n => if n then f.nan true else f.inf false noFlags
  | .fin n m e =>
    if m = 0 then f.inf true flagDZ
    else if n then f.nan true
    else
      let top := bitLength m - 1
      let whole : Int := e + top
      if m = 2 ^ top then f.roundInt mode false whole 0
      else
        let frac := log2Bits 128 (m * 2 ^ guardBits / 2 ^ top) 0
        let t : Int := whole * 2 ^ 128 + frac
        if 0 ≤ t then f.round mode false (2 * t.toNat + 1) (-129)
        else f.round mode true (2 * t.natAbs - 1) (-129)

end Sys2Proof.Machine
end

