-- ==== Sys2Proof/Machine/Quires.lean ====
section
/-! DEFINITION. Format codes (R65), quires (R60-R63), and the anchored accumulator with its readout (R66-R70). -/

namespace Sys2Proof.Machine

/-! ## Format codes (R65) -/

/-- The float format of a code 0-2. -/
def floatCode (c : Nat) : Option FloatFormat :=
  if c = 0 then some fp32 else if c = 1 then some fp16 else if c = 2 then some bf16 else none
/-- The width of an integer code 3-6. -/
def intWidth (c : Nat) : Nat := if c = 3 then 32 else if c = 4 then 16 else 8
/-- Codes 3-6 are integers. -/
def isIntCode (c : Nat) : Bool := 3 ≤ c && c ≤ 6
/-- Codes 0-2 are floats. -/
def isFloatCode (c : Nat) : Bool := c ≤ 2
/-- Codes 7-9 are quires. -/
def isQuireCode (c : Nat) : Bool := 7 ≤ c && c ≤ 9
/-- Code 6 is unsigned. -/
def isUnsignedCode (c : Nat) : Bool := c == 6
/-- The magnitude width m of a quire code (R60). -/
def quireWidth (c : Nat) : Nat := if c = 7 then 7 else if c = 8 then 4 else 2
/-- The bytes of a quire of a code (R60). -/
def quireBytes (c : Nat) : Nat := if c = 7 then 18 else if c = 8 then 12 else 8
/-- The bytes of one element of codes 0-6. -/
def elemBytes (c : Nat) : Nat := if c = 0 || c = 3 then 4 else if c = 1 || c = 2 || c = 4 then 2 else 1
/-- The bytes of a row of `n` columns (R65). -/
def rowBytes (c n : Nat) : Nat :=
  if c = 10 then (n + 7) / 8 else if isQuireCode c then quireBytes c * (n / 16) else elemBytes c * n

/-! ## Quires (R60-R63) -/

/-- One element of a quire: its sign, magnitude and micro-exponent. -/
structure QElem where
  neg : Bool
  mag : Nat
  mu : Nat
  deriving DecidableEq, Repr

/-- A quire's shared exponent and sixteen elements; X = 255 marks a NaN quire (R61). -/
structure Quire where
  x : Nat
  elems : List QElem
  deriving DecidableEq, Repr

/-- Read a quire of magnitude width m (R60). -/
def quireOf (m : Nat) (bytes : List Byte) : Quire :=
  let n := natOfBytes bytes
  { x := bitsOf n 0 8,
    elems := (List.range 16).map fun i =>
      { neg := n.testBit ((m + 1) * i + 16 + m), mag := bitsOf n ((m + 1) * i + 16) m,
        mu := bitsOf n (8 + i / 2) 1 } }

/-- The bytes of a quire of magnitude width m, `size` of them (R60, R61). -/
def Quire.bytes (q : Quire) (m size : Nat) : List Byte :=
  if q.x = 255 then bytesOfNat size 255 else
    bytesOfNat size (q.x + ((List.range 16).map fun i =>
      let e := q.elems.getD i { neg := false, mag := 0, mu := 0 }
      (if i % 2 = 0 then e.mu * 2 ^ (8 + i / 2) else 0)
        + e.mag * 2 ^ ((m + 1) * i + 16) + (if e.neg then 2 ^ ((m + 1) * i + 16 + m) else 0)).sum)

/-- A magnitude m · 2^e at least 2^k. -/
def atLeastPow (m : Nat) (e k : Int) : Bool := m != 0 && decide (k < (bitLength m : Int) + e)

/-- Quantise sixteen values to magnitude width m (R62). -/
def quantise (m : Nat) (xs : List FVal) : Quire × FlagSet :=
  if xs.any FVal.isNan then ({ x := 255, elems := [] }, flagIf (xs.any FVal.signals) flagNV) else
    let tops : List Int := xs.filterMap fun v => match v with
      | .fin _ k e => if k = 0 then none else some ((bitLength k : Int) - 1 + e)
      | _ => none
    let x : Int := match tops with
      | [] => if xs.any FVal.isInf then 254 else 0
      | t :: ts => max 0 (min 254 ((ts.foldl max t) + 127))
    let below (v : FVal) : Bool := match v with
      | .fin _ k e => !atLeastPow k e (x - 127)
      | _ => false
    let mu (p : Nat) : Nat := if below (xs.getD (2 * p) (.inf false)) && below (xs.getD (2 * p + 1) (.inf false))
      then 1 else 0
    let one (i : Nat) : QElem × FlagSet :=
      match xs.getD i (.fin false 0 0) with
      | .nan _ => ({ neg := false, mag := 0, mu := mu (i / 2) }, noFlags)
      | .inf n => ({ neg := n, mag := 2 ^ m - 1, mu := mu (i / 2) }, flagOF ||| flagNX)
      | .fin n k e =>
        let scale : Int := x - 127 - mu (i / 2) - ((m : Int) - 1)
        let (r, inexact) := toQuantum 0 n k e scale
        let past := decide (2 ^ m ≤ r)
        let mag := if past then 2 ^ m - 1 else r
        ({ neg := n && mag != 0, mag := mag, mu := mu (i / 2) },
          flagIf (inexact || past) flagNX ||| flagIf (mag == 0 && k != 0) flagUF)
    let all := (List.range 16).map one
    ({ x := x.toNat, elems := all.map (·.1) }, all.foldl (fun f e => f ||| e.2) noFlags)

/-- The value of an element of a quire: a negative zero acts as +0 (R61). -/
def QElem.value (x m : Nat) (e : QElem) : FVal :=
  .fin (e.neg && e.mag != 0) e.mag ((x : Int) - 127 - e.mu - ((m : Int) - 1))

/-- Dequantise a quire to sixteen results of a format (R63). -/
def dequantise (f : FloatFormat) (mode : BitVec 2) (m : Nat) (q : Quire) : List FRes :=
  if q.x = 255 then List.replicate 16 (f.nan false) else q.elems.map fun e => f.ofValue mode (e.value q.x m)

/-! ## The anchored accumulator (R66-R68) -/

/-- One block's exact value for an element: P · 2^e, or a NaN block (R67). -/
structure Block where
  p : Int
  e : Int
  isNan : Bool
  deriving DecidableEq, Repr

/-- The block of two quires (R67). -/
def quireBlock (ma mb : Nat) (a b : Quire) : Block :=
  if a.x = 255 || b.x = 255 then { p := 0, e := 0, isNan := true } else
    let term (i : Nat) : Int :=
      let u := a.elems.getD i { neg := false, mag := 0, mu := 0 }
      let v := b.elems.getD i { neg := false, mag := 0, mu := 0 }
      signed (u.neg != v.neg) (u.mag * v.mag * 2 ^ (2 - u.mu - v.mu))
    { p := ((List.range 16).map term).sum,
      e := (a.x : Int) + b.x - 254 - ((ma : Int) - 1) - ((mb : Int) - 1) - 2, isNan := false }

/-- The block of two lists of BF16 values (R67). -/
def floatBlock (a b : List FVal) : Block :=
  if a.any (fun v => v.isNan || v.isInf) || b.any (fun v => v.isNan || v.isInf) then { p := 0, e := 0, isNan := true }
  else
    let prods : List (Int × Int) := (a.zip b).map fun z => match z.1, z.2 with
      | .fin na ka ea, .fin nb kb eb => (signed (na != nb) (ka * kb), ea + eb)
      | _, _ => (0, 0)
    match prods with
    | [] => { p := 0, e := 0, isNan := false }
    | z :: zs =>
      let e := zs.foldl (fun m y => min m y.2) z.2
      { p := (prods.map fun y => y.1 * 2 ^ (y.2 - e).toNat).sum, e := e, isNan := false }

/-- An integer divided by 2^k, rounded to nearest even, and whether anything was dropped. -/
def roundHalfEven (v : Int) (k : Nat) : Int × Bool :=
  let (q, inexact) := roundShift 0 (decide (v < 0)) v.natAbs k
  (signed (decide (v < 0)) q, inexact)

/-- P · 2^(e − E), rounded to nearest even. -/
def blockAt (b : Block) (anchor : Int) : Int × Bool :=
  if anchor ≤ b.e then (b.p * 2 ^ (b.e - anchor).toNat, false) else roundHalfEven b.p (anchor - b.e).toNat

/-- The shifting loop of R68 on the sum A and the anchor E: the element, and whether a shift or the rounding at the anchor
dropped bits, which an anchor that would pass +1,023 does not (R226). -/
def accLoop (b : Block) : Nat → Int → Int → Bool → AccElem → AccElem × Bool
  | 0, _, _, lossy, el => (el, lossy)
  | k + 1, a, anchor, lossy, el =>
    let (pa, dropped) := blockAt b anchor
    if (a + pa).natAbs < 2 ^ 126 then
      ({ el with sum := BitVec.ofInt 128 (a + pa), anchor := BitVec.ofInt 11 anchor, nx := el.nx || lossy || dropped },
        lossy || dropped)
    else if 1023 < anchor + 16 then
      ({ el with sum := BitVec.ofInt 128 a, anchor := BitVec.ofInt 11 anchor, nan := true, nx := true }, lossy)
    else
      let (half, lost) := roundHalfEven a 16
      accLoop b k half (anchor + 16) (lossy || lost) el

/-- Add a block into an accumulator element, and whether this dropped bits (R68, R226). The anchor rises by 16 from at least
−1,024, so 130 turns suffice. -/
def accAddLossy (el : AccElem) (b : Block) : AccElem × Bool :=
  if el.nan then (el, false)
  else if b.isNan then ({ el with isEmpty := false, nan := true }, false)
  else
    let start : Int × Int := if el.isEmpty then (0, b.e - 48) else (el.sum.toInt, el.anchor.toInt)
    accLoop b 130 start.1 start.2 false { el with isEmpty := false }

/-- Add a block into an accumulator element (R68). -/
def accAdd (el : AccElem) (b : Block) : AccElem := (accAddLossy el b).1

/-- Add blocks into an element one after another, and whether one of them dropped bits (R68, R226). -/
def accAddBlocks : AccElem × Bool → List Block → AccElem × Bool
  | r, [] => r
  | r, b :: bs => accAddBlocks ((accAddLossy r.1 b).1, r.2 || (accAddLossy r.1 b).2) bs

/-- Readout of an element under two scales, given as values (R70). -/
def accRead (el : AccElem) (r c : FVal) : FRes :=
  let own := flagIf el.nx flagNX
  if el.nan then { bits := fp32.nanBits, flags := flagNV }
  else if el.isEmpty then { bits := 0, flags := own }
  else if r.isNan || c.isNan then { bits := fp32.nanBits, flags := flagIf (r.signals || c.signals) flagNV ||| own }
  else
    let a := el.sum.toInt
    let neg := (decide (a < 0)) != (r.neg != c.neg)
    match r, c with
    | .fin nr mr er, .fin nc mc ec =>
      let v : Int := a * signed nr mr * signed nc mc
      let e : Int := el.anchor.toInt + er + ec
      if v = 0 then { bits := 0, flags := own }
      else
        let q := max (e + bitLength v.natAbs - 24) fp32.low
        let (sig, inexact) := toQuantum 0 neg v.natAbs e q
        if (128 : Int) < bitLength sig + q then
          { bits := fp32.signBit neg + fp32.infBits, flags := flagOF ||| flagNX ||| own }
        else if (bitLength sig : Int) + q ≤ -126 then { bits := fp32.signBit neg, flags := flagAU ||| own }
        else { bits := (fp32.round 0 neg v.natAbs e).bits, flags := flagIf inexact flagNX ||| own }
    | _, _ =>
      if a = 0 || r.isZero || c.isZero then { bits := fp32.nanBits, flags := flagNV ||| own }
      else { bits := fp32.signBit neg + fp32.infBits, flags := own }

/-- The 20 bytes of an element (R66). -/
def AccElem.bytes (el : AccElem) : List Byte :=
  bytesOfNat 16 el.sum.toNat ++ bytesOfNat 4 (el.anchor.toNat + (if el.nx then 2 ^ 29 else 0)
    + (if el.nan then 2 ^ 30 else 0) + (if el.isEmpty then 2 ^ 31 else 0))

/-- The element that 20 bytes hold (R66). -/
def accElemOf (bs : List Byte) : AccElem :=
  let w := natOfBytes (bs.drop 16)
  { sum := BitVec.ofNat 128 (natOfBytes (bs.take 16)), isEmpty := w.testBit 31, nan := w.testBit 30,
    nx := w.testBit 29, anchor := BitVec.ofNat 11 (bitsOf w 0 11) }

end Sys2Proof.Machine
end

