-- ==== Sys2Proof/Machine/Jobs.lean ====
section
/-! DEFINITION. Atomics as pure functions (R148-R150), the scrub of a tile (R363), and the end of a job by termination
(R44, R424). -/

namespace Sys2Proof.Machine

/-! ## Atomics (R148-R150) -/

/-- The bytes an atomic operates on: 16 for cas2, 4 for amo.fadd, else 8 (R133). -/
def atomicSize (op : BitVec 7) : Nat := if op = 0x4A then 16 else if op = 0x4B then 4 else 8

/-- The new value of a read-modify-write atomic (R148). -/
def atomicNew (op : BitVec 7) (old b : Word) : Word :=
  if op = 0x40 then old + b
  else if op = 0x41 then old &&& b
  else if op = 0x42 then old ||| b
  else if op = 0x43 then old ^^^ b
  else if op = 0x44 then (if old.sle b then old else b)
  else if op = 0x45 then (if b.sle old then old else b)
  else if op = 0x46 then (if old.ule b then old else b)
  else if op = 0x47 then (if b.ule old then old else b)
  else b

/-- What an atomic leaves at its place, what it returns, and the flags of amo.fadd. -/
structure AtomicOutcome where
  bytes : List Byte
  vals : List Word
  flags : FlagSet
  deriving DecidableEq, Repr

/-- Perform an atomic on the old bytes of its place (R148-R150). -/
def atomicOutcome (op : BitVec 7) (frm : BitVec 2) (old : List Byte) (operands : List Word) : AtomicOutcome :=
  let o := wordOf (natOfBytes (old.take 8))
  if op = 0x4B then
    let r := fp32.add frm (fp32.value (natOfBytes old)) (fp32.value (fieldOf (operands.getD 0 0) 0 32))
    { bytes := bytesOfNat 4 r.bits, vals := [wordOf (natOfBytes old)], flags := r.flags }
  else if op = 0x4A then
    let hi := wordOf (natOfBytes (old.drop 8))
    let hit := o == operands.getD 0 0 && hi == operands.getD 1 0
    { bytes := if hit then bytesOfNat 8 (operands.getD 2 0).toNat ++ bytesOfNat 8 (operands.getD 3 0).toNat else old,
      vals := [o, hi], flags := noFlags }
  else if op = 0x49 then
    { bytes := if o == operands.getD 0 0 then bytesOfNat 8 (operands.getD 1 0).toNat else old, vals := [o],
      flags := noFlags }
  else { bytes := bytesOfNat 8 (atomicNew op o (operands.getD 0 0)).toNat, vals := [o], flags := noFlags }

/-- The AtomicOp that serves an atomic on host memory: FetchAdd, Swap, CAS of 64 and of 128 bits (R151). -/
def atomicOpOf (op : BitVec 7) : Option Nat :=
  if op = 0x40 then some 0 else if op = 0x48 then some 1 else if op = 0x49 then some 2
  else if op = 0x4A then some 3 else none

/-! ## A new job (R348, R402) -/

/-- A running job with nothing in its record: launches fill the fields in. Its home table is at version 1 (R284). -/
def newJob : Job :=
  { phase := .running, tenant := 0, recordAt := 0, seed := 0, floor := 1, ceiling := 1, count := 1, pb0 := 4096, pb1 := 8192,
    pb2 := 24576, priority := 0, lockstep := false, domain := 0, generation := 0, handler := 0, ckptArea := 0, ckptSize := 0,
    interval := 0, lastStop := 0, homeTable := [], proxyTable := [], version := 1, image := none, half := false, writing := none,
    armed := [], seq := 0, ckpts := [], reserve := [], retired := 0, oldTiles := [], heldFaults := [],
    heldEvents := [] }

/-! ## Packets of a job -/

/-- Who sent a packet. -/
def Packet.poster : Packet → Poster
  | .message p => p.poster
  | .record _ _ r => r.poster
  | .context _ c _ _ => c.poster
  | p => match p.slot with
    | some n => .slot n
    | none => .device

/-- The job of a packet (R366): the one that owns the tile of its slot. -/
def State.packetJob (s : State) (p : Packet) : Option Nat :=
  match p with
  | .message m => some m.job
  | .record _ _ r => some r.job
  | .enqueue q => some q.job
  | .context _ c _ _ => some c.job
  | .plbFlush _ _ _ => none
  | q => match q.slot with
    | some n => if isUserSlot n then (s.tile (tileOfSlot n)).owner else none
    | none => none

/-! ## The scrub (R363) -/

/-- A core in the state of R278, its clock and power state kept. -/
def Core.scrubbed (k : Core) : Core :=
  { coreAt 0 with clock := k.clock, ring := k.ring, outn := k.outn, skip := k.skip, shape := k.shape }

/-- Write back and free every sector of a tile's slices, and drop its proxy copies (R360 step 4). -/
def State.flushTile (s : State) (t : Nat) : State :=
  let keys := (s.l2.filter fun e => e.1 / 2 ^ 57 == t).map (·.1)
  let s1 := keys.foldl State.evict s
  { s1 with pins := storeDrop (2 ^ 57 * t) (2 ^ 57 * (t + 1)) s1.pins,
            proxyCopies := storeDrop (2 ^ 57 * t) (2 ^ 57 * (t + 1)) s1.proxyCopies }

/-- Free the user slots of a core. -/
def State.freeSlots (s : State) (c : Nat) : State :=
  { s with slots := storeDrop (64 * c) (64 * c + 62) s.slots }

/-- Scrub a tile: pools, accumulators, queues, links, inboxes, tables, k0-k15, counters, buffers and bias (R363). -/
def State.scrubTile (s : State) (t : Nat) : State :=
  let s1 := (s.flushTile t)
  let s2 := (coresOfTile t).foldl (fun (u : State) c => (u.onCore c Core.scrubbed).freeSlots c) s1
  let s3 := { s2 with
    pool := storeDrop (2 ^ 18 * (4 * t)) (2 ^ 18 * (4 * t + 4)) s2.pool
    acc := storeDrop (2 ^ 14 * t) (2 ^ 14 * (t + 1)) s2.acc }
  s3.onTile t fun x =>
    { x with bias := 0, pressed := (0, 0), traffic := [], leaseQueues := [], lastGrant := 3, idleFrom := 0, holder := none,
             arrayOps := [], configs := [], seg0 := [], seg1 := [], served := true, captured := [], token := false }

/-- Make a scrubbed tile FREE: its owner changes in the current period, with P = 0 (R348, R349). -/
def State.freeTile (s : State) (t : Nat) : State :=
  (s.scrubTile t).onTile t fun x => { x with owner := none, pressure := 0, changed := s.period }

/-- Scrub and free every tile of a job (R250, R382, R424). -/
def State.freeTerritory (s : State) (j : Nat) : State := (s.territory j).foldl State.freeTile s

/-- Discard a job's packets, compaction ranges and walker requests. -/
def State.dropTraffic (s : State) (j : Nat) : State :=
  let s1 := { s with
    net := s.net.filter fun p => s.packetJob p != some j
    calenders := (List.range 4).foldl (fun m d =>
      storeSet noRange m d ((storeGet noRange m d).filter fun r => r.job != j)) s.calenders }
  (s1.tiles.map (·.1)).foldl (fun (u : State) t => u.onTile t fun x =>
    { x with
      mailboxes := (x.mailboxes.map fun b => (b.1, b.2.filter fun r => r.job != j)).filter fun b => b.2 != []
      walkWaiting := x.walkWaiting.filter fun r => r.job != j }) s1

/-- Instructions that a job's threads have retired (R403). -/
def State.retiredBy (s : State) (j : Nat) : Nat :=
  (match s.job j with | some x => x.retired | none => 0) + ((s.jobSlots j).map fun n => (s.slot n).ist.toNat).sum

/-- Bring-up has failed (R414, R417). -/
def State.failBoot (s : State) (code : BitVec 8) : State := { s with stage := .failed, fail := code }

/-- An HBM stack that failed to train fails the bring-up once every running job has ended (R416). -/
def State.failStack (s : State) : State := if s.stackFailed && s.jobs == [] then s.failBoot 4 else s

/-- Remove a job; its fault records stand until the host resolves them, and concern no thread any more. With the last job a failed
HBM stack fails the bring-up (R416). -/
def State.removeJob (s : State) (j : Nat) : State :=
  State.failStack { s with
    jobs := storeSet jobAt s.jobs j none
    tenants := s.tenants.map fun (e : Nat × Tenant) =>
      (e.1, { e.2 with faults := e.2.faults.map fun r => if r.job = j then { r with who := [] } else r }) }

/-! ## Termination (R44, R424) -/

/-- A write of a terminated job is performed at its home, where the home can take it. One that meets a granule that another job
has armed, and so would wait for its copy, is among those that do not reach memory (R386, R424). -/
def State.lateWrite (s : State) (j va tile : Nat) (k : AccKind) (op : Option Nat) (bs : List Byte → List Byte) (n : Nat) :
    State :=
  let h := s.homeOf j va
  let waits := s.jobs.any fun e => e.1 != j && (match e.2 with | some x => x.armed.contains (va / 65536) | none => false)
  if waits then s
  else match s.homeCheck h va k op with
  | .miss => s
  | .busy => s
  | .fails _ => s
  | ok =>
    let u := s.present h j va tile ok
    (u.merge h va (bs (u.homeBytes h va n)) none).letGo h va

/-- The stores and atomics of a terminated job that still reach memory, each as the free choice says (R424). -/
def State.lateStores (s : State) (j : Nat) : State :=
  (s.net.zipIdx).foldl (fun (u : State) e =>
    if s.packetJob e.1 = some j && Config.lateStoreLands s.moves e.2 then
      match e.1 with
      | .store p => if u.isOurs p.va then u.lateWrite j p.va (tileOfSlot p.slot) .write none (fun _ => p.bytes) 0 else u
      | .atomic p =>
        if p.core.isNone && u.isOurs p.addr then
          u.lateWrite j p.addr (tileOfSlot p.slot) .atomic (atomicOpOf p.op)
            (fun old => (atomicOutcome p.op p.frm old p.operands).bytes) (atomicSize p.op)
        else u
      | _ => u
    else u) s

/-- Land a value on every supervisor slot whose `ckpt` of a job still waits (R186). -/
def State.answerCkpts (s : State) (x : Job) (v : Word) : State :=
  x.ckpts.foldl (fun (u : State) w => match w.dst with
    | .win i => u.onSlot w.slot fun y => { y with regs := storeSet deadCell y.regs i { val := v, pres := .full, owed := false } }
    | _ => u) s

/-- End a job at once: event 4 to the host, its work discarded, its tiles scrubbed and free (R424). -/
def State.terminate (s : State) (j : Nat) (status : Nat) (value : Word) (double : Bool) (outer : BitVec 8) : State :=
  match s.job j with
  | none => s
  | some x =>
    let s1 := (s.lateStores j).dropTraffic j
    let s2 := s1.freeTerritory j
    let e := { s.eventOf j 4 status value with double := double, outer := outer }
    ((s2.answerCkpts x allOnes).removeJob j).postEvent x.tenant e

end Sys2Proof.Machine
end

