-- ==== Sys2Proof/Machine/Ops.lean ====
section
/-! DEFINITION. The named operations over registers, presence and memory that every meaning shares, and taking an
exception: entry, return, double fault, block and termination (R42-R46, R185). -/

namespace Sys2Proof.Machine

/-! ## Registers (R15, R18, R22, R23) -/

/-- Where a register name reaches: in a handler g1-g7 are the shadows (R18). -/
def Slot.loc (x : Slot) (r : Reg) : RegLoc := if x.active && r.toNat < 8 then .shadow r.toNat else .win r.toNat

/-- The register at a place. -/
def Slot.cell (x : Slot) : RegLoc → RegCell
  | .win i => storeGet deadCell x.regs i
  | .shadow i => storeGet zeroCell x.shadow i
  | .href i => storeGet zeroCell x.href i

/-- Replace the register at a place. -/
def Slot.setCell (x : Slot) (l : RegLoc) (c : RegCell) : Slot :=
  match l with
  | .win i => { x with regs := storeSet deadCell x.regs i c }
  | .shadow i => { x with shadow := storeSet zeroCell x.shadow i c }
  | .href i => { x with href := storeSet zeroCell x.href i c }

/-- The value that a register name gives: g0 reads as zero (R15). -/
def Slot.val (x : Slot) (r : Reg) : Word := if r = 0 then 0 else (x.cell (x.loc r)).val

/-- The value that a reference register gives. -/
def Slot.hval (x : Slot) (h : HReg) : Word := (x.cell (.href h.toNat)).val

/-- Write a register name in the pass: FULL. A write to g0 is dropped (R15, R23). -/
def Slot.put (x : Slot) (r : Reg) (v : Word) : Slot :=
  if r = 0 then x else x.setCell (x.loc r) { x.cell (x.loc r) with val := v, pres := .full }

/-- Set a register's presence, its value unchanged. -/
def Slot.setPres (x : Slot) (l : RegLoc) (p : Presence) : Slot := x.setCell l { x.cell l with pres := p }

/-- Mark a register EMPTY and owed (R23). -/
def Slot.owe (x : Slot) (l : RegLoc) : Slot := x.setCell l { x.cell l with pres := .empty, owed := true }

/-- Whether a place is owed a result. -/
def Slot.owes (x : Slot) (l : RegLoc) : Bool := (x.cell l).owed

/-- Some register of the slot is owed a result, `except` aside. -/
def Slot.anyOwed (x : Slot) (except : List RegLoc) : Bool :=
  x.regs.any (fun e => e.2.owed && !except.contains (.win e.1))
    || x.shadow.any (fun e => e.2.owed && !except.contains (.shadow e.1)) || x.href.any (·.2.owed)

/-- Some shadow register is owed a result (R44). -/
def Slot.shadowOwed (x : Slot) : Bool := x.shadow.any (·.2.owed)

/-- The places of destination names that are owed results: none for g0. -/
def Slot.dst (x : Slot) (rs : List Reg) : List RegLoc := (rs.filter (· != 0)).map x.loc

/-- The supply state of the leaf of a place: shadows and references lie in no leaf (R17, R26). -/
def Slot.leafOf (x : Slot) : RegLoc → LeafState
  | .win i => storeGet fullLeaf x.leaves (i / 8)
  | _ => .full

/-- Land a value: FULL, nothing owed (R23); a result for a leaf that is not FULL is held (R112, R332). -/
def Slot.land (x : Slot) (l : RegLoc) (v : Word) : Slot :=
  if x.leafOf l = .full then x.setCell l { val := v, pres := .full, owed := false }
  else { x with held := x.held ++ [(l, v)] }

/-- Land values at places, in order. -/
def Slot.landAll (x : Slot) (ls : List RegLoc) (vs : List Word) : Slot :=
  (ls.zip vs).foldl (fun y e => y.land e.1 e.2) x

/-- Land the results that were held, as far as the leaves of their registers are FULL now (R112). -/
def Slot.landHeld (x : Slot) : Slot :=
  x.held.foldl (fun (y : Slot) (e : RegLoc × Word) => y.land e.1 e.2) { x with held := [] }

/-- Every leaf of some places is FULL, so that results land there (R112). -/
def Slot.landable (x : Slot) (ls : List RegLoc) : Bool := ls.all fun l => x.leafOf l == .full

/-- The registers of a leaf that was OFF come back zero and DEAD (R26). -/
def Slot.clearLeaf (x : Slot) (leaf : Nat) : Slot := { x with regs := storeDrop (8 * leaf) (8 * leaf + 8) x.regs }

/-- Start the wake of a register leaf (R26). -/
def Slot.wakeLeaf (x : Slot) (leaf : Nat) : Slot :=
  match storeGet fullLeaf x.leaves leaf with
  | .full => x
  | .waking => x
  | .retain => { x with leaves := storeSet fullLeaf x.leaves leaf .waking }
  | .off => { x.clearLeaf leaf with leaves := storeSet fullLeaf x.leaves leaf .waking }

/-- Start the wake of the leaf of a place. -/
def Slot.wakePlace (x : Slot) : RegLoc → Slot
  | .win i => x.wakeLeaf (i / 8)
  | _ => x

/-- The register leaves of a slot that leaves rotation go to RETAIN; an access of it that waits for a scratchpad leaf issues
again when the slot returns (R26, R161, R332). -/
def Slot.retained (x : Slot) : Slot :=
  { x with leafWait := none, leaves := (List.range (x.winSize / 8)).foldl (fun m l =>
      if storeGet fullLeaf m l = .off then m else storeSet fullLeaf m l .retain) x.leaves }

/-- The register leaves of a slot that comes back wake (R26). -/
def Slot.returned (x : Slot) : Slot :=
  { x with leaves := (List.range (x.winSize / 8)).foldl (fun m l =>
      if storeGet fullLeaf m l = .retain then storeSet fullLeaf m l .waking else m) x.leaves }

/-- The eight registers of a leaf of the window are DEAD, and none is owed (R26, R380). -/
def Slot.deadLeaf (x : Slot) (leaf : Nat) : Bool :=
  (List.range 8).all fun k => let c := x.cell (.win (8 * leaf + k)); c.pres == .dead && !c.owed

/-! ## Bindings (R20) -/

/-- The binding of a window register. -/
def Slot.bindingOf (x : Slot) (r : Reg) : Option Binding := x.bindings.find? fun b => b.reg == r

/-- The binding of a register name: in a handler g1-g7 name the shadows, which are never bound (R18, R162). -/
def Slot.bound (x : Slot) (r : Reg) : Option Binding := if x.active && r.toNat < 8 then none else x.bindingOf r

/-- Some of the names is bound to a port; g0 never is (R162). -/
def Slot.anyBound (x : Slot) (rs : List Reg) : Bool := rs.any fun r => r != 0 && (x.bound r).isSome

/-! ## Retiring -/

/-- Retire the slot's instruction: last-use registers become DEAD, destinations owed, stores begin to count, the pc
moves on (R23, R134, R136). -/
def Slot.retire (x : Slot) (r : Retire) : Slot :=
  let y := r.puts.foldl (fun (z : Slot) e => z.land e.1 e.2)
    (r.owe.foldl Slot.owe (r.dead.foldl (fun z l => z.setPres l .dead) x))
  { y with pc := r.pc, brPc := y.pc, ist := y.ist + wordOf r.count, opc := y.opc + r.stores, odc := y.odc + r.stores,
           unchecked := none, leafWait := none, waiting := none, alloc := none, state := .run }

/-- The retirement of an instruction that goes on to the next. -/
def Slot.next (x : Slot) (dead owe : List RegLoc) (stores : Nat) : Retire :=
  { dead := dead, owe := owe, puts := [], pc := x.pc + 4, stores := stores, count := 1 }

/-- A bubble: the slot waits, and its instruction issues afresh (R22). -/
def State.waits (s : State) (n : Nat) : State := s.onSlot n fun x => { x with state := .wait }

/-! ## Pending causes (R34, R35, R42, R45, R46, R180) -/

/-- The cause of a bit of umask and PEND (R35). -/
def causeOfBit (b : Nat) : Nat := if b = 8 then 0x18 else 0x10 + b

/-- Make an asynchronous cause pending on a slot, with its uval. DESIGN CHOICE: of a cause that is pending already, the one upcall
then delivers the latest uval (R42, R45, R180; assumption 44). -/
def Slot.pending (x : Slot) (b : Nat) (v : Word) : Slot :=
  { x with pend := x.pend ||| BitVec.ofNat 9 (2 ^ b), pendVal := storeSet noVal x.pendVal b v }

/-- PEND as ucause shows it: bit 2 while the handler list holds entries (R46). -/
def Slot.pendWord (x : Slot) : BitVec 9 := if x.handlers = [] then x.pend else x.pend ||| 4

/-- The pending, enabled cause of lowest code, by its bit, when no handler runs and upcalls are on (R42, R44). -/
def Slot.deliverable (x : Slot) : Option Nat :=
  if x.active || x.ubase == 0 then none
  else (List.range 9).find? fun b => (x.pendWord &&& x.umask).toNat.testBit b

/-- The messages in a core's inbox for a slot, in order. -/
def State.messagesFor (s : State) (n : Nat) : List Message :=
  (s.core (coreOfSlot n)).inbox.filter fun m => fieldOf m.w0 16 6 == tidOf n

/-- pstat (R36). -/
def State.pstat (s : State) (c : Nat) : Word :=
  let k := s.core c
  wordOf (256 * k.outn + (if 0 < k.skip then 2 else 0) + (if k.shape then 1 else 0))

/-- The uval of an asynchronous cause when it is taken (R45). -/
def State.asyncVal (s : State) (n b : Nat) : Word :=
  if b = 4 then s.pstat (coreOfSlot n)
  else if b = 5 then wordOf (s.messagesFor n).length
  else storeGet noVal (s.slot n).pendVal b

/-! ## Taking an exception (R44, R45, R185) -/

/-- Withdraw a slot's outstanding bar.wait or join (R172, R255). -/
def State.withdraw (s : State) (n : Nat) : State :=
  let isWait (p : Packet) : Bool := match p with
    | .barrier q => q.slot == n && (match q.kind with | .wait _ => true | .join => true | _ => false)
    | .barReply m _ => m == n
    | .joinReply m _ => m == n
    | _ => false
  if (s.slot n).waiting.isSome then
    let s1 := { s with net := s.net.filter fun p => !isWait p, cores := s.cores }
    let s2 := (s1.cores.map (·.1)).foldl (fun (u : State) c =>
      if (u.core c).waiters.any (·.slot == n) then
        u.onCore c fun k => { k with waiters := k.waiters.filter fun w => w.slot != n }
      else u) s1
    s2.onSlot n fun x => { x with waiting := none }
  else s

/-- Upcall entry: uepc, uval, ucause, the shadows in place, the pc at the handler (R44). -/
def Slot.enter (x : Slot) (cause : Nat) (epc val target : Word) : Slot :=
  { x with uepc := epc, uval := val, code := BitVec.ofNat 8 cause, active := true, pc := target, brPc := 0,
           state := .run, unchecked := none, leafWait := none }

/-- A supervisor slot's synchronous fault: sepc, sval, scause and the vector at sbase; with ACTIVE = 1 or sbase = 0 the
slot halts and the host is told (R185). -/
def State.raiseSupervisor (s : State) (n cause : Nat) (epc val : Word) : State :=
  let x := s.slot n
  if x.sactive || x.sbase == 0 then
    (s.onSlot n fun y => { y with state := .halted, unchecked := none }).onTenant physicalFunction fun t =>
      { t with sentMsix := 2 :: t.sentMsix }
  else s.onSlot n fun y =>
    { y with sepc := epc, sval := val, scode := BitVec.ofNat 8 cause, sactive := true, pc := y.sbase + wordOf (64 * cause),
             brPc := 0, state := .run, unchecked := none }

/-- Raise a synchronous cause on a slot, with uepc `epc` (R44): a double fault inside a handler ends the job; with
ubase = 0 a page fault blocks the slot and any other cause ends the job, as a page fault at the first fetch of a thread of
`spawnm`, of `stage` or of a move does (R72). -/
def State.raiseAt (s : State) (n cause : Nat) (epc val : Word) : State :=
  let x := s.slot n
  if !isUserSlot n then s.raiseSupervisor n cause epc val
  else if x.active then s.terminate x.job cause val true x.code
  else if x.ubase == 0 then
    (if cause = 0x09 && !x.firstFetch then s.onSlot n fun y => { y with state := .blocked, unchecked := none }
    else s.terminate x.job cause val false 0)
  else s.onSlot n fun y => y.enter cause epc val (y.ubase + wordOf (64 * cause))

/-- Raise a synchronous cause whose uepc is the faulting pc (R45). -/
def State.raise (s : State) (n cause : Nat) (val : Word) : State := s.raiseAt n cause (s.slot n).pc val

/-- Take the pending asynchronous cause of a bit: its PEND bit is cleared, or the oldest handler entry taken; a waiting
instruction is withdrawn and issues afresh after `uret` (R42, R44, R46). -/
def State.takeAsync (s : State) (n b : Nat) : State :=
  let s1 := s.withdraw n
  let x := s1.slot n
  if b = 2 then
    match x.handlers with
    | [] => s1
    | h :: rest =>
      let s2 := s1.onSlot n fun y =>
        { y with handlers := rest, pend := y.pend &&& ~~~4#9 }.enter 0x12 y.pc (h.id.setWidth 64) h.hpc
      s2.onCore h.core fun k => { k with copies := k.copies.filter fun c => !(c.posted && c.id == h.id && c.slot == n) }
  else
    let v := s1.asyncVal n b
    s1.onSlot n fun y =>
      { y with pend := y.pend &&& ~~~(BitVec.ofNat 9 (2 ^ b)), pendVal := storeSet noVal y.pendVal b 0 }.enter
        (causeOfBit b) y.pc v (y.ubase + wordOf (64 * causeOfBit b))

/-- Return from an upcall (R44): the shadows swap back, ACTIVE is cleared, pc = uepc. Waits while a shadow is owed;
outside a handler it raises 0x01. DESIGN CHOICE: `brPc` becomes 0, the uval of a 0x0F at a misaligned uepc: R72 names no
source for a return (R125; assumption 50). -/
def State.upcallReturn (s : State) (n : Nat) (word : Word) : State :=
  let x := s.slot n
  if !x.active then s.raise n 0x01 word
  else if x.shadowOwed then s.waits n
  else s.onSlot n fun y => { y with active := false, pc := y.uepc, brPc := 0, ist := y.ist + 1, state := .run }

/-- Return from a supervisor fault: pc = sepc, scause.ACTIVE = 0 (R186). -/
def State.supervisorReturn (s : State) (n : Nat) : State :=
  s.onSlot n fun y => { y with sactive := false, pc := y.sepc, brPc := 0, ist := y.ist + 1, state := .run }

/-- A failed check of a slot's unchecked access: the access leaves the mesh and the cause is raised; during a flush it is
recorded and raised once the job goes on (R134, R155). -/
def State.failCheck (s : State) (n cause : Nat) (va : Word) : State :=
  let pendingCheck (p : Packet) : Bool := p.slot == some n && (match p with
    | .load q => q.retire.isSome
    | .store q => q.retire.isSome
    | .near q => q.retire.isSome
    | .atomic q => q.retire.isSome
    | .barrier q => q.retire.isSome
    | .dep q => q.retire.isSome
    | .deque q => q.retire.isSome
    | .enqueue q => q.retire.isSome
    | _ => false)
  let s1 := { s with net := s.net.filter fun p => !pendingCheck p }
  let flushing : Bool := isUserSlot n && (match s.job (s.slot n).job with | some x => x.halted | none => false)
  if flushing then
    s1.onSlot n fun y => { y with unchecked := none, heldFault := some (BitVec.ofNat 8 cause, va) }
  else s1.raise n cause va

/-- A passed check: the instruction retires (R134). -/
def State.pass (s : State) (n : Nat) (r : Option Retire) : State :=
  match r with
  | some q => (s.onSlot n fun x => x.retire q).countPair n q.count
  | none => s

/-! ## Waiting for stores and loads (R143, R144) -/

/-- A packet that is a load, pair load, atomic or block read of a slot which has not landed. -/
def Packet.isLoadOf (n : Nat) : Packet → Bool
  | .load p => p.slot == n
  | .forwarded p _ => p.slot == n
  | .reply p => p.slot == n
  | .near p => p.slot == n && (match p.kind with | .load _ _ => true | .store _ => false)
  | .atomic p => p.slot == n && !p.departed
  | .atomicReply m _ _ _ _ => m == n
  | _ => false

/-- Every earlier load, pair load, atomic and block pass of the slot has landed (R143). -/
def State.loadsLanded (s : State) (n : Nat) : Bool := !s.net.any (Packet.isLoadOf n)

/-- An acquire of the slot is still on its way: its later memory and engine instructions wait (R142). -/
def State.acquiring (s : State) (n : Nat) : Bool :=
  s.net.any fun p => p.slot == some n && (match p with
    | .load q => q.acquire
    | .forwarded q _ => q.acquire
    | .reply q => q.acquire
    | .near q => (match q.kind with | .load _ a => a | .store _ => false)
    | .atomic q => q.acquire && !q.departed
    | .atomicReply _ _ _ _ a => a
    | _ => false)

/-- A registration that the proxies of a slot's die have acknowledged, of a slot of its job, has not reached its home: what the
slot has seen by die reach may not be visible elsewhere yet. -/
def State.dieProxied (s : State) (n : Nat) : Bool :=
  s.net.any fun p => match p with
    | .store q => q.proxied.isSome && dieOfTile (tileOfSlot q.slot) == dieOfTile (tileOfSlot n)
        && (s.tile (tileOfSlot q.slot)).owner == (s.tile (tileOfSlot n)).owner
    | _ => false

/-- A release of a reach may issue (R143, R144). At package reach it is cumulative over what the slot has seen by die reach: it
waits until its die's proxies have forwarded what they acknowledged (R311; assumption 62). -/
def State.released (s : State) (n : Nat) (package : Bool) : Bool :=
  s.loadsLanded n && (if package then (s.slot n).opc == 0 && !s.dieProxied n else (s.slot n).odc == 0)

/-! ## Addresses (R38, R39, R131-R133) -/

/-- Where an access goes once steps 1-4 of R39 pass. -/
inductive Target where
  | global (va : Nat)
  | scratch (core off : Nat)
  | fails (cause : Nat) (val : Word)
  deriving DecidableEq, Repr

/-- The region byte of an address. -/
def regionOf (a : Word) : Nat := fieldOf a 56 8

/-- Steps 1-4 of R39 for an access of `size` bytes, naturally aligned to `align`, by a slot at an address. -/
def State.target (s : State) (n : Nat) (a : Word) (size align : Nat) : Target :=
  let x := s.slot n
  let off := fieldOf a 0 18
  let limit := s.scratchSize x.job
  let misaligned := a.toNat % align != 0
  match regionOf a with
  | 0x00 =>
    if 2 ^ 56 < fieldOf a 0 56 + size then .fails 0x07 a
    else if misaligned then .fails 0x06 a
    else .global (fieldOf a 0 56)
  | 0xF0 =>
    if fieldOf a 18 38 != 0 || limit < off + size then .fails 0x07 a
    else if misaligned then .fails 0x06 a
    else .scratch (coreOfSlot n) off
  | 0xF1 =>
    if fieldOf a 50 6 != 0 || fieldOf a 18 20 != 0 || limit < off + size then .fails 0x07 a
    else if misaligned then .fails 0x06 a
    else match s.tileAtIndex x.job (fieldOf a 40 10) with
      | some t => .scratch (s.pairCore x.job (4 * t + fieldOf a 38 2)) off
      | none => .fails 0x0C a
  | 0xF2 => .fails 0x0B a
  | 0xF3 =>
    if fieldOf a 19 37 != 0 || 0x5_0000 < fieldOf a 0 19 + size then .fails 0x07 a
    else if misaligned then .fails 0x06 a
    else .fails 0x0A a
  | _ => .fails 0x07 a

/-- The effective address of a base and an offset: exact, within the base's region (R131). -/
def effective (a : Word) (imm : Int) : Except Word Word :=
  let e : Int := (a.toNat : Int) + imm
  let w := BitVec.ofInt 64 e
  if e < 0 || 2 ^ 64 ≤ e || regionOf w != regionOf a then .error w else .ok w

/-- The target of a base and an offset. -/
def State.targetOf (s : State) (n : Nat) (a : Word) (imm : Int) (size align : Nat) : Target :=
  match effective a imm with
  | .error w => .fails 0x07 w
  | .ok w => s.target n w size align

/-- The address that a base and an offset give. -/
def eaOf (a : Word) (imm : Int) : Word := BitVec.ofInt 64 ((a.toNat : Int) + imm)

/-! ## Scratchpad accesses (R27, R134, R197, R236) -/

/-- A move comes before the one in which an access was accepted; every move does where the access is not yet accepted. -/
def comesFirst (k : Nat) : Option Nat → Bool
  | some m => decide (k < m)
  | none => true

/-- A tile or acc operation of a core, accepted before an access, still holds some of its bytes (R197, R236). -/
def State.tileBusy (s : State) (c off n : Nat) (m : Option Nat) : Bool :=
  let meets (spans : List (Nat × Nat)) : Bool := spans.any fun e => rangesMeet off n e.1 e.2
  (s.core c).vector.any (fun v => !v.done && comesFirst v.since m && meets v.spans)
    || (s.tile (c / 4)).arrayOps.any (fun o => !o.done && comesFirst o.since m && o.slot / 64 == c && meets o.spans)

/-- The move in which a core accepted an access that has arrived there and has not been performed (R134, R161). -/
def Packet.acceptedAt : Packet → Option Nat
  | .near p => p.accepted
  | .atomic p => p.accepted
  | .barrier p => p.accepted
  | .dep p => p.accepted
  | .deque p => p.accepted
  | _ => none

/-- The scratchpad bytes that an access of another core reaches, by core, offset and length; a steal reaches its own frame too
(R134, R254). -/
def Packet.scratchPlaces : Packet → List (Nat × Nat × Nat)
  | .near p => [(p.core, p.offset, p.size)]
  | .atomic p => (match p.core with | some c => [(c, p.addr, atomicSize p.op)] | none => [])
  | .barrier p => [(p.core, p.offset, 16)]
  | .dep p => [(p.core, p.offset, 16)]
  | .deque p => (p.core, p.offset, 16) :: (if p.kind == .steal then [(coreOfSlot p.slot, p.frame, 64)] else [])
  | _ => []

/-- A slot waits to perform an access that a core has accepted: it is in rotation, and its job runs (R161). -/
def State.awaitsLeaf (s : State) (n : Nat) (x : Slot) : Bool :=
  x.state == .wait && x.leafWait.isSome && !s.isOut n && (!isUserSlot n ||
      (match s.job x.job with | some j => !j.halted | none => false))

/-- A core has accepted an access to some bytes of its scratchpad before another access, or before a move, and not yet performed it:
another core's, one for which a slot other than `me` waits, or a copy's (R147, R161, R197, R329). -/
def State.earlierOn (s : State) (c off n : Nat) (m me : Option Nat) : Bool :=
  let onLeaf (w : Option (Nat × Nat)) : Bool := match w with
    | some (d, l) => d == c && rangesMeet (4096 * l) 4096 off n
    | none => false
  s.net.any (fun p => match p.acceptedAt with
    | some k => comesFirst k m && p.scratchPlaces.any fun e => e.1 == c && rangesMeet e.2.1 e.2.2 off n
    | none => false)
    || s.slots.any (fun e => onLeaf e.2.leafWait && comesFirst e.2.leafSince m && some e.1 != me && s.awaitsLeaf e.1 e.2)

/-- Row `r` of a side of a copy (R238). -/
def rowAt (base : Word) (stride r : Nat) : Word := base + wordOf (r * stride)

/-- An address of a core's own scratchpad, as a slot of a job on that core names it (R38-R40). -/
def State.namesCore (s : State) (j c : Nat) (a : Word) : Bool :=
  regionOf a == 0xF0
    || (regionOf a == 0xF1 && s.tileAtIndex j (fieldOf a 40 10) == some (c / 4) && fieldOf a 38 2 == c % 4)

/-- A running copy of a core moves bytes of a range of its scratchpad. -/
def State.copyTouches (s : State) (c : Nat) (x : Copy) (off n : Nat) : Bool :=
  let side (base : Word) (stride : Nat) : Bool := (List.range x.rows).any fun r =>
    s.namesCore x.job c (rowAt base stride r) && rangesMeet (fieldOf (rowAt base stride r) 0 18) x.bytes off n
  !x.posted && (side x.src x.sstride || (!x.net && side x.dst x.dstride))

/-- The running copies of a core that touch some bytes of its scratchpad. -/
def State.copiesOn (s : State) (c : Nat) (spans : List (Nat × Nat)) : List (BitVec 32) :=
  ((s.core c).copies.filter fun x => spans.any fun e => s.copyTouches c x e.1 e.2).map (·.id)

/-- The job of a copy is halted by a synchronised stop: the copy is suspended, unless it is an array operation (R244). -/
def State.suspended (s : State) (x : Copy) : Bool :=
  !x.array && (match s.job x.job with | some j => j.halted | none => true)

/-- Some of the copies that an operation follows still run. A copy that a synchronised stop suspends holds nothing up: the
flush completes every accepted operation (R201, R237), and the copy goes on only after it. -/
def State.copiesRun (s : State) (c : Nat) (ids : List (BitVec 32)) : Bool :=
  (s.core c).copies.any fun x => !x.posted && ids.contains x.id && !s.suspended x

/-- What a scratchpad says of an access that reaches it (step 5 of R39). -/
inductive LeafCheck where
  | ready | wait | off
  deriving DecidableEq, Repr

/-- The leaf check of an access that its core accepted in move `m`, or accepts now: a read of an OFF leaf fails as it is accepted;
any other access waits for the wake of its leaf, and for the operations and accesses accepted before it (R27, R161, R197). -/
def State.leafCheckAt (s : State) (c off n : Nat) (reads : Bool) (m me : Option Nat) : LeafCheck :=
  if m.isNone && reads && s.scratchLeaf c off == .off then .off
  else if s.tileBusy c off n m || s.earlierOn c off n m me then .wait
  else match s.scratchLeaf c off with
    | .full => .ready
    | _ => .wait

/-- The leaf check of an access as a core accepts it. -/
def State.leafCheck (s : State) (c off n : Nat) (reads : Bool) : LeafCheck := s.leafCheckAt c off n reads none none

/-- The move in which a core accepted the access that a slot waits to perform on a leaf (R161). -/
def State.stampOf (s : State) (n c off : Nat) : Option Nat :=
  if (s.slot n).leafWait = some (c, off / 4096) then some (s.slot n).leafSince else none

/-- The leaf check of an access that a slot's instruction makes in its turn (R134). -/
def State.slotCheck (s : State) (n c off size : Nat) (reads : Bool) : LeafCheck :=
  s.leafCheckAt c off size reads (s.stampOf n c off) (some n)

/-- A slot waits for its access, which a core has accepted, until the leaf of its bytes is FULL and what was accepted before is
done (R27, R161, R197). -/
def State.waitsLeaf (s : State) (n c off : Nat) : State :=
  let since := (s.stampOf n c off).getD s.moves
  (s.wakeScratch c off).onSlot n fun x =>
    { x with state := .wait, leafWait := some (c, off / 4096), leafSince := since }

/-- A core accepts the access of the packet at a place, which has reached it and must wait there: it is checked, its instruction
retires, and its leaf wakes (R27, R134, R161). -/
def State.accepts (s : State) (i c off slot : Nat) (r : Option Retire) (p : Packet) : State :=
  ({ s with net := s.net.set i p }.wakeScratch c off).pass slot r

/-- The accesses that a core accepted before an operation, to some bytes of its scratchpad, are all performed (R197, R236). -/
def State.spansClear (s : State) (c since : Nat) (spans : List (Nat × Nat)) : Bool :=
  !spans.any fun e => s.earlierOn c e.1 e.2 (some since) none

/-- The waiters of a core's barrier objects and join words whose condition a write of bytes may meet: a join word that
has become 0 or less is answered in the step of the write (R255). -/
def State.answerJoins (s : State) (c off n : Nat) : State :=
  let hits := (s.core c).waiters.filter fun w =>
    w.seen.isNone && rangesMeet w.offset 8 off n && (s.scratchWord c w.offset).toInt ≤ 0
  if hits = [] then s else
  let s1 := hits.foldl (fun (u : State) w => u.post (.joinReply w.slot (u.scratchWord c w.offset))) s
  s1.onCore c fun k => { k with waiters := k.waiters.filter fun w => !hits.contains w }

/-- Write bytes of a scratchpad, answering the joins that wait on them. -/
def State.putScratch (s : State) (c off : Nat) (bs : List Byte) : State :=
  (s.setScratch c off bs).answerJoins c off bs.length

/-! ## Loads, stores and atomics (R134-R151)

A supervisor slot runs no job: its global addresses are device addresses, unchecked, and act at once (log 11). -/

/-- Sign-extend or zero-extend the bytes of a load (R140). -/
def extend (signed : Bool) (bs : List Byte) : Word :=
  let v := natOfBytes bs
  if signed && v.testBit (8 * bs.length - 1) then wordOfInt ((v : Int) - 2 ^ (8 * bs.length)) else wordOf v

/-- The words that the bytes of a load become: one, or two for a pair (R140, R146). -/
def loadWords (signed : Bool) (bs : List Byte) : List Word :=
  if bs.length = 16 then [wordOf (natOfBytes (bs.take 8)), wordOf (natOfBytes (bs.drop 8))] else [extend signed bs]

/-- How an access of a slot issues: its address, its size, and what it does to the slot when checked. -/
structure Access where
  slot : Nat
  ea : Word
  target : Target
  size : Nat
  dst : List RegLoc
  dead : List RegLoc
  misuse : Bool                     -- a field names a bound register (R139)
  word : Word                       -- the instruction word, for 0x0E
  puts : List (RegLoc × Word) := [] -- registers that retiring it rewrites (R269)
  deriving DecidableEq, Repr

/-- The retirement of an access. -/
def State.accessRetire (s : State) (a : Access) (stores : Nat) : Retire :=
  { (s.slot a.slot).next a.dead a.dst stores with puts := a.puts }

/-- Mark the slot as holding an unchecked access (R134). -/
def State.uncheck (s : State) (n va : Nat) (k : AccKind) (retry : Bool) : State :=
  s.onSlot n fun x => { x with unchecked := some { va := va, kind := k, retry := retry }, state := .wait }

/-- A registration of a line that the proxy of a die acknowledged, before a move where one is given, has not reached the home
(R315). -/
def State.proxiedAhead (s : State) (die va : Nat) (before : Option Nat) : Bool :=
  s.net.any fun p => match p with
    | .store q => (match q.proxied with
      | some m => (match before with | some b => decide (m < b) | none => true)
          && dieOfTile (tileOfSlot q.slot) == die && lineStart q.va == lineStart va
      | none => false)
    | _ => false

/-- Check a global page for a slot at once, without moving data: go on, wait for a walker, or fault (R134, R219); `op` is an
atomic's AtomicOp (R151). -/
def State.checkGlobal (s : State) (n va : Nat) (k : AccKind) (op : Option Nat) (goes : State → State) : State :=
  let x := s.slot n
  let c := coreOfSlot n
  if !s.permits c x.job k va then s.raise n 0x08 (wordOf va)
  else if !s.isOurs va then goes (s.keepProtection c x.job va)
  else
    let h := s.homeOf x.job va
    match s.homeCheck h va k op with
    | .held => goes (s.keepProtection c x.job va)
    | .mapped _ => goes (s.keepProtection c x.job va)
    | .busy => s.waits n
    | .fails cause => s.raise n cause.toNat (wordOf va)
    | .miss =>
      (s.askWalker h { va := va, kind := k, job := x.job, tile := h.tile, slice := h.slice, who := .slot n }).uncheck n va k
        true

/-- The scratchpad check of an access whose other field names a bound register, made before its 0x0E (R43, R139). A core that
the job is losing is accepted (R366). -/
def State.checkScratch (s : State) (n core off size : Nat) (reads : Bool) (ea : Word) (goes : State → State) : State :=
  if core != coreOfSlot n && s.lostTile (s.slot n).job core then goes s
  else match s.slotCheck n core off size reads with
    | .off => s.raise n 0x05 ea
    | .wait => s.waitsLeaf n core off
    | .ready => goes s

/-- The check that a home in another package makes of an access whose instruction is then refused, sent there as a request that
moves no data (R39, R43, R134, R139). -/
def State.probe (s : State) (n va : Nat) (k : AccKind) (m : Misuse) : State :=
  let x := s.slot n
  if !s.permits (coreOfSlot n) x.job k va then s.raise n 0x08 (wordOf va)
  else ((s.keepProtection (coreOfSlot n) x.job va).post
    (.load { slot := n, va := va, size := 8, signed := false, dst := [], reach := .plain, acquire := false, fetch := false,
             left := s.moves, frame := none, retire := none, misuse := some m })).uncheck n va k false

/-- The checks of R39 that stand at a target, then the misuse 0x0E of R43 item 6. -/
def State.misused (s : State) (n : Nat) (t : Target) (size : Nat) (ea word : Word) (k : AccKind) (op : Option Nat) : State :=
  let goes (u : State) : State := u.raise n 0x0E word
  match t with
  | .fails cause v => s.raise n cause v
  | .scratch tc off => s.checkScratch n tc off size (k != .write) ea goes
  | .global va =>
    if !isUserSlot n then goes s
    else if !s.isOurs va then s.probe n va k { word := word, rest := [] }
    else s.checkGlobal n va k op goes

/-- The checks of some accesses of a block form whose count or fill value is bound, in order, then 0x0E (R43, R139). -/
def State.misusedAll (s : State) (n : Nat) (word : Word) : List (Word × AccKind) → State
  | [] => s.raise n 0x0E word
  | (a, k) :: rest =>
    match s.target n a 8 8 with
    | .fails cause v => s.raise n cause v
    | .scratch tc off => s.checkScratch n tc off 8 (k != .write) a fun u => u.misusedAll n word rest
    | .global va =>
      if !isUserSlot n then s.misusedAll n word rest
      else if !s.isOurs va then s.probe n va k { word := word, rest := rest }
      else s.checkGlobal n va k none fun u => u.misusedAll n word rest

/-- Where a page is mapped, for a store that an L1 hit checks: the sector that its home holds, the slice's translation, or
the tables (R134, R296). -/
def State.frameOf (s : State) (j va : Nat) : Option Backing :=
  let h := s.homeOf j va
  match s.sectorAt h va with
  | some x => some { pa := x.pa, host := x.host }
  | none => match s.translation h va with
    | some t => some (t.backing va)
    | none => match s.walk h.slice va with
      | .leaf _ t => some (t.backing va)
      | _ => none

/-- A near load may be answered from the L1: the check of its target core passes (R134, R140). -/
def State.nearHit (s : State) (n core off size : Nat) : Option (List Byte) :=
  if s.lostTile (s.slot n).job core then none
  else match s.slotCheck n core off size true with
    | .ready => s.l1Hit n (nearKey core off) size
    | _ => none

/-- The L1 of a core holds every word of an access (R134). -/
def State.l1Holds (s : State) (c va size : Nat) : Bool := (s.l1Read c (va / 8) (va % 8) size).isSome

/-- An access whose line is present in the core's L1 is checked at once: where it found its page. None where it is not: the L1
lacks a word, or the line's home, in this package, finds its page no more and checks it itself (R134; log 63). -/
def State.hitCheck (s : State) (c j va size : Nat) : Option (Option Backing) :=
  if !s.l1Holds c va size then none
  else if !s.isOurs va then some none
  else (s.frameOf j va).map some

/-- A load (R140, R142, R146): served at once from the scratchpad or the L1, else sent to its home or target core. -/
def State.loadAccess (s : State) (a : Access) (signed : Bool) (reach : Reach) (acquire : Bool) : State :=
  let n := a.slot
  let c := coreOfSlot n
  let x := s.slot n
  let r := s.accessRetire a 0
  let lands (u : State) (bs : List Byte) : State :=
    let u1 := u.onSlot n fun y => (y.retire r).landAll a.dst (loadWords signed bs)
    if acquire then u1.acquire c (reach != .die) else u1
  if a.misuse then s.misused n a.target a.size a.ea a.word .read none
  else match a.target with
  | .fails cause v => s.raise n cause v
  | .scratch tc off =>
    if tc = c then
      match s.slotCheck n c off a.size true with
      | .off => s.raise n 0x05 a.ea
      | .wait => s.waitsLeaf n c off
      | .ready => lands s (s.scratch c off a.size)
    else
      let p : NearPacket := { slot := n, core := tc, offset := off, size := a.size, ea := a.ea, dst := a.dst,
                              kind := .load signed acquire, retire := some r }
      match (if reach = .plain then s.nearHit n tc off a.size else none) with
      | some bs => lands s bs
      | none => (s.post (.near p)).uncheck n off .read false
  | .global va =>
    if !isUserSlot n then lands s (s.physBytes va a.size)
    else if !s.permits c x.job .read va then s.raise n 0x08 a.ea
    else
      let s0 := s.keepProtection c x.job va
      match (if reach = .plain || s.l1Owns c (va / 8) a.size then s.l1Hit n va a.size else none) with
      | some bs => lands s0 bs
      | none =>
        let p (f : Option Backing) (q : Option Retire) : Packet :=
          .load { slot := n, va := va, size := a.size, signed := signed, dst := a.dst, reach := reach, acquire := acquire,
                  fetch := false, left := s.moves, frame := f, retire := q }
        match s.hitCheck c x.job va a.size with
        | some f => (s0.post (p f none)).onSlot n fun y => y.retire r
        | none => (s0.post (p none (some r))).uncheck n va .read false

/-- A store has no room among the slot's 32 unacknowledged ones (R136). -/
def Slot.storesFull (x : Slot) : Bool := 32 ≤ x.opc

/-- A store of bytes (R136, R141): performed at once in the core's own scratchpad, else sent. With its words in the L1 it is
checked at once and written there (R134); else what the L1 holds of it is written when its home or proxy has checked it. -/
def State.storeAccess (s : State) (a : Access) (bs : List Byte) : State :=
  let n := a.slot
  let c := coreOfSlot n
  let x := s.slot n
  if a.misuse then s.misused n a.target a.size a.ea a.word .write none
  else match a.target with
  | .fails cause v => s.raise n cause v
  | .scratch tc off =>
    if tc = c then
      match s.slotCheck n c off a.size false with
      | .ready => (s.onSlot n fun y => y.retire (s.accessRetire a 0)).putScratch c off bs
      | _ => s.waitsLeaf n c off
    else if x.storesFull then s.waits n
    else
      let p : NearPacket := { slot := n, core := tc, offset := off, size := a.size, ea := a.ea, dst := [],
                              kind := .store bs, retire := some (s.accessRetire a 1) }
      (s.post (.near p)).uncheck n off .write false
  | .global va =>
    if !isUserSlot n then (s.onSlot n fun y => y.retire (s.accessRetire a 0)).setPhysBytes va bs
    else if !s.permits c x.job .write va then s.raise n 0x08 a.ea
    else if x.storesFull then s.waits n
    else
      let s1 := s.keepProtection c x.job va
      let p (r : Option Retire) (f : Option Backing) : Packet :=
        .store { slot := n, va := va, bytes := bs, proxied := none, array := false, frame := f, retire := r }
      if s.l1Holds c va a.size then
        ((s1.l1Write c (va / 8) (va % 8) bs).post (p none (if s.isOurs va then s.frameOf x.job va else none))).onSlot n
          fun y => y.retire (s.accessRetire a 1)
      else (s1.post (p (some (s.accessRetire a 1)) none)).uncheck n va .write false

/-- An atomic (R147): performed at once in the core's own scratchpad, else sent to its home or target core. With its words in the
L1 it is checked at once; in another package its home checks it all the same, for its host path alone is the home's to know (R134,
R151; log 63). -/
def State.atomicAccess (s : State) (a : Access) (op : BitVec 7) (operands : List Word) (acquire : Bool) : State :=
  let n := a.slot
  let c := coreOfSlot n
  let x := s.slot n
  let packet (core : Option Nat) (addr : Nat) : AtomicPacket :=
    { slot := n, op := op, core := core, addr := addr, ea := a.ea, operands := operands, frm := x.frm, acquire := acquire,
        departed := false,
      dst := a.dst, retire := some (s.accessRetire a 0) }
  let refused (f : Backing) : Bool := atomicRefused f.host (atomicOpOf op)
  let lands (u : State) (o : AtomicOutcome) : State := u.onSlot n fun y =>
    let z := (y.retire (s.accessRetire a 0)).landAll a.dst o.vals
    { z with fsr := z.fsr ||| o.flags }
  let settles (u : State) : State := if acquire then u.acquire c true else u
  if a.misuse then s.misused n a.target a.size a.ea a.word .atomic (atomicOpOf op)
  else match a.target with
  | .fails cause v => s.raise n cause v
  | .scratch tc off =>
    if tc = c then
      match s.slotCheck n c off a.size true with
      | .off => s.raise n 0x05 a.ea
      | .wait => s.waitsLeaf n c off
      | .ready =>
        let o := atomicOutcome op x.frm (s.scratch c off a.size) operands
        settles ((lands s o).putScratch c off o.bytes)
    else ((s.l1Forget c (nearWord tc off) a.size).post (.atomic (packet (some tc) off))).uncheck n off .atomic false
  | .global va =>
    if !isUserSlot n then
      let o := atomicOutcome op x.frm (s.physBytes va a.size) operands
      settles ((lands s o).setPhysBytes va o.bytes)
    else if !s.permits c x.job .atomic va then s.raise n 0x08 a.ea
    else
      let s1 := (s.keepProtection c x.job va).l1Forget c (va / 8) a.size
      match s.hitCheck c x.job va a.size with
      | some (some f) =>
        if refused f then s.raise n 0x0D a.ea
        else (s1.post (.atomic { packet none va with frame := some f, retire := none })).onSlot n fun y =>
          y.retire (s.accessRetire a 0)
      | _ => (s1.post (.atomic (packet none va))).uncheck n va .atomic false

end Sys2Proof.Machine
end

