-- ==== Sys2Proof/Machine/Ports.lean ====
section
/-! DEFINITION. Ports: queues with their splice markers (R164-R166, R262-R266), links, the inbox read ends, network send
queues (R406), and the posting of messages (R175). -/

namespace Sys2Proof.Machine

/-! ## Messages (R175) -/

/-- Word 0 of a message (R175). -/
def messageWord (type status slot id : Nat) : Word :=
  wordOf (type % 256 + 2 ^ 8 * (status % 256) + 2 ^ 16 * (slot % 64) + 2 ^ 32 * (id % 2 ^ 32))

/-- A synchronised stop of a job is outstanding (R384). -/
def State.jobStopped (s : State) (j : Nat) : Bool := match s.job j with | some x => x.stopped | none => false

/-- Send a message to a slot's inbox; one that the device posts while the job is stopped says so (R384). -/
def State.postFrom (s : State) (poster : Poster) (job n type status id : Nat) (payload : Word) : State :=
  s.post (.message { job := job, core := coreOfSlot n, w0 := messageWord type status (tidOf n) id, w1 := payload,
                     poster := poster, sender := none, lands := [], follows := none,
                     stopped := poster == .device && s.jobStopped job })

/-- Send a message of the device to a slot's inbox. -/
def State.postMessage (s : State) (job n type status id : Nat) (payload : Word) : State :=
  s.postFrom .device job n type status id payload

/-! ## Who holds an end (R162) -/

/-- A binding reads from its port, or writes to it. -/
def Binding.isRead (b : Binding) : Bool := b.dir != .wr
/-- A binding writes to its port. -/
def Binding.isWrite (b : Binding) : Bool := b.dir != .rd

/-- The slot of a core that holds an end of a port. -/
def State.endHolder (s : State) (c port : Nat) (write : Bool) : Option Nat :=
  (slotsOfCore c).find? fun n => (s.slot n).bindings.any fun b =>
    b.port.toNat == port && (if write then b.isWrite else b.isRead)

/-- The queue of a core. -/
def State.queue (s : State) (c q : Nat) : List QEntry := storeGet noEntries (s.core c).queues q
/-- Replace a queue of a core. -/
def State.setQueue (s : State) (c q : Nat) (es : List QEntry) : State :=
  s.onCore c fun k => { k with queues := storeSet noEntries k.queues q es }

/-- Entries of a queue (R21). -/
def queueRoom : Nat := 32

/-- A link port is enabled: the neighbour tile belongs to the same job (R21, R166). -/
def State.linkEnabled (s : State) (c dir : Nat) : Bool :=
  match neighbour (c / 4) dir with
  | some t => (s.tile t).owner == (s.tile (c / 4)).owner && (s.tile t).owner.isSome
  | none => false

/-! ## Stages and markers (R262-R266) -/

/-- The stage entry of a slot. -/
def State.stageOf (s : State) (n : Nat) : Option StageEntry :=
  (s.core (coreOfSlot n)).stages.find? fun e => e.slot == n

/-- A thread's output: its lowest-numbered queue bound as a write end, with its register (R262). -/
def Slot.output (x : Slot) : Option Binding :=
  (List.range 16).findSome? fun q => x.bindings.find? fun b => b.port.toNat == q && b.isWrite

/-- The queues that a slot's bindings name. -/
def Slot.boundQueues (x : Slot) : List Nat := (x.bindings.filter fun b => b.port.toNat < 16).map (·.port.toNat)

/-- The RUNNING stages that a core's queues join to a set of slots, found in at most `k` rounds. -/
def State.joinedStages (s : State) (c : Nat) : Nat → List Nat → List Nat
  | 0, seen => seen
  | k + 1, seen =>
    let qs := seen.flatMap fun n => (s.slot n).boundQueues
    let more := ((s.core c).stages.filter fun e =>
      e.running && !seen.contains e.slot && (s.slot e.slot).boundQueues.any qs.contains).map (·.slot)
    if more = [] then seen else s.joinedStages c k (seen ++ more)

/-- The depth of the pipeline of a slot (R262). -/
def State.pipelineDepth (s : State) (n : Nat) : Nat :=
  let c := coreOfSlot n
  let all := s.joinedStages c 16 [n]
  ((s.core c).stages.filter fun e => e.running && all.contains e.slot).length

/-- Where meeting a marker leaves its thread: going on, sent to another pc, or removed (R266). -/
inductive Flow where
  | goes | rebound | removed
  deriving DecidableEq, Repr

/-- What applying a marker gives: a failure code or 0, how the thread goes on, the state, and the queue between the target and the
stage inserted behind it, into which the marker goes (R266). -/
structure Applied where
  code : Nat
  flow : Flow
  state : State
  into : Option Nat := none

/-- A removed stage's entries are still moving out of a queue, or into it (R266). -/
def State.moveTouches (s : State) (c q : Nat) : Bool := (s.core c).moves.any fun m => m.source == q || m.target == q

/-- A queue takes no entry of its writer: it is full, or a removed stage's entries are still moving into it (R266). -/
def State.queueShut (s : State) (c q : Nat) : Bool :=
  queueRoom ≤ (s.queue c q).length || (s.core c).moves.any (·.target == q)

/-- Insert-after (R266, OP 1): the stage NEWSLOT joins behind the target through an empty unbound queue. A register that it inherits
into a leaf that is not FULL wakes the leaf, as a write does (R26). -/
def State.insertAfter (s : State) (n : Nat) (m : Word) (input : Binding) : Applied :=
  let c := coreOfSlot n
  let x := s.slot n
  let new := 64 * c + fieldOf m 44 8
  let parked := fieldOf m 44 8 < 62 && (s.core c).stages.any fun e => e.slot == new && !e.running
  if !parked then { code := 2, flow := .goes, state := s }
  else if 8 ≤ s.pipelineDepth n then { code := 4, flow := .goes, state := s }
  else match (List.range 16).find? fun q => s.queue c q == [] && (s.endHolder c q true).isNone
      && (s.endHolder c q false).isNone && !s.moveTouches c q with
    | none => { code := 3, flow := .goes, state := s }
    | some qn =>
      let port := BitVec.ofNat 5 qn
      let out := x.output
      let inherits (y : Slot) : Slot := (List.range 32).foldl (fun z i =>
        if i != 0 && (fieldOf m 0 32).testBit i && i < x.winSize && i < z.winSize && (x.bindingOf (BitVec.ofNat 7 i)).isNone
            && (z.bindingOf (BitVec.ofNat 7 i)).isNone then
          (z.wakeLeaf (i / 8)).setCell (.win i) { x.cell (.win i) with owed := false }
        else z) y
      let s1 := match out with
        | some o => s.onSlot n fun y =>
          { y with bindings := y.bindings.map fun (b : Binding) =>
              if b.reg == o.reg then { b with port := port, dir := .wr } else b }
        | none => s
      let s2 := s1.onSlot new fun y =>
        let z := { y with
          bindings := { reg := input.reg, dir := .rd, port := port } ::
            (match out with | some o => [{ reg := o.reg, dir := .wr, port := o.port }] | none => [])
          state := .run }
        if s1.isOut new then (inherits z).retained else inherits z
      { code := 0, flow := .goes, into := out.map fun _ => qn,
        state := s2.onCore c fun k =>
          { k with stages := k.stages.map fun (e : StageEntry) => if e.slot == new then { e with running := true } else e } }

/-- Remove (R266, OP 2): the mask's registers go to the issuer, the writer of the input is rebound to the output, and
the input's entries begin to move there. -/
def State.removeStage (s : State) (n : Nat) (m : Word) (input : Binding) (st : StageEntry) (issuer : Option Nat) : Applied :=
  let c := coreOfSlot n
  let x := s.slot n
  let qin := input.port.toNat
  match x.output, s.endHolder c qin true with
  | some o, some w =>
    let seq := fieldOf m 32 12
    let s1 : State := match issuer with
      | some who => (List.range 32).foldl (fun (u : State) i =>
          if i != 0 && st.mask.toNat.testBit i then
            let cell := x.cell (.win i)
            let v := if cell.pres == Presence.full && i < x.winSize && (x.bindingOf (BitVec.ofNat 7 i)).isNone then cell.val else 0
            u.postFrom (.core (coreOfSlot who)) x.job who 5 0x80 (256 * seq + i) v
          else u) s
      | none => s
    let s2 : State := s1.setQueue c o.port.toNat (s1.queue c o.port.toNat ++ [({ val := m, marker := true } : QEntry)])
    let rebind (b : Binding) : Binding :=
      if b.port == input.port && b.isWrite then { b with port := o.port, dir := .wr } else b
    let s3 := s2.onSlot w fun y => { y with bindings := y.bindings.map rebind }
    let s4 := s3.onSlot n fun y =>
      { y with bindings := y.bindings.filter (fun b => b.reg != input.reg && b.reg != o.reg), state := .wait }
    let move : QueueMove := { source := qin, target := o.port.toNat, slot := n }
    { code := 0, flow := .removed, state := s4.onCore c fun k => { k with moves := k.moves ++ [move] } }
  | _, _ => { code := 5, flow := .goes, state := s }

/-- Apply a marker to its target (R266). -/
def State.applyMarker (s : State) (n : Nat) (m : Word) (input : Binding) (st : StageEntry) (issuer : Option Nat) : Applied :=
  let op := fieldOf m 60 4
  if op = 1 then s.insertAfter n m input
  else if op = 2 then s.removeStage n m input st issuer
  else
    { code := 0, flow := .rebound,
      state := s.onSlot n fun y =>
        { y with pc := st.entry + wordOfInt (4 * (BitVec.ofNat 32 (fieldOf m 0 32)).toInt), brPc := 0 } }

/-- A marker that failed: OP 15 and the code in ARG (R263). -/
def failedMarker (m : Word) (code : Nat) : Word :=
  wordOf (15 * 2 ^ 60 + fieldOf m 32 28 * 2 ^ 32 + code)

/-- A thread meets the marker at the head of a queue it reads (R265): applied where it is the target, then pushed to the queue of an
insertion (R266), else to the thread's output, or reported to its issuer. None where the output is full, or entries that the thread
wrote before are still moving into it. A target without an output into which a stage is inserted reports it at once: R265 lets the
marker leave there (DEDUCED; assumption 64). -/
def State.meetMarker (s : State) (n : Nat) (input : Binding) (m : Word) : Option (Flow × State) :=
  let c := coreOfSlot n
  let qin := input.port.toNat
  let seq := BitVec.ofNat 12 (fieldOf m 32 12)
  let s0 := s.setQueue c qin (s.queue c qin).tail
  let issuer := ((s.core c).splices.find? fun e => e.seq == seq).map (·.slot)
  let target := match s.stageOf n with
    | some st => if fieldOf m 60 4 != 15 && BitVec.ofNat 8 (fieldOf m 52 8) == st.id then some st else none
    | none => none
  let full : Bool := target.isSome && fieldOf m 60 4 == 2 && (match (s.slot n).output with
    | some o => s.queueShut c o.port.toNat
    | none => false)
  if full then none else
  let applied : Applied := match target with
    | some st =>
      (s0.onCore c fun k =>
        { k with splices := k.splices.map fun (e : SpliceEntry) =>
            if e.seq == seq then { e with matched := true } else e }).applyMarker n m input st issuer
    | none => { code := 0, flow := .goes, state := s0 }
  let m1 := if applied.code = 0 then m else failedMarker m applied.code
  let s1 := applied.state
  if applied.flow = .removed then some (.removed, s1) else
    let onward : Option Nat := match applied.into with
      | some q => some q
      | none => (s1.slot n).output.map fun (b : Binding) => b.port.toNat
    match onward with
    | some o =>
      if s1.queueShut c o then none
      else some (applied.flow, s1.setQueue c o (s1.queue c o ++ [{ val := m1, marker := true }]))
    | none =>
      let entry := (s1.core c).splices.find? fun e => e.seq == seq
      let m2 := if fieldOf m1 60 4 != 15 && !(match entry with | some e => e.matched | none => false)
        then failedMarker m1 1 else m1
      match entry with
      | none => some (applied.flow, s1)
      | some e =>
        let status := if fieldOf m2 60 4 = 15 then fieldOf m2 0 8 else 0
        let s2 := s1.postFrom (.core (coreOfSlot n)) (s.slot n).job e.slot 5 status seq.toNat m2
        let s3 := if (s2.slot e.slot).state = .free then s2
          else s2.onSlot e.slot fun y => y.pending 3 (seq.setWidth 64)
        some (applied.flow, s3.onCore c fun k => { k with splices := k.splices.filter fun z => z != e })

/-- The answer of a read end. -/
inductive Take where
  | took (v : Word) (s : State)
  | empty
  | blocked
  | flows (s : State)               -- the thread was removed or sent elsewhere: the read does not happen
  | misuse

/-- Insert-after waits until no register that ARG names is owed (R266). -/
def State.insertWaits (s : State) (n : Nat) (m : Word) : Bool :=
  match s.stageOf n with
  | some st => fieldOf m 60 4 == 1 && BitVec.ofNat 8 (fieldOf m 52 8) == st.id
      && (List.range 32).any fun i => i != 0 && (fieldOf m 0 32).testBit i && (s.slot n).owes (.win i)
  | none => false

/-- Read past the markers at the head of a queue and take its oldest data entry (R164, R265). -/
def State.takeQueue (n : Nat) (b : Binding) : Nat → State → Take
  | 0, _ => .empty
  | k + 1, s =>
    let c := coreOfSlot n
    match s.queue c b.port.toNat with
    | [] => .empty
    | e :: rest =>
      if e.marker then
        if s.insertWaits n e.val then .blocked
        else match s.meetMarker n b e.val with
          | none => .blocked
          | some (.goes, s1) => State.takeQueue n b k s1
          | some (_, s1) => .flows s1
      else .took e.val (s.setQueue c b.port.toNat rest)

/-- Take the oldest entry of a message port: word 0, then word 1, which removes the message and acquires (R165). -/
def State.takeMessage (s : State) (n : Nat) (b : Binding) (type : Option Nat) : Take :=
  let c := coreOfSlot n
  let mine (m : Message) : Bool := fieldOf m.w0 16 6 == tidOf n
  match (s.core c).inbox.find? fun m => mine m && m.openedBy == some b.reg with
  | some m =>
    let s1 := s.onCore c fun k => { k with inbox := k.inbox.erase m }
    .took m.w1 (s1.onSlot n fun x => { x with acqHold := true })
  | none =>
    let fits (m : Message) : Bool := mine m && m.openedBy.isNone && (match type with
      | some t => fieldOf m.w0 0 8 == t
      | none => true)
    match (s.core c).inbox.find? fits with
    | some m => .took m.w0 (s.onCore c fun k =>
        { k with inbox := updateFirst fits (fun x => { x with openedBy := some b.reg }) k.inbox })
    | none => .empty

/-- Take one entry from the read end of a binding (R164, R165). -/
def State.takePort (s : State) (n : Nat) (b : Binding) : Take :=
  let c := coreOfSlot n
  let p := b.port.toNat
  if !b.isRead then .misuse
  else if p < 16 then
    (if (s.queue c p).any (fun e => !e.marker) then State.takeQueue n b 33 s else .empty)
  else if p < 20 then
    match storeGet noWords (s.core c).linkIn (p - 16) with
    | v :: rest => .took v (s.onCore c fun k => { k with linkIn := storeSet noWords k.linkIn (p - 16) rest })
    | [] => if s.linkEnabled c (p - 16) then .empty else .misuse
  else if p = 20 then s.takeMessage n b none
  else if p = 21 then s.takeMessage n b (some 2)
  else if p = 22 then s.takeMessage n b (some 1)
  else .misuse

/-- The answer of a write end. -/
inductive Give where
  | gave (s : State)
  | full
  | misuse

/-- The send context of a core's tenant for a send queue (R405). -/
def State.sendContext (s : State) (j q : Nat) : Word :=
  match s.job j with
  | some x => storeGet noVal (s.tenant x.tenant).nsqctx q
  | none => 0

/-- A context through which messages may leave: V = 1 and SVC assigned (R405, R406). -/
def contextOpen (w : Word) : Bool := bitOf w 0 && fieldOf w 62 2 != 3

/-- Words of a send queue (R406). -/
def sendRoom : Nat := 64

/-- Give a word to a network send queue: a header, then its payload (R406). -/
def State.giveSend (s : State) (n q : Nat) (v : Word) : Give :=
  let c := coreOfSlot n
  let sq := storeGet noSend (s.core c).sendQueues q
  let len := fieldOf v 0 16
  if !contextOpen (s.sendContext (s.slot n).job q) then .misuse
  else if sq.left = 0 && (len = 0 || 4096 < len || fieldOf v 48 16 != 0) then .misuse
  else if sendRoom ≤ sq.words.length || sq.copy.isSome then .full
  else
    let put (w : SendWord) (left : Nat) : State := s.onCore c fun k =>
      { k with sendQueues := storeSet noSend k.sendQueues q { sq with words := sq.words ++ [w], left := left } }
    if sq.left = 0 then .gave (put { val := v, bytes := 0, header := true, last := false } len)
    else .gave (put { val := v, bytes := 8, header := false, last := sq.left == 1 } (sq.left - 1))

/-- Give one entry to the write end of a binding (R164-R166). -/
def State.givePort (s : State) (n : Nat) (b : Binding) (v : Word) : Give :=
  let c := coreOfSlot n
  let p := b.port.toNat
  if !b.isWrite then .misuse
  else if p < 16 then
    if s.queueShut c p then .full
    else .gave (s.setQueue c p (s.queue c p ++ [{ val := v, marker := false }]))
  else if p < 20 then
    let out := storeGet noWords (s.core c).linkOut (p - 16)
    if !s.linkEnabled c (p - 16) then .misuse
    else if 4 ≤ out.length then .full
    else .gave (s.onCore c fun k => { k with linkOut := storeSet noWords k.linkOut (p - 16) (out ++ [v]) })
  else if 24 ≤ p then s.giveSend n (p - 24) v
  else .misuse

/-- The directions a port offers (R106). -/
def portOffers (port : Nat) (d : BindDir) : Bool :=
  if port < 20 then true else if port < 23 then d == .rd else d == .wr

/-- Remove a binding: its register becomes DEAD, and a message opened through it returns unread (R163). -/
def State.unbindReg (s : State) (n : Nat) (r : Reg) : State :=
  let close (m : Message) : Message :=
    if fieldOf m.w0 16 6 == tidOf n && m.openedBy == some r then { m with openedBy := none } else m
  let s1 := s.onCore (coreOfSlot n) fun k => { k with inbox := k.inbox.map close }
  s1.onSlot n fun x =>
    let y := { x with bindings := x.bindings.filter fun b => b.reg != r }
    y.setPres (.win r.toNat) .dead

end Sys2Proof.Machine
end

