-- ==== Sys2Proof/Machine/Operands.lean ====
section
/-! DEFINITION. Operand forms: the register checks in R43's order (range, presence faults, waits), the values that the
fields read, last use, and the delivery of results, for single-pass forms (which may name ports, R164) and long forms. -/

namespace Sys2Proof.Machine

/-- The registers of an instruction: fields it reads, with their last-use bits, in the order a, b, d; fields it writes;
fields it names without reading or writing a value. -/
structure Named where
  reads : List (Reg × Bool)
  dests : List Reg
  also : List Reg

/-- All names. -/
def Named.all (u : Named) : List Reg := u.reads.map (·.1) ++ u.dests ++ u.also

/-- Reads of field a alone. -/
def readA (d a : Reg) (la : Bool) : Named := { reads := [(a, la)], dests := [d], also := [] }
/-- Reads of fields a and b. -/
def readAB (d a b : Reg) (la lb : Bool) : Named := { reads := [(a, la), (b, lb)], dests := [d], also := [] }
/-- Reads of fields a, b and then d (R111). -/
def readABD (d a b : Reg) (la lb : Bool) : Named := { reads := [(a, la), (b, lb), (d, false)], dests := [d], also := [] }
/-- No field but a destination. -/
def writeD (d : Reg) : Named := { reads := [], dests := [d], also := [] }
/-- Reads of fields a and b, no destination. -/
def onlyAB (a b : Reg) (la lb : Bool) : Named := { reads := [(a, la), (b, lb)], dests := [], also := [] }
/-- Reads of field a, no destination. -/
def onlyA (a : Reg) (la : Bool) : Named := { reads := [(a, la)], dests := [], also := [] }

/-- The presence fault of one field that is read: 0x04 before 0x03 (R22, R26, R43). In a single pass an empty read end
with xmode[0] = 1 is 0x03 (R164). -/
def State.fieldFault (s : State) (n : Nat) (single : Bool) (r : Reg) : Option (Nat × Word) :=
  let x := s.slot n
  if r = 0 then none
  else match x.bound r with
    | some b =>
      if single && b.isRead && x.xmode then
        match s.takePort n b with
        | .empty => some (0x03, r.setWidth 64)
        | _ => none
      else none
    | none =>
      let l := x.loc r
      if x.leafOf l == .off then some (0x04, r.setWidth 64)
      else match (x.cell l).pres with
        | .dead => some (0x04, r.setWidth 64)
        | .trap => some (0x03, r.setWidth 64)
        | .empty => if x.xmode && x.leafOf l == .full then some (0x03, r.setWidth 64) else none
        | .full => none

/-- A field that is read must wait (R22): EMPTY, or its leaf on its way to FULL. -/
def Slot.readWaits (x : Slot) (r : Reg) : Bool :=
  r != 0 && (x.bound r).isNone && ((x.cell (x.loc r)).pres == .empty || x.leafOf (x.loc r) != .full)

/-- A field that is written must wait (R23, R26): owed a result, or its leaf not FULL. -/
def Slot.writeWaits (x : Slot) (r : Reg) : Bool :=
  r != 0 && (x.bound r).isNone && ((x.cell (x.loc r)).owed || x.leafOf (x.loc r) != .full)

/-- Start the wakes that the named registers need. -/
def Slot.wakeNames (x : Slot) (rs : List Reg) : Slot :=
  rs.foldl (fun y r => if r = 0 || (y.bound r).isSome then y else y.wakePlace (y.loc r)) x

/-- What the register checks answer: the instruction goes on, or the slot is left in a state. -/
inductive Gate where
  | go
  | stop (s : State)

/-- The register checks: 0x02, then the presence faults field by field, then the waits (R43 items 3 and 4). -/
def State.gate (s : State) (n : Nat) (single : Bool) (u : Named) (word : Word) : Gate :=
  let x := s.slot n
  if u.all.any fun r => x.winSize ≤ r.toNat then .stop (s.raise n 0x02 word)
  else match u.reads.findSome? fun e => s.fieldFault n single e.1 with
    | some (cause, v) => .stop (s.raise n cause v)
    | none =>
      if u.reads.any (fun e => x.readWaits e.1) || u.dests.any x.writeWaits then
        .stop ((s.onSlot n fun y => y.wakeNames u.all).waits n)
      else .go

/-- The places that last use makes DEAD: not g0, not a bound register (R15, R79, R164). -/
def Slot.lastUses (x : Slot) (reads : List (Reg × Bool)) : List RegLoc :=
  (reads.filter fun e => e.2 && e.1 != 0 && (x.bound e.1).isNone).map fun e => x.loc e.1

/-- Meet the marker that stops an instruction in the state in which the instruction began, nothing taken (R164, R265). Where an
entry of the same read end stands before it, for another register of the instruction, the entry stays in its place (DEDUCED;
assumption 65). -/
def State.meetFirst (s : State) (n : Nat) (b : Binding) : Take :=
  match s.takePort n b with
  | .flows t => .flows t
  | _ =>
    let c := coreOfSlot n
    let q := b.port.toNat
    let ahead := (s.queue c q).takeWhile (!·.marker)
    match (s.setQueue c q ((s.queue c q).dropWhile (!·.marker))).takePort n b with
    | .flows t => .flows (t.setQueue c q (ahead ++ t.queue c q))
    | _ => .blocked

/-- Take from the read ends of the bound registers that are read, each once, in field order (R164). Where a marker stops the
instruction, it has been met in the state `s0` in which the instruction began, and nothing has been taken. -/
def takeAll (n : Nat) (s0 : State) : List (Reg × Bool) → List (Reg × Word) → State → Take × List (Reg × Word)
  | [], got, s => (.took 0 s, got)
  | (r, _) :: rest, got, s =>
    match (s.slot n).bound r with
    | none => takeAll n s0 rest got s
    | some b =>
      if r = 0 || got.any (fun e => e.1 == r) then takeAll n s0 rest got s
      else match s.takePort n b with
        | .took v s1 => takeAll n s0 rest ((r, v) :: got) s1
        | .flows _ => (s0.meetFirst n b, got)
        | other => (other, got)

/-- The value of a field: what its port gave, or the register's. -/
def Slot.fieldVal (x : Slot) (got : List (Reg × Word)) (r : Reg) : Word :=
  match got.find? fun e => e.1 == r with
  | some e => e.2
  | none => x.val r

/-- The operands of a single-pass form. -/
inductive Operands where
  | go (vals : List Word) (s : State)
  | stop (s : State)

/-- The read end of some field holds no data entry (R43, R164). -/
def State.endEmpty (s : State) (n : Nat) (u : Named) : Bool :=
  u.reads.any fun e => match (s.slot n).bound e.1 with
    | some b => e.1 != 0 && (match s.takePort n b with | .empty => true | _ => false)
    | none => false

/-- The entries that an instruction takes enter a lockstep pair (R389). -/
def State.logTaken (s : State) (n : Nat) (got : List (Reg × Word)) : State :=
  if got = [] then s else s.logInput n (got.map (·.2))

/-- Read the fields of a single-pass form, after its checks; the slot waits for every field that it reads before a misuse is
raised (R43, R164). -/
def State.operands (s : State) (n : Nat) (u : Named) (word : Word) : Operands :=
  match s.gate n true u word with
  | .stop t => .stop t
  | .go =>
    match takeAll n s u.reads [] s with
    | (.took _ s1, got) => .go (u.reads.map fun e => (s.slot n).fieldVal got e.1) (s1.logTaken n got)
    | (.empty, _) => .stop (s.waits n)
    | (.blocked, _) => .stop (s.waits n)
    | (.flows s1, _) => .stop s1
    | (.misuse, _) => .stop (if s.endEmpty n u then s.waits n else s.raise n 0x0E word)

/-- Give results to the write ends of bound destinations (R164). -/
def giveAll (n : Nat) : List (Reg × Word) → State → Give
  | [], s => .gave s
  | (r, v) :: rest, s =>
    match (s.slot n).bound r with
    | none => giveAll n rest s
    | some b => if r = 0 then giveAll n rest s else match s.givePort n b v with
      | .gave s1 => giveAll n rest s1
      | other => other

/-- Retire a single-pass form that began in `s` and stands at `s1` after its takes: results to ports or registers, flags
ORed into fsr, the pc to `target`. With a write end that is full it waits and nothing has happened (R59, R164).
DESIGN CHOICE: the room of a write end is judged after the takes of the same instruction (assumption 51). -/
def State.deliver (s s1 : State) (n : Nat) (u : Named) (results : List (Reg × Word)) (flags : FlagSet) (target : Word)
    (word : Word) : State :=
  match giveAll n results s1 with
  | .full => s.waits n
  | .misuse => s.raise n 0x0E word
  | .gave s2 => s2.onSlot n fun x =>
    let y := x.retire { dead := x.lastUses u.reads, owe := [], puts := [], pc := target, stores := 0, count := 1 }
    let z := results.foldl (fun z e => if (z.bound e.1).isSome then z else z.put e.1 e.2) y
    { z with fsr := z.fsr ||| flags }

/-- A single-pass form that writes field d with a function of its operands and goes on to the next instruction. -/
def State.compute (s : State) (i : Instr) (u : Named) (d : Reg) (f : Slot → List Word → Word × FlagSet) : State :=
  let n := s.focus
  match s.operands n u i.word with
  | .stop t => t
  | .go vals s1 =>
    let r := f (s.slot n) vals
    s.deliver s1 n u [(d, r.1)] r.2 ((s.slot n).pc + 4) i.word

/-- A single-pass form that transfers control: the results of registers and the new pc (R122-R124). -/
def State.branch (s : State) (i : Instr) (u : Named) (f : Slot → List Word → List (Reg × Word) × Word) : State :=
  let n := s.focus
  match s.operands n u i.word with
  | .stop t => t
  | .go vals s1 =>
    let r := f (s.slot n) vals
    s.deliver s1 n u r.1 noFlags r.2 i.word

/-- A long form: the register checks, then what it does with its operands. A bound register that `addresses` names
raises 0x0E at once; `misuse` tells whether another field names one, which the form raises after its address checks
(R139, R164, R245). -/
def State.longForm (s : State) (i : Instr) (u : Named) (addresses : List Reg)
    (f : Slot → List Word → Bool → State) : State :=
  let n := s.focus
  match s.gate n false u i.word with
  | .stop t => t
  | .go =>
    let x := s.slot n
    if x.anyBound addresses then s.raise n 0x0E i.word
    else f x (u.reads.map fun e => x.val e.1) (x.anyBound u.all)

/-- A long form without addresses whose result is owed and lands later: it retires at once (R112, R192). -/
def State.longCompute (s : State) (i : Instr) (u : Named) (d : Reg) (f : Slot → List Word → Slot → List RegLoc → Slot) :
    State :=
  s.longForm i u [] fun x vals misuse =>
    if misuse then s.raise s.focus 0x0E i.word
    else s.onSlot s.focus fun y =>
      f x vals (y.retire (x.next (x.lastUses u.reads) (x.dst [d]) 0)) (x.dst [d])

/-- The instructions that an acquire holds: opcodes 0x30-0x4C, 0x70-0x74 and 0x76-0x7D (R142). -/
def isMemoryClass (i : Instr) : Bool :=
  let op := fieldOf i.word 0 7
  i.isWord && ((0x30 ≤ op && op ≤ 0x4C) || (0x70 ≤ op && op ≤ 0x74) || (0x76 ≤ op && op ≤ 0x7D))

/-- The single-pass instructions that also read field d (R111). -/
def readsD : Instr → Bool
  | .bfi _ _ _ _ _ => true
  | .lis _ _ => true
  | .fma _ _ _ _ _ _ => true
  | _ => false

/-- Some field of the word names a register bound to a read end (R142). Field b exists in the R, S and B formats, and some
instructions read field d. -/
def Slot.readsPort (x : Slot) (i : Instr) : Bool :=
  let w := i.word
  let op := fieldOf w 0 7
  let hasA := !(0x18 ≤ op && op ≤ 0x1A) && op != 0x26
  let hasB := hasA && !(0x0A ≤ op && op ≤ 0x0D) && !(0x10 ≤ op && op ≤ 0x17) && op != 0x27
  let hasD := readsD i
  let isRead (r : Nat) : Bool := match x.bound (BitVec.ofNat 7 r) with
    | some b => b.isRead
    | none => false
  x.bindings != [] && ((hasA && isRead (fieldOf w 14 7)) || (hasB && isRead (fieldOf w 21 7))
    || (hasD && isRead (fieldOf w 7 7)))

/-- Perform the invalidation that an `ipop`, a port read or a reply left pending, before an instruction it holds (R142). -/
def State.settle (s : State) (n : Nat) (i : Instr) : State :=
  let x := s.slot n
  if x.acqHold && (isMemoryClass i || x.readsPort i) then
    (s.acquire (coreOfSlot n) true).onSlot n fun y => { y with acqHold := false }
  else s

end Sys2Proof.Machine
end

