-- ==== Sys2Proof/Machine/Vector.lean ====
section
/-! DEFINITION. Tile vector instructions: descriptors and their checks, acceptance, the operations, and the two events of
the vector unit (R194-R212). -/

namespace Sys2Proof.Machine

/-! ## Descriptors (R194, R195) -/

/-- A tile: its format, rows, columns, the bytes between row starts and the offset of row 0. -/
structure TileDesc where
  fmt : Nat
  rows : Nat
  cols : Nat
  stride : Nat
  addr : Nat
  deriving DecidableEq, Repr

/-- The tile that a descriptor names. -/
def tileDesc (w : Word) : TileDesc :=
  { fmt := fieldOf w 34 4, rows := fieldOf w 18 8 + 1, cols := fieldOf w 26 8 + 1, stride := 64 * fieldOf w 38 12,
    addr := fieldOf w 0 18 }

/-- Bytes of a row. -/
def TileDesc.width (t : TileDesc) : Nat := rowBytes t.fmt t.cols
/-- The offset of a row. -/
def TileDesc.row (t : TileDesc) (i : Nat) : Nat := t.addr + i * t.stride
/-- The byte ranges of a tile: one per row, one for all where the stride is 0. -/
def TileDesc.spans (t : TileDesc) : List (Nat × Nat) :=
  if t.stride = 0 then [(t.addr, t.width)] else (List.range t.rows).map fun i => (t.row i, t.width)
/-- The last byte of a tile. -/
def TileDesc.last (t : TileDesc) : Nat := t.row (t.rows - 1) + t.width - 1
/-- Two sets of byte ranges share a byte. -/
def spansMeet (xs ys : List (Nat × Nat)) : Bool := xs.any fun e => ys.any fun f => rangesMeet e.1 e.2 f.1 f.2

/-- The local address of a scratchpad offset. -/
def localAddress (off : Nat) : Word := wordOf (0xF0 * 2 ^ 56 + off)

/-- The first leaf of some byte ranges that is OFF. -/
def State.offLeaf (s : State) (c : Nat) (spans : List (Nat × Nat)) : Option Nat :=
  (List.range 48).find? fun l => s.scratchLeaf c (4096 * l) == .off && spans.any fun e => rangesMeet e.1 e.2 (4096 * l) 4096

/-- What R202 asks of an instruction's operands. Each test sees d's, a's and b's tiles. -/
structure VectorRules where
  useA : Bool
  useB : Bool
  useMask : Bool
  fmtD : TileDesc → TileDesc → Bool
  fmtA : TileDesc → TileDesc → Bool
  fmtB : TileDesc → TileDesc → TileDesc → Bool
  shapeD : TileDesc → Bool
  shapeA : TileDesc → TileDesc → Bool
  shapeB : TileDesc → TileDesc → TileDesc → Bool
  apart : Bool                      -- the destination may share no byte with a source (R199)

/-- Any format code. -/
def isAnyCode (c : Nat) : Bool := c ≤ 10
/-- Two tiles have one shape. -/
def sameShape (d a : TileDesc) : Bool := d.rows == a.rows && d.cols == a.cols

/-- An operation whose sources have d's format and shape, of formats that `ok` selects. -/
def alike (ok : Nat → Bool) (useB : Bool) : VectorRules :=
  { useA := true, useB := useB, useMask := false, fmtD := fun d _ => ok d.fmt, fmtA := fun d a => a.fmt == d.fmt,
    fmtB := fun d _ b => b.fmt == d.fmt, shapeD := fun _ => true, shapeA := sameShape, shapeB := fun d _ b => sameShape d b,
    apart := false }

/-- Float or integer. -/
def isNumCode (c : Nat) : Bool := c ≤ 6
/-- Integer or mask. -/
def isBitCode (c : Nat) : Bool := isIntCode c || c == 10

/-- A comparison. -/
def compares : VectorRules :=
  { alike isNumCode true with
    fmtD := fun d _ => d.fmt == 10, fmtA := fun _ a => isNumCode a.fmt, fmtB := fun _ a b => b.fmt == a.fmt }

/-- A reduction: `same` where d has a's format, else FP32 or s32. -/
def reduces (useB same : Bool) : VectorRules :=
  { alike isNumCode useB with
    fmtD := fun d a => if same then isNumCode d.fmt else d.fmt == (if isFloatCode a.fmt then 0 else 3)
    fmtA := fun d a => isNumCode a.fmt && (!same || a.fmt == d.fmt)
    fmtB := fun _ a b => b.fmt == a.fmt, shapeD := fun d => d.cols == 1, shapeA := fun d a => a.rows == d.rows
    shapeB := fun _ a b => sameShape a b, apart := true }

/-- R202, by instruction. -/
def vectorRules : Instr → VectorRules
  | .vfma _ _ _ _ _ => alike isFloatCode true
  | .vabs _ _ _ => alike isNumCode false
  | .vneg _ _ _ => alike isNumCode false
  | .vexp2 _ _ _ => alike isFloatCode false
  | .vlog2 _ _ _ => alike isFloatCode false
  | .vrcp _ _ _ => alike isFloatCode false
  | .vrsqrt _ _ _ => alike isFloatCode false
  | .vlt _ _ _ _ _ => compares
  | .vle _ _ _ _ _ => compares
  | .veq _ _ _ _ _ => compares
  | .vsel _ _ _ _ _ => { alike (fun c => isNumCode c || c == 10) true with useMask := true }
  | .vsum _ _ _ => reduces false false
  | .vdot _ _ _ _ _ => reduces true false
  | .vmaxr _ _ _ => reduces false true
  | .vminr _ _ _ => reduces false true
  | .vcvt _ _ _ => { alike isNumCode false with fmtA := fun _ a => isNumCode a.fmt }
  | .vq _ _ _ => { alike isQuireCode false with fmtA := fun _ a => isFloatCode a.fmt, apart := true }
  | .vdq _ _ _ => { alike isFloatCode false with fmtA := fun _ a => isQuireCode a.fmt, apart := true }
  | .vscale _ _ _ _ _ =>
    { alike isFloatCode true with
      fmtB := fun _ _ b => b.fmt == 0
      shapeB := fun d _ b => (b.rows == d.rows && b.cols == 1) || (b.rows == 1 && b.cols == d.cols), apart := true }
  | .vcopy _ _ _ => alike isAnyCode false
  | .vtr _ _ _ => { alike isNumCode false with shapeA := fun d a => a.rows == d.cols && a.cols == d.rows, apart := true }
  | .vfill _ _ _ => { alike (fun c => isNumCode c || c == 10) false with useA := false }
  | .viota _ _ _ => { alike isNumCode false with useA := false }
  | .vand _ _ _ _ _ => alike isBitCode true
  | .vor _ _ _ _ _ => alike isBitCode true
  | .vxor _ _ _ _ _ => alike isBitCode true
  | .vshl _ _ _ _ _ => alike isIntCode true
  | _ => alike isNumCode true

/-- An instruction that reads the tile it writes: `vfma` takes z from d's tile (R203). -/
def readsOwnTile : Instr → Bool
  | .vfma _ _ _ _ _ => true
  | _ => false

/-- The checks of one descriptor in R195's order: a cause and its uval. `source` where the descriptor is a source's, `reads`
where the operation reads its bytes: R27 faults a read of an OFF leaf. -/
def State.checkTile (s : State) (c limit : Nat) (w word : Word) (fmt shape source reads apart : Bool)
    (others : List (Nat × Nat)) : Option (Nat × Word) :=
  let t := tileDesc w
  if fieldOf w 50 14 != 0 || 11 ≤ t.fmt || !fmt then some (0x01, word)
  else if isQuireCode t.fmt && t.cols % 16 != 0 then some (0x01, word)
  else if !shape then some (0x01, word)
  else if 1 < t.rows && t.stride < t.width && !(source && t.stride == 0) then some (0x01, word)
  else if t.addr % 64 != 0 then some (0x06, localAddress t.addr)
  else if limit ≤ t.last then some (0x07, localAddress t.last)
  else match (if reads then s.offLeaf c t.spans else none) with
    | some l => some (0x05, localAddress (4096 * l))
    | none => if apart && spansMeet t.spans others then some (0x01, word) else none

/-- The checks of a tile vector instruction: a, then b, then d, then the mask (R195). -/
def State.checkVector (s : State) (n : Nat) (i : Instr) (wa wb wd mask : Word) : Option (Nat × Word) :=
  let r := vectorRules i
  let c := coreOfSlot n
  let limit := s.scratchSize (s.slot n).job
  let a := tileDesc wa
  let b := tileDesc wb
  let d := tileDesc wd
  let sources := (if r.useA then a.spans else []) ++ (if r.useB then b.spans else [])
  let check (use : Bool) (w : Word) (fmt shape source reads : Bool) : Option (Nat × Word) :=
    if use then s.checkTile c limit w i.word fmt shape source reads (r.apart && !source) sources else none
  (check r.useA wa (r.fmtA d a) (r.shapeA d a) true true).or
    ((check r.useB wb (r.fmtB d a b) (r.shapeB d a b) true true).or
      ((check true wd (r.fmtD d a) (r.shapeD d) false (readsOwnTile i)).or
        (check r.useMask mask ((tileDesc mask).fmt == 10) (sameShape d (tileDesc mask)) true true)))

/-! ## Acceptance (R196, R197) -/

/-- Operations a vector unit holds. -/
def vectorRoom : Nat := 16

/-- An accepted acc operation of the core still holds some of these bytes (R197, R236). -/
def State.arrayHolds (s : State) (c : Nat) (spans : List (Nat × Nat)) : Bool :=
  (s.tile (c / 4)).arrayOps.any fun o => !o.done && o.slot / 64 == c && spansMeet spans o.spans

/-- Issue a tile vector instruction: the register checks, 0x0E, the descriptor checks, room, then acceptance. `reads` are
its source fields in order, `b` whether the second is b. DESIGN CHOICE: an operation keeps its place of the unit's 16 until it is
performed and its result has landed or is held (R197; assumption 69). -/
def State.vectorForm (s : State) (i : Instr) (d : Reg) (reads : List (Reg × Bool)) : State :=
  let u : Named := { reads := reads ++ [(d, false)], dests := [d], also := [] }
  s.longForm i u u.all fun x v _ =>
    let n := s.focus
    let c := coreOfSlot n
    let r := vectorRules i
    let a := v.getD 0 0
    let b := if reads.length = 2 then v.getD 1 0 else 0
    let dw := v.getD reads.length 0
    match s.checkVector n i a b dw x.vmask with
    | some (cause, w) => s.raise n cause w
    | none =>
      let spans := (if r.useA then (tileDesc a).spans else []) ++ (if r.useB then (tileDesc b).spans else [])
        ++ (tileDesc dw).spans ++ (if r.useMask then (tileDesc x.vmask).spans else [])
      if vectorRoom ≤ (s.core c).vector.length || s.arrayHolds c spans then s.waits n
      else
        let op : VectorOp :=
          { slot := n, instr := i, a := a, b := b, d := dw, mask := x.vmask, frm := x.frm, dst := x.dst [d], spans := spans,
            copies := s.copiesOn (coreOfSlot n) spans, since := s.moves,
            done := false, flags := noFlags }
        (s.onCore c fun k => { k with vector := k.vector ++ [op] }).onSlot n fun y =>
          y.retire (x.next (x.lastUses reads) (x.dst [d]) 0)

/-- `vadd` (R196, R203). -/
def execVadd (d a b : Reg) (la lb : Bool) (s : State) : Result :=
  .next (s.vectorForm (.vadd d a b la lb) d [(a, la), (b, lb)])
/-- `vsub` (R196, R203). -/
def execVsub (d a b : Reg) (la lb : Bool) (s : State) : Result :=
  .next (s.vectorForm (.vsub d a b la lb) d [(a, la), (b, lb)])
/-- `vmul` (R196, R203). -/
def execVmul (d a b : Reg) (la lb : Bool) (s : State) : Result :=
  .next (s.vectorForm (.vmul d a b la lb) d [(a, la), (b, lb)])
/-- `vfma` (R196, R203). -/
def execVfma (d a b : Reg) (la lb : Bool) (s : State) : Result :=
  .next (s.vectorForm (.vfma d a b la lb) d [(a, la), (b, lb)])
/-- `vmin` (R196, R203). -/
def execVmin (d a b : Reg) (la lb : Bool) (s : State) : Result :=
  .next (s.vectorForm (.vmin d a b la lb) d [(a, la), (b, lb)])
/-- `vmax` (R196, R203). -/
def execVmax (d a b : Reg) (la lb : Bool) (s : State) : Result :=
  .next (s.vectorForm (.vmax d a b la lb) d [(a, la), (b, lb)])
/-- `vabs` (R196, R203). -/
def execVabs (d a : Reg) (la : Bool) (s : State) : Result :=
  .next (s.vectorForm (.vabs d a la) d [(a, la)])
/-- `vneg` (R196, R203). -/
def execVneg (d a : Reg) (la : Bool) (s : State) : Result :=
  .next (s.vectorForm (.vneg d a la) d [(a, la)])
/-- `vlt` (R196, R205). -/
def execVlt (d a b : Reg) (la lb : Bool) (s : State) : Result :=
  .next (s.vectorForm (.vlt d a b la lb) d [(a, la), (b, lb)])
/-- `vle` (R196, R205). -/
def execVle (d a b : Reg) (la lb : Bool) (s : State) : Result :=
  .next (s.vectorForm (.vle d a b la lb) d [(a, la), (b, lb)])
/-- `veq` (R196, R205). -/
def execVeq (d a b : Reg) (la lb : Bool) (s : State) : Result :=
  .next (s.vectorForm (.veq d a b la lb) d [(a, la), (b, lb)])
/-- `vsel` (R196, R205). -/
def execVsel (d a b : Reg) (la lb : Bool) (s : State) : Result :=
  .next (s.vectorForm (.vsel d a b la lb) d [(a, la), (b, lb)])
/-- `vexp2` (R196, R204). -/
def execVexp2 (d a : Reg) (la : Bool) (s : State) : Result :=
  .next (s.vectorForm (.vexp2 d a la) d [(a, la)])
/-- `vlog2` (R196, R204). -/
def execVlog2 (d a : Reg) (la : Bool) (s : State) : Result :=
  .next (s.vectorForm (.vlog2 d a la) d [(a, la)])
/-- `vrcp` (R196, R204). -/
def execVrcp (d a : Reg) (la : Bool) (s : State) : Result :=
  .next (s.vectorForm (.vrcp d a la) d [(a, la)])
/-- `vrsqrt` (R196, R204). -/
def execVrsqrt (d a : Reg) (la : Bool) (s : State) : Result :=
  .next (s.vectorForm (.vrsqrt d a la) d [(a, la)])
/-- `vsum` (R196, R206). -/
def execVsum (d a : Reg) (la : Bool) (s : State) : Result :=
  .next (s.vectorForm (.vsum d a la) d [(a, la)])
/-- `vmaxr` (R196, R206). -/
def execVmaxr (d a : Reg) (la : Bool) (s : State) : Result :=
  .next (s.vectorForm (.vmaxr d a la) d [(a, la)])
/-- `vminr` (R196, R206). -/
def execVminr (d a : Reg) (la : Bool) (s : State) : Result :=
  .next (s.vectorForm (.vminr d a la) d [(a, la)])
/-- `vdot` (R196, R206). -/
def execVdot (d a b : Reg) (la lb : Bool) (s : State) : Result :=
  .next (s.vectorForm (.vdot d a b la lb) d [(a, la), (b, lb)])
/-- `vcvt` (R196, R207). -/
def execVcvt (d a : Reg) (la : Bool) (s : State) : Result :=
  .next (s.vectorForm (.vcvt d a la) d [(a, la)])
/-- `vq` (R196, R208). -/
def execVq (d a : Reg) (la : Bool) (s : State) : Result :=
  .next (s.vectorForm (.vq d a la) d [(a, la)])
/-- `vdq` (R196, R208). -/
def execVdq (d a : Reg) (la : Bool) (s : State) : Result :=
  .next (s.vectorForm (.vdq d a la) d [(a, la)])
/-- `vscale` (R196, R209). -/
def execVscale (d a b : Reg) (la lb : Bool) (s : State) : Result :=
  .next (s.vectorForm (.vscale d a b la lb) d [(a, la), (b, lb)])
/-- `vcopy` (R196, R210). -/
def execVcopy (d a : Reg) (la : Bool) (s : State) : Result :=
  .next (s.vectorForm (.vcopy d a la) d [(a, la)])
/-- `vtr` (R196, R210). -/
def execVtr (d a : Reg) (la : Bool) (s : State) : Result :=
  .next (s.vectorForm (.vtr d a la) d [(a, la)])
/-- `vfill` (R196, R211). -/
def execVfill (d a : Reg) (la : Bool) (s : State) : Result :=
  .next (s.vectorForm (.vfill d a la) d [(a, la)])
/-- `viota` (R196, R211). -/
def execViota (d a : Reg) (la : Bool) (s : State) : Result :=
  .next (s.vectorForm (.viota d a la) d [(a, la)])
/-- `vand` (R196, R212). -/
def execVand (d a b : Reg) (la lb : Bool) (s : State) : Result :=
  .next (s.vectorForm (.vand d a b la lb) d [(a, la), (b, lb)])
/-- `vor` (R196, R212). -/
def execVor (d a b : Reg) (la lb : Bool) (s : State) : Result :=
  .next (s.vectorForm (.vor d a b la lb) d [(a, la), (b, lb)])
/-- `vxor` (R196, R212). -/
def execVxor (d a b : Reg) (la lb : Bool) (s : State) : Result :=
  .next (s.vectorForm (.vxor d a b la lb) d [(a, la), (b, lb)])
/-- `vshl` (R196, R212). -/
def execVshl (d a b : Reg) (la lb : Bool) (s : State) : Result :=
  .next (s.vectorForm (.vshl d a b la lb) d [(a, la), (b, lb)])

/-! ## Elements (R65, R203-R212) -/

/-- The number that integer bits stand for. -/
def intOfBits (code bits : Nat) : Int :=
  if isUnsignedCode code then (bits : Int) else (BitVec.ofNat (intWidth code) bits).toInt
/-- The bits of an integer, reduced modulo 2^w. -/
def bitsOfInt (code : Nat) (v : Int) : Nat := (BitVec.ofInt (intWidth code) v).toNat
/-- The least and the greatest value of an integer code. -/
def intBounds (code : Nat) : Int × Int :=
  let w := intWidth code
  if isUnsignedCode code then (0, 2 ^ w - 1) else (-(2 ^ (w - 1)), 2 ^ (w - 1) - 1)

/-- The bits of element (i, j) of a tile of codes 0-6 and 10. -/
def State.element (s : State) (c : Nat) (t : TileDesc) (i j : Nat) : Nat :=
  if t.fmt = 10 then bitsOf (natOfBytes (s.scratch c (t.row i + j / 8) 1)) (j % 8) 1
  else natOfBytes (s.scratch c (t.row i + elemBytes t.fmt * j) (elemBytes t.fmt))

/-- Write the bits of element (i, j); with a mask's last column the padding of its byte is written 0 (R205). -/
def State.setElement (s : State) (c : Nat) (t : TileDesc) (i j bits : Nat) : State :=
  if t.fmt = 10 then
    let off := t.row i + j / 8
    let old := natOfBytes (s.scratch c off 1)
    let keepHigh := if j + 1 = t.cols then 0 else old / 2 ^ (j % 8 + 1) * 2 ^ (j % 8 + 1)
    s.putScratch c off (bytesOfNat 1 (keepHigh + bits % 2 * 2 ^ (j % 8) + old % 2 ^ (j % 8)))
  else s.putScratch c (t.row i + elemBytes t.fmt * j) (bytesOfNat (elemBytes t.fmt) bits)

/-- An operation on two elements of one numeric code. -/
def numeric (code : Nat) (f : FloatFormat → FVal → FVal → FRes) (g : Int → Int → Int) (x y : Nat) : FRes :=
  match floatCode code with
  | some fmt => f fmt (fmt.value x) (fmt.value y)
  | none => { bits := bitsOfInt code (g (intOfBits code x) (intOfBits code y)), flags := noFlags }

/-- The larger or smaller of two elements (R203, R206). -/
def elementPick (code : Nat) (wantMax : Bool) (x y : Nat) : FRes :=
  match floatCode code with
  | some fmt => fmt.minMax wantMax x y
  | none =>
    let a := intOfBits code x
    let b := intOfBits code y
    { bits := if (if wantMax then decide (b ≤ a) else decide (a ≤ b)) then x else y, flags := noFlags }

/-- The sign operations on an element: `f` on float bits, `g` on integers (R203). -/
def elementSign (code : Nat) (f : FloatFormat → Nat → Nat) (g : Int → Int) (x : Nat) : FRes :=
  match floatCode code with
  | some fmt => match fmt.value x with
    | .nan sg => fmt.nan sg
    | _ => { bits := f fmt x, flags := noFlags }
  | none => { bits := bitsOfInt code (g (intOfBits code x)), flags := noFlags }

/-- A comparison of two elements (R205). -/
def elementTest (code : Nat) (quiet : Bool) (p : FVal → FVal → Bool) (q : Int → Int → Bool) (x y : Nat) : FRes :=
  match floatCode code with
  | some fmt =>
    { bits := if p (fmt.value x) (fmt.value y) then 1 else 0, flags := compareFlags quiet (fmt.value x) (fmt.value y) }
  | none => { bits := if q (intOfBits code x) (intOfBits code y) then 1 else 0, flags := noFlags }

/-- A function of R204 on an element. -/
def elementFn (code : Nat) (f : FloatFormat → FVal → FRes) (x : Nat) : FRes :=
  match floatCode code with
  | some fmt => f fmt (fmt.value x)
  | none => { bits := x, flags := noFlags }

/-- Convert an element between codes 0-6 (R207). -/
def elementConvert (mode : BitVec 2) (source target x : Nat) : FRes :=
  match floatCode source, floatCode target with
  | some f, some g => g.ofValue mode (f.value x)
  | some f, none =>
    let r := toIntBetween mode (intBounds target).1 (intBounds target).2 (f.value x)
    { bits := bitsOfInt target r.1, flags := r.2 }
  | none, some g => g.ofInt mode (intOfBits source x)
  | none, none =>
    { bits := bitsOfInt target (max (intBounds target).1 (min (intBounds target).2 (intOfBits source x))), flags := noFlags }

/-- `vshl` of an element (R212). -/
def elementShift (code x y : Nat) : Nat :=
  let w : Int := intWidth code
  let n := intOfBits code y
  let v := intOfBits code x
  if w ≤ n then 0
  else if 0 ≤ n then bitsOfInt code (v * 2 ^ n.toNat)
  else if n ≤ -w then bitsOfInt code (if 0 ≤ v then 0 else -1)
  else bitsOfInt code (v / 2 ^ (-n).toNat)

/-- `viota` of an element: S(a) + i·c + j (R211). -/
def elementIota (mode : BitVec 2) (code : Nat) (v : Int) : FRes :=
  match floatCode code with
  | some g => g.ofInt mode v
  | none => { bits := bitsOfInt code v, flags := noFlags }

/-- The element that an elementwise operation writes, from the elements of a, b, d and the mask at its place. -/
def VectorOp.elementOf (o : VectorOp) (i j x y z m : Nat) : FRes :=
  let d := tileDesc o.d
  let a := tileDesc o.a
  let raw (n : Nat) : FRes := { bits := n, flags := noFlags }
  match o.instr with
  | .vadd _ _ _ _ _ => numeric d.fmt (fun f => f.add o.frm) (· + ·) x y
  | .vsub _ _ _ _ _ => numeric d.fmt (fun f => f.sub o.frm) (· - ·) x y
  | .vmul _ _ _ _ _ => numeric d.fmt (fun f => f.mul o.frm) (· * ·) x y
  | .vfma _ _ _ _ _ => numeric d.fmt (fun f u v => f.fma o.frm u v (f.value z)) (· * ·) x y
  | .vmin _ _ _ _ _ => elementPick d.fmt false x y
  | .vmax _ _ _ _ _ => elementPick d.fmt true x y
  | .vabs _ _ _ => elementSign d.fmt (fun f n => n % 2 ^ (f.width - 1)) (fun v => v.natAbs) x
  | .vneg _ _ _ => elementSign d.fmt (fun f n => n ^^^ 2 ^ (f.width - 1)) (fun v => -v) x
  | .vlt _ _ _ _ _ => elementTest a.fmt false FVal.lt (fun u v => decide (u < v)) x y
  | .vle _ _ _ _ _ => elementTest a.fmt false FVal.le (fun u v => decide (u ≤ v)) x y
  | .veq _ _ _ _ _ => elementTest a.fmt true FVal.eq (fun u v => decide (u = v)) x y
  | .vsel _ _ _ _ _ => raw (if m = 1 then x else y)
  | .vexp2 _ _ _ => elementFn d.fmt (fun f => f.exp2 o.frm) x
  | .vlog2 _ _ _ => elementFn d.fmt (fun f => f.log2 o.frm) x
  | .vrcp _ _ _ => elementFn d.fmt (fun f => f.rcp o.frm) x
  | .vrsqrt _ _ _ => elementFn d.fmt (fun f => f.rsqrt o.frm) x
  | .vcvt _ _ _ => elementConvert o.frm a.fmt d.fmt x
  | .vscale _ _ _ _ _ => elementFn d.fmt (fun f u => f.mul o.frm u (fp32.value y)) x
  | .vfill _ _ _ => raw (if d.fmt = 10 then o.a.toNat % 2 else o.a.toNat % 2 ^ (8 * elemBytes d.fmt))
  | .viota _ _ _ => elementIota o.frm d.fmt (o.a.toInt + i * d.cols + j)
  | .vand _ _ _ _ _ => raw (x &&& y)
  | .vor _ _ _ _ _ => raw (x ||| y)
  | .vxor _ _ _ _ _ => raw (x ^^^ y)
  | .vshl _ _ _ _ _ => raw (elementShift d.fmt x y)
  | _ => raw x

/-! ## The operations (R199, R203-R212) -/

/-- A state and the flags raised so far. -/
abbrev Run := State × FlagSet

/-- Elements in row-major order, each read just before it is written (R199). -/
def State.runElements (s : State) (c : Nat) (o : VectorOp) : Run :=
  let d := tileDesc o.d
  let a := tileDesc o.a
  let b := tileDesc o.b
  let r := vectorRules o.instr
  (List.range (d.rows * d.cols)).foldl (fun (u : Run) k =>
    let i := k / d.cols
    let j := k % d.cols
    let x := if r.useA then u.1.element c a i j else 0
    let y := if r.useB then u.1.element c b (if b.rows = 1 then 0 else i) (if b.cols = 1 then 0 else j) else 0
    let z := u.1.element c d i j
    let m := if r.useMask then u.1.element c (tileDesc o.mask) i j else 0
    let e := o.elementOf i j x y z m
    (u.1.setElement c d i j e.bits, u.2 ||| e.flags)) (s, noFlags)

/-- `vtr` (R210): d(i, j) = a(j, i). -/
def State.runTranspose (s : State) (c : Nat) (o : VectorOp) : Run :=
  let d := tileDesc o.d
  let a := tileDesc o.a
  ((List.range (d.rows * d.cols)).foldl (fun (u : State) k =>
    u.setElement c d (k / d.cols) (k % d.cols) (s.element c a (k % d.cols) (k / d.cols))) s, noFlags)

/-- `vcopy` (R210): rows byte by byte, a quire at a time, a mask bit by bit. -/
def State.runCopy (s : State) (c : Nat) (o : VectorOp) : Run :=
  let d := tileDesc o.d
  let a := tileDesc o.a
  if isQuireCode d.fmt then
    let q := quireBytes d.fmt
    let n := d.cols / 16
    ((List.range (d.rows * n)).foldl (fun (u : State) k =>
      u.putScratch c (d.row (k / n) + q * (k % n)) (u.scratch c (a.row (k / n) + q * (k % n)) q)) s, noFlags)
  else s.runElements c o

/-- `vq` (R208): sixteen elements of a row into a quire. -/
def State.runQuantise (s : State) (c : Nat) (o : VectorOp) : Run :=
  let d := tileDesc o.d
  let a := tileDesc o.a
  let n := d.cols / 16
  let f := (floatCode a.fmt).getD fp32
  (List.range (d.rows * n)).foldl (fun (u : Run) k =>
    let xs := (List.range 16).map fun e => f.value (s.element c a (k / n) (16 * (k % n) + e))
    let r := quantise (quireWidth d.fmt) xs
    (u.1.putScratch c (d.row (k / n) + quireBytes d.fmt * (k % n)) (r.1.bytes (quireWidth d.fmt) (quireBytes d.fmt)),
      u.2 ||| r.2)) (s, noFlags)

/-- `vdq` (R208): a quire into sixteen elements. -/
def State.runDequantise (s : State) (c : Nat) (o : VectorOp) : Run :=
  let d := tileDesc o.d
  let a := tileDesc o.a
  let n := d.cols / 16
  let f := (floatCode d.fmt).getD fp32
  (List.range (d.rows * n)).foldl (fun (u : Run) k =>
    let q := quireOf (quireWidth a.fmt) (s.scratch c (a.row (k / n) + quireBytes a.fmt * (k % n)) (quireBytes a.fmt))
    let rs := dequantise f o.frm (quireWidth a.fmt) q
    (rs.zipIdx).foldl (fun (w : Run) e =>
      (w.1.setElement c d (k / n) (16 * (k % n) + e.2) e.1.bits, w.2 ||| e.1.flags)) u) (s, noFlags)

/-- A partial sum, or absent, with the flags so far (R206). -/
abbrev Partial := Option Nat

/-- The elements of a row in the FP32 that a reduction works in: a NaN is the canonical one, and a signalling NaN raises
NV, also where no other element is joined to it (R55, R206). -/
def widen (code x : Nat) : FRes := fp32.ofValue 0 (((floatCode code).getD fp32).value x)

/-- The element that `vmaxr` and `vminr` start from: a NaN as `widen` has it (R55, R206). -/
def firstPick (code x : Nat) : FRes :=
  match floatCode code with
  | some fmt => fmt.ofValue 0 (fmt.value x)
  | none => { bits := x, flags := noFlags }

/-- One lane of `vsum` or `vdot` (R206). -/
def laneSum (mode : BitVec 2) : List (Nat × Option Nat) → Partial → FlagSet → Partial × FlagSet
  | [], p, f => (p, f)
  | (x, none) :: rest, none, f => laneSum mode rest (some x) f
  | (x, none) :: rest, some p, f =>
    let r := fp32.add mode (fp32.value p) (fp32.value x)
    laneSum mode rest (some r.bits) (f ||| r.flags)
  | (x, some y) :: rest, none, f =>
    let r := fp32.mul mode (fp32.value x) (fp32.value y)
    laneSum mode rest (some r.bits) (f ||| r.flags)
  | (x, some y) :: rest, some p, f =>
    let r := fp32.fma mode (fp32.value x) (fp32.value y) (fp32.value p)
    laneSum mode rest (some r.bits) (f ||| r.flags)

/-- One level of the tree: neighbours joined (R206). -/
def joinPairs (mode : BitVec 2) : List Partial → List Partial × FlagSet
  | u :: v :: rest =>
    let (ps, f) := joinPairs mode rest
    match u, v with
    | none, q => (q :: ps, f)
    | p, none => (p :: ps, f)
    | some a, some b =>
      let r := fp32.add mode (fp32.value a) (fp32.value b)
      (some r.bits :: ps, f ||| r.flags)
  | ps => (ps, noFlags)

/-- Levels of the tree (R206). -/
def joinLevels (mode : BitVec 2) : Nat → List Partial → FlagSet → List Partial × FlagSet
  | 0, ps, f => (ps, f)
  | k + 1, ps, f =>
    let (qs, g) := joinPairs mode ps
    joinLevels mode k qs (f ||| g)

/-- ReduceRow for floats: x and, for `vdot`, y of each column (R206). -/
def reduceRow (mode : BitVec 2) (cols : List (Nat × Option Nat)) : FRes :=
  let lanes := (List.range 32).map fun l =>
    laneSum mode ((cols.zipIdx.filter fun e => e.2 % 32 == l).map (·.1)) none noFlags
  let r := joinLevels mode 5 (lanes.map (·.1)) (lanes.foldl (fun f e => f ||| e.2) noFlags)
  { bits := (r.1.headD none).getD 0, flags := r.2 }

/-- `vsum`, `vdot`, `vmaxr`, `vminr` of a row (R206). -/
def State.reduceOf (s : State) (c : Nat) (o : VectorOp) (i : Nat) : FRes :=
  let a := tileDesc o.a
  let b := tileDesc o.b
  let useB := (vectorRules o.instr).useB
  let xs := (List.range a.cols).map fun j => s.element c a i j
  let ys := (List.range a.cols).map fun j => if useB then s.element c b i j else 1
  let pick (wantMax : Bool) : FRes := match xs with
    | [] => { bits := 0, flags := noFlags }
    | x :: rest => rest.foldl (fun u y =>
      let r := elementPick a.fmt wantMax u.bits y
      { bits := r.bits, flags := u.flags ||| r.flags })
      (firstPick a.fmt x)
  match o.instr with
  | .vmaxr _ _ _ => pick true
  | .vminr _ _ _ => pick false
  | _ =>
    if isFloatCode a.fmt then
      let wx := xs.map (widen a.fmt)
      let wy := ys.map (widen a.fmt)
      let flags := (wx ++ if useB then wy else []).foldl (fun f e => f ||| e.flags) noFlags
      let r := reduceRow o.frm ((wx.zip wy).map fun e => (e.1.bits, if useB then some e.2.bits else none))
      { bits := r.bits, flags := r.flags ||| flags }
    else
      let total := ((xs.zip ys).map fun e => intOfBits a.fmt e.1 * (if useB then intOfBits a.fmt e.2 else 1)).sum
      { bits := bitsOfInt 3 total, flags := noFlags }

/-- A reduction: one element per row (R206). -/
def State.runReduce (s : State) (c : Nat) (o : VectorOp) : Run :=
  let d := tileDesc o.d
  (List.range d.rows).foldl (fun (u : Run) i =>
    let r := s.reduceOf c o i
    (u.1.setElement c d i 0 r.bits, u.2 ||| r.flags)) (s, noFlags)

/-- Perform an accepted operation. -/
def State.runVector (s : State) (c : Nat) (o : VectorOp) : Run :=
  match o.instr with
  | .vsum _ _ _ => s.runReduce c o
  | .vdot _ _ _ _ _ => s.runReduce c o
  | .vmaxr _ _ _ => s.runReduce c o
  | .vminr _ _ _ => s.runReduce c o
  | .vq _ _ _ => s.runQuantise c o
  | .vdq _ _ _ => s.runDequantise c o
  | .vcopy _ _ _ => s.runCopy c o
  | .vtr _ _ _ => s.runTranspose c o
  | _ => s.runElements c o

/-! ## Events of the vector unit (R197, R198) -/

/-- The leaves of some byte ranges that are not FULL. -/
def State.asleepLeaves (s : State) (c : Nat) (spans : List (Nat × Nat)) : List Nat :=
  (List.range 48).filter fun l => s.scratchLeaf c (4096 * l) != .full && spans.any fun e => rangesMeet e.1 e.2 (4096 * l) 4096

/-- VECTOR_OPERATION: the oldest accepted operation that is not done is performed, once the accesses to its bytes that the core
accepted before it are performed and the leaves of its tiles are FULL (R197-R199). -/
def execVectorOperation (core : Nat) (s : State) : Result :=
  match (s.core core).vector.find? (!·.done) with
  | none => .next s
  | some o =>
    let asleep := s.asleepLeaves core o.spans
    if s.copiesRun core o.copies || !s.spansClear core o.since o.spans then .next s
    else if asleep != [] then .next (asleep.foldl (fun (u : State) l => u.wakeScratch core (4096 * l)) s)
    else
      let (t, flags) := s.runVector core o
      .next (t.onCore core fun k =>
        { k with vector := updateFirst (fun (v : VectorOp) => !v.done) (fun v => 
            { v with done := true, flags := flags }) k.vector })

/-- VECTOR_OP_COMPLETE: the oldest finished operation leaves the unit: d holds its descriptor, or the result is held until d's leaf
is FULL, and the flags go to fsr (R112, R196, R201). -/
def execVectorOpComplete (core : Nat) (s : State) : Result :=
  match (s.core core).vector.find? (·.done) with
  | none => .next s
  | some o =>
    .next ((s.onCore core fun k => { k with vector := k.vector.erase o }).onSlot o.slot fun x =>
      let y := x.landAll o.dst [o.d]
      { y with fsr := y.fsr ||| o.flags })

end Sys2Proof.Machine
end

