-- ==== Sys2Proof/Machine/Array.lean ====
section
/-! DEFINITION. The lease of the tile's array (R213-R217), array operations and their issue (R218-R221), matrix commands
(R222-R229) and accumulator instructions (R230-R236). -/

namespace Sys2Proof.Machine

/-! ## The lease (R213-R217) -/

/-- The code of a lease state (R216). -/
def LeaseState.code : LeaseState → Nat
  | .none => 0
  | .queued => 1
  | .held => 2
  | .spent => 3

/-- The lease word of a slot (R216). -/
def State.leaseWord (s : State) (n : Nat) : Word :=
  let x := s.slot n
  let t := s.tile (tileOfSlot n)
  let pending := (t.arrayOps.filter fun o => o.slot == n && o.instr.isSome).length
  wordOf (pending * 2 ^ 32 + x.lease.code * 2 ^ 30
    + (match t.holder with | some m => 2 ^ 24 + coreOfSlot m % 4 * 2 ^ 21 | none => 0)
    + x.budget % 128 * 2 ^ 9 + x.remain % 128)

/-- The requests of a core of a tile. -/
def Tile.requests (t : Tile) (core : Nat) : List (Nat × Nat) := storeGet noRequests t.leaseQueues core

/-- Requests of any core wait. -/
def Tile.anyRequest (t : Tile) : Bool := (List.range 4).any fun c => t.requests c != []

/-- Queue a request; where it is the first to wait on a holder, the idle limit begins to run (R214). -/
def State.queueLease (s : State) (n budget : Nat) : State :=
  let t := tileOfSlot n
  let idle := match (s.tile t).holder with
    | some h => (s.core (coreOfSlot h)).clock
    | none => 0
  (s.onTile t fun x =>
    { x with
      idleFrom := if x.anyRequest then x.idleFrom else idle
      leaseQueues := storeSet noRequests x.leaseQueues (coreOfSlot n % 4) (x.requests (coreOfSlot n % 4) ++ [(n, budget)]) })
    |>.onSlot n fun x => { x with lease := .queued, budget := budget, remain := 0 }

/-- End the lease of a tile's holder; the next search begins at the next core (R214). -/
def State.endLease (s : State) (n : Nat) : State :=
  s.onTile (tileOfSlot n) fun x => { x with holder := none, lastGrant := coreOfSlot n % 4 }

/-- The holder's lease ends with its claim kept: SPENT. -/
def State.spendLease (s : State) (n : Nat) : State :=
  (s.endLease n).onSlot n fun x => { x with lease := .spent, remain := 0 }

/-- Release a claim as `lrel` does (R215): a queued request is withdrawn, and the `lease` destination owed for it lands with
the lease word that shows NONE. -/
def State.releaseLease (s : State) (n : Nat) : State :=
  let x := s.slot n
  let s1 := match x.lease with
    | .none => s
    | .spent => s
    | .held => s.endLease n
    | .queued => s.onTile (tileOfSlot n) fun t =>
      { t with
        leaseQueues := storeSet noRequests t.leaseQueues (coreOfSlot n % 4)
          ((t.requests (coreOfSlot n % 4)).filter fun e => e.1 != n) }
  let s2 := s1.onSlot n fun y => { y with lease := .none, budget := 0, remain := 0 }
  s2.onSlot n fun y => { y.landAll y.leaseDst (y.leaseDst.map fun _ => s2.leaseWord n) with leaseDst := [] }

/-- `lease` (R215). -/
def execLease (d a : Reg) (la : Bool) (s : State) : Result :=
  let n := s.focus
  let i := Instr.lease d a la
  .next (s.longForm i (readA d a la) [] fun x v misuse =>
    let budget := (v.getD 0 0).toNat
    if misuse then s.raise n 0x0E i.word
    else if budget < 1 || 64 < budget || x.lease != .none then s.raise n 0x17 i.word
    else (s.onSlot n fun y =>
      { y.retire (x.next (x.lastUses [(a, la)]) (x.dst [d]) 0) with leaseDst := x.dst [d] }).queueLease n budget)

/-- `lrel` (R215). -/
def execLrel (s : State) : Result :=
  let n := s.focus
  .next (if (s.slot n).lease = .none then s.raise n 0x17 Instr.lrel.word
    else (s.onSlot n fun x => x.retire (x.next [] [] 0)).releaseLease n)

/-- `lstat` (R215). -/
def execLstat (d : Reg) (s : State) : Result :=
  .next (s.compute (.lstat d) (writeD d) d fun _ _ => (s.leaseWord s.focus, noFlags))

/-- LEASE_GRANT: with no holder, the next lease goes to the head of the first FIFO from the core after the last (R214). -/
def execLeaseGrant (tile : Nat) (s : State) : Result :=
  let t := s.tile tile
  let order := [(t.lastGrant + 1) % 4, (t.lastGrant + 2) % 4, (t.lastGrant + 3) % 4, t.lastGrant % 4]
  match t.holder, order.find? fun c => t.requests c != [] with
  | none, some c => match t.requests c with
    | (n, budget) :: rest =>
      let s1 := s.onTile tile fun x =>
        { x with holder := some n, idleFrom := (s.core (coreOfSlot n)).clock,
                 leaseQueues := storeSet noRequests x.leaseQueues c rest }
      let s2 := s1.onSlot n fun x => { x with lease := .held, remain := budget }
      .next (s2.onSlot n fun x =>
        { x.landAll x.leaseDst (x.leaseDst.map fun _ => s2.leaseWord n) with leaseDst := [] })
    | [] => .next s
  | _, _ => .next s

/-- LEASE_IDLE_TIMEOUT: a holder that has accepted nothing for 4,096 core cycles while another waits becomes SPENT (R214). -/
def execLeaseIdleTimeout (tile : Nat) (s : State) : Result :=
  let t := s.tile tile
  match t.holder with
  | some n =>
    if t.anyRequest && t.idleFrom + 4096 ≤ (s.core (coreOfSlot n)).clock then .next (s.spendLease n) else .next s
  | none => .next s

/-! ## Selectors and operands (R220, R222-R224) -/

/-- ROW0 of a selector. -/
def selRow (w : Word) : Nat := fieldOf w 12 6
/-- COL0. -/
def selCol (w : Word) : Nat := fieldOf w 18 6
/-- ACC. -/
def selAcc (w : Word) : Nat := fieldOf w 4 2
/-- WIDE. -/
def selWide (w : Word) : Bool := bitOf w 6
/-- TAG. -/
def selTag (w : Word) : Nat := fieldOf w 0 3

/-- What an array operation does. -/
inductive ArrayKind where
  | mm (wide clear : Bool) | rd | rdq | ld | clr | sv | rs | st | copy
  deriving DecidableEq, Repr

/-- The kind of an instruction; copies have none. -/
def arrayKind : Option Instr → ArrayKind
  | some (.mm _ _ _ _ _) => .mm false false
  | some (.mmZ _ _ _ _ _) => .mm false true
  | some (.mmW _ _ _ _ _) => .mm true false
  | some (.mmWz _ _ _ _ _) => .mm true true
  | some (.accRd _ _ _) => .rd
  | some (.accRdq _ _ _) => .rdq
  | some (.accLd _ _ _) => .ld
  | some (.accClr _) => .clr
  | some (.accSv _ _ _ _ _) => .sv
  | some (.accRs _ _ _ _ _) => .rs
  | some (.accSt _ _ _ _ _) => .st
  | _ => .copy

/-- An `mm` form. -/
def ArrayKind.isMatrix : ArrayKind → Bool
  | .mm _ _ => true
  | _ => false

/-- A selector is well formed for a kind (R220, R231). -/
def selectorOk (k : ArrayKind) (w : Word) : Bool :=
  fieldOf w 24 8 == 0 && fieldOf w 8 4 == 0 && !bitOf w 3
    && (match k with
      | .mm wide _ => selRow w == 0 && selCol w == 0 && (!wide || (selAcc w == 0 && !selWide w))
      | .clr => selRow w == 0 && selCol w == 0
      | .st => selRow w == 0 && selCol w == 0
      | .sv => selCol w == 0
      | .rs => selCol w == 0
      | _ => true)

/-- Counts and strides in b (R231). -/
def limitsOk (k : ArrayKind) (sel b : Word) : Bool :=
  match k with
  | .sv => 1 ≤ b.toNat && b.toNat ≤ 64 - selRow sel
  | .rs => 1 ≤ b.toNat && b.toNat ≤ 64 - selRow sel
  | .st => b.toNat % 4 == 0 && 256 ≤ b.toNat
  | _ => true

/-- An operand of a matrix command (R223), its format resolved. -/
structure Operand where
  base : Word
  stride : Nat
  k : Nat
  layout : Nat
  code : Nat
  fmt : Nat
  pass : Nat
  junk : Bool
  deriving DecidableEq, Repr

/-- The operand that a descriptor's four words give (R223, R224). -/
def operandOf (ws : List Word) (dflt : Nat) : Operand :=
  let w := ws.getD 2 0
  let code := fieldOf w 40 8
  { base := ws.getD 0 0, stride := (ws.getD 1 0).toNat, k := fieldOf w 0 32, layout := fieldOf w 32 8, code := code,
    fmt := if code = 0 then dflt else code, pass := fieldOf w 48 8, junk := fieldOf w 56 8 != 0 || ws.getD 3 0 != 0 }

/-- Lines run along k. -/
def Operand.alongK (o : Operand) (isA : Bool) : Bool := if isA then o.layout == 0 else o.layout == 1
/-- The number of lines of an operand with N rows or columns. -/
def Operand.lines (o : Operand) (isA : Bool) (n : Nat) : Nat := if o.alongK isA then n else o.k
/-- The bytes of a line. -/
def Operand.lineBytes (o : Operand) (isA : Bool) (n : Nat) : Nat := rowBytes o.fmt (if o.alongK isA then o.k else n)
/-- The address of a line. -/
def Operand.lineAt (o : Operand) (t : Nat) : Nat := o.base.toNat + t * o.stride

/-- The first failing check of two operands, row by row of R224, A before B; in stage REDUCED QF3 and QF5 do not run
(R415). DESIGN CHOICE the check of equal K, which no row of the table has, is made with the pair's (assumption 70). -/
def operandFault (reduced : Bool) (word : Word) (n : Nat) (a b : Operand) : Option (Nat × Word) :=
  let both (p : Bool → Operand → Bool) : Bool := p true a || p false b
  let bad (o : Operand) : Bool :=
    o.junk || 2 ≤ o.pass || 2 ≤ o.layout || !(o.code == 0 || o.code == 2 || isQuireCode o.code) || o.k % 16 != 0 || o.k < 16
      || 65536 < o.k
  let qf := isQuireCode a.fmt && isQuireCode b.fmt
  let past (isA : Bool) (o : Operand) : Bool := 2 ^ 56 < o.lineAt (o.lines isA n - 1) + o.lineBytes isA n
  let odd (o : Operand) : Bool := o.fmt == 2 && (o.base.toNat % 2 == 1 || o.stride % 2 == 1)
  if both (fun _ o => bad o) then some (0x01, word)
  else if !(qf || (a.fmt == 2 && b.fmt == 2)) || a.k != b.k then some (0x01, word)
  else if reduced && both (fun _ o => o.fmt == 8 || o.fmt == 9) then some (0x01, word)
  else if both (fun isA o => isQuireCode o.fmt && !o.alongK isA) then some (0x01, word)
  else if both (fun isA o => decide (o.stride < o.lineBytes isA n)) then some (0x01, word)
  else if regionOf a.base != 0 then some (0x07, a.base)
  else if regionOf b.base != 0 then some (0x07, b.base)
  else if odd a then some (0x06, a.base)
  else if odd b then some (0x06, b.base)
  else if past true a then some (0x07, a.base)
  else if past false b then some (0x07, b.base)
  else none

/-! ## Checks at issue (R219) -/

/-- What a check at issue answers: a fault, a wait, or the global pages to translate and the scratchpad bytes used. -/
inductive Prepared where
  | fails (cause : Nat) (val : Word)
  | waits (off : Nat)               -- a leaf of the scratchpad that is not FULL
  | ok (pages : List (Nat × AccKind)) (spans : List (Nat × Nat)) (descA descB : List Word)

/-- The scratchpad offset of an address of the issuing core's own scratchpad: 0x07 for any other region or past the end,
then 0x06 (R223, R238). -/
def State.ownOffset (s : State) (n : Nat) (a : Word) (size align : Nat) : Except Nat Nat :=
  match (match regionOf a with
    | 0xF0 => some (fieldOf a 18 38 == 0)
    | 0xF1 => some (fieldOf a 50 6 == 0 && fieldOf a 18 20 == 0
        && s.tileAtIndex (s.slot n).job (fieldOf a 40 10) == some (tileOfSlot n) && fieldOf a 38 2 == coreOfSlot n % 4)
    | _ => none) with
  | some true =>
    if s.scratchSize (s.slot n).job < fieldOf a 0 18 + size then .error 0x07
    else if fieldOf a 0 18 % align != 0 then .error 0x06
    else .ok (fieldOf a 0 18)
  | _ => .error 0x07

/-- The 64 KiB pages of a global range, each with its first byte touched. -/
def pagesOf (va n : Nat) : List Nat :=
  (List.range ((va % 65536 + n + 65535) / 65536)).map fun k => if k = 0 then va else (va / 65536 + k) * 65536

/-- Drop pages named before, by their first byte. DESIGN CHOICE a page that A and B share keeps the byte at which A, in the order
of its lines, first touches it (R224; assumption 70). -/
def distinctPages (ps : List (Nat × AccKind)) : List (Nat × AccKind) :=
  ps.foldl (fun acc p => if acc.any fun q => q.1 / 65536 == p.1 / 65536 then acc else acc ++ [p]) []

/-- A descriptor block of an operand: its four words, or a fault, or a wait. -/
def State.readBlock (s : State) (n : Nat) (a : Word) (words : Nat) : Prepared :=
  let c := coreOfSlot n
  match s.ownOffset n a (8 * words) (8 * words) with
  | .error cause => .fails cause a
  | .ok off => match s.slotCheck n c off (8 * words) true with
    | .off => .fails 0x05 a
    | .wait => .waits off
    | .ready => .ok [] [] ((List.range words).map fun k => s.scratchWord c (off + 8 * k)) []

/-- The descriptors of a matrix command (R223, R224). -/
def State.prepareMatrix (s : State) (n : Nat) (word a b : Word) (wide : Bool) : Prepared :=
  let x := s.slot n
  let size := if wide then 128 else 64
  match s.readBlock n a 4, s.readBlock n b 4 with
  | .ok _ _ wa _, .ok _ _ wb _ =>
    let p := operandOf wa x.fmt0.toNat
    let q := operandOf wb x.fmt1.toNat
    match operandFault (s.stage == .reduced) word size p q with
    | some (cause, v) => .fails cause v
    | none =>
      let pages (isA : Bool) (o : Operand) : List (Nat × AccKind) :=
        (List.range (o.lines isA size)).flatMap fun t => (pagesOf (o.lineAt t) (o.lineBytes isA size)).map (·, .tileFetch)
      .ok (distinctPages (pages true p ++ pages false q)) [] wa wb
  | .ok _ _ _ _, other => other
  | other, _ => other

/-- One scale vector of a readout: the entries i to i + count − 1 under a pointer (R232). -/
def State.prepareScale (s : State) (n : Nat) (p : Word) (i count : Nat) : Prepared :=
  let first := p + wordOf (4 * i)
  let limit := s.scratchSize (s.slot n).job
  let at_ := fieldOf p 0 18 + 4 * i
  if p = 0 then .ok [] [] [] []
  else if regionOf p = 0xF2 then .fails 0x0B first
  else if regionOf p = 0xF3 then .fails 0x0A first
  else if regionOf p = 0x00 then
    (match (List.range count).find? fun k => 2 ^ 56 < p.toNat + 4 * (i + k) + 4 with
    | some k => .fails 0x07 (first + wordOf (4 * k))
    | none => .ok ((pagesOf (p.toNat + 4 * i) (4 * count)).map (·, .tileFetch)) [] [] [])
  else match s.ownOffset n p 0 1 with
    | .error _ => .fails 0x07 first
    | .ok _ => match (List.range count).find? fun k => limit < at_ + 4 * k + 4 with
      | some k => .fails 0x07 (first + wordOf (4 * k))
      | none =>
        match (List.range count).find? fun k => s.scratchLeaf (coreOfSlot n) (at_ + 4 * k) == .off with
        | some k => .fails 0x05 (first + wordOf (4 * k))
        | none => .ok [] [(at_, 4 * count)] [] []

/-- Join two answers: the first that is no success, else both. -/
def Prepared.and : Prepared → Prepared → Prepared
  | .ok p x a b, .ok q y _ _ => .ok (p ++ q) (x ++ y) a b
  | .ok _ _ _ _, other => other
  | other, _ => other

/-- Both scale vectors of a readout of rows × cols elements (R232). -/
def State.prepareScales (s : State) (n : Nat) (sel : Word) (rows cols : Nat) : Prepared :=
  let x := s.slot n
  let wide := if selWide sel then 64 else 0
  (s.prepareScale n x.scl0 (selRow sel + wide * (selAcc sel / 2)) rows).and
    (s.prepareScale n x.scl1 (selCol sel + wide * (selAcc sel % 2)) cols)

/-- The tile operand of `acc.rd`, `acc.rdq` and `acc.ld` (R194, R195, R231). -/
def State.prepareTile (s : State) (n : Nat) (word sel a : Word) (fmt : Nat → Bool) (source : Bool) : Prepared :=
  let t := tileDesc a
  match s.checkTile (coreOfSlot n) (s.scratchSize (s.slot n).job) a word (fmt t.fmt) true source source false [] with
  | some (cause, v) => .fails cause v
  | none =>
    if 64 < selRow sel + t.rows || 64 < selCol sel + t.cols then .fails 0x01 word else .ok [] t.spans [] []

/-- The span of `acc.sv` and `acc.rs` (R231, R234). An address in 0xF2 or 0xF3 fails where R39 has it;
DESIGN CHOICE a near address that is not the core's own raises 0x07 and never 0x0C (R231; assumption 70). -/
def State.prepareRows (s : State) (n : Nat) (a b : Word) (source : Bool) : Prepared :=
  match s.target n a (1280 * b.toNat) 64, s.ownOffset n a (1280 * b.toNat) 64 with
  | .fails cause v, .error own => if regionOf a = 0xF2 || regionOf a = 0xF3 then .fails cause v else .fails own a
  | _, .error cause => .fails cause a
  | _, .ok off =>
    let spans := [(off, 1280 * b.toNat)]
    match (if source then s.offLeaf (coreOfSlot n) spans else none) with
    | some l => .fails 0x05 (localAddress (4096 * l))
    | none => .ok [] spans [] []

/-- The rows of `acc.st` (R231, R235). -/
def prepareStore (a b : Word) : Prepared :=
  if regionOf a != 0 || 2 ^ 56 < a.toNat + 63 * b.toNat + 256 then .fails 0x07 a
  else if a.toNat % 4 != 0 then .fails 0x06 a
  else .ok (distinctPages ((List.range 64).flatMap fun r => (pagesOf (a.toNat + r * b.toNat) 256).map (·, .write))) [] [] []

/-- The operand checks of an array operation (R219). -/
def State.prepare (s : State) (n : Nat) (k : ArrayKind) (word sel a b : Word) : Prepared :=
  let t := tileDesc a
  match k with
  | .mm wide _ => s.prepareMatrix n word a b wide
  | .rd => (s.prepareTile n word sel a (· == 0) false).and (s.prepareScales n sel t.rows t.cols)
  | .rdq => (s.prepareTile n word sel a isQuireCode false).and (s.prepareScales n sel t.rows t.cols)
  | .ld => s.prepareTile n word sel a (· == 0) true
  | .clr => .ok [] [] [] []
  | .sv => s.prepareRows n a b false
  | .rs => s.prepareRows n a b true
  | .st => (prepareStore a b).and (s.prepareScales n sel 64 64)
  | .copy => .ok [] [] [] []

/-- What the translation of pages gives (R219, R224). -/
inductive PageTry where
  | ok (ps : List Page)             -- none of them of another package
  | miss (va : Nat) (k : AccKind)
  | waits
  | fails (va cause : Nat)

/-- Translate a page at the home of its first byte touched: protection, then the tables. An operand's page in host memory
or in another package raises 0x08 (R224, R232). -/
def State.tryPage (s : State) (n va : Nat) (k : AccKind) : PageTry :=
  let x := s.slot n
  if !s.permits (coreOfSlot n) x.job k va then .fails va 0x08
  else if !s.isOurs va then (if k.writes then .ok [] else .fails va 0x08)
  else
    let h := s.homeOf x.job va
    let first := va / 65536 * 65536
    let ok (frame : Nat) (host : Bool) : PageTry :=
      if host && !k.writes then .fails va 0x08 else .ok [{ first := first, frame := frame, host := host }]
    match s.homeCheck h va k none with
    | .held => match s.sectorAt h va with
      | some y => ok (y.pa - (sectorStart va - first)) y.host
      | none => .miss va k
    | .mapped t => ok (t.frame + (first - t.page)) t.host
    | .miss => .miss va k
    | .busy => .waits
    | .fails cause => .fails va cause.toNat

/-- TranslateAll (R219): the pages, or what the first of them meets that is no success. -/
def State.tryPages (s : State) (n : Nat) : List (Nat × AccKind) → PageTry
  | [] => .ok []
  | (va, k) :: rest => match s.tryPage n va k with
    | .ok ps => (match s.tryPages n rest with
      | .ok qs => .ok (ps ++ qs)
      | other => other)
    | other => other

/-! ## Issue (R219) -/

/-- Array operations a tile's array holds (R218). -/
def arrayRoom : Nat := 8

/-- A vector operation of the core still holds some of these bytes. -/
def State.vectorHolds (s : State) (c : Nat) (spans : List (Nat × Nat)) : Bool :=
  (s.core c).vector.any fun v => !v.done && spansMeet spans v.spans

/-- Send the slot to a walker for a page (R134). -/
def State.pageMiss (s : State) (n va : Nat) (k : AccKind) : State :=
  let x := s.slot n
  let h := s.homeOf x.job va
  (s.askWalker h { va := va, kind := k, job := x.job, tile := h.tile, slice := h.slice, who := .slot n }).uncheck n va k true

/-- The formats of the operands of a matrix command. -/
def operandFormats (x : Slot) (k : ArrayKind) (wa wb : List Word) : Nat × Nat :=
  if k.isMatrix then ((operandOf wa x.fmt0.toNat).fmt, (operandOf wb x.fmt1.toNat).fmt) else (0, 0)

/-- Accept an array operation: d becomes owed, a matrix command takes one of the budget (R219). -/
def State.acceptArray (s : State) (i : Instr) (sel a b : Word) (wa wb : List Word) (spans : List (Nat × Nat))
    (pages : List Page) (r : Retire) (dst : List RegLoc) : State :=
  let n := s.focus
  let x := s.slot n
  let k := arrayKind (some i)
  let f := operandFormats x k wa wb
  let op : ArrayOp :=
    { slot := n, instr := some i, sel := sel, a := a, b := b, descA := wa, descB := wb, fmtA := f.1, fmtB := f.2,
      scl0 := x.scl0, scl1 := x.scl1, dst := dst, spans := spans, copies := s.copiesOn (coreOfSlot n) spans, since := s.moves,
      copy := 0, pages := pages, lines := [], pinned := [], stores := [], sent := 0, done := false, status := 0, flags := noFlags }
  let s1 := s.onTile (tileOfSlot n) fun t =>
    { t with arrayOps := t.arrayOps ++ [op], idleFrom := (s.core (coreOfSlot n)).clock }
  let s2 := s1.onSlot n fun y => y.retire r
  if k.isMatrix then
    let s3 := s2.onSlot n fun y => { y with remain := y.remain - 1 }
    if x.remain = 1 then s3.spendLease n else s3
  else s2

/-- ArrayIssue (R219). `fields` are a and b where the form has them. DESIGN CHOICE the checks that come before 0x0E take for a bound
field the value that its register holds beside the binding (assumption 70). -/
def State.arrayForm (s : State) (i : Instr) (d : Reg) (fields : List (Reg × Bool)) : State :=
  let u : Named := { reads := fields ++ [(d, false)], dests := [d], also := [] }
  s.longForm i u [] fun x v misuse =>
    let n := s.focus
    let c := coreOfSlot n
    let k := arrayKind (some i)
    let sel := v.getD fields.length 0
    let a := if fields.length = 0 then 0 else v.getD 0 0
    let b := if fields.length = 2 then v.getD 1 0 else 0
    if !selectorOk k sel || !limitsOk k sel b then s.raise n 0x01 i.word
    else match s.prepare n k i.word sel a b with
      | .fails cause w => s.raise n cause w
      | .waits off => s.waitsLeaf n c off
      | .ok need spans wa wb =>
        if misuse then s.raise n 0x0E i.word
        else match x.lease with
        | .none => s.raise n 0x17 i.word
        | .spent => (s.queueLease n x.budget).waits n
        | .queued => s.waits n
        | .held =>
          if (k.isMatrix || k == .st) && !s.released n true then s.waits n
          else match s.tryPages n need with
            | .fails va cause => s.raise n cause (wordOf va)
            | .miss va kind => s.pageMiss n va kind
            | .waits => s.waits n
            | .ok pages =>
              if arrayRoom ≤ (s.tile (tileOfSlot n)).arrayOps.length || s.vectorHolds c spans then s.waits n
              else s.acceptArray i sel a b wa wb spans pages (x.next (x.lastUses fields) (x.dst [d]) 0) (x.dst [d])

/-- `mm` (R222). -/
def execMm (d a b : Reg) (la lb : Bool) (s : State) : Result :=
  .next (s.arrayForm (.mm d a b la lb) d [(a, la), (b, lb)])
/-- `mmZ` (R222). -/
def execMmZ (d a b : Reg) (la lb : Bool) (s : State) : Result :=
  .next (s.arrayForm (.mmZ d a b la lb) d [(a, la), (b, lb)])
/-- `mmW` (R222). -/
def execMmW (d a b : Reg) (la lb : Bool) (s : State) : Result :=
  .next (s.arrayForm (.mmW d a b la lb) d [(a, la), (b, lb)])
/-- `mmWz` (R222). -/
def execMmWz (d a b : Reg) (la lb : Bool) (s : State) : Result :=
  .next (s.arrayForm (.mmWz d a b la lb) d [(a, la), (b, lb)])
/-- `accRd` (R231). -/
def execAccRd (d a : Reg) (la : Bool) (s : State) : Result := .next (s.arrayForm (.accRd d a la) d [(a, la)])
/-- `accRdq` (R231). -/
def execAccRdq (d a : Reg) (la : Bool) (s : State) : Result := .next (s.arrayForm (.accRdq d a la) d [(a, la)])
/-- `accLd` (R231). -/
def execAccLd (d a : Reg) (la : Bool) (s : State) : Result := .next (s.arrayForm (.accLd d a la) d [(a, la)])
/-- `accClr` (R233). -/
def execAccClr (d : Reg) (s : State) : Result := .next (s.arrayForm (.accClr d) d [])
/-- `accSv` (R231). -/
def execAccSv (d a b : Reg) (la lb : Bool) (s : State) : Result :=
  .next (s.arrayForm (.accSv d a b la lb) d [(a, la), (b, lb)])
/-- `accRs` (R231). -/
def execAccRs (d a b : Reg) (la lb : Bool) (s : State) : Result :=
  .next (s.arrayForm (.accRs d a b la lb) d [(a, la), (b, lb)])
/-- `accSt` (R231). -/
def execAccSt (d a b : Reg) (la lb : Bool) (s : State) : Result :=
  .next (s.arrayForm (.accSt d a b la lb) d [(a, la), (b, lb)])

/-! ## Performing (R218, R225, R232-R235) -/

/-- The operation that the array is at: the oldest not done. -/
def Tile.current (t : Tile) : Option ArrayOp := t.arrayOps.find? (!·.done)

/-- Change the operation that the array is at. -/
def State.onCurrent (s : State) (tile : Nat) (f : ArrayOp → ArrayOp) : State :=
  s.onTile tile fun t => { t with arrayOps := updateFirst (fun (o : ArrayOp) => !o.done) f t.arrayOps }

/-- The place of an accumulator element among the machine's. -/
def accKey (tile acc row col : Nat) : Nat := 2 ^ 14 * tile + 4096 * acc + 64 * row + col

/-- An accumulator element. -/
def State.accElem (s : State) (tile acc row col : Nat) : AccElem := storeGet clearedElem s.acc (accKey tile acc row col)

/-- Write an accumulator element. -/
def State.setAcc (s : State) (tile acc row col : Nat) (e : AccElem) : State :=
  { s with acc := storeSet clearedElem s.acc (accKey tile acc row col) e }

/-- Clear an accumulator tile (R66). -/
def State.clearAcc (s : State) (tile acc : Nat) : State :=
  { s with acc := storeDrop (accKey tile acc 0 0) (accKey tile acc 0 0 + 4096) s.acc }

/-- Keep the items of a configuration that an operation uses (R221). -/
def State.keepConfig (s : State) (o : ArrayOp) : State :=
  let k := arrayKind o.instr
  let mapping := wordOf (selAcc o.sel + 4 * (if selWide o.sel then 1 else 0) +
      (match k with | .mm w _ => if w then 8 else 0 | _ => 0))
  let scales := k == .rd || k == .rdq || k == .st
  s.onTile (tileOfSlot o.slot) fun t =>
    let old := (storeGet noConfig t.configs (selTag o.sel)).getD { fmtA := 0, fmtB := 0, scl0 := 0, scl1 := 0, mapping := 0 }
    let new : ArrayConfig :=
      { fmtA := if k.isMatrix then o.fmtA else old.fmtA, fmtB := if k.isMatrix then o.fmtB else old.fmtB,
        scl0 := if scales then o.scl0 else old.scl0, scl1 := if scales then o.scl1 else old.scl1, mapping := mapping }
    { t with configs := storeSet noConfig t.configs (selTag o.sel) (some new) }

/-- The operands of an accepted command. -/
def ArrayOp.operands (o : ArrayOp) : Operand × Operand :=
  ({ operandOf o.descA o.fmtA with fmt := o.fmtA }, { operandOf o.descB o.fmtB with fmt := o.fmtB })

/-- N of a command. -/
def ArrayOp.size (o : ArrayOp) : Nat := match arrayKind o.instr with
  | .mm true _ => 128
  | _ => 64

/-- Lines of a command: A's, then B's. -/
def ArrayOp.lineTotal (o : ArrayOp) : Nat :=
  if (arrayKind o.instr).isMatrix then (o.operands.1.lines true o.size) + (o.operands.2.lines false o.size) else 0

/-- The address and bytes of a line. -/
def ArrayOp.lineSpan (o : ArrayOp) (t : Nat) : Nat × Nat :=
  let (a, b) := o.operands
  let na := a.lines true o.size
  if t < na then (a.lineAt t, a.lineBytes true o.size) else (b.lineAt (t - na), b.lineBytes false o.size)

/-- The bytes of a line that has been read. -/
def ArrayOp.line (o : ArrayOp) (t : Nat) : List Byte := ((o.lines.find? fun e => e.1 == t).map (·.2)).getD []

/-- The blocks of one row of A or column of B, in ascending k (R67): a quire each, or 32 BF16 values. -/
def ArrayOp.blocks (o : ArrayOp) (isA : Bool) (i : Nat) : List (Quire × List FVal) :=
  let x := if isA then o.operands.1 else o.operands.2
  let off := if isA then 0 else o.operands.1.lines true o.size
  if isQuireCode x.fmt then
    let bytes := o.line (off + i)
    (List.range (x.k / 16)).map fun b =>
      (quireOf (quireWidth x.fmt) ((bytes.drop (quireBytes x.fmt * b)).take (quireBytes x.fmt)), [])
  else
    let value (k : Nat) : FVal :=
      let bs := if x.alongK isA then ((o.line (off + i)).drop (2 * k)).take 2 else ((o.line (off + k)).drop (2 * i)).take 2
      bf16.value (natOfBytes bs)
    (List.range ((x.k + 31) / 32)).map fun b =>
      ({ x := 0, elems := [] }, (List.range (min 32 (x.k - 32 * b))).map fun e => value (32 * b + e))

/-- The block products of an element, in ascending k (R67). -/
def blockProducts (fa fb : Nat) (as bs : List (Quire × List FVal)) : List Block :=
  (as.zip bs).map fun e =>
    if isQuireCode fa then quireBlock (quireWidth fa) (quireWidth fb) e.1.1 e.2.1 else floatBlock e.1.2 e.2.2

/-- Add blocks into an element; whether this dropped bits, and whether it made a NaN (R68, R226). -/
def accAddAll (el : AccElem) (bs : List Block) : AccElem × Bool × Bool :=
  let r := accAddBlocks (el, false) bs
  (r.1, r.2, r.1.nan && !el.nan)

/-- A matrix command on its lines (R225): the state and STATUS. -/
def State.runMatrix (s : State) (tile : Nat) (o : ArrayOp) (wide clear : Bool) : State × BitVec 8 :=
  let n := o.size
  let s1 := if clear then (if wide then [0, 1, 2, 3] else [selAcc o.sel]).foldl (fun (u : State) t => u.clearAcc tile t) s else s
  let as := (List.range n).map (o.blocks true)
  let bs := (List.range n).map (o.blocks false)
  (List.range (n * n)).foldl (fun (u : State × BitVec 8) e =>
    let i := e / n
    let j := e % n
    let acc := if wide then 2 * (i / 64) + j / 64 else selAcc o.sel
    let r := accAddAll (u.1.accElem tile acc (i % 64) (j % 64)) (blockProducts o.fmtA o.fmtB (as.getD i []) (bs.getD j []))
    (u.1.setAcc tile acc (i % 64) (j % 64) r.1, u.2 ||| (if r.2.1 then 1 else 0) ||| (if r.2.2 then 2 else 0))) (s1, 0)

/-- Where a page has the sector of an address. -/
def Page.backing (p : Page) (va : Nat) : Backing := { pa := p.frame + (sectorStart va - p.first), host := p.host }

/-- The page of an operation that holds an address. -/
def pageAt (pages : List Page) (va : Nat) : Option Page := pages.find? fun p => p.first == va / 65536 * 65536

/-- Make the sector of an address present at its home through an operation's pages; none while the slice cannot take it, its lines
are moving, or a registration that the proxy of the operation's die acknowledged is on its way there: what happens before the
operation by die reach is then read (R283, R309, R316, R362). -/
def State.pageSector (s : State) (j tile : Nat) (pages : List Page) (va : Nat) : Option State :=
  let h := s.homeOf j va
  if s.linesMoving h.tile || s.proxiedAhead (dieOfTile tile) va none then none
  else match s.sectorAt h va, pageAt pages va with
    | none, some p =>
      let b := p.backing va
      if s.roomFor h va == .none || s.heldElsewhere b.host b.pa (h.sectorKey va) then none else some (s.fill h j va tile b)
    | _, _ => some s

/-- The device bytes of a global range through an operation's pages, at their homes, each sector charged once (R227, R291);
none where the fetch waits. -/
def State.pageBytes (s : State) (j tile : Nat) (pages : List Page) (va n : Nat) : Option (List Byte × State) :=
  (List.range ((va % 8 + n + 7) / 8)).foldl (fun acc k => match acc with
    | none => none
    | some (bs, t) =>
      let w := va / 8 * 8 + 8 * k
      let lo := max va w
      let hi := min (va + n) (w + 8)
      let h := t.homeOf j w
      match t.pageSector j tile pages w with
      | none => none
      | some u =>
        let v := if k = 0 || sectorStart w = w then u.chargeSlice h tile (sectorLen w) else u
        some (bs ++ v.homeBytes h lo (hi - lo), v)) (some ([], s))

/-- The scales of a readout under a pointer: entries i to i + count − 1, 1.0 for none (R70, R232); none where a fetch waits.
DESIGN CHOICE: they are read before any element is written (assumption 46). -/
def State.scales (s : State) (o : ArrayOp) (p : Word) (i count : Nat) : Option (List FVal × State) :=
  let values (bs : List Byte) : List FVal := (List.range count).map fun k => fp32.value (natOfBytes ((bs.drop (4 * k)).take 4))
  if p = 0 then some (List.replicate count (.fin false 1 0), s)
  else if regionOf p = 0 then
    (match s.pageBytes (s.slot o.slot).job (tileOfSlot o.slot) o.pages (p.toNat + 4 * i) (4 * count) with
    | some (bs, t) => some (values bs, t)
    | none => none)
  else some (values (s.scratch (coreOfSlot o.slot) (fieldOf p 0 18 + 4 * i) (4 * count)), s)

/-- The readouts of the rows × cols elements of an operation's tile, row by row (R70, R232), with the state after the scales
are read; none where a fetch waits. -/
def State.readouts (s : State) (o : ArrayOp) (rows cols : Nat) : Option (List (List FRes) × State) :=
  let wide := if selWide o.sel then 64 else 0
  let acc := selAcc o.sel
  match s.scales o o.scl0 (selRow o.sel + wide * (acc / 2)) rows with
  | none => none
  | some (rs, s1) => match s1.scales o o.scl1 (selCol o.sel + wide * (acc % 2)) cols with
    | none => none
    | some (cs, s2) =>
      some (rs.zipIdx.map fun r => cs.zipIdx.map fun c =>
        accRead (s.accElem (tileOfSlot o.slot) acc (selRow o.sel + r.2) (selCol o.sel + c.2)) r.1 c.1, s2)

/-- Flags of some results. -/
def flagsOf (rs : List FRes) : FlagSet := rs.foldl (fun f r => f ||| r.flags) noFlags

/-- `acc.rd` (R232): the readouts written to the tile. -/
def State.runRead (s : State) (o : ArrayOp) (rows : List (List FRes)) : Run :=
  let t := tileDesc o.a
  rows.zipIdx.foldl (fun (u : Run) r =>
    (r.1.zipIdx.foldl (fun (w : State) e => w.setElement (coreOfSlot o.slot) t r.2 e.2 e.1.bits) u.1,
      u.2 ||| flagsOf r.1)) (s, noFlags)

/-- `acc.rdq` (R232): the readouts of a row, sixteen at a time, quantised. -/
def State.runReadQuantise (s : State) (o : ArrayOp) (rows : List (List FRes)) : Run :=
  let t := tileDesc o.a
  rows.zipIdx.foldl (fun (u : Run) r =>
    (List.range (t.cols / 16)).foldl (fun (w : Run) k =>
      let rs := (r.1.drop (16 * k)).take 16
      let q := quantise (quireWidth t.fmt) (rs.map fun e => fp32.value e.bits)
      (w.1.putScratch (coreOfSlot o.slot) (t.row r.2 + quireBytes t.fmt * k)
          (q.1.bytes (quireWidth t.fmt) (quireBytes t.fmt)), w.2 ||| q.2 ||| flagsOf rs)) u) (s, noFlags)

/-- The element that `acc.ld` writes for an FP32 value, and its flags (R233). -/
def accLoad (bits : Nat) : AccElem × FlagSet :=
  match fp32.value bits with
  | .nan sg => (accAdd (clearedElem 0) { p := 0, e := 0, isNan := true }, flagIf sg flagNV)
  | .inf _ => (accAdd (clearedElem 0) { p := 0, e := 0, isNan := true }, flagNV)
  | .fin n m e =>
    if m = 0 then (clearedElem 0, noFlags) else (accAdd (clearedElem 0) { p := signed n m, e := e, isNan := false }, noFlags)

/-- `acc.ld` (R233): the state, the flags and STATUS. -/
def State.runLoad (s : State) (o : ArrayOp) : State × FlagSet × BitVec 8 :=
  let t := tileDesc o.a
  let tile := tileOfSlot o.slot
  (List.range (t.rows * t.cols)).foldl (fun (u : State × FlagSet × BitVec 8) k =>
    let i := selRow o.sel + k / t.cols
    let j := selCol o.sel + k % t.cols
    let r := accLoad (s.element (coreOfSlot o.slot) t (k / t.cols) (k % t.cols))
    let made := r.1.nan && !(u.1.accElem tile (selAcc o.sel) i j).nan
    (u.1.setAcc tile (selAcc o.sel) i j r.1, u.2.1 ||| r.2, u.2.2 ||| (if made then 2 else 0))) (s, noFlags, 0)

/-- `acc.sv` (R234). -/
def State.runSave (s : State) (o : ArrayOp) : State :=
  let c := coreOfSlot o.slot
  let off := fieldOf o.a 0 18
  (List.range (64 * o.b.toNat)).foldl (fun (u : State) k =>
    u.putScratch c (off + 20 * k) (s.accElem (c / 4) (selAcc o.sel) (selRow o.sel + k / 64) (k % 64)).bytes) s

/-- `acc.rs` (R234). -/
def State.runRestore (s : State) (o : ArrayOp) : State :=
  let c := coreOfSlot o.slot
  let off := fieldOf o.a 0 18
  (List.range (64 * o.b.toNat)).foldl (fun (u : State) k =>
    u.setAcc (c / 4) (selAcc o.sel) (selRow o.sel + k / 64) (k % 64) (accElemOf (s.scratch c (off + 20 * k) 20))) s

/-- Cut bytes at the bounds of 8-byte words. -/
def wordPieces (va : Nat) (bs : List Byte) : List (Nat × List Byte) :=
  (List.range ((va % 8 + bs.length + 7) / 8)).map fun k =>
    if k = 0 then (va, bs.take (8 - va % 8)) else (va / 8 * 8 + 8 * k, (bs.drop (8 * k - va % 8)).take 8)

/-- `acc.st` (R235): the stores it will deliver, and the readout flags. -/
def storesOf (o : ArrayOp) (rows : List (List FRes)) : List (Nat × List Byte) × FlagSet :=
  (rows.zipIdx.flatMap fun r => wordPieces (o.a.toNat + r.2 * o.b.toNat) (r.1.flatMap fun e => bytesOfNat 4 e.bits),
    flagsOf rows.flatten)

/-! ## Events of the array (R218, R227, R228) -/

/-- Unpin a line. -/
def State.unpinLine (s : State) (key : Nat) : State :=
  { s with pins := storeSet noPins s.pins key (storeGet noPins s.pins key - 1) }

/-- A slice may pin a further line: at most 256 of its lines, and 6 ways of a set (R227, R283). -/
def State.pinFits (s : State) (place line : Nat) : Bool :=
  let mine := s.pins.filter fun e => e.1 / 2 ^ 56 == place
  mine.length < 256 && (mine.filter fun e => setOfLine (e.1 % 2 ^ 56) == setOfLine line).length < 6

/-- Pin a line by its key once more. -/
def State.pinKey (s : State) (key : Nat) : State :=
  { s with pins := storeSet noPins s.pins key (storeGet noPins s.pins key + 1) }

/-- The keys of the L2 lines of a range at their homes. -/
def State.lineKeys (s : State) (j va n : Nat) : List Nat :=
  ((List.range (n / 64 + 2)).map fun k => let b := min (va + 64 * k) (va + n - 1); (s.homeOf j b).lineKey b).eraseDups

/-- A line may be pinned at once: it is pinned already, or its slice may pin a further one. -/
def State.pinnable (s : State) (key : Nat) : Bool :=
  storeGet noPins s.pins key != 0 || s.pinFits (key / 2 ^ 56) (key % 2 ^ 56)

/-- The array consumes the earliest pinned lines of the operation it is at until another line may be pinned; none where that is
not enough (R227). -/
def State.consumeFor (s : State) (key : Nat) : List Nat → Option (State × List Nat)
  | [] => if s.pinnable key then some (s, []) else none
  | q :: rest => if s.pinnable key then some (s, q :: rest) else (s.unpinLine q).consumeFor key rest

/-- Pin lines for an operation that holds others pinned; none where its fetch waits. `running` where the array is at the
operation: it consumes its earliest lines as it runs, and these give way (R227; DEDUCED, assumption 56). -/
def State.pinKeys (s : State) (running : Bool) : List Nat → List Nat → Option (State × List Nat)
  | [], held => some (s, held)
  | key :: rest, held =>
    match (if running then s.consumeFor key held else if s.pinnable key then some (s, held) else none) with
    | some (t, kept) => (t.pinKey key).pinKeys running rest (kept ++ [key])
    | none => none

/-- Give a line to an operation. -/
def ArrayOp.give (o : ArrayOp) (t : Nat) (bs : List Byte) : ArrayOp := { o with lines := o.lines ++ [(t, bs)] }

/-- The number under which an operation still lacks the line of an operand at an address (R228). A line of `n` bytes serves it
where it holds all the bytes that the operation needs: passing never changes a result. -/
def ArrayOp.lacks (o : ArrayOp) (isA : Bool) (p : Operand) (va n : Nat) : Option Nat :=
  if !(arrayKind o.instr).isMatrix then none
  else
    let q := if isA then o.operands.1 else o.operands.2
    let off := if isA then 0 else o.operands.1.lines true o.size
    if q.k == p.k && q.layout == p.layout && q.fmt == p.fmt && q.lineBytes isA o.size ≤ n then
      ((List.range (q.lines isA o.size)).find? fun t =>
        q.lineAt t == va && !(o.lines.any fun e => e.1 == off + t)).map (off + ·)
    else none

/-- Offer a line to a neighbour tile, which takes it in place of a fetch where a command of the same job names it (R228). -/
def State.offerLine (s : State) (j tile dir : Nat) (isA : Bool) (p : Operand) (va : Nat) (bs : List Byte) : State :=
  match neighbour tile dir with
  | none => s
  | some t =>
    if (s.tile t).owner != some j then s
    else
      let lacking (o : ArrayOp) : Bool := !o.done && (o.lacks isA p va bs.length).isSome
      let takes (o : ArrayOp) : ArrayOp := match o.lacks isA p va bs.length with
        | some k => o.give k (bs.take (o.lineSpan k).2)
        | none => o
      s.onTile t fun x => { x with arrayOps := updateFirst lacking takes x.arrayOps }

/-- An operation whose lines are not all read. -/
def ArrayOp.wantsLine (o : ArrayOp) : Bool := !o.done && o.lines.length < o.lineTotal

/-- The operation that a tile's fetch unit serves, the oldest that lacks a line, and the number of its next line. -/
def Tile.nextLine (t : Tile) : Option (ArrayOp × Nat) :=
  match t.arrayOps.find? ArrayOp.wantsLine with
  | none => none
  | some o => ((List.range o.lineTotal).find? fun k => !(o.lines.any fun e => e.1 == k)).map (o, ·)

/-- The keys that cannot be pinned when the lines before them in the list are. -/
def State.unpinnable (s : State) : List Nat → List Nat
  | [] => []
  | key :: rest => if s.pinnable key then (s.pinKey key).unpinnable rest else key :: s.unpinnable rest

/-- The L2 lines whose fetch by a tile's unit waits to pin: those that find no place once the fetch's other lines have theirs (R227,
R354). -/
def State.waitingPins (s : State) (tile : Nat) : List Nat :=
  match (s.tile tile).nextLine with
  | none => []
  | some (o, t) => s.unpinnable (s.lineKeys (s.slot o.slot).job (o.lineSpan t).1 (o.lineSpan t).2)

/-- TILE_FETCH_LINE: the tile fetch unit reads and pins the next line that an accepted command lacks; it waits where a line may
not be pinned or filled now (R227, R228, R283). -/
def execTileFetchLine (tile : Nat) (s : State) : Result :=
  match (s.tile tile).nextLine with
  | none => .next s
  | some (o, t) =>
    let j := (s.slot o.slot).job
    let (va, n) := o.lineSpan t
    match s.pageBytes j tile o.pages va n with
    | none => .next s
    | some (bs, s1) => match s1.pinKeys ((s.tile tile).current == some o) (s.lineKeys j va n) o.pinned with
      | none => .next s
      | some (s2, pinned) =>
        let gets (q : ArrayOp) : ArrayOp := { q.give t bs with pinned := pinned }
        let s3 := s2.onTile tile fun x => { x with arrayOps := updateFirst ArrayOp.wantsLine gets x.arrayOps }
        let isA := t < o.operands.1.lines true o.size
        let p := if isA then o.operands.1 else o.operands.2
        .next (if p.pass = 1 then s3.offerLine j tile (if isA then 1 else 2) isA p va bs else s3)

/-- Finish the operation that the array is at. -/
def State.finishCurrent (s : State) (tile : Nat) (status : BitVec 8) (flags : FlagSet) : State :=
  match (s.tile tile).current with
  | none => s
  | some o =>
    (o.pinned.foldl State.unpinLine s).onCurrent tile fun q =>
      { q with done := true, status := status, flags := flags, pinned := [], lines := [] }

/-- MATRIX_COMMAND: the command at the head of the array is performed, once its lines are read (R225). -/
def execMatrixCommand (tile : Nat) (s : State) : Result :=
  match (s.tile tile).current with
  | none => .next s
  | some o => match arrayKind o.instr with
    | .mm wide clear =>
      if o.lines.length < o.lineTotal then .next s
      else
        let r := (s.keepConfig o).runMatrix tile o wide clear
        .next (r.1.finishCurrent tile r.2 noFlags)
    | _ => .next s

/-- ACC_OPERATION: the acc instruction at the head of the array is performed, once the accesses to its bytes that the core accepted
before it are performed and the leaves of its bytes are FULL; the stores of `acc.st` then begin (R197, R232-R236). -/
def execAccOperation (tile : Nat) (s : State) : Result :=
  match (s.tile tile).current with
  | none => .next s
  | some o =>
    let c := coreOfSlot o.slot
    let asleep := s.asleepLeaves c o.spans
    let k := arrayKind o.instr
    if k.isMatrix || k == .copy || o.stores != [] || o.sent != 0 || s.copiesRun c o.copies || !s.spansClear c o.since o.spans then .next s
    else if asleep != [] then .next (asleep.foldl (fun (u : State) l => u.wakeScratch c (4096 * l)) s)
    else
      let u := s.keepConfig o
      let read (rows cols : Nat) (f : State → List (List FRes) → State) : State := match u.readouts o rows cols with
        | some (rs, v) => f v rs
        | none => s
      let t := tileDesc o.a
      .next (match k with
        | .rd => read t.rows t.cols fun v rs => let r := v.runRead o rs; r.1.finishCurrent tile 0 r.2
        | .rdq => read t.rows t.cols fun v rs => let r := v.runReadQuantise o rs; r.1.finishCurrent tile 0 r.2
        | .ld => let r := u.runLoad o; r.1.finishCurrent tile r.2.2 r.2.1
        | .clr =>
          ((if selWide o.sel then [0, 1, 2, 3] else [selAcc o.sel]).foldl (fun (w : State) k => w.clearAcc tile k)
            u).finishCurrent tile 0 noFlags
        | .sv => (u.runSave o).finishCurrent tile 0 noFlags
        | .rs => (u.runRestore o).finishCurrent tile 0 noFlags
        | _ => read 64 64 fun v rs =>
          v.onCurrent tile fun q => { q with stores := (storesOf o rs).1, flags := (storesOf o rs).2 })

/-- ACC_ST_STORE: the array delivers the next store of an `acc.st` as opc has room (R235). -/
def execAccStStore (tile : Nat) (s : State) : Result :=
  match (s.tile tile).current with
  | none => .next s
  | some o => match o.stores with
    | [] => .next s
    | (va, bs) :: rest =>
      let x := s.slot o.slot
      let c := coreOfSlot o.slot
      if x.storesFull then .next s
      else
        let p : StorePacket :=
          { slot := o.slot, va := va, bytes := bs, proxied := none, array := true,
            frame := (pageAt o.pages va).map (·.backing va), retire := none }
        .next ((((s.l1Write c (va / 8) (va % 8) bs).post (.store p)).onSlot o.slot fun y =>
          { y with opc := y.opc + 1, odc := y.odc + 1 }).onCurrent tile fun q => { q with stores := rest, sent := q.sent + 1 })

/-- A store of an `acc.st` is acknowledged; with the last one the operation is done (R235). -/
def State.ackArray (s : State) (n : Nat) : State :=
  let mine (o : ArrayOp) : Bool := o.slot == n && o.sent != 0
  s.onTile (tileOfSlot n) fun t =>
    { t with arrayOps := updateFirst mine (fun (o : ArrayOp) =>
        { o with sent := o.sent - 1, done := o.sent == 1 && o.stores == [] }) t.arrayOps }

/-- ARRAY_OP_COMPLETE: the oldest finished operation leaves the array: d holds its selector, or the result is held until d's leaf is
FULL, the flags go to fsr, and NOTIFY posts its message (R112, R219, R226). -/
def execArrayOpComplete (tile : Nat) (s : State) : Result :=
  let ready (o : ArrayOp) : Bool := o.done && o.instr.isSome
  match (s.tile tile).arrayOps.find? ready with
  | none => .next s
  | some o =>
    let s1 := (s.onTile tile fun t => { t with arrayOps := t.arrayOps.erase o }).onSlot o.slot fun x =>
      let y := x.landAll o.dst [o.sel]
      { y with fsr := y.fsr ||| o.flags }
    .next (if bitOf o.sel 7 then
        s1.postMessage (s.slot o.slot).job o.slot 2 o.status.toNat (fieldOf o.sel 32 32) (wordOf s.cyc)
      else s1)

end Sys2Proof.Machine
end

