-- ==== Sys2Proof/Machine/Hash.lean ====
section
/-! DEFINITION. SHA-256, which the spec names for measurements and firmware (R417-R419) and whose steps are those of FIPS
180-4 (log 31). Its constants are computed from what that standard says they are: fractional parts of roots of primes. -/

namespace Sys2Proof.Machine

/-- A number of two or more has no divisor from 2 up to itself. -/
def isPrime (n : Nat) : Bool := 2 ≤ n && (List.range n).all fun k => k < 2 || n % k != 0

/-- The primes below 312: the first 64. -/
def firstPrimes : List Nat := (List.range 312).filter isPrime

/-- The largest number below `base + 2 ^ bits`, from `base` on, whose power does not pass `x`, found bit by bit. -/
def rootFrom (power x : Nat) : Nat → Nat → Nat
  | 0, base => base
  | bits + 1, base => rootFrom power x bits (if (base + 2 ^ bits) ^ power ≤ x then base + 2 ^ bits else base)

/-- The first 32 bits of the fractional part of a root of a number below 312. -/
def rootFraction (power n : Nat) : BitVec 32 := BitVec.ofNat 32 (rootFrom power (n * 2 ^ (32 * power)) 37 0)

/-- The round constants: of the cube roots of the first 64 primes. -/
def roundConstants : List (BitVec 32) := firstPrimes.map (rootFraction 3)

/-- The working words a digest starts from: of the square roots of the first eight primes. -/
def digestStart : List (BitVec 32) := (firstPrimes.take 8).map (rootFraction 2)

/-- The exclusive or of a word turned right by each of some amounts. -/
def turned (amounts : List Nat) (w : BitVec 32) : BitVec 32 := amounts.foldl (fun x k => x ^^^ w.rotateRight k) 0

/-- The word of a schedule that follows 16 words, the newest of them first. -/
def nextScheduled (newest : List (BitVec 32)) : BitVec 32 :=
  let at_ (k : Nat) : BitVec 32 := newest.getD (k - 1) 0
  at_ 16 + at_ 7 + (turned [7, 18] (at_ 15) ^^^ at_ 15 >>> 3) + (turned [17, 19] (at_ 2) ^^^ at_ 2 >>> 10)

/-- The 64 words of a block's schedule from its 16, in order. -/
def scheduleOf (block : List (BitVec 32)) : List (BitVec 32) :=
  ((List.range 48).foldl (fun (newest : List (BitVec 32)) _ => nextScheduled newest :: newest) block.reverse).reverse

/-- A round: the eight working words move down by one, the first and the fifth made anew. -/
def digestRound (h : List (BitVec 32)) (input : BitVec 32) : List (BitVec 32) :=
  match h with
  | [a, b, c, d, e, f, g, last] =>
    let mixed := last + input + turned [6, 11, 25] e + (g ^^^ (e &&& (f ^^^ g)))
    let majority := (a &&& (b ||| c)) ||| (b &&& c)
    [mixed + turned [2, 13, 22] a + majority, a, b, c, d + mixed, e, f, g]
  | other => other

/-- A block of 16 words goes into a digest. -/
def digestBlock (h block : List (BitVec 32)) : List (BitVec 32) :=
  List.zipWith (· + ·) h ((List.zipWith (· + ·) roundConstants (scheduleOf block)).foldl digestRound h)

/-- Bytes as words of four, most significant byte first; what is left over is dropped. -/
def wordsBig : List Byte → List (BitVec 32)
  | p :: q :: r :: t :: rest => (p ++ q ++ r ++ t) :: wordsBig rest
  | _ => []

/-- A message padded to whole blocks: a one bit, zeros, and its length in bits. -/
def padded (m : List Byte) : List Byte :=
  m ++ 0x80 :: List.replicate ((119 - m.length % 64) % 64) 0 ++ (bytesOfNat 8 (8 * m.length)).reverse

/-- SHA-256 of a byte string. -/
def sha256 (m : List Byte) : List Byte :=
  let ws := wordsBig (padded m)
  ((List.range (ws.length / 16)).foldl (fun h i => digestBlock h ((ws.drop (16 * i)).take 16)) digestStart).flatMap
    fun w => (bytesOfNat 4 w.toNat).reverse

end Sys2Proof.Machine
end

