-- ==== Sys2Proof/Machine/Fetch.lean ====
section
/-! DEFINITION. Time, turns and fetching: router cycles and Deckle periods (R350, R351), the core clock and the
core-shared registers (R11, R19), the fetch of an instruction word (R72, R73), and placing one for the host. -/

namespace Sys2Proof.Machine

/-- The sub-period length that a deckle value gives (R351). -/
def subPeriod (deckle : Word) : Nat := fieldOf deckle 0 11 * 2000 / 9

/-- Let router cycles pass; periods begin where the one before ends, a pending deckle value with the first (R350, R351). -/
def State.tick (s : State) (dt : Nat) : State :=
  let cyc := s.cyc + dt
  let first := s.periodStart + 9 * subPeriod s.deckle
  if cyc < first then { s with cyc := cyc }
  else
    let len := 9 * subPeriod s.deckleNext
    let more := (cyc - first) / len
    { s with cyc := cyc, deckle := s.deckleNext, period := s.period + 1 + more, periodStart := first + more * len }

/-- Writes of k0-k15 that have become visible by a core cycle (R19). -/
def Core.commitWrites (k : Core) : Core :=
  let now := k.kWrites.filter fun w => w.cycle + 9 ≤ k.clock
  { k with k := now.foldl (fun m w => storeSet noVal m w.reg w.val) k.k,
           kWrites := k.kWrites.filter fun w => !(w.cycle + 9 ≤ k.clock) }

/-- The number of a core's latest turn: four to a core cycle, so that turn t belongs to slot t mod 64 (R11). -/
def Core.turn (k : Core) : Nat := 4 * k.clock + k.ring

/-- A lockstep pair issues: it is not replaying, and no checkpoint of it is due (R390). -/
def State.pairReady (s : State) (c : Nat) : Bool :=
  !s.pairs c || ((s.core c).replay.isNone && !(s.core c).checkpointDue)

/-- The slot can issue: it holds a thread that is not stopped, its earlier access is checked, and no stage removal is
waiting for it, its job has not reached the cycle of a stop, its tile is not past the grace window of a cession, and its lockstep
pair is not held (R13, R134, R266, R361, R377, R390). -/
def State.canIssue (s : State) (n : Nat) : Bool :=
  let x := s.slot n
  (x.state == .run || x.state == .wait) && !s.isOut n && x.unchecked.isNone
    && !(s.core (coreOfSlot n)).moves.any (·.slot == n) && s.pairReady (coreOfSlot n)
    && (!isUserSlot n || (match s.job x.job with
      | some j => !j.halted && !j.reached s.cyc && !j.strikes (tileOfSlot n)
      | none => false))
    && (!isUserSlot n || (match (s.tile (tileOfSlot n)).cession with | some y => !(y.moved && y.loser.isSome) | none => true))

/-- The next turn of a slot's core: the first, in rotation, whose slot can issue; where none can, a bubble of the slot, with
whole rotations passing before it (R11, R324). -/
def State.nextTurn (s : State) (n rotations : Nat) : Nat :=
  let c := coreOfSlot n
  let t := (s.core c).turn + 1
  match (List.range 64).find? fun i => s.canIssue (64 * c + (t + i) % 64) with
  | some i => t + i
  | none => t + (n % 64 + 64 - t % 64) % 64 + 64 * rotations

/-- A turn of a lockstep pair that replays: one instruction more has been replayed, and past the last the pair runs normally
(R390). -/
def Core.replayTurn (k : Core) : Core :=
  { k with replay := match k.replay with
      | some (m + 1) => if m = 0 then none else some m
      | _ => none }

/-- Bring the core of a slot to its next turn, and that turn's slot into focus. -/
def State.beginTurn (s : State) (n rotations : Nat) : State :=
  let t := s.nextTurn n rotations
  { s with focus := 64 * coreOfSlot n + t % 64 }.onCore (coreOfSlot n) fun k =>
    ({ k with clock := t / 4, ring := t % 4 }.commitWrites).replayTurn

/-- What a fetch gives. -/
inductive Fetched where
  | word (w : Code) (s : State)
  | stop (s : State)

/-- The 32 bits at an offset 0 or 4 of eight bytes. -/
def codeOf (bs : List Byte) (off : Nat) : Code := BitVec.ofNat 32 (natOfBytes ((bs.drop off).take 4))

/-- The slot holds an instruction word: its first fetch is over. -/
def State.fetched (s : State) (n : Nat) : State :=
  if (s.slot n).firstFetch then s.onSlot n fun x => { x with firstFetch := false } else s

/-- Fetch the word at the slot's pc: a fault that a flush recorded comes first (R155); then 0x0F, then 0x07, then the fetch checks
of R72; the L1's word where it holds one, else the home's, which the L1 takes (R73, R291). -/
def State.fetch (s : State) (n : Nat) : Fetched :=
  let x := s.slot n
  let c := coreOfSlot n
  let pc := x.pc
  match x.heldFault with
  | some (cause, v) => .stop ((s.onSlot n fun y => { y with heldFault := none }).raise n cause.toNat v)
  | none =>
  if pc.toNat % 4 != 0 then .stop (s.raise n 0x0F x.brPc)
  else if 2 ^ 56 ≤ pc.toNat then .stop (s.raise n 0x07 pc)
  else
    let va := pc.toNat
    let base := va / 8 * 8
    if !isUserSlot n then .word (codeOf (s.physBytes base 8) (va % 8)) s
    else if !s.permits c x.job .fetch va then .stop (s.raise n 0x08 pc)
    else
      let s1 := s.keepProtection c x.job va
      match s.l1Read c (va / 8) (va % 8) 4 with
      | some bs => .word (codeOf bs 0) (s1.fetched n)
      | none =>
        if !s.isOurs va then
          (if s.net.any (Packet.isLoadOf n) then .stop (s.waits n)
          else .stop ((s1.post (.load { slot := n, va := base, size := 8, signed := false, dst := [], reach := .plain,
                                        acquire := false, fetch := true, left := s.moves, frame := none,
                                        retire := none })).uncheck n va .fetch true))
        else if s.proxiedAhead (dieOfTile (c / 4)) va none then .stop (s.waits n)
        else
          let h := s.homeOf x.job va
          match s.homeCheck h va .fetch none with
          | .miss =>
            .stop ((s1.askWalker h { va := va, kind := .fetch, job := x.job, tile := h.tile, slice := h.slice,
                                     who := .slot n }).uncheck n va .fetch true)
          | .busy => .stop (s.waits n)
          | .fails cause => .stop (s.raise n cause.toNat pc)
          | ok =>
            let s2 := (s1.present h x.job va (c / 4) ok).chargeSlice h (c / 4) (sectorLen va)
            .word (codeOf (s2.homeBytes h base 8) (va % 8)) (((s2.l1Fill c (s2.sectorWords h va)).letGo h va).fetched n)

/-- The core and offset that a slot's unchecked access reads in another core's scratchpad. -/
def Packet.nearRead (n : Nat) : Packet → Option (Nat × Nat)
  | .near p => match p.kind with
    | .load _ _ => if p.slot == n && p.retire.isSome then some (p.core, p.offset) else none
    | .store _ => none
  | .atomic p => if p.slot == n && p.retire.isSome then p.core.map fun c => (c, p.addr) else none
  | .barrier p => match p.kind with
    | .init _ => none
    | _ => if p.slot == n && p.retire.isSome then some (p.core, p.offset) else none
  | .dep p => match p.kind with
    | .init _ _ => none
    | _ => if p.slot == n && p.retire.isSome then some (p.core, p.offset) else none
  | .deque p => if p.slot == n && p.retire.isSome then some (p.core, p.offset) else none
  | _ => none

/-- A slot's unchecked access goes to another core's scratchpad. -/
def Packet.isNearOf (n : Nat) (p : Packet) : Bool :=
  p.slot == some n && (match p with
    | .near _ => true
    | .atomic q => q.core.isSome
    | .barrier _ => true
    | .dep _ => true
    | .deque _ => true
    | _ => false)

/-- The AtomicOp of a slot's unchecked atomic. -/
def Packet.opOf (n : Nat) : Packet → Option Nat
  | .atomic p => if p.slot == n && p.retire.isSome then atomicOpOf p.op else none
  | _ => none

/-- A home faults an access as the page tables stand (R39, R134). -/
def State.homeFaults (s : State) (j : Nat) (u : Unchecked) (op : Option Nat) : Bool :=
  let h := s.homeOf j u.va
  match s.homeCheck h u.va u.kind op with
  | .fails _ => true
  | .miss => (match s.walk h.slice u.va with
    | .leaf _ t => (match (s.cacheTranslation h.tile { t with dirty := true }).homeCheck h u.va u.kind op with
      | .fails _ => true
      | _ => false)
    | _ => true)
  | _ => false

/-- The access that a slot has just issued will fault at the place that checks it (R42). -/
def State.willFault (s : State) (n : Nat) : Bool :=
  match (s.slot n).unchecked with
  | none => false
  | some u =>
    let j := (s.slot n).job
    if s.net.any (Packet.isNearOf n) then
      (match s.net.findSome? (Packet.nearRead n) with
      | none => false
      | some (c, off) => !s.lostTile j c && (match s.leafCheck c off 1 true with | .off => true | _ => false))
    else s.isOurs u.va && s.homeFaults j u (s.net.findSome? (Packet.opOf n))

/-- After an instruction of a slot: a synchronous upcall stands, and so does an access that its home or target core will
fault; otherwise a cause that was deliverable at this boundary is taken in its stead, `sleep` excepted (R42, R184; log 34).
`before` is the boundary, `after` what the instruction gave. A supervisor slot takes no asynchronous cause (R185). -/
def State.orAsync (before after : State) (n : Nat) (isSleep : Bool) : State :=
  let done := if (after.slot n).ist == (before.slot n).ist then after else after.countPair n 1
  match (if isUserSlot n then (before.slot n).deliverable else none) with
  | some b => if isSleep || (after.slot n).active || after.willFault n then done else before.takeAsync n b
  | none => done

/-- The instruction is `sleep`. -/
def isSleep : Instr → Bool
  | .sleep _ _ _ => true
  | _ => false

/-- What a machine that has tripped still serves: configuration space, BAR2 and package reset (R411). -/
def servesTripped : Instr → Bool
  | .packageReset => true
  | .deckle _ => true
  | .pwrlim _ => true
  | .tcinv _ => true
  | .pkgid _ => true
  | .hostRegisterWrite none _ _ => true
  | .spdmGetCertificate => true
  | .spdmGetMeasurements => true
  | _ => false

/-- The address at which the host's word is placed. -/
def placedAt : Nat := 0x1000

/-- A machine in which slot 0 of core 0 of tile 0 runs job 1 at `placedAt`, its window of 128 registers, with the word
there in the L1 and executable, and that slot's turn next (log 12). -/
def State.placeWord (s : State) (w : Nat) : State :=
  let s1 := s.onTile 0 fun t => { t with owner := some 1 }
  let s2 := s1.setJob 1 newJob
  let s3 := s2.onCore 0 fun k =>
    { k with
      clock := k.clock / 16 * 16 + 15
      ring := 3
      plb := [{ domain := 0, generation := 0, region := 0, rights := 7 }]
      l1 := storeSet noL1 k.l1 (placedAt / 8) (some { val := wordOf (w % 2 ^ 32), owned := false }) }
  let s4 := s3.onSlot 0 fun x => { x with state := .run, job := 1, pc := wordOf placedAt, winSize := 128 }
  { s4 with focus := 0, tripped := false, agenda := [{ dt := 0, rotations := 0, turn := .issue 0 }] }

end Sys2Proof.Machine
end

