-- ==== Sys2Proof/Machine/Messages.lean ====
section
/-! DEFINITION. Barriers (R167-R174), the inbox and sends (R175-R179), and the order in which the requests of one slot
arrive (R136). -/

namespace Sys2Proof.Machine

/-! ## Order of arrival (R136, R285) -/

/-- KEY of a record's word 1. -/
def keyOf (w1 : Word) : Nat := fieldOf w1 0 32

/-- The bucket of a key (R247). -/
def keyBucket (key : Nat) : Nat := bitsOf key 0 12 ^^^ bitsOf key 12 12 ^^^ bitsOf key 24 8

/-- The tile and slice of a record under its job's home table (R247). -/
def State.segmentOf (s : State) (j : Nat) (w1 : Word) : Nat × Nat :=
  let tile := match s.job j with
    | some x => (s.tileAtIndex j (storeGet homeIndexZero x.homeTable (keyBucket (keyOf w1)))).getD x.seed
    | none => 0
  (tile, popCount (keyOf w1) % 2)

/-- Where a request arrives. -/
inductive Dest where
  | slice (id : Nat) | core (c : Nat) | inbox (c : Nat) | arrivals (c : Nat) | segment (tile slice : Nat)
  | package (q port : Nat)
  deriving DecidableEq, Repr

/-! ### The Ethernet ports (R404, R408) -/

/-- The tile at which a port stands (R404). -/
def portTile (p : Nat) : Nat :=
  [5 * 32, 5, 5 * 32 + 31, 26, 26 * 32, 31 * 32 + 5, 26 * 32 + 31, 31 * 32 + 26].getD p 0

/-- The die of a port (R404). -/
def portDie (p : Nat) : Nat := p / 2

/-- The port through which the requests of a die to another package leave, and at which they arrive there (R408). -/
def portTo (die q : Nat) : Nat := 2 * die + q % 2

/-- The next place of a global request of a slot: its die's proxy for a cross-die registration and a die-reach read, else
the home; another package for its addresses (R136, R142, R285, R286). -/
def State.sliceDest (s : State) (n va : Nat) (viaProxy : Bool) : Dest :=
  let j := (s.slot n).job
  if !s.isOurs va then .package (packageOf va) (portTo (dieOfTile (tileOfSlot n)) (packageOf va))
  else match (if viaProxy then s.proxyFor j (tileOfSlot n) va else none) with
    | some p => .slice p.id
    | none => .slice (s.homeOf j va).id

/-- The destination of a packet in flight: of a record, the segment that its key names now (R247). -/
def State.destOf (s : State) : Packet → Option Dest
  | .load p => some (s.sliceDest p.slot p.va (p.reach == .die))
  | .store p => some (s.sliceDest p.slot p.va p.proxied.isNone)
  | .near p => some (.core p.core)
  | .atomic p => match p.core with
    | some c => some (.core c)
    | none => some (s.sliceDest p.slot p.addr false)
  | .barrier p => some (.core p.core)
  | .dep p => some (.core p.core)
  | .deque p => some (.core p.core)
  | .message p => some (.inbox p.core)
  | .context c _ _ _ => some (.arrivals c)
  | .record _ _ r => let (t, sl) := s.segmentOf r.job (r.words.getD 1 0); some (.segment t sl)
  | _ => none

/-- Types 3, 4 and 7 may fill an inbox (R176). -/
def reservedType (w0 : Word) : Bool := fieldOf w0 0 8 == 3 || fieldOf w0 0 8 == 4 || fieldOf w0 0 8 == 7

/-- A message that may take the places kept for types 3, 4 and 7 (R176). -/
def Packet.reserved : Packet → Bool
  | .message p => reservedType p.w0
  | _ => false

/-- The tile at which a destination stands. -/
def Dest.tile : Dest → Nat
  | .slice id => id / 2
  | .core c => c / 4
  | .inbox c => c / 4
  | .arrivals c => c / 4
  | .segment t _ => t
  | .package _ port => portTile port

/-- The tile from which a poster sends, if it is a slot or a core. -/
def Poster.tile : Poster → Option Nat
  | .slot n => some (tileOfSlot n)
  | .core c => some (c / 4)
  | _ => none

/-- A bridge link that a packet's route crosses retrains, and holds it (R409). -/
def State.linkHolds (s : State) (p : Packet) : Bool :=
  s.links.any (·.2.retraining) && (match p.poster.tile, s.destOf p with
    | some t, some d => (Config.bridges t d.tile).any fun l => (storeGet linkAt s.links l).retraining
    | _, _ => false)

/-- The destination is another package, for which all requests of a die keep their order (R408). -/
def Dest.isPackage : Dest → Bool
  | .package _ _ => true
  | _ => false

/-- The job of a message that the device posted while the job was stopped. -/
def Packet.heldFor : Packet → Option Nat
  | .message p => if p.stopped then some p.job else none
  | _ => none

/-- A packet of one destination must reach it before a later one: the sender is the same (R136, R179, R247, R266, R360), a die's
requests go to one package (R408), or a router captured it at a stop (R384). -/
def Packet.leads (q p : Packet) (d : Dest) : Bool :=
  (q.poster == p.poster && p.poster != .device) || (d.isPackage && q.poster != .device)
    || (q.poster == .captured && (q.reserved || !p.reserved))

/-- What reaches its place gives its slot a result there and then: for a lockstep pair, an input (R389). -/
def Packet.gives : Packet → Option Nat
  | .near p => if p.dst = [] then none else some p.slot
  | .barrier p => if p.dst = [] then none else some p.slot
  | .dep p => if p.dst = [] then none else some p.slot
  | .deque p => if p.dst = [] then none else some p.slot
  | _ => none

/-- Nothing that must arrive first is still on its way: to the same destination, or of the messages that the device held for the
job while it was stopped (R384). No retraining bridge link holds it (R409), and no lockstep pair that takes no input (R390). -/
def State.arrivesNext (s : State) (n : Nat) : Bool :=
  match s.net[n]? with
  | none => false
  | some p =>
    !s.linkHolds p && !(match p.gives with | some m => s.pairHolds m | none => false)
    && (s.net.take n).all (fun q => !(p.heldFor.isSome && q.heldFor == p.heldFor))
    && (match s.destOf p with
      | none => true
      | some d => (s.net.take n).all fun q => !(s.destOf q == some d && q.leads p d))

/-- Land an operation's result on its slot, if the slot still holds the thread that is owed it. -/
def State.landOn (s : State) (n : Nat) (ls : List RegLoc) (vs : List Word) : State :=
  if ls = [] then s else (s.onSlot n fun x => x.landAll ls vs).logInput n vs

/-! ## Barrier objects (R167-R169) -/

/-- Word 0 from its fields. -/
def barrierWord (complete overrun : Bool) (phase arrivals : Nat) (bytes : Int) : Word :=
  wordOf ((if complete then 2 ^ 63 else 0) + (if overrun then 2 ^ 62 else 0) + phase % 2 ^ 14 * 2 ^ 48
    + arrivals % 2 ^ 16 * 2 ^ 32) + (BitVec.ofInt 32 bytes).setWidth 64

/-- BYTES of word 0, or an announcement's low word, as a signed number. -/
def low32 (w : Word) : Int := (BitVec.ofNat 32 (fieldOf w 0 32)).toInt

/-- PHASE of word 0. -/
def phaseOf (w : Word) : Nat := fieldOf w 48 14

/-- Word 0 and word 1 after `bar.init` (R169). -/
def barrierInit (b : Word) : Word × Word :=
  let w1 := b &&& 0x0000_FFFF_7FFF_FFFF#64
  (barrierWord false false 0 (fieldOf w1 32 16) (fieldOf w1 0 31), w1)

/-- Word 0 after a count, and whether a phase completed (R169). -/
def barrierCount (w0 w1 : Word) (arrival : Bool) (bytes : Int) : Word × Bool :=
  let left := fieldOf w0 32 16
  let overrun := bitOf w0 62 || (arrival && left == 0)
  let arrivals := if arrival && left != 0 then left - 1 else left
  let sum := (BitVec.ofInt 32 (low32 w0 + bytes)).toInt
  if !overrun && arrivals == 0 then
    if sum < 0 then (barrierWord false true (phaseOf w0) arrivals sum, false)
    else if sum = 0 then
      (barrierWord true false (phaseOf w0 + 1) (fieldOf w1 32 16) (fieldOf w1 0 31), true)
    else (barrierWord false false (phaseOf w0) arrivals sum, false)
  else (barrierWord false overrun (phaseOf w0) arrivals sum, false)

/-- Release the waiters of an object that a test selects, each with a value (R169, R172). -/
def State.releaseWaiters (s : State) (c off : Nat) (p : Waiter → Bool) (v : Word) : State :=
  let hits := (s.core c).waiters.filter fun w => w.offset == off && w.seen.isSome && p w
  if hits = [] then s else
  { s with net := s.net ++ hits.map fun (w : Waiter) => Packet.barReply w.slot v }.onCore c fun k =>
    { k with waiters := k.waiters.filter fun w => !hits.contains w }

/-- Apply a count to the object at a place (R169): the phase in which it was counted, and the state. -/
def State.applyCount (s : State) (c off : Nat) (arrival : Bool) (bytes : Int) : Nat × State :=
  let w0 := s.scratchWord c off
  let (w, done) := barrierCount w0 (s.scratchWord c (off + 8)) arrival bytes
  let s1 := s.putScratch c off (bytesOfNat 8 w.toNat)
  (phaseOf w0, if done then s1.releaseWaiters c off (fun x => x.seen != some (BitVec.ofNat 14 (phaseOf w)))
    (wordOf (phaseOf w)) else s1)

/-- Waiting requests that a core holds (R172, R255). -/
def waiterRoom : Nat := 64

/-- Perform a barrier or join operation at its core; none where it must wait in the mesh (R168-R173, R255). -/
def State.performBarrier (s : State) (p : BarrierPacket) : Option State :=
  let c := p.core
  match p.kind with
  | .init b =>
    let (w0, w1) := barrierInit b
    some ((s.putScratch c p.offset (bytesOfNat 8 w0.toNat ++ bytesOfNat 8 w1.toNat)).releaseWaiters c p.offset
      (fun _ => true) allOnes)
  | .arrive bytes =>
    let (phase, s1) := s.applyCount c p.offset true bytes.toInt
    some (s1.landOn p.slot p.dst [wordOf phase])
  | .count bytes => some (s.applyCount c p.offset false bytes.toInt).2
  | .wait seen =>
    let phase := phaseOf (s.scratchWord c p.offset)
    if BitVec.ofNat 14 phase != seen then some (s.post (.barReply p.slot (wordOf phase)))
    else if waiterRoom ≤ (s.core c).waiters.length then none
    else some (s.onCore c fun k =>
      { k with waiters := k.waiters ++ [({ slot := p.slot, offset := p.offset, seen := some seen } : Waiter)] })
  | .test => some (s.landOn p.slot p.dst [s.scratchWord c p.offset])
  | .join =>
    let w := s.scratchWord c p.offset
    if w.toInt ≤ 0 then some (s.post (.joinReply p.slot w))
    else if waiterRoom ≤ (s.core c).waiters.length then none
    else some (s.onCore c fun k =>
      { k with waiters := k.waiters ++ [({ slot := p.slot, offset := p.offset, seen := none } : Waiter)] })

/-- An operation reads the object: all but `bar.init` (R168). -/
def BarrierKind.reads : BarrierKind → Bool
  | .init _ => false
  | _ => true

/-- The target of an operation on a scratchpad object: any region but the scratchpads' raises 0x0A (R168, R251). -/
def State.objectTarget (s : State) (n : Nat) (a : Word) (size align : Nat) : Target :=
  match s.target n a size align with
  | .global _ => .fails 0x0A a
  | t => t

/-- Issue an operation on a scratchpad object: the address checks, 0x0E, then at once in the issuer's own core and as a
packet to another (R134, R139, R168). `perform` is none where the operation must wait in the mesh. -/
def State.objectOp (s : State) (a : Word) (t : Target) (size : Nat) (reads misuse : Bool) (word : Word) (r : Retire)
    (packet : Nat → Nat → Option Retire → Packet) (perform : Nat → State → Option State) : State :=
  let n := s.focus
  let c := coreOfSlot n
  match t with
  | .fails cause v => s.raise n cause v
  | .global _ => s.raise n 0x0A a
  | .scratch tc off =>
    if tc = c then
      match s.slotCheck n c off size reads with
      | .off => s.raise n 0x05 a
      | .wait => s.waitsLeaf n c off
      | .ready =>
        if misuse then s.raise n 0x0E word
        else
          let s1 := s.onSlot n fun x => x.retire r
          match perform off s1 with
          | some t => t
          | none => s1.post (packet c off none)
    else if misuse then s.checkScratch n tc off size reads a fun u => u.raise n 0x0E word
    else ((s.l1Forget c (nearWord tc off) size).post (packet tc off (some r))).uncheck n off
      (if reads then .atomic else .write) false

/-- A barrier instruction that retires when it is checked: `bar.init`, `bar.arr`, `bar.tst`. -/
def State.barrierForm (s : State) (i : Instr) (u : Named) (a : Reg) (release : Bool) (kind : List Word → BarrierKind) : State :=
  s.longForm i u [a] fun x v misuse =>
    let n := s.focus
    if release && !s.released n true then s.waits n
    else
      let ea := v.getD 0 0
      let k := kind v
      let p (tc off : Nat) (r : Option Retire) : BarrierPacket :=
        { slot := n, core := tc, offset := off, ea := ea, kind := k, dst := x.dst u.dests, retire := r }
      s.objectOp ea (s.objectTarget n ea 16 16) 16 k.reads misuse i.word (x.next (x.lastUses u.reads) (x.dst u.dests) 0)
        (fun tc off r => .barrier (p tc off r)) (fun off t => t.performBarrier (p (coreOfSlot n) off none))

/-- `bar.init` (R169). -/
def execBarInit (a b : Reg) (la lb : Bool) (s : State) : Result :=
  .next (s.barrierForm (.barInit a b la lb) (onlyAB a b la lb) a false fun v => .init (v.getD 1 0))
/-- `bar.arr`: a release of package reach, then a count with an arrival (R170). -/
def execBarArr (d a b : Reg) (la lb : Bool) (s : State) : Result :=
  .next (s.barrierForm (.barArr d a b la lb) (readAB d a b la lb) a true fun v => .arrive ((v.getD 1 0).setWidth 32))
/-- `bar.tst` (R173). -/
def execBarTst (d a : Reg) (la : Bool) (s : State) : Result :=
  .next (s.barrierForm (.barTst d a la) (readA d a la) a false fun _ => .test)

/-- A form that asks an object's core and does not retire until the reply comes (R172, R255). -/
def State.waitForm (s : State) (i : Instr) (u : Named) (a : Reg) (size align : Nat) (kind : List Word → BarrierKind) : State :=
  s.longForm i u [a] fun x v misuse =>
    let n := s.focus
    let ea := v.getD 0 0
    match s.objectTarget n ea size align with
    | .fails cause w => s.raise n cause w
    | .global _ => s.raise n 0x0A ea
    | .scratch tc off =>
      if misuse then s.checkScratch n tc off size true ea fun u => u.raise n 0x0E i.word
      else
        (s.post (.barrier { slot := n, core := tc, offset := off, ea := ea, kind := kind v, dst := [], retire := none })).onSlot
          n fun y => { y with waiting := some { dst := x.dst u.dests, dead := x.lastUses u.reads }, state := .wait }

/-- `bar.wait` (R172). -/
def execBarWait (d a b : Reg) (la lb : Bool) (s : State) : Result :=
  .next (s.waitForm (.barWait d a b la lb) (readAB d a b la lb) a 16 16 fun v => .wait ((v.getD 1 0).setWidth 14))

/-- An operation on an object of a tile that the job has lost answers as if the object were zero, and writes nothing (R366). -/
def State.lostBarrier (s : State) (p : BarrierPacket) : State :=
  let s1 := s.pass p.slot p.retire
  match p.kind with
  | .init _ => s1
  | .count _ => s1
  | .arrive _ => s1.landOn p.slot p.dst [0]
  | .test => s1.landOn p.slot p.dst [0]
  | .wait _ => s1.post (.barReply p.slot 0)
  | .join => s1.post (.joinReply p.slot 0)

/-- BARRIER_OPERATION: an operation reaches its object's core and is performed there (R168); a leaf that is OFF fails the
check of one that reads, a leaf that wakes holds it (R27, R134). -/
def execBarrierOperation (n : Nat) (s : State) : Result :=
  match s.net[n]? with
  | some (.barrier p) =>
    if !s.arrivesNext n then .next s
    else if s.lostTile (s.slot p.slot).job p.core then .next ((s.taken n).lostBarrier p)
    else
      let size := if p.kind == .join then 8 else 16
      match s.leafCheckAt p.core p.offset size p.kind.reads p.accepted none with
      | .wait =>
        .next (if p.accepted.isSome then s
          else s.accepts n p.core p.offset p.slot p.retire (.barrier { p with retire := none, accepted := some s.moves }))
      | .off => .next (((s.taken n).withdraw p.slot).failCheck p.slot 0x05 p.ea)
      | .ready =>
        let c := coreOfSlot p.slot
        let u := (((s.taken n).pass p.slot p.retire).chargeNear c p.core size).l1Forget c (nearWord p.core p.offset) size
        match u.performBarrier p with
        | some t => .next t
        | none => .next s
  | _ => .next s

/-- A reply ends a slot's wait: d is written, the instruction retires, and the acquire follows (R172, R255). -/
def State.waitReply (s : State) (n : Nat) (v : Word) : State :=
  (s.onSlot n fun x => match x.waiting with
    | some w => { (x.retire (x.next w.dead [] 0)).landAll w.dst [v] with acqHold := true }
    | none => x).logInput n [v]

/-- The registers that a wait's reply writes stand in leaves that are FULL (R26). -/
def Slot.takesReply (x : Slot) : Bool := match x.waiting with | some w => x.landable w.dst | none => true

/-- A reply that cannot write its register yet starts the wake of its leaf, and waits for it; the leaves of a slot that is OUT stay
in RETAIN (R26, R332). -/
def State.wakeReply (s : State) (n : Nat) : State :=
  match (s.slot n).waiting with
  | some w => if s.isOut n then s else s.onSlot n fun x => w.dst.foldl Slot.wakePlace x
  | none => s

/-- BAR_WAIT_REPLY (R172). -/
def execBarWaitReply (n : Nat) (s : State) : Result :=
  match s.net[n]? with
  | some (.barReply m v) =>
    .next (if s.pairHolds m then s else if (s.slot m).takesReply then (s.taken n).waitReply m v else s.wakeReply m)
  | _ => .next s

/-! ## The inbox (R176-R178) -/

/-- The oldest message of a slot that no port has opened, of a type if one is asked for (R165, R177). -/
def State.oldest (s : State) (n type : Nat) : Option Message :=
  (s.core (coreOfSlot n)).inbox.find? fun m =>
    fieldOf m.w0 16 6 == tidOf n && m.openedBy.isNone && (type == 0 || fieldOf m.w0 0 8 == type)

/-- `ipop` and `ipeek`: what the message gives d and d + 1, and the state once it is taken or seen. -/
def State.inboxForm (s : State) (i : Instr) (d b : Reg) (lb pop : Bool) : State :=
  let n := s.focus
  let u : Named := { reads := [(b, lb)], dests := [d, d + 1], also := [] }
  match s.operands n u i.word with
  | .stop t => t
  | .go vals s1 =>
    match s1.oldest n (fieldOf (vals.getD 0 0) 0 8) with
    | some m =>
      let s2 := (if pop then s1.onCore (coreOfSlot n) fun k => { k with inbox := k.inbox.erase m } else s1).logInput n [m.w0, m.w1]
      let s3 := s2.onSlot n fun x => { x with acqHold := true }
      s.deliver s3 n u [(d, m.w0), (d + 1, m.w1)] noFlags ((s.slot n).pc + 4) i.word
    | none =>
      if pop then s.waits n
      else s.deliver s1 n u [(d, 0), (d + 1, 0)] noFlags ((s.slot n).pc + 4) i.word

/-- `ipop` (R177). -/
def execIpop (d b : Reg) (lb : Bool) (s : State) : Result := .next (s.inboxForm (.ipop d b lb) d b lb true)
/-- `ipeek` (R178). -/
def execIpeek (d b : Reg) (lb : Bool) (s : State) : Result := .next (s.inboxForm (.ipeek d b lb) d b lb false)

/-! ## Sends (R179) -/

/-- `send` and `sendw` (R179): the release wait, at most 8 messages not yet placed, the checks, then the message. -/
def State.sendForm (s : State) (i : Instr) (u : Named) (a : Reg) : State :=
  s.longForm i u [a] fun x v misuse =>
    let n := s.focus
    let target := v.getD 0 0
    if !s.released n true || 8 ≤ x.sends then s.waits n
    else match s.tileAtIndex x.job (fieldOf target 8 10) with
      | none => s.raise n 0x0C target
      | some t =>
        if misuse || fieldOf target 18 14 != 0 || 62 ≤ fieldOf target 0 6 then s.raise n 0x0E i.word
        else
          let p : MessagePacket :=
            { job := x.job, core := s.pairCore x.job (4 * t + fieldOf target 6 2), 
              w0 := messageWord 6 0 (fieldOf target 0 6) (fieldOf target 32 32),
              w1 := v.getD 1 0, poster := .slot n, sender := some n, lands := x.dst u.dests,
              follows := none }
          (s.post (.message p)).onSlot n fun y =>
            { y.retire (x.next (x.lastUses u.reads) (x.dst u.dests) 0) with sends := y.sends + 1 }

/-- `send` (R179). -/
def execSend (a b : Reg) (la lb : Bool) (s : State) : Result := .next (s.sendForm (.send a b la lb) (onlyAB a b la lb) a)
/-- `sendw` (R179). -/
def execSendw (d a b : Reg) (la lb : Bool) (s : State) : Result :=
  .next (s.sendForm (.sendw d a b la lb) (readAB d a b la lb) a)

/-- Message word 0 with the tag of another slot (R175). -/
def retag (m : Nat) (w0 : Word) : Word := wordOf (w0.toNat / 2 ^ 22 * 2 ^ 22 + tidOf m * 2 ^ 16 + w0.toNat % 2 ^ 16)

/-- An inbox has room for a message (R176). -/
def inboxRoom (inbox : List Message) (w0 : Word) : Bool :=
  decide (inbox.length < 64)
    && (reservedType w0 || decide ((inbox.filter fun m => !reservedType m.w0).length < 56))

/-- Give an ended send back to its sender: the count falls and an owed `sendw` lands with a value (R179, R366). -/
def State.endSend (s : State) (p : MessagePacket) (v : Word) : State :=
  match p.sender with
  | some m =>
    let s1 := s.onSlot m fun x => { x.landAll p.lands [v] with sends := x.sends - 1 }
    if p.lands = [] then s1 else s1.logInput m [v]
  | none => s

/-- Place a message in its core's inbox: PEND of cause 0x15 is set on a slot that holds a thread (R176, R180). -/
def State.placeMessage (s : State) (core : Nat) (w0 w1 : Word) : State :=
  let n := 64 * core + fieldOf w0 16 6
  let s1 := s.onCore core fun k => { k with inbox := k.inbox ++ [({ w0 := w0, w1 := w1, openedBy := none } : Message)] }
  if (s1.slot n).state = .free then s1 else s1.onSlot n fun x => x.pending 5 0

/-- The forwarding entry of the slot that a message names, where its thread has left it (R260, R366). -/
def State.forwardOf (s : State) (core : Nat) (w0 : Word) : Option Forwarding :=
  (s.core core).forwards.find? fun f => tidOf f.slot == fieldOf w0 16 6

end Sys2Proof.Machine
end

