-- ==== Sys2Proof/Machine/Copies.lean ====
section
/-! DEFINITION. Copies: the parameter block and its checks (R238, R239), the copy slot's sectors, acknowledgements and
completion (R171, R240-R242, R244), `cp.stat` and `cp.cancel` (R243). -/

namespace Sys2Proof.Machine

/-! ## The parameter block (R238, R239) -/

/-- A parameter block (R238). -/
structure CopyBlock where
  src : Word
  dst : Word
  bytes : Nat
  rows : Nat
  sstride : Nat
  dstride : Nat
  bar : Word
  hpc : Word
  deriving DecidableEq, Repr

/-- The block that eight words give. -/
def copyBlock (ws : List Word) : CopyBlock :=
  { src := ws.getD 0 0, dst := ws.getD 1 0, bytes := (ws.getD 2 0).toNat, rows := (ws.getD 3 0).toNat,
    sstride := (ws.getD 4 0).toNat, dstride := (ws.getD 5 0).toNat, bar := ws.getD 6 0, hpc := ws.getD 7 0 }

/-- A field breaks its limits: the first check of R239. -/
def CopyBlock.malformed (k : CopyBlock) (net : Bool) : Bool :=
  k.bytes == 0 || k.rows == 0 || decide (2 ^ 30 < k.bytes * k.rows) || k.bar.toNat % 16 != 0 || k.hpc.toNat % 4 != 0
    || (net && (decide (8 ≤ k.dst.toNat) || k.dstride != 0))

/-- A row's span: its address, exact, and its stride. -/
structure RowSpan where
  at_ : Nat
  stride : Nat
  deriving DecidableEq, Repr

/-- The address of a span as 64 bits; of one past 2^64, its low 64 bits (assumption 57). -/
def RowSpan.word (e : RowSpan) : Word := wordOf e.at_

/-- The rows' spans in the order of the checks: the source of a row before its destination (R239). -/
def CopyBlock.spans (k : CopyBlock) (net : Bool) : List RowSpan :=
  (List.range k.rows).flatMap fun r =>
    { at_ := k.src.toNat + r * k.sstride, stride := k.sstride } ::
      (if net then [] else [{ at_ := k.dst.toNat + r * k.dstride, stride := k.dstride }])

/-- The bytes of the accumulator buffer (R230). -/
def accBytes : Nat := 0x50000

/-- The first address of a span of n bytes that is not canonical or passes its region's end (R39, R230); an address in
0xF2 passes to its own check. -/
def spanBad (limit : Nat) (a : Word) (n : Nat) : Option Word :=
  let ends (off limit : Nat) : Option Word := if limit < off + n then some (a + wordOf (limit - off)) else none
  match regionOf a with
  | 0x00 => if 2 ^ 56 < a.toNat + n then some (wordOf (2 ^ 56)) else none
  | 0xF0 => if fieldOf a 18 38 != 0 then some a else ends (fieldOf a 0 18) limit
  | 0xF1 => if fieldOf a 50 6 != 0 || fieldOf a 18 20 != 0 then some a else ends (fieldOf a 0 18) limit
  | 0xF2 => none
  | 0xF3 => if fieldOf a 19 37 != 0 then some a else ends (fieldOf a 0 19) accBytes
  | _ => some a

/-- The first failing check of a block, each over the whole block before the next (R239). DESIGN CHOICE a BAR that the table lets
pass and R39 or R40 does not raises their cause after the last row (assumption 70). -/
def State.copyFault (s : State) (n : Nat) (k : CopyBlock) (net : Bool) (word : Word) : Option (Nat × Word) :=
  let j := (s.slot n).job
  let spans := k.spans net
  let limit := s.scratchSize j
  if k.malformed net then some (0x01, word)
  else match spans.findSome? fun e =>
      if 2 ^ 64 ≤ e.at_ || (net && regionOf e.word != 0xF0) then some e.word else spanBad limit e.word k.bytes with
    | some v => some (0x07, v)
    | none => match spans.find? fun e => regionOf e.word == 0xF2 with
      | some e => some (0x0B, e.word)
      | none => match spans.find? fun e => regionOf e.word == 0xF1 && (s.tileAtIndex j (fieldOf e.word 40 10)).isNone with
        | some e => some (0x0C, e.word)
        | none =>
          match spans.find? fun e => regionOf e.word == 0xF3
              && (fieldOf e.word 0 19 % 20 != 0 || k.bytes % 20 != 0 || e.stride % 20 != 0) with
          | some e => some (0x0A, e.word)
          | none =>
            if k.bar = 0 then none
            else if regionOf k.bar != 0xF0 && regionOf k.bar != 0xF1 then some (0x0A, k.bar)
            else match s.target n k.bar 16 16 with
              | .fails cause v => some (cause, v)
              | _ => none

/-! ## Places of a span -/

/-- Where an address of a copy lies. -/
inductive CopyPlace where
  | global (va : Nat)
  | scratch (core off : Nat)
  | acc (off : Nat)
  | lost                            -- a near target that has left the territory
  | leaving (core : Nat)            -- a near target on a tile that the job is losing (R366)
  deriving DecidableEq, Repr

/-- The place of an address for a copy of a core (R38, R40). -/
def State.copyPlace (s : State) (c j : Nat) (a : Word) : CopyPlace :=
  match regionOf a with
  | 0x00 => .global a.toNat
  | 0xF0 => .scratch c (fieldOf a 0 18)
  | 0xF1 => match s.tileAtIndex j (fieldOf a 40 10) with
    | some t =>
      let tc := s.pairCore j (4 * t + fieldOf a 38 2)
      if tc != c && s.lostTile j tc then .leaving tc else .scratch tc (fieldOf a 0 18)
    | none => .lost
  | _ => .acc (fieldOf a 0 19)

/-- A source byte of a copy lies in a leaf that is OFF (R27, R240). -/
def State.sourceOff (s : State) (c : Nat) (x : Copy) : Bool :=
  (List.range x.rows).any fun r => match s.copyPlace c x.job (rowAt x.src x.sstride r) with
    | .scratch tc off => (s.offLeaf tc [(off, x.bytes)]).isSome
    | _ => false

/-! ## Acceptance (R239) -/

/-- Copies that a core's copy slot holds, those whose handler entry is not taken among them (R46, R239). -/
def copyRoom : Nat := 16

/-- The id after an id: the count passes over 0 (R239). -/
def nextId (id : BitVec 32) : BitVec 32 := if id + 1 = 0 then 1 else id + 1

/-- Accept a copy: d lands with the id, and a source byte in an OFF leaf ends the copy (R239, R240). -/
def State.acceptCopy (s : State) (k : CopyBlock) (net array : Bool) (r : Retire) (dst : List RegLoc) : State :=
  let n := s.focus
  let c := coreOfSlot n
  let id := (s.core c).nextCopy
  let x : Copy :=
    { id := id, slot := n, job := (s.slot n).job, src := k.src, dst := k.dst, bytes := k.bytes, rows := k.rows,
      sstride := k.sstride, dstride := k.dstride, bar := k.bar, hpc := k.hpc, net := net, array := array, delivered := 0,
      acked := 0, held := [], status := none, cancelling := false, cancels := [], fault := none, notice := none,
      posted := false }
  let y := if s.sourceOff c x then { x with status := some 0x05 } else x
  let s1 := (s.onCore c fun q => { q with copies := q.copies ++ [y], nextCopy := nextId id }).onSlot n fun z =>
    (z.retire r).landAll dst [id.setWidth 64]
  if array then
    let op : ArrayOp :=
      { slot := n, instr := none, sel := 0, a := 0, b := 0, descA := [], descB := [], fmtA := 0, fmtB := 0, scl0 := 0,
        scl1 := 0, dst := [], spans := [], copies := [], copy := id, pages := [], lines := [], pinned := [], stores := [],
        sent := 0, done := false, status := 0, flags := noFlags }
    s1.onTile (tileOfSlot n) fun t =>
      { t with arrayOps := t.arrayOps ++ [op], idleFrom := (s.core c).clock }
  else s1

/-- The issue of `cp` and `cp.net` (R239): the block, its checks, 0x0E, the lease of a copy with a row in 0xF3, the wait
of `fence.rel`, and room. -/
def State.copyForm (s : State) (i : Instr) (d a : Reg) (la net : Bool) : State :=
  s.longForm i (readA d a la) [a] fun x v misuse =>
    let n := s.focus
    let c := coreOfSlot n
    match s.readBlock n (v.getD 0 0) 8 with
    | .fails cause w => s.raise n cause w
    | .waits off => s.waitsLeaf n c off
    | .ok _ _ ws _ =>
      let k := copyBlock ws
      match s.copyFault n k net i.word with
      | some (cause, w) => s.raise n cause w
      | none =>
        if misuse then s.raise n 0x0E i.word
        else
          let array := (k.spans net).any fun e => regionOf e.word == 0xF3
          let accept : State :=
            if !s.released n true || copyRoom ≤ (s.core c).copies.length + (x.handlers.filter fun h => h.core != c).length
                || (array && arrayRoom ≤ (s.tile (tileOfSlot n)).arrayOps.length) then s.waits n
            else s.acceptCopy k net array (x.next (x.lastUses [(a, la)]) (x.dst [d]) 0) (x.dst [d])
          if !array then accept
          else match x.lease with
            | .none => s.raise n 0x17 i.word
            | .spent => (s.queueLease n x.budget).waits n
            | .queued => s.waits n
            | .held => accept

/-- `cp` (R239). -/
def execCp (d a : Reg) (la : Bool) (s : State) : Result := .next (s.copyForm (.cp d a la) d a la false)
/-- `cp.net` (R239, R242). -/
def execCpNet (d a : Reg) (la : Bool) (s : State) : Result := .next (s.copyForm (.cpNet d a la) d a la true)

/-! ## `cp.stat` and `cp.cancel` (R243) -/

/-- The copy of a core with an id whose message is not yet posted. -/
def Core.running (k : Core) (id : BitVec 32) : Option Copy := k.copies.find? fun x => x.id == id && !x.posted

/-- Change a running copy. -/
def State.onCopy (s : State) (c : Nat) (id : BitVec 32) (f : Copy → Copy) : State :=
  s.onCore c fun k => { k with copies := updateFirst (fun (x : Copy) => x.id == id && !x.posted) f k.copies }

/-- Bytes of a copy's stream. -/
def Copy.total (x : Copy) : Nat := x.bytes * x.rows

/-- The status word of a copy (R243). -/
def Copy.word (x : Copy) : Word :=
  wordOf ((if x.cancelling then 3 else if x.delivered = 0 then 1 else 2) * 2 ^ 62 + (x.total - x.delivered))

/-- `cp.stat` (R243). -/
def execCpStat (d a : Reg) (la : Bool) (s : State) : Result :=
  .next (s.compute (.cpStat d a la) (readA d a la) d fun _ v =>
    (match (s.core (coreOfSlot s.focus)).running ((v.getD 0 0).setWidth 32) with
      | some x => x.word
      | none => 0, noFlags))

/-- `cp.cancel` (R243). -/
def execCpCancel (d a : Reg) (la : Bool) (s : State) : Result :=
  let i := Instr.cpCancel d a la
  .next (s.longForm i (readA d a la) [] fun x v misuse =>
    let n := s.focus
    let c := coreOfSlot n
    let id : BitVec 32 := (v.getD 0 0).setWidth 32
    if misuse then s.raise n 0x0E i.word
    else
      let s1 := s.onSlot n fun y => y.retire (x.next (x.lastUses [(a, la)]) (x.dst [d]) 0)
      match (s.core c).running id with
      | none => s1.landOn n (x.dst [d]) [allOnes]
      | some _ => s1.onCopy c id fun y =>
        { y with cancelling := true, cancels := y.cancels ++ (x.dst [d]).map (n, ·) })

/-! ## Sectors (R240-R242) -/

/-- A piece of a sector: bytes of one row, where they come from and where they go. -/
structure Piece where
  src : Word
  dst : Word
  len : Nat
  deriving DecidableEq, Repr

/-- The pieces of a range of a copy's stream, at most `fuel` of them. -/
def Copy.pieces (x : Copy) : Nat → Nat → Nat → List Piece
  | 0, _, _ => []
  | fuel + 1, at_, n =>
    if n = 0 then []
    else
      let r := at_ / x.bytes
      let col := at_ % x.bytes
      let len := min n (x.bytes - col)
      { src := rowAt x.src x.sstride r + wordOf col, dst := rowAt x.dst x.dstride r + wordOf col, len := len } ::
        x.pieces fuel (at_ + len) (n - len)

/-- The length of the sector at a place of the stream: 48, or the residue. -/
def Copy.sectorAt (x : Copy) (at_ : Nat) : Nat := min 48 (x.total - at_)

/-- The pieces of the sector at a place. -/
def Copy.sector (x : Copy) (at_ : Nat) : List Piece := x.pieces 48 at_ (x.sectorAt at_)

/-- What the check of a sector answers. -/
inductive SectorTry where
  | ok
  | holds (s : State)
  | fails (cause : BitVec 8)
  | miss (va : Nat) (k : AccKind)
  | remote
  deriving DecidableEq, Repr

/-- The first of two answers that is not `ok`. -/
def SectorTry.or (a b : SectorTry) : SectorTry :=
  match a with
  | .ok => b
  | _ => a

/-- An operation accepted before a copy, or at another core before the move `m` in which that core accepted its sector, holds some
bytes of a scratchpad (R197, R236). -/
def State.busyFor (s : State) (tc off n : Nat) (c : Nat) (id : BitVec 32) (m : Option Nat) : Bool :=
  let later (ids : List (BitVec 32)) : Bool := tc == c && ids.contains id
  let meets (spans : List (Nat × Nat)) : Bool := spans.any fun e => rangesMeet off n e.1 e.2
  (s.core tc).vector.any (fun v => !v.done && !later v.copies && comesFirst v.since m && meets v.spans)
    || (s.tile (tc / 4)).arrayOps.any (fun o =>
      !o.done && o.slot / 64 == tc && !later o.copies && comesFirst o.since m && meets o.spans)

/-- Another core has accepted a copy's sector, which waits there (R161, R197). -/
def State.acceptSector (s : State) (c : Nat) (x : Copy) (tc off : Nat) : State :=
  if tc = c || x.leafWait = some (tc, off / 4096) then s
  else s.onCopy c x.id fun y => { y with leafWait := some (tc, off / 4096), leafSince := s.moves }

/-- Check one span of a sector (R27, R240, R295); a write waits for the pre-image of its granule (R386). Bytes at a home wait
for the registrations on their way there that the proxy of the copy's die acknowledged: what happens before the copy by die
reach is then seen (R308, R309, R315). -/
def State.spanTry (s : State) (c : Nat) (x : Copy) (a : Word) (n : Nat) (writes : Bool) : SectorTry :=
  match s.copyPlace c x.job a with
  | .lost => .fails 0x0C
  | .acc _ => .ok
  | .leaving _ => .ok
  | .scratch tc off =>
    let stamp : Option Nat := if tc != c && x.leafWait == some (tc, off / 4096) then some x.leafSince else none
    let leaves := s.asleepLeaves tc [(off, n)]
    if stamp.isNone && !writes && (s.offLeaf tc [(off, n)]).isSome then .fails 0x05
    else if s.busyFor tc off n c x.id stamp || (tc != c && s.earlierOn tc off n stamp none) then .holds (s.acceptSector c x tc off)
    else if leaves != [] then
      .holds ((leaves.foldl (fun (u : State) l => u.wakeScratch tc (4096 * l)) s).acceptSector c x tc off)
    else .ok
  | .global va =>
    let k := if writes then AccKind.write else AccKind.copy
    (wordPieces va (List.replicate n 0)).foldl (fun (r : SectorTry) (e : Nat × List Byte) => r.or (
      if !s.permits c x.job k e.1 then .fails 0x08
      else if writes && s.armed e.1 then .holds s
      else if !s.isOurs e.1 then .remote
      else if s.proxiedAhead (dieOfTile (c / 4)) e.1 none then .holds s
      else match s.homeCheck (s.homeOf x.job e.1) e.1 k none with
        | .fails cause => .fails cause
        | .miss => .miss e.1 k
        | .busy => .holds s
        | _ => .ok)) .ok

/-- Make the sector of a checked word present at its home. -/
def State.bring (s : State) (j tile va : Nat) (k : AccKind) : State :=
  let h := s.homeOf j va
  s.present h j va tile (s.homeCheck h va k none)

/-- The slices can take the words of some spans one after another. -/
def State.bringAll (s : State) (c j : Nat) : List (Word × Nat × AccKind) → Bool
  | [] => true
  | (a, n, k) :: rest => match s.copyPlace c j a with
    | .global va =>
      let r := (wordPieces va (List.replicate n 0)).foldl (fun (u : Bool × State) (e : Nat × List Byte) =>
        let t := u.2.bring j (c / 4) e.1 k
        (u.1 && (!s.isOurs e.1 || (t.sectorAt (t.homeOf j e.1) e.1).isSome), t)) (true, s)
      r.1 && r.2.bringAll c j rest
    | _ => s.bringAll c j rest

/-- Check a sector: every source before its destination, piece by piece; what a remote package answers stands for its
part. The sector waits until the slices can take all its words. -/
def State.sectorTry (s : State) (c : Nat) (x : Copy) (peer : PeerAnswer) : SectorTry :=
  let past (r : SectorTry) : SectorTry :=
    match r, peer with
    | .remote, .none => .holds s
    | .remote, .fails cause => .fails cause
    | .remote, .words _ => .ok
    | q, _ => q
  let ps := x.sector x.delivered
  let checked := ps.foldl (fun (r : SectorTry) (p : Piece) =>
    (r.or (past (s.spanTry c x p.src p.len false))).or
      (if x.net then .ok else past (s.spanTry c x p.dst p.len true))) .ok
  let words := ps.map (fun p => (p.src, p.len, AccKind.copy))
    ++ (if x.net then [] else ps.map fun p => (p.dst, p.len, AccKind.write))
  checked.or (if s.bringAll c x.job words then .ok else .holds s)

/-- Read a span of a checked sector; `far` gives the bytes that another package answers. -/
def State.readSpan (s : State) (c j : Nat) (a : Word) (n : Nat) (far : List Byte) : List Byte × List Byte × State :=
  match s.copyPlace c j a with
  | .scratch tc off => (s.scratch tc off n, far, s.chargeNear c tc n)
  | .acc off =>
    let first := off / 20
    let bytes := (List.range (n / 20 + 2)).flatMap fun e =>
      (storeGet clearedElem s.acc (2 ^ 14 * (c / 4) + first + e)).bytes
    ((bytes.drop (off % 20)).take n, far, s)
  | .global va =>
    if !s.isOurs va then (far.take n, far.drop n, s)
    else
      let r := (wordPieces va (List.replicate n 0)).foldl (fun (u : List Byte × State) (e : Nat × List Byte) =>
        let t := u.2.bring j (c / 4) e.1 .copy
        let h := t.homeOf j e.1
        (u.1 ++ t.homeBytes h e.1 e.2.length, (t.chargeSlice h (c / 4) e.2.length).letGo h e.1)) ([], s)
      (r.1, far, r.2)
  | .leaving tc => (List.replicate n 0, far, s.chargeNear c tc n)
  | .lost => ([], far, s)

/-- Write whole elements from an address of the accumulator buffer on; the bytes left over. -/
def State.writeElems (s : State) (tile off : Nat) (bs : List Byte) : State :=
  (List.range (bs.length / 20)).foldl (fun (u : State) e =>
    { u with acc := storeSet clearedElem u.acc (2 ^ 14 * tile + off / 20 + e) (accElemOf ((bs.drop (20 * e)).take 20)) }) s

/-- Write a span of a sector; an accumulator element is written with its last byte, its earlier bytes held (R241). -/
def State.writeSpan (s : State) (c j : Nat) (a : Word) (held bs : List Byte) : List Byte × State :=
  match s.copyPlace c j a with
  | .scratch tc off => ([], (s.putScratch tc off bs).chargeNear c tc bs.length)
  | .acc off =>
    let all := held ++ bs
    let whole := all.length / 20 * 20
    (all.drop whole, s.writeElems (c / 4) (off - held.length) (all.take whole))
  | .global va =>
    if !s.isOurs va then ([], s)
    else ([], (wordPieces va bs).foldl (fun (u : State) (e : Nat × List Byte) =>
      let t := u.bring j (c / 4) e.1 .write
      let h := t.homeOf j e.1
      (t.merge h e.1 e.2 none).letGo h e.1) s)
  | .leaving tc => ([], s.chargeNear c tc bs.length)
  | .lost => (held, s)

/-- The words that a sector gives to a network send queue: the header before the first, `last` on the last (R406). -/
def Copy.sendWords (x : Copy) (bs : List Byte) : List SendWord :=
  let n := (bs.length + 7) / 8
  let ends := x.delivered + bs.length == x.total
  (if x.delivered = 0 then [({ val := wordOf (2 ^ 16 * x.id.toNat), bytes := 0, header := true, last := false } : SendWord)]
    else [])
  ++ (List.range n).map fun k =>
    { val := wordOf (natOfBytes ((bs.drop (8 * k)).take 8)), bytes := min 8 (bs.length - 8 * k), header := false,
      last := ends && k + 1 == n }

/-- A sector of a `cp.net` is given to its send queue between messages; none where the queue has no room (R242, R406). -/
def State.giveSector (s : State) (c : Nat) (x : Copy) (bs : List Byte) : Option State :=
  let q := x.dst.toNat
  let sq := storeGet noSend (s.core c).sendQueues q
  let ws := x.sendWords bs
  let free := if x.delivered = 0 then sq.left == 0 && sq.copy.isNone else sq.copy == some x.id
  if !free || sendRoom < sq.words.length + ws.length then none
  else
    let new : SendQueue :=
      { sq with words := sq.words ++ ws, copy := if x.delivered + bs.length == x.total then none else some x.id }
    some (s.onCore c fun k => { k with sendQueues := storeSet noSend k.sendQueues q new })

/-- A copy moves its next sector: read whole, then written (R240). -/
def State.moveSector (s : State) (c : Nat) (x : Copy) (far : List Byte) : State :=
  let ps := x.sector x.delivered
  let r := ps.foldl (fun (u : List (Piece × List Byte) × List Byte × State) (p : Piece) =>
    let (bs, rest, t) := u.2.2.readSpan c x.job p.src p.len u.2.1
    (u.1 ++ [(p, bs)], rest, t)) ([], far, s)
  let n := x.sectorAt x.delivered
  if x.net then
    match r.2.2.giveSector c x (r.1.flatMap (·.2)) with
    | some t => t.onCopy c x.id fun y => { y with delivered := y.delivered + n }
    | none => s
  else
    let w := r.1.foldl (fun (u : List Byte × State) (e : Piece × List Byte) => u.2.writeSpan c x.job e.1.dst u.1 e.2)
      (x.held, r.2.2)
    w.2.onCopy c x.id fun y => { y with delivered := y.delivered + n, held := w.1 }

/-- A row of a copy has its destination in the accumulator buffer (R241). -/
def Copy.intoAcc (x : Copy) : Bool := !x.net && (List.range x.rows).any fun r => regionOf (rowAt x.dst x.dstride r) == 0xF3

/-- The copy moves no more sectors: all are delivered, it has ended, or its cancel takes effect here (R240, R241, R243). -/
def Copy.stopped (x : Copy) : Bool :=
  x.status.isSome || x.delivered == x.total || (x.cancelling && (!x.intoAcc || x.delivered % 20 == 0))

/-- The array is at the copy, where it is an array operation (R218). -/
def State.copyTurn (s : State) (c : Nat) (x : Copy) : Bool :=
  !x.array || (match (s.tile (c / 4)).current with
    | some o => o.instr.isNone && o.slot / 64 == c && o.copy == x.id
    | none => false)

/-- A copy that could move its next sector now, another package aside. -/
def State.copyAble (s : State) (c : Nat) (x : Copy) : Bool :=
  !x.posted && !x.stopped && x.fault.isNone && !s.suspended x && s.copyTurn c x
    && (match s.sectorTry c x .none with
      | .ok => (match ((s.moveSector c x []).core c).running x.id with | some y => y.delivered != x.delivered | none => false)
      | _ => false)

/-- The sectors that a copy slot starts in four of its turns, up to four in each (R325). -/
def fourTurns : Nat := 16

/-- The copy slot may give a sector to a copy: each other copy that could take one still gets its own within four turns, or none of
them has waited longer (R329). -/
def State.copyFair (s : State) (c : Nat) (x : Copy) : Bool :=
  let others := (s.core c).copies.filter fun y => y.id != x.id && s.copyAble c y
  others.all (fun y => y.passed ≤ x.passed)
    || (List.range fourTurns).all fun t => (others.filter fun y => fourTurns ≤ y.passed + t + 2).length ≤ t + 1

/-- A copy takes a sector of its copy slot's turns; the others that could have taken it wait the longer (R329). -/
def State.takeTurn (s : State) (c : Nat) (x : Copy) (far : List Byte) : State :=
  let t := s.moveSector c x far
  let moved : Bool := match (t.core c).running x.id with | some y => y.delivered != x.delivered | none => false
  let passes (y : Copy) : Copy :=
    if y.id == x.id && !y.posted then { y with passed := 0, leafWait := none }
    else if s.copyAble c y then { y with passed := y.passed + 1 } else y
  if moved then t.onCore c fun k => { k with copies := k.copies.map passes } else t

/-- COPY_SECTOR: the copy slot moves the next sector of a copy, or meets what ends or delays it (R240, R325, R329). -/
def execCopySector (core : Nat) (id : BitVec 32) (peer : PeerAnswer) (s : State) : Result :=
  match (s.core core).running id with
  | none => .next s
  | some x =>
    let q := x.dst.toNat
    if x.stopped || x.fault.isSome || s.suspended x || !s.copyTurn core x then .next s
    else if x.net && !contextOpen (s.sendContext x.job q) then .next (s.onCopy core id fun y => { y with status := some 0x0E })
    else match s.sectorTry core x peer with
      | .ok =>
        .next (if s.copyFair core x then s.takeTurn core x (match peer with | .words ws => bytesOfWords ws | _ => []) else s)
      | .holds t => .next t
      | .fails cause => .next (s.onCopy core id fun y => { y with status := some cause })
      | .remote => .next s
      | .miss va k =>
        let h := s.homeOf x.job va
        .next (s.askWalker h { va := va, kind := k, job := x.job, tile := h.tile, slice := h.slice, who := .copy core id })

/-- A revoke of some word of a sector's destination is still on its way. -/
def State.revoking (s : State) (x : Copy) (ps : List Piece) : Bool :=
  !x.net && s.net.any fun p => match p with
    | .revoke _ w => ps.any fun e => regionOf e.dst == 0 && rangesMeet (8 * w) 8 e.dst.toNat e.len
    | _ => false

/-- COPY_SECTOR_ACK: the writes of the oldest sector not acknowledged are, and its count is applied to the barrier (R171): a
count waits for a leaf that wakes and for what was accepted before its copy there, and is lost on a leaf that is OFF (R168,
R197). -/
def execCopySectorAck (core : Nat) (id : BitVec 32) (s : State) : Result :=
  match (s.core core).running id with
  | none => .next s
  | some x =>
    let n := x.sectorAt x.acked
    if x.delivered ≤ x.acked || s.revoking x (x.sector x.acked) then .next s
    else
      let s1 := s.onCopy core id fun y => { y with acked := y.acked + n }
      if x.bar = 0 then .next s1
      else match s.copyPlace core x.job x.bar with
        | .scratch tc off =>
          if s.busyFor tc off 16 core id none || (tc != core && s.earlierOn tc off 16 none none) then .next s
          else match s.scratchLeaf tc off with
            | .full => .next (s1.applyCount tc off false (-(n : Int))).2
            | .off => .next s1
            | _ => .next (s.wakeScratch tc off)
        | _ => .next s1

/-- COPY_FAULT_RESUME: the notice of the page fault that a copy waits on lets it continue, or ends it with 0x09 (R240). -/
def execCopyFaultResume (core : Nat) (id : BitVec 32) (s : State) : Result :=
  match (s.core core).running id with
  | none => .next s
  | some x => match x.fault, x.notice with
    | some _, some refused => .next (s.onCopy core id fun y =>
        { y with fault := none, notice := none, status := if refused && y.status.isNone then some 0x09 else y.status })
    | _, _ => .next s

/-- A `cp.net` that ends early closes its message with the bytes it delivered. -/
def State.closeMessage (s : State) (c : Nat) (x : Copy) : State :=
  let q := x.dst.toNat
  let sq := storeGet noSend (s.core c).sendQueues q
  if x.net && sq.copy == some x.id then
    s.onCore c fun k => { k with
      sendQueues := storeSet noSend k.sendQueues q
        { sq with words := sq.words ++ [{ val := 0, bytes := 0, header := false, last := true }], copy := none } }
  else s

/-- The STATUS of a copy's message: the cause that ended it, 0xFF for a cancel, else 0 (R240, R243). -/
def Copy.finalStatus (x : Copy) : BitVec 8 :=
  match x.status with
  | some c => c
  | none => if x.cancelling then 0xFF else 0

/-- COPY_COMPLETE: a copy that has stopped with every delivered sector acknowledged posts its message, lands its cancels and,
with HPC ≠ 0, joins the handler list of its slot, whose entry keeps its place (R46, R240, R243). -/
def execCopyComplete (core : Nat) (id : BitVec 32) (s : State) : Result :=
  match (s.core core).running id with
  | none => .next s
  | some x =>
    if !x.stopped || x.acked != x.delivered then .next s
    else
      let s1 := (s.closeMessage core x).postMessage x.job x.slot 1 x.finalStatus.toNat id.toNat (wordOf x.delivered)
      let s2 := x.cancels.foldl (fun (u : State) e => u.landOn e.1 [e.2] [wordOf x.delivered]) s1
      let s3 := s2.onTile (core / 4) fun t =>
        { t with arrayOps := t.arrayOps.filter fun o => !(o.instr.isNone && o.slot / 64 == core && o.copy == id) }
      if x.hpc = 0 then .next (s3.onCore core fun k => { k with copies := k.copies.erase x })
      else .next ((s3.onCopy core id fun y => { y with posted := true, held := [] }).onSlot x.slot fun y =>
        { y with handlers := y.handlers ++ [({ id := id, hpc := x.hpc, core := core } : HandlerEntry)] })

end Sys2Proof.Machine
end

