-- ==== Sys2Proof/Machine/Registers.lean ====
section
/-! DEFINITION. Control registers: their numbers, reads and writes (R28-R37, R127-R129, R185), the package registers of
R296, R350, R412, R414, R418 and R422, and the tile registers of R370 and R391. -/

namespace Sys2Proof.Machine

/-! ## What each number is (R28, R29) -/

/-- How a number may be accessed. -/
inductive CsrKind where
  | unassigned | readOnly | readWrite | writeOnly
  deriving DecidableEq, Repr

/-- The user registers (R29). -/
def userCsr (n : Nat) : CsrKind :=
  if n = 1 || n = 2 || n = 3 || n = 0x12 || (0x30 ≤ n && n ≤ 0x32) || n = 0x40 || n = 0x41 || n = 0x70
      || (0x80 ≤ n && n ≤ 0x9F) then .readOnly
  else if (4 ≤ n && n ≤ 6) || n = 0x10 || n = 0x11 || n = 0x13 || n = 0x14 || (0x20 ≤ n && n ≤ 0x25)
      || (0x50 ≤ n && n ≤ 0x5F) || n = 0x60 || n = 0x61 then .readWrite
  else .unassigned

/-- The supervisor registers (R185, R296, R350, R370, R391, R412, R422). -/
def supervisorCsr (n : Nat) : CsrKind :=
  if n = 0x412 || (0x431 ≤ n && n ≤ 0x433) || n = 0x441 || (0x450 ≤ n && n ≤ 0x46F) then .readOnly
  else if n = 0x421 then .writeOnly
  else if (0x410 ≤ n && n ≤ 0x413) || n = 0x420 || n = 0x422 || n = 0x430 || n = 0x440 || n = 0x442 then .readWrite
  else .unassigned

/-- What a control register number is. -/
def csrKind (n : Nat) : CsrKind := if n < 0x400 then userCsr n else supervisorCsr n

/-! ## Package and tile registers -/

/-- bootstat (R414). -/
def State.bootstat (s : State) : Word :=
  wordOf (s.trained.toNat * 2 ^ 24 + s.fail.toNat * 2 ^ 8
    + (match s.stage with | .rom => 0 | .reduced => 1 | .full => 2 | .failed => 3))

/-- The colour of a tile (R351). -/
def colourOf (t : Nat) : Nat := tileX t % 3 + 3 * (tileY t % 3)

/-- Tiles of the 3 × 3 neighbourhood of a tile (R351). -/
def ringOf (t : Nat) : List Nat :=
  (List.range tileCount).filter fun u =>
    tileX u ≤ tileX t + 1 && tileX t ≤ tileX u + 1 && tileY u ≤ tileY t + 1 && tileY t ≤ tileY u + 1

/-- A tile is locked: a cession or release of a tile of its neighbourhood is under way (R351). -/
def State.locked (s : State) (t : Nat) : Bool := (ringOf t).any fun u => (s.tile u).cession.isSome

/-- Periods begun since the owner of a tile changed (R370). -/
def State.ageOf (s : State) (t : Nat) : Nat := s.period - (s.tile t).changed

/-- ZRUN: whole periods in a row, up to the current one, with every sample of P at 0 (R370). -/
def State.zrunOf (s : State) (t : Nat) : Nat :=
  let x := s.tile t
  let since := s.period - x.sampled
  if since = 0 then x.zrun else if x.zeroSoFar then x.zrun + since else since - 1

/-- dstat (R370). -/
def State.dstat (s : State) (t : Nat) : Word :=
  let x := s.tile t
  wordOf ((match x.owner with | some j => j % 65536 * 2 ^ 48 | none => 2 ^ 47) + (if s.locked t then 2 ^ 46 else 0)
    + min 15 (s.zrunOf t) * 2 ^ 40 + min 255 (s.ageOf t) * 2 ^ 32 + (x.bias.signExtend 16).toNat * 2 ^ 16 + x.pressure.toNat)

/-- drefuse (R370). -/
def State.drefuse (s : State) (t : Nat) : Word :=
  let r := (s.tile t).refusals
  wordOf (r.abort.toNat * 2 ^ 50 + r.pinned.toNat * 2 ^ 40 + r.held.toNat * 2 ^ 30 + r.recent.toNat * 2 ^ 20
    + r.conn.toNat * 2 ^ 10 + r.floor.toNat)

/-- errstat (R391). -/
def State.errstat (s : State) (t : Nat) : Word :=
  let e := (s.tile t).errors
  wordOf ((if e.retired then 2 ^ 48 else 0) + e.escal.toNat * 2 ^ 32 + e.mismatch.toNat * 2 ^ 16 + e.uncorr.toNat * 2 ^ 8
    + e.corr.toNat)

/-! ## Reads (R29-R37, R129) -/

/-- where (R30). -/
def State.whereOf (s : State) (n : Nat) : Word :=
  let t := tileOfSlot n
  wordOf (s.pkgid.toNat * 2 ^ 32 + dieOfTile t * 2 ^ 24 + coreOfSlot n % 4 * 2 ^ 16 + tileY t * 2 ^ 8 + tileX t)

/-- job (R31). -/
def State.jobWord (s : State) (n : Nat) : Word :=
  let x := s.slot n
  wordOf ((match s.job x.job with | some y => y.tenant % 64 * 2 ^ 16 | none => 0) + x.job % 65536)

/-- ucause (R34). -/
def Slot.ucause (x : Slot) : Word :=
  wordOf (x.pendWord.toNat * 2 ^ 16 + (if x.active then 2 ^ 15 else 0) + x.code.toNat)

/-- Keep bits [hi : lo] of a word. -/
def keepBits (w : Word) (lo len : Nat) : Word := wordOf (fieldOf w lo len * 2 ^ lo)

/-- The value that a slot reads from a control register; uepc and sepc show no misaligned bits (R29, R185). A read of the
write-only tcinv gives a free value (log 21). -/
def State.readCsr (s : State) (n num : Nat) : Word :=
  let x := s.slot n
  let c := coreOfSlot n
  let t := tileOfSlot n
  if num = 0x001 then wordOf (tidOf n)
  else if num = 0x002 then s.whereOf n
  else if num = 0x003 then s.jobWord n
  else if num = 0x004 then x.fsr.setWidth 64
  else if num = 0x005 then x.frm.setWidth 64
  else if num = 0x006 then (if x.xmode then 1 else 0)
  else if num = 0x010 then x.ubase
  else if num = 0x011 then keepBits x.uepc 2 62
  else if num = 0x012 then x.ucause
  else if num = 0x013 then x.uval
  else if num = 0x014 then x.umask.setWidth 64
  else if num = 0x020 then x.fmt0.setWidth 64
  else if num = 0x021 then x.fmt1.setWidth 64
  else if num = 0x022 then x.scl0
  else if num = 0x023 then x.scl1
  else if num = 0x024 then x.vmask
  else if num = 0x025 then x.stb
  else if num = 0x030 then wordOf (s.bounds x.job).1
  else if num = 0x031 then wordOf (s.bounds x.job).2.1
  else if num = 0x032 then wordOf (s.bounds x.job).2.2
  else if num = 0x040 then wordOf s.cyc
  else if num = 0x041 then x.ist
  else if 0x050 ≤ num && num ≤ 0x05F then storeGet noVal (s.core c).k (num - 0x050)
  else if num = 0x060 then x.hbump
  else if num = 0x061 then x.hlim
  else if num = 0x070 then s.pstat c
  else if 0x080 ≤ num && num ≤ 0x085 then storeGet noVal (s.tile t).traffic (num - 0x080)
  else if num = 0x410 then x.sbase
  else if num = 0x411 then keepBits x.sepc 2 62
  else if num = 0x412 then wordOf ((if x.sactive then 2 ^ 15 else 0) + x.scode.toNat)
  else if num = 0x413 then x.sval
  else if num = 0x420 then s.ptroot
  else if num = 0x421 then Config.tcinvReads s.moves
  else if num = 0x422 then s.ddir
  else if num = 0x430 then s.deckle
  else if num = 0x431 then s.dstat t
  else if num = 0x432 then s.drefuse t
  else if num = 0x433 then s.errstat t
  else if num = 0x440 then s.pwrlim
  else if num = 0x441 then s.bootstat
  else if num = 0x442 then s.pkgid.setWidth 64
  else if 0x450 ≤ num && num ≤ 0x46F then storeGet noVal s.meas (num - 0x450)
  else 0

/-! ## Writes of package registers -/

/-- A deckle value has every field in its range (R350). -/
def deckleOk (w : Word) : Bool :=
  1 ≤ fieldOf w 32 16 && fieldOf w 32 16 ≤ 1000 && 1 ≤ fieldOf w 16 16 && 16 ≤ fieldOf w 0 11 && fieldOf w 0 11 ≤ 1024

/-- Write deckle: in force from the next period (R350). -/
def State.writeDeckle (s : State) (w : Word) : State :=
  { s with deckleNext := keepBits w 63 1 ||| keepBits w 16 32 ||| keepBits w 0 11 }

/-- A pwrlim value has both fields in their ranges (R412). -/
def pwrlimOk (w : Word) : Bool :=
  125 ≤ fieldOf w 16 12 && fieldOf w 16 12 ≤ 750 && 500 ≤ fieldOf w 0 12 && fieldOf w 0 12 ≤ 3000

/-- Write pwrlim (R412). -/
def State.writePwrlim (s : State) (w : Word) : State := { s with pwrlim := keepBits w 16 12 ||| keepBits w 0 12 }

/-- pkgid may be written: no job exists and no launch is held (R422). -/
def State.pkgidFree (s : State) : Bool := s.jobs == [] && s.heldLaunches == []

/-- Write pkgid (R422). -/
def State.writePkgid (s : State) (w : Word) : State := { s with pkgid := w.setWidth 6 }

/-- The range of a tcinv value: its first va and its length (R296). -/
def tcinvRange (w : Word) : Nat × Nat :=
  let start := fieldOf w 16 40 * 2 ^ 16
  let size := fieldOf w 0 2
  if size = 3 then (0, 2 ^ 56) else (start - start % pageSize size, pageSize size)

/-- An access of a range that is checked and not yet performed: tcinv waits for it, since it completes under the old translation
(R296; log 24). -/
def State.tcinvWaits (s : State) (w : Word) : Bool :=
  let (lo, len) := tcinvRange w
  s.net.any fun p => match p with
    | .store r => r.retire.isNone && s.isOurs r.va && rangesMeet r.va r.bytes.length lo len
    | .forwarded r _ => rangesMeet r.va r.size lo len
    | .load r => r.frame.isSome && s.isOurs r.va && rangesMeet r.va r.size lo len
    | .atomic r => r.frame.isSome && s.isOurs r.addr && rangesMeet r.addr (atomicSize r.op) lo len
    | _ => false

/-- Write tcinv: every slice drops the translations of the range and writes back and frees its lines, their owners
revoked (R296). The acknowledgements are in the step (log 22). -/
def State.writeTcinv (s : State) (w : Word) : State :=
  let (lo, len) := tcinvRange w
  let meets (key : Nat) : Bool := rangesMeet (lineStart (key % 2 ^ 56)) (lineLen (key % 2 ^ 56)) lo len
  let keys := (s.l2.filter fun e => meets e.1).map (·.1)
  let s1 := keys.foldl State.evict s
  let s2 := { s1 with
    proxyCopies := s1.proxyCopies.filter fun e => !meets e.1 }
  (s2.tiles.map (·.1)).foldl (fun (u : State) t =>
    if (u.tile t).translations.any fun x => rangesMeet x.page x.size lo len then
      u.onTile t fun x => { x with translations := x.translations.filter fun y => !rangesMeet y.page y.size lo len }
    else u) s2

/-! ## Writes (R127, R128) -/

/-- A write whose value is out of range or whose time is wrong raises 0x01 (R350, R412, R422). -/
def State.csrRefuses (s : State) (num : Nat) (w : Word) : Bool :=
  (num == 0x430 && !deckleOk w) || (num == 0x440 && !pwrlimOk w) || (num == 0x442 && !s.pkgidFree)

/-- Write a control register; read-only fields keep their value and ignored bits read 0. -/
def State.writeCsr (s : State) (n num : Nat) (w : Word) : State :=
  if num = 0x004 then s.onSlot n fun x => { x with fsr := w.setWidth 6 }
  else if num = 0x005 then s.onSlot n fun x => { x with frm := w.setWidth 2 }
  else if num = 0x006 then s.onSlot n fun x => { x with xmode := bitOf w 0 }
  else if num = 0x010 then s.onSlot n fun x => { x with ubase := keepBits w 12 52 }
  else if num = 0x011 then s.onSlot n fun x => { x with uepc := keepBits w 2 62 }
  else if num = 0x013 then s.onSlot n fun x => { x with uval := w }
  else if num = 0x014 then s.onSlot n fun x => { x with umask := w.setWidth 9 &&& 0x13F#9 }
  else if num = 0x020 then s.onSlot n fun x => { x with fmt0 := w.setWidth 4 }
  else if num = 0x021 then s.onSlot n fun x => { x with fmt1 := w.setWidth 4 }
  else if num = 0x022 then s.onSlot n fun x => { x with scl0 := keepBits w 2 62 }
  else if num = 0x023 then s.onSlot n fun x => { x with scl1 := keepBits w 2 62 }
  else if num = 0x024 then s.onSlot n fun x => { x with vmask := w }
  else if num = 0x025 then s.onSlot n fun x => { x with stb := keepBits w 3 61 }
  else if 0x050 ≤ num && num ≤ 0x05F then
    s.onCore (coreOfSlot n) fun k =>
      { k with kWrites := k.kWrites ++ [({ cycle := k.clock, ring := n % 4, reg := num - 0x050, val := w } : KWrite)] }
  else if num = 0x060 then s.onSlot n fun x => { x with hbump := keepBits w 4 60 }
  else if num = 0x061 then s.onSlot n fun x => { x with hlim := keepBits w 4 60 }
  else if num = 0x410 then s.onSlot n fun x => { x with sbase := keepBits w 12 52 }
  else if num = 0x411 then s.onSlot n fun x => { x with sepc := keepBits w 2 62 }
  else if num = 0x413 then s.onSlot n fun x => { x with sval := w }
  else if num = 0x420 then { s with ptroot := keepBits w 13 39 }
  else if num = 0x421 then s.writeTcinv w
  else if num = 0x422 then { s with ddir := keepBits w 20 32 }
  else if num = 0x430 then s.writeDeckle w
  else if num = 0x440 then s.writePwrlim w
  else if num = 0x442 then s.writePkgid w
  else s

/-! ## The instructions (R126, R127) -/

/-- Access to a control register by the slot in focus (R28, R127): `write` tells whether this form writes, and `f` the
new value from the old one and the operand. -/
def State.csrAccess (s : State) (i : Instr) (u : Named) (d : Reg) (csr : BitVec 11) (write : Bool) (f : Word → Word → Word) :
    State :=
  let n := s.focus
  let num := csr.toNat
  let kind := csrKind num
  if isUserSlot n && 0x400 ≤ num then s.raise n 0x08 i.word
  else if kind == .unassigned || (kind == .readOnly && write) then s.raise n 0x01 i.word
  else match s.operands n u i.word with
    | .stop t => t
    | .go vals s1 =>
      let old := s.readCsr n num
      let new := f old (vals.getD 0 0)
      if write && s.csrRefuses num new then s.raise n 0x01 i.word
      else if write && num == 0x421 && s.tcinvWaits new then s.waits n
      else s.deliver (if write then s1.writeCsr n num new else if num = 0x040 then s1.logInput n [old] else s1) n u [(d,
          old)] noFlags ((s.slot n).pc + 4) i.word

/-- `csrr` (R127). -/
def execCsrr (d : Reg) (csr : BitVec 11) (s : State) : Result :=
  .next (s.csrAccess (.csrr d csr) (writeD d) d csr false fun old _ => old)
/-- `csrw` (R127). -/
def execCsrw (d a : Reg) (csr : BitVec 11) (s : State) : Result :=
  .next (s.csrAccess (.csrw d a csr) (readA d a false) d csr true fun _ a => a)
/-- `csrs`: with a = g0 it reads (R127). -/
def execCsrs (d a : Reg) (csr : BitVec 11) (s : State) : Result :=
  .next (s.csrAccess (.csrs d a csr) (readA d a false) d csr (a != 0) fun old a => old ||| a)
/-- `csrc`: with a = g0 it reads (R127). -/
def execCsrc (d a : Reg) (csr : BitVec 11) (s : State) : Result :=
  .next (s.csrAccess (.csrc d a csr) (readA d a false) d csr (a != 0) fun old a => old &&& ~~~a)

/-! ## The management window (R410) -/

/-- A supervisor register of package scope (R296, R350, R412, R414, R418, R422). -/
def packageScope (num : Nat) : Bool :=
  [0x420, 0x421, 0x422, 0x430, 0x440, 0x441, 0x442].contains num || (0x450 ≤ num && num ≤ 0x46F)

/-- A supervisor register of tile scope (R370, R391). -/
def tileScope (num : Nat) : Bool := [0x431, 0x432, 0x433].contains num

/-- The offset in BAR2 at which a register of package scope stands, and one of a tile (R410). -/
def windowOffset (tile num : Nat) : Nat := if tileScope num then 0x40_0000 + tile * 0x4000 + num * 8 else num * 8

/-- What the host reads at an offset of BAR2: a register of package scope, or one of a tile, as it stands in one router cycle; an
offset that no register has reads 0 (R410). -/
def State.readWindow (s : State) (off : Nat) : Word :=
  if off < 0x40_0000 then (if off % 8 = 0 && packageScope (off / 8) then s.readCsr 63 (off / 8) else 0)
  else
    let t := (off - 0x40_0000) / 0x4000
    let at_ := (off - 0x40_0000) % 0x4000
    if t < tileCount && at_ % 8 = 0 && tileScope (at_ / 8) then s.readCsr (256 * t) (at_ / 8) else 0

/-- DECKLE: a value out of range is ignored and posts event 2 with STATUS 2 (R350, R410). -/
def execDeckle (value : Word) (s : State) : Result :=
  .next (if deckleOk value then s.writeDeckle value else s.refuseRequest physicalFunction 0 2 (8 * 0x430))
/-- PWRLIM: a value out of range is ignored; R412 has the host's other writes take effect (DEDUCED; assumption 67). -/
def execPwrlim (value : Word) (s : State) : Result :=
  .next (if pwrlimOk value then s.writePwrlim value else s)
/-- TCINV: it completes once no checked access of its range is on its way (R296). -/
def execTcinv (value : Word) (s : State) : Result := .next (if s.tcinvWaits value then s else s.writeTcinv value)
/-- PKGID: while a job exists or a launch is held it is ignored and posts event 2 with STATUS 6 (R422). -/
def execPkgid (value : Word) (s : State) : Result :=
  .next (if s.pkgidFree then s.writePkgid value else s.refuseRequest physicalFunction 0 6 (8 * 0x442))

end Sys2Proof.Machine
end

