-- ==== Sys2Proof/Machine/Tasks.lean ====
section
/-! DEFINITION. Threads: their start and end (R14-R16, R249, R256), the Vat (R246-R248, R326, R327), contexts and their
moves (R257-R261, R331), dependence counters (R251, R252), deques (R253, R254), `join` (R255), the live mask (R100) and
the placing of messages (R176, R260, R366). -/

namespace Sys2Proof.Machine

/-! ## Starting a thread (R14, R16, R29, R180, R249) -/

/-- The FREE user slots of a core that may take a thread: none that is OUT (R13, R326), and none of
a lockstep pair's odd core, which mirrors the even one (R389). -/
def State.freeSlotsOf (s : State) (c : Nat) : List Nat :=
  (slotsOfCore c).filter fun n => isUserSlot n && (s.slot n).state == .free && !s.isOut n
    && s.pairCore ((s.coreJob c).getD 0) c == c

/-- The lowest base at which a window of a size is free in a core (R14). -/
def State.freeWindow (s : State) (c size : Nat) : Option Nat :=
  let limit := (s.bounds ((s.coreJob c).getD 0)).1 / 8
  let used := (slotsOfCore c).filter fun n => isUserSlot n && (s.slot n).state != .free
  ((List.range (limit / 8)).map (8 * ·)).find? fun b =>
    decide (b + size ≤ limit) && !used.any fun n => rangesMeet b size (s.slot n).winBase (s.slot n).winSize

/-- A core has a FREE user slot and a free window of a size. -/
def State.canTake (s : State) (c size : Nat) : Bool := s.freeSlotsOf c != [] && (s.freeWindow c size).isSome

/-- Start a thread on the lowest FREE slot and window of a core: its registers at their thread-creation values but for what
`fill` writes; PEND of 0x15 while messages wait for the slot; the slot's forwarding entry ends (R16, R29, R180, R260). The
messages of the slot that are not yet placed stay counted (R179). -/
def State.startThread (s : State) (c j size : Nat) (fill : Slot → Slot) : Option (Nat × State) :=
  match s.freeSlotsOf c, s.freeWindow c size with
  | n :: _, some base =>
    let x := fill { Slot.free with state := .run, job := j, winBase := base, winSize := size, sends := (s.slot n).sends }
    let y := if s.messagesFor n = [] then x else x.pending 5 0
    some (n, (s.setSlot n y).onCore c fun k => { k with forwards := k.forwards.filter fun f => f.slot != n })
  | _, _ => none

/-! ## Ending a thread (R256) -/

/-- What a departed thread leaves in the meshes: loads that owe nothing and their replies are discarded, atomics are still
performed, messages land nothing (R260). -/
def Packet.leftBy (n : Nat) (p : Packet) : Option Packet :=
  if p.slot != some n then some p
  else match p with
    | .load _ => none
    | .forwarded _ _ => none
    | .reply _ => none
    | .near q => match q.kind with
      | .load _ _ => none
      | .store _ => some p
    | .atomic q => some (.atomic { q with departed := true })
    | .atomicReply _ _ _ _ _ => none
    | .message q => some (.message { q with lands := [] })
    | .record t sl r => some (.record t sl { r with source := none })
    | _ => some p

/-- End the thread of a slot: its bindings, stage entry and handler list go, and the slot is FREE. Its copies run on, on whichever
core a cession has left them, and raise no upcall (R46, R256). DESIGN CHOICE: the same holds of a copy that still runs when its
thread departs by `migrate` or `yield`: R46 and R240 speak of the issuing slot and its thread, and of no thread that runs elsewhere
(assumption 68). -/
def State.endThread (s : State) (n : Nat) : State :=
  let s1 := (s.slot n).bindings.foldl (fun (u : State) (b : Binding) => u.unbindReg n b.reg) s
  let strip (q : Copy) : Copy :=
    if q.slot == n then { q with hpc := 0, cancels := q.cancels.filter fun e => e.1 != n } else q
  let copying := (s.cores.filter fun e => e.2.copies.any fun q => q.slot == n).map (·.1)
  let places := (coreOfSlot n :: copying).eraseDups
  let s2 := places.foldl (fun (u : State) c => u.onCore c fun k =>
    { k with stages := k.stages.filter fun e => e.slot != n
             copies := (k.copies.filter fun q => !(q.posted && q.slot == n)).map strip }) s1
  { s2 with net := s2.net.filterMap (Packet.leftBy n) }.setSlot n { Slot.free with sends := (s.slot n).sends }

/-- Some vector operation of the slot is accepted and has not landed (R201). -/
def State.vectorPending (s : State) (n : Nat) : Bool := (s.core (coreOfSlot n)).vector.any fun v => v.slot == n

/-- `exit` (R256). -/
def execExit (s : State) : Result :=
  let n := s.focus
  let s1 := if (s.slot n).lease = .queued then s.releaseLease n else s
  .next (
    if !isUserSlot n then s.onSlot n fun x => { x with state := .halted }
    else if (s1.slot n).anyOwed [] || s1.vectorPending n || (s1.tile (tileOfSlot n)).arrayOps.any (fun o => o.slot == n)
        || !s1.released n true then s1.waits n
    else
      let x := s1.slot n
      ((s1.releaseLease n).endThread n).onJob x.job fun j => { j with retired := j.retired + x.ist.toNat + 1 })

/-! ## Reading on behalf of the hardware (R100) -/

/-- Bytes of a global range as they stand at their homes, where a job may read them; no state changes. What another package
answers is not this one's to say. -/
def State.peek (s : State) (j c va n : Nat) : Option (List Byte) :=
  (wordPieces va (List.replicate n 0)).foldl (fun (acc : Option (List Byte)) (e : Nat × List Byte) =>
    match acc with
    | none => none
    | some bs =>
      if !s.permits c j .read e.1 then none
      else if !s.isOurs e.1 then (Config.peerRead s.moves e.1 e.2.length).map fun v => bs ++ bytesOfNat e.2.length v
      else
        let h := s.homeOf j e.1
        match s.sectorAt h e.1 with
        | some _ => some (bs ++ s.homeBytes h e.1 e.2.length)
        | none => match s.walk h.slice e.1 with
          | .leaf _ t =>
            let pa := t.frame + (e.1 - t.page)
            if !t.r || s.lacksFrame t.host pa then none else some (bs ++ s.frameRead t.host pa e.2.length)
          | _ => none) (some [])

/-- Bytes that a side table read gives, aligned as an access of its words is: a fault gives none, and a leaf that is not FULL
is read once it has woken (R27, R100). -/
def State.sideBytes (s : State) (n : Nat) (a : Word) (len align : Nat) : Option (List Byte) :=
  let c := coreOfSlot n
  match s.target n a len align with
  | .global va => s.peek (s.slot n).job c va len
  | .scratch tc off =>
    if tc != c && s.lostTile (s.slot n).job tc then some (List.replicate len 0)
    else if s.scratchLeaf tc off == .off || s.scratchLeaf tc (off + len - 1) == .off then none
    else some (s.scratch tc off len)
  | .fails _ _ => none

/-- Bytes that a side table read gives at a number of bytes from an address: an address past 2^64 faults, for addresses do not wrap
(R39, R100). -/
def State.sideAt (s : State) (n : Nat) (a : Word) (at_ len align : Nat) : Option (List Byte) :=
  if 2 ^ 64 ≤ a.toNat + at_ then none else s.sideBytes n (a + wordOf at_) len align

/-- A binary search of an ascending table of 32-bit numbers, halving a range at most `fuel` times. -/
def State.searchTable (s : State) (n : Nat) (offs : Word) (key : Nat) : Nat → Nat → Nat → Option Nat
  | 0, _, _ => none
  | fuel + 1, lo, hi =>
    if hi ≤ lo then none
    else
      let mid := (lo + hi) / 2
      match s.sideAt n offs (4 * mid) 4 4 with
      | none => none
      | some bs =>
        let v := natOfBytes bs
        if v = key then some mid
        else if v < key then s.searchTable n offs key fuel (mid + 1) hi
        else s.searchTable n offs key fuel lo mid

/-- Every register is live. -/
def allLive : Nat := 2 ^ 128 - 1

/-- The live mask of a slot at its pc (R99, R100): all ones on a miss or on any fault of a read. -/
def State.liveMask (s : State) (n : Nat) : Nat :=
  let x := s.slot n
  if x.stb = 0 then allLive
  else match s.sideBytes n x.stb 32 8 with
    | none => allLive
    | some h =>
      let base := natOfBytes (h.take 8)
      let count := natOfBytes ((h.drop 8).take 4)
      let offs := wordOf (natOfBytes ((h.drop 16).take 8))
      let masks := wordOf (natOfBytes ((h.drop 24).take 8))
      let key := (x.pc.toNat - base) / 4
      if x.pc.toNat < base || 2 ^ 32 ≤ key then allLive
      else match s.searchTable n offs key 33 0 count with
        | none => allLive
        | some j => match s.sideAt n masks (16 * j) 16 16 with
          | none => allLive
          | some m => natOfBytes m

/-! ## Contexts (R258) -/

/-- The 32 words of the context of a slot that resumes at a pc (R258). DESIGN CHOICE: the live mask is the one of the pc of the
migrating instruction itself (R100; assumption 47). -/
def State.contextWords (s : State) (n : Nat) (pc : Word) : List Word :=
  let x := s.slot n
  let live := s.liveMask n
  let goes (i : Nat) : Bool := live.testBit i && (x.cell (.win i)).pres == .full
  let flags := ((List.range 8).filter fun i => i != 0 && goes i).foldl (fun a i => a + 2 ^ (55 + i)) 0
  let g := (List.range 8).tail.map fun i => if goes i then (x.cell (.win i)).val else 0
  [wordOf (flags + fieldOf pc 2 54 * 4)] ++ g ++ (List.range 8).map (fun i => (x.cell (.href i)).val)
    ++ [wordOf (x.umask.toNat * 2 ^ 48 + x.fsr.toNat * 2 ^ 32 + (if x.xmode then 2 ^ 24 else 0) + x.frm.toNat * 2 ^ 16
        + x.fmt1.toNat * 2 ^ 8 + x.fmt0.toNat),
      x.scl0, x.scl1, x.ubase, x.uepc, x.uval, x.stb, x.hbump, x.hlim, x.ist + 1, x.vmask,
      ((x.pend &&& ~~~(0x020#9)).setWidth 64), 0, 0, 0, 0]

/-- A thread as its context gives it (R258); it has fetched nothing yet (R72). -/
def fillContext (c : Context) (x : Slot) : Slot :=
  let w (i : Nat) : Word := c.words.getD i 0
  let y := (List.range 8).tail.foldl (fun (z : Slot) i =>
    if bitOf (w 0) (55 + i) then z.setCell (.win i) { val := w i, pres := .full, owed := false } else z) x
  let h := (List.range 8).foldl (fun (z : Slot) i => z.setCell (.href i) { val := w (8 + i), pres := .full, owed := false }) y
  { h with
    pc := wordOf (4 * fieldOf (w 0) 2 54), firstFetch := true, umask := BitVec.ofNat 9 (fieldOf (w 16) 48 9)
    fsr := BitVec.ofNat 6 (fieldOf (w 16) 32 6), xmode := bitOf (w 16) 24, frm := BitVec.ofNat 2 (fieldOf (w 16) 16 2)
    fmt1 := BitVec.ofNat 4 (fieldOf (w 16) 8 4), fmt0 := BitVec.ofNat 4 (fieldOf (w 16) 0 4), scl0 := w 17, scl1 := w 18
    ubase := w 19, uepc := w 20, uval := w 21, stb := w 22, hbump := w 23, hlim := w 24, ist := w 25, vmask := w 26
    pend := BitVec.ofNat 9 (fieldOf (w 27) 0 9) &&& ~~~(0x020#9), pendVal := c.pendVal, warnings := c.warnings }

/-- The core that an address names as the target of `migrate` or `spawnm` (R257, R245). -/
def State.moveTarget (s : State) (n : Nat) (a : Word) : Except (Nat × Word) Nat :=
  let j := (s.slot n).job
  match regionOf a with
  | 0x00 => if (s.job j).isSome && isUserSlot n then .ok (s.pairCore j (4 *
      (s.homeOf j a.toNat).tile + fieldOf a 8 2)) else .error (0x0C, a)
  | 0xF2 => .error (0x0B, a)
  | 0xF3 => .error (0x07, a)
  | _ => match s.target n a 1 1 with
    | .scratch c _ => .ok c
    | .fails cause v => .error (cause, v)
    | .global _ => .error (0x07, a)

/-- The thread may move: no check of `migrate` fails (R257). -/
def State.movable (s : State) (n : Nat) : Bool :=
  let x := s.slot n
  isUserSlot n && x.winSize == 8 && !x.active && x.bindings == [] && x.handlers == [] && (s.stageOf n).isNone && x.lease == .none

/-- The thread must wait before it leaves (R257). -/
def State.mustStay (s : State) (n : Nat) : Bool :=
  (s.slot n).anyOwed [] || s.vectorPending n || (s.slot n).opc != 0

/-- The thread has seen by die reach what is not visible on the die that it would move to (R310, R317; assumption 62). -/
def State.seesAhead (s : State) (n target : Nat) : Bool :=
  dieOfTile (target / 4) != dieOfTile (tileOfSlot n) && s.dieProxied n

/-- Forwarding entries of a core: a seventeenth departure replaces the oldest (R260). Those of threads that a cession moves stand
beside the sixteen, for every message of theirs is sent on (R366). -/
def addForward (fs : List Forwarding) (f : Forwarding) : List Forwarding :=
  let rest := fs.filter fun g => g.slot != f.slot
  let own := rest.filter (!·.moved)
  if f.moved then rest ++ [f] else rest.filter (·.moved) ++ own.drop (own.length - 15) ++ [f]

/-- The thread of a slot leaves for a core (R257, R258, R260). -/
def State.depart (s : State) (n target : Nat) : State :=
  let x := s.slot n
  let ctx : Context :=
    { words := s.contextWords n (x.pc + 4), pendVal := storeSet noVal x.pendVal 5 0, job := x.job, origin := some n,
      left := s.moves, creator := none, warnings := x.warnings, poster := .slot n }
  let f : Forwarding := { slot := n, core := target, placed := none, left := s.moves }
  ((s.endThread n).onCore (coreOfSlot n) fun k => { k with forwards := addForward k.forwards f }).post
    (.context target ctx none [])

/-- `migrate` (R257). DESIGN CHOICE: its checks run in the order in which R257 names them, save that 0x01 comes before the
faults of the target (assumption 49). -/
def execMigrate (a : Reg) (la : Bool) (s : State) : Result :=
  let i := Instr.migrate a la
  .next (s.longForm i (onlyA a la) [] fun x v misuse =>
    let n := s.focus
    if x.winSize != 8 || x.active then s.raise n 0x01 i.word
    else match s.moveTarget n (v.getD 0 0) with
      | .error (cause, w) => s.raise n cause w
      | .ok c =>
        if misuse || x.bindings != [] || x.handlers != [] || (s.stageOf n).isSome then s.raise n 0x0E i.word
        else if x.lease != .none then s.raise n 0x17 i.word
        else if s.mustStay n || s.seesAhead n c then s.waits n
        else (s.onSlot n fun y => (x.lastUses [(a, la)]).foldl (fun (z : Slot) l => z.setPres l .dead) y).depart n c)

/-- A dispatcher offers a core a record: a segment of its tile is not empty (R248). -/
def State.recordOffered (s : State) (c : Nat) : Bool := (s.tile (c / 4)).seg0 != [] || (s.tile (c / 4)).seg1 != []

/-- `yield` (R257). -/
def execYield (s : State) : Result :=
  let n := s.focus
  let c := coreOfSlot n
  let asked := (s.core c).arrivals != [] || (s.recordOffered c && s.freeSlotsOf c == [])
  .next (if asked && s.movable n && !s.mustStay n then s.depart n c
    else s.onSlot n fun x => x.retire (x.next [] [] 0))

/-- Contexts that a core may have created and that have not started (R261). -/
def createdRoom : Nat := 256

/-- The offset of a local context block, or the fault (R261, R245). -/
def State.blockOffset (s : State) (n : Nat) (b : Word) : Except Nat Nat :=
  if regionOf b = 0xF2 then .error 0x0B
  else if regionOf b != 0xF0 then .error 0x07
  else s.ownOffset n b 64 64

/-- `spawnm` (R261). -/
def execSpawnm (d a b : Reg) (la lb : Bool) (s : State) : Result :=
  let i := Instr.spawnm d a b la lb
  .next (s.longForm i (readAB d a b la lb) [] fun x v misuse =>
    let n := s.focus
    let c := coreOfSlot n
    let block := v.getD 1 0
    match s.moveTarget n (v.getD 0 0), s.blockOffset n block with
    | .error (cause, w), _ => s.raise n cause w
    | .ok _, .error cause => s.raise n cause block
    | .ok target, .ok off => match s.slotCheck n c off 64 true with
      | .off => s.raise n 0x05 block
      | .wait => s.waitsLeaf n c off
      | .ready =>
        if misuse then s.raise n 0x0E i.word
        else if x.lease != .none then s.raise n 0x17 i.word
        else if !s.released n true || createdRoom ≤ (s.core c).created then s.waits n
        else
          let ws := (List.range 8).map fun k => s.scratchWord c (off + 8 * k)
          let w16 := wordOf (x.frm.toNat * 2 ^ 16 + x.fmt1.toNat * 2 ^ 8 + x.fmt0.toNat)
          let ctx : Context :=
            { words := ws ++ List.replicate 8 0 ++ [w16, x.scl0, x.scl1, 0, 0, 0, x.stb] ++ List.replicate 9 0,
              pendVal := [], job := x.job, origin := none, left := s.moves, creator := some c, warnings := [], poster := .slot n }
          ((s.onSlot n fun y => y.retire (x.next (x.lastUses [(a, la), (b, lb)]) (x.dst [d]) 0)).onCore c fun k =>
            { k with created := k.created + 1 }).post (.context target ctx (some n) (x.dst [d])))

/-! ## Arrival (R259, R331, R360) -/

/-- The tile that takes what arrives for a tile whose job is about to lose it (R360 step 1). -/
def State.heirOf (s : State) (t : Nat) : Option Nat := match (s.tile t).cession with
  | some x => if x.loser.isSome then some x.heir else none
  | none => none

/-- The device address of a record of a core's spill area: the k-th from its oldest (R259). -/
def State.spillAt (s : State) (c k : Nat) : Nat :=
  256 * (Config.spillArea ((s.coreJob c).getD 0) c + ((s.core c).spillHead + k) % 4096)

/-- Write a context's 256 bytes into a record of the spill area. -/
def State.writeSpill (s : State) (c k : Nat) (ctx : Context) : State :=
  s.setPhysBytes (s.spillAt c k) (ctx.words.flatMap fun w => bytesOfNat 8 w.toNat)

/-- A context joins the tail of a core's spill area (R259, R331). -/
def State.spillOut (s : State) (c : Nat) (ctx : Context) : State :=
  (s.writeSpill c (s.core c).spill.length ctx).onCore c fun k => { k with spill := k.spill ++ [ctx] }

/-- The contexts of a core's spill area, oldest first, as its records hold them. -/
def State.spilled (s : State) (c : Nat) : List Context :=
  (s.core c).spill.zipIdx.map fun e =>
    { e.1 with words := (List.range 32).map fun i => s.physWord (s.spillAt c e.2 + 8 * i) }

/-- A context waits in a core's router that reached it before another did (R259). -/
def State.contextAhead (s : State) (c : Nat) (ctx : Context) : Bool :=
  s.net.any fun p => match p with
    | .context d q _ _ => d == c && (match q.reached with | some k => comesFirst k ctx.reached | none => false)
    | _ => false

/-- CONTEXT_ARRIVAL: a context reaches its core's arrival queue, or the tail of its spill area; it waits in the router
while that is full or another context waits there before it, and goes on where the tile is being ceded (R259, R331, R360). -/
def execContextArrival (n : Nat) (s : State) : Result :=
  match s.net[n]? with
  | some (.context c ctx sender lands) =>
    let k := s.core c
    let s1 := s.taken n
    let here := { ctx with reached := none }
    let landed (u : State) : State :=
      match sender with
      | some m => u.landOn m lands [0]
      | none => u
    let waits : Result :=
      .next { s with net := s.net.set n (.context c { ctx with reached := some (ctx.reached.getD s.moves) } sender lands) }
    if !s.arrivesNext n then .next s
    else if s.contextAhead c ctx then waits
    else match s.heirOf (c / 4) with
      | some t => .next (s1.post (.context (4 * t + c % 4) { here with poster := .core c } sender lands))
      | none =>
        if k.spill == [] && k.arrivals.length < 16 then
          .next (landed (s1.onCore c fun k => { k with arrivals := k.arrivals ++ [here] }))
        else if k.spill.length < 4096 then .next (landed (s1.spillOut c here))
        else waits
  | _ => .next s

/-- SPILL_REFILL: with 8 or fewer contexts queued, up to 8 spilled ones join them (R331). -/
def execSpillRefill (core : Nat) (s : State) : Result :=
  let k := s.core core
  if k.arrivals.length ≤ 8 && k.spill != [] then
    .next (s.onCore core fun k => { k with
      arrivals := k.arrivals ++ (s.spilled core).take 8, spill := k.spill.drop 8
      spillHead := (k.spillHead + min 8 k.spill.length) % 4096 })
  else .next s

/-- The messages that wait for a departed context go on to the slot that it has taken (R260). -/
def Packet.reaches (origin : Option Nat) (left m : Nat) (p : Packet) : Packet :=
  match p, origin with
  | .message q, some o =>
    if q.follows = some (o, left) then
      .message { q with
        core := coreOfSlot m, follows := none, w0 := retag m q.w0 }
    else p
  | _, _ => p

/-- CONTEXT_PLACEMENT: the context at the head of the arrival queue takes the lowest FREE slot and a window of 8, unless the
core owes its next slot to a Vat record (R259, R326). -/
def execContextPlacement (core : Nat) (s : State) : Result :=
  let k := s.core core
  match k.arrivals with
  | [] => .next s
  | ctx :: rest =>
    if s.jobHalted ctx.job || (s.heirOf (core / 4)).isSome || (s.recordOffered core && 16 ≤ k.sinceOffer) then .next s
    else match s.startThread core ctx.job 8 (fillContext ctx) with
      | none => .next s
      | some (n, t) =>
        let t1 := t.onCore core fun k =>
          { k with arrivals := rest, sinceOffer := if s.recordOffered core then k.sinceOffer + 1 else 0 }
        let t2 := match ctx.creator with
          | some c => t1.onCore c fun k => { k with created := k.created - 1 }
          | none => t1
        let named (f : Forwarding) : Forwarding :=
          if some f.slot == ctx.origin && f.left == ctx.left then { f with placed := some n } else f
        let t3 := match ctx.origin with
          | some m => t2.onCore (coreOfSlot m) fun k => { k with forwards := k.forwards.map named }
          | none => t2
        .next ({ t3 with net := t3.net.map (Packet.reaches ctx.origin ctx.left n) }.acquire core true)

/-! ## The Vat (R246-R249, R326, R327) -/

/-- A Vat segment. -/
def Tile.segment (t : Tile) (slice : Nat) : List VatRecord := if slice = 0 then t.seg0 else t.seg1

/-- Replace a Vat segment; where `fresh`, another record is its head, whose 200 ns start (R327). -/
def State.setSegment (s : State) (tile slice : Nat) (rs : List VatRecord) (fresh : Bool) : State :=
  s.onTile tile fun t =>
    if slice = 0 then { t with seg0 := rs, headSince0 := if fresh then s.cyc else t.headSince0 }
    else { t with seg1 := rs, headSince1 := if fresh then s.cyc else t.headSince1 }

/-- Append records to a Vat segment: the first is its head where it was empty (R247). -/
def State.appendSegment (s : State) (tile slice : Nat) (rs : List VatRecord) : State :=
  let old := (s.tile tile).segment slice
  s.setSegment tile slice (old ++ rs) (old == [])

/-- Take the head of a Vat segment away (R248). -/
def State.popSegment (s : State) (tile slice : Nat) : State :=
  s.setSegment tile slice ((s.tile tile).segment slice).tail true

/-- Records of a segment, those on their way to it among them. -/
def State.segmentLoad (s : State) (tile slice : Nat) : Nat :=
  ((s.tile tile).segment slice).length
    + (s.net.filter fun p => match p with
        | .record t sl _ => t == tile && sl == slice
        | _ => false).length

/-- Records of a segment (R247). -/
def segmentRoom : Nat := 256

/-- Send a record to its segment, where that has room (R247). -/
def State.sendRecord (s : State) (r : VatRecord) : Option State :=
  let (tile, slice) := s.segmentOf r.job (r.words.getD 1 0)
  if segmentRoom ≤ s.segmentLoad tile slice then none else some (s.post (.record tile slice r))

/-- The first word of a global range that is not ready at its home, if any (R134). -/
def State.spanCheck (s : State) (j va n : Nat) (k : AccKind) : Option HomeCheck :=
  (wordPieces va (List.replicate n 0)).findSome? fun e => match s.homeCheck (s.homeOf j e.1) e.1 k none with
    | .held => none
    | .mapped _ => none
    | c => some c

/-- The words of a checked global range, read fresh at their homes. -/
def State.homeWords (s : State) (j c va n : Nat) : List Word × State :=
  (List.range n).foldl (fun (u : List Word × State) k =>
    let t := u.2.bring j (c / 4) (va + 8 * k) .read
    let h := t.homeOf j (va + 8 * k)
    (u.1 ++ [wordOf (natOfBytes (t.homeBytes h (va + 8 * k) 8))], (t.chargeSlice h (c / 4) 8).letGo h (va + 8 * k))) ([], s)

/-- `enq` (R247). -/
def execEnq (a : Reg) (la : Bool) (s : State) : Result :=
  let i := Instr.enq a la
  .next (s.longForm i (onlyA a la) [a] fun x v _ =>
    let n := s.focus
    let c := coreOfSlot n
    let ea := v.getD 0 0
    let r := x.next (x.lastUses [(a, la)]) [] 0
    if regionOf ea != 0 then s.raise n (if regionOf ea = 0xF2 then 0x0B else 0x07) ea
    else match s.target n ea 64 64 with
      | .fails cause w => s.raise n cause w
      | .scratch _ _ => s.raise n 0x07 ea
      | .global va =>
        if !s.permits c x.job .read va then s.raise n 0x08 ea
        else if !s.isOurs va then
          (if !s.released n true then s.waits n
          else (s.post (.enqueue { slot := n, core := c, job := x.job, counter := 0, record := ea, retire := some r,
                                   fault := none, notice := none })).uncheck n va .read false)
        else match s.spanCheck x.job va 64 .read with
          | some (.fails cause) => s.raise n cause.toNat ea
          | some .busy => s.waits n
          | some _ => s.pageMiss n va .read
          | none =>
            if !s.released n true || !s.bringAll c x.job [(ea, 64, .read)] then s.waits n
            else
              let (ws, s1) := (s.keepProtection c x.job va).homeWords x.job c va 8
              match s1.sendRecord { words := ws, addr := ea, job := x.job, source := some n, poster := .slot n } with
              | none => s.waits n
              | some t => t.onSlot n fun y => y.retire r)

/-- The enqueue of a record cannot go on: the `enq` faults, or the counter's decrementer is told (R252). -/
def State.enqueueFails (s : State) (p : EnqueuePacket) (cause : Nat) : State :=
  if p.retire.isSome then s.failCheck p.slot cause p.record
  else
    let s1 := s.postMessage p.job p.slot 8 cause (fieldOf p.counter 0 32) p.record
    if (s1.slot p.slot).state = .free then s1 else s1.onSlot p.slot fun y => y.pending 8 p.counter

/-- An enqueue at its counter's core, or through the fabric: the record is read at its home and sent to its segment
(R247, R252). -/
def State.enqueueStep (s : State) (n : Nat) (p : EnqueuePacket) (peer : PeerAnswer) : State :=
  let va := p.record.toNat
  let s0 := s.taken n
  let send (u : State) (ws : List Word) : State :=
    let r : VatRecord :=
      { words := ws, addr := p.record, job := p.job, source := if p.retire.isSome then some p.slot else none
        poster := if p.retire.isSome then .slot p.slot else .device }
    match u.sendRecord r with
    | none => s
    | some t => t.pass p.slot p.retire
  match p.fault, p.notice with
  | some _, none => s
  | some _, some true => s0.enqueueFails p 0x09
  | some _, some false => s0.post (.enqueue { p with fault := none, notice := none })
  | none, _ =>
    if !s.permits p.core p.job .read va then s0.enqueueFails p 0x08
    else if !s.isOurs va then
      match peer with
      | .none => s
      | .fails cause => s0.enqueueFails p cause.toNat
      | .words ws => send s0 ws
    else match s.spanCheck p.job va 64 .read with
      | some (.fails cause) => s0.enqueueFails p cause.toNat
      | some .busy => s
      | some _ =>
        let h := s.homeOf p.job va
        s.askWalker h { va := va, kind := .read, job := p.job, tile := h.tile, slice := h.slice,
                        who := .enqueue p.core p.record }
      | none =>
        let (ws, s1) := s0.homeWords p.job p.core va 8
        if s.bringAll p.core p.job [(p.record, 64, .read)] then send s1 ws else s

/-- VAT_RECORD_ARRIVAL: a record reaches its segment, or goes on to the one that its key names now, in its place among the
records of its slot (R247); the enqueue of a counter's record goes a step on (R252). -/
def execVatRecordArrival (n : Nat) (peer : PeerAnswer) (s : State) : Result :=
  match s.net[n]? with
  | some (.record tile slice r) =>
    let (t, sl) := s.segmentOf r.job (r.words.getD 1 0)
    let rs := (s.tile tile).segment slice
    if !s.arrivesNext n || (match (s.tile tile).cession with | some x => x.moved | none => false) then .next s
    else if t != tile || sl != slice then .next { s with net := s.net.set n (.record t sl r) }
    else if segmentRoom ≤ rs.length then .next s
    else .next ((s.taken n).appendSegment tile slice [r])
  | some (.enqueue p) => .next (s.enqueueStep n p peer)
  | _ => .next s

/-- The window of a record's thread (R246). -/
def VatRecord.window (r : VatRecord) : Nat := 8 * (fieldOf (r.words.getD 1 0) 32 4 + 1)
/-- STAY of a record. -/
def VatRecord.stays (r : VatRecord) : Bool := bitOf (r.words.getD 1 0) 36

/-- The core of a tile that takes a record: of those that accept it, the one with the most FREE slots (R248, R326). A slot that
16 placed contexts have made the turn of a Vat record goes to a record of its `own` tile. -/
def State.takerOf (s : State) (tile : Nat) (own : Bool) (r : VatRecord) : Option Nat :=
  let accepts (c : Nat) : Bool :=
    s.canTake c r.window
      && (if 16 ≤ (s.core c).sinceOffer && s.recordOffered c then own else (s.core c).arrivals == [])
  if (s.tile tile).owner != some r.job || (s.heirOf tile).isSome then none
  else (coresOfTile tile).foldl (fun (best : Option Nat) c =>
    if !accepts c then best
    else match best with
      | none => some c
      | some b => if (s.freeSlotsOf b).length < (s.freeSlotsOf c).length then some c else best) none

/-- A thread as its record gives it (R246, R249). -/
def fillRecord (r : VatRecord) (x : Slot) : Slot :=
  let w (i : Nat) : Word := r.words.getD i 0
  let y := ([w 5, w 6, w 7, r.addr].zipIdx).foldl (fun (z : Slot) (e : Word × Nat) =>
    z.setCell (.win (e.2 + 1)) { val := e.1, pres := .full, owed := false }) x
  { y with pc := w 0, fmt0 := BitVec.ofNat 4 (fieldOf (w 2) 0 4), fmt1 := BitVec.ofNat 4 (fieldOf (w 2) 32 4),
           scl0 := keepBits (w 3) 2 62, scl1 := keepBits (w 4) 2 62 }

/-- Start the thread of a record on a core; contexts placed from now on count anew where it is of the core's own tile (R249,
R326). -/
def State.startRecord (s : State) (c : Nat) (own : Bool) (r : VatRecord) : Option State :=
  (s.startThread c r.job r.window (fillRecord r)).map fun e =>
    (e.2.acquire c true).onCore c fun k => { k with sinceOffer := if own then 0 else k.sinceOffer }

/-- DISPATCH: a tile hands the head of one of its segments to a core; the two are served alternately (R248, R326). -/
def execDispatch (tile : Nat) (slice : BitVec 1) (s : State) : Result :=
  let t := s.tile tile
  let sl := slice.toNat
  let otherTurn : Bool := t.served == (sl == 1) && (match (t.segment (1 - sl)).head? with
    | some r => (s.takerOf tile true r).isSome
    | none => false)
  match t.segment sl with
  | [] => .next s
  | r :: _ =>
    if otherTurn || s.jobHalted r.job then .next s
    else match s.takerOf tile true r with
      | none => .next s
      | some c => match (s.popSegment tile sl).startRecord c true r with
        | none => .next s
        | some u => .next (u.onTile tile fun x => { x with served := sl == 1 })

/-- The nearest other tile of a territory that can take a record; ties go to the lower index (R248). -/
def State.nearestTaker (s : State) (tile : Nat) (r : VatRecord) : Option Nat :=
  (s.territory r.job).foldl (fun (best : Option Nat) t =>
    if t = tile || (s.takerOf t false r).isNone then best
    else match best with
      | none => some t
      | some b => if hops tile t < hops tile b then some t else best) none

/-- VAT_OFFER_TIMEOUT: a record that has headed its segment for 200 ns is offered to the nearest tile that can take it, and
again every 200 ns (R248, R327). -/
def execVatOfferTimeout (tile : Nat) (slice : BitVec 1) (s : State) : Result :=
  let t := s.tile tile
  let sl := slice.toNat
  let since := if sl = 0 then t.headSince0 else t.headSince1
  match t.segment sl with
  | [] => .next s
  | r :: _ =>
    if r.stays || s.cyc < since + 400 || s.jobHalted r.job then .next s
    else
      let again : State := s.onTile tile fun x =>
        if sl = 0 then { x with headSince0 := since + 400 } else { x with headSince1 := since + 400 }
      match s.nearestTaker tile r with
      | none => .next again
      | some u => match s.takerOf u false r with
        | none => .next again
        | some c => match (s.popSegment tile sl).startRecord c false r with
          | none => .next again
          | some v => .next v

/-! ## Dependence counters (R251, R252) -/

/-- Perform a counter operation at its core (R252). -/
def State.performDep (s : State) (p : DepPacket) : State :=
  let c := p.core
  let j := (s.slot p.slot).job
  let count := s.scratchWord c p.offset
  let put (u : State) (w : Word) : State := u.putScratch c p.offset (bytesOfNat 8 w.toNat)
  match p.kind with
  | .init b record => s.putScratch c p.offset (bytesOfNat 8 b.toNat ++ bytesOfNat 8 record.toNat)
  | .add b => put s (count + b)
  | .dec =>
    if 0 < count.toInt then
      let record := s.scratchWord c (p.offset + 8)
      let s1 := (put s (count - 1)).landOn p.slot p.dst [count - 1]
      if count = 1 && record != 0 then
        s1.post (.enqueue { slot := p.slot, core := c, job := j, counter := p.ea, record := record, retire := none,
                            fault := none, notice := none })
      else s1
    else
      let s1 := (put s allOnes).postMessage j p.slot 8 1 (fieldOf p.ea 0 32) p.ea
      (s1.onSlot p.slot fun y => y.pending 8 p.ea).landOn p.slot p.dst [allOnes]

/-- The operation reads the counter: all but `dep.init` (R251). -/
def DepKind.reads : DepKind → Bool
  | .init _ _ => false
  | _ => true

/-- A counter instruction (R251, R252). -/
def State.depForm (s : State) (i : Instr) (u : Named) (a : Reg) (release : Bool) (kind : List Word → DepKind) : State :=
  s.longForm i u [a] fun x v misuse =>
    let n := s.focus
    let ea := v.getD 0 0
    let k := kind v
    let t := s.objectTarget n ea 16 16
    let bad : Option (Nat × Word) := match k with
      | .init _ record =>
        if record = 0 then none
        else if regionOf record != 0 || 2 ^ 56 < record.toNat + 64 then some (0x07, record)
        else if record.toNat % 64 != 0 then some (0x06, record)
        else none
      | _ => none
    let p (tc off : Nat) (r : Option Retire) : DepPacket :=
      { slot := n, core := tc, offset := off, ea := ea, kind := k, dst := x.dst u.dests, retire := r }
    match t, bad with
    | .fails cause w, _ => s.raise n cause w
    | _, some (cause, w) => s.raise n cause w
    | _, none =>
      if release && !s.released n true then s.waits n
      else s.objectOp ea t 16 k.reads misuse i.word (x.next (x.lastUses u.reads) (x.dst u.dests) 0)
        (fun tc off r => .dep (p tc off r)) (fun off t => some (t.performDep (p (coreOfSlot n) off none)))

/-- `dep.init` (R252). -/
def execDepInit (a b : Reg) (la lb : Bool) (s : State) : Result :=
  .next (s.depForm (.depInit a b la lb) { reads := [(a, la), (b, lb), (b + 1, lb)], dests := [], also := [] } a false fun v =>
    .init (v.getD 1 0) (v.getD 2 0))
/-- `dep.dec` (R252). -/
def execDepDec (d a : Reg) (la : Bool) (s : State) : Result :=
  .next (s.depForm (.depDec d a la) (readA d a la) a true fun _ => .dec)
/-- `dep.add` (R252). -/
def execDepAdd (a b : Reg) (la lb : Bool) (s : State) : Result :=
  .next (s.depForm (.depAdd a b la lb) (onlyAB a b la lb) a true fun v => .add (v.getD 1 0))

/-- DEP_COUNTER_OPERATION: an operation reaches its counter's core and is performed there (R251), or reads zero on a tile
that the job has lost (R366). -/
def execDepCounterOperation (n : Nat) (s : State) : Result :=
  match s.net[n]? with
  | some (.dep p) =>
    if !s.arrivesNext n then .next s
    else if s.lostTile (s.slot p.slot).job p.core then
      .next (((s.taken n).pass p.slot p.retire).landOn p.slot p.dst [0])
    else match s.leafCheckAt p.core p.offset 16 p.kind.reads p.accepted none with
      | .wait =>
        .next (if p.accepted.isSome then s
          else s.accepts n p.core p.offset p.slot p.retire (.dep { p with retire := none, accepted := some s.moves }))
      | .off => .next ((s.taken n).failCheck p.slot 0x05 p.ea)
      | .ready =>
        let c := coreOfSlot p.slot
        let u := (((s.taken n).pass p.slot p.retire).chargeNear c p.core 16).l1Forget c (nearWord p.core p.offset) 16
        .next (u.performDep p)
  | _ => .next s

/-! ## Deques (R253, R254) -/

/-- A deque header (R253). -/
structure DequeHeader where
  top : BitVec 32
  bottom : BitVec 32
  cap : Nat
  base : Nat
  wellFormed : Bool
  deriving DecidableEq, Repr

/-- The header that two words give, in a scratchpad of a size. -/
def dequeHeader (w0 w1 : Word) (size : Nat) : DequeHeader :=
  let cap := fieldOf w1 28 4
  let base := fieldOf w1 0 18
  { top := BitVec.ofNat 32 (fieldOf w0 0 32), bottom := BitVec.ofNat 32 (fieldOf w1 32 32), cap := cap, base := base,
    wellFormed := fieldOf w0 32 32 == 0 && fieldOf w1 18 10 == 0 && decide (cap ≤ 11) && base % 64 == 0
      && decide (base + 64 * 2 ^ cap ≤ size) }

/-- The frames that a deque holds, as a signed number (R253). -/
def DequeHeader.count (h : DequeHeader) : Int := (h.bottom - h.top).toInt

/-- The offset of a frame (R253). -/
def DequeHeader.frame (h : DequeHeader) (i : BitVec 32) : Nat := h.base + 64 * (i.toNat % 2 ^ h.cap)

/-- What a deque operation does: its result, the frame it moves and from where to where, and the new ends (R254). -/
structure DequeAct where
  result : Word
  frame : Option Nat
  top : BitVec 32
  bottom : BitVec 32
  deriving DecidableEq, Repr

/-- Spawn, Take and Steal (R254). -/
def dequeAct (k : DequeKind) (h : DequeHeader) : DequeAct :=
  let nothing (w : Word) : DequeAct := { result := w, frame := none, top := h.top, bottom := h.bottom }
  if !h.wellFormed then nothing (allOnes - 1)
  else match k with
    | .spawn =>
      if (2 ^ h.cap : Int) ≤ h.count then nothing allOnes
      else { result := h.bottom.setWidth 64, frame := some (h.frame h.bottom), top := h.top, bottom := h.bottom + 1 }
    | .take =>
      if h.count ≤ 0 then nothing allOnes
      else
        let i := h.bottom - 1
        { result := i.setWidth 64, frame := some (h.frame i), top := if h.count = 1 then h.top + 1 else h.top,
          bottom := if h.count = 1 then h.bottom else i }
    | .steal =>
      if h.count ≤ 0 then nothing allOnes
      else { result := h.top.setWidth 64, frame := some (h.frame h.top), top := h.top + 1, bottom := h.bottom }

/-- What the attempt of a deque operation gives. -/
inductive DequeTry where
  | done (s : State)
  | holds (core off : Nat)          -- a leaf that is not FULL
  | off (a : Word)

/-- Two leaf checks: the first that is not ready. -/
def leafGate (checks : List (LeafCheck × Nat × Nat × Word)) : Option DequeTry :=
  checks.findSome? fun e => match e.1 with
    | .ready => none
    | .off => some (.off e.2.2.2)
    | .wait => some (.holds e.2.1 e.2.2.1)

/-- Perform a deque operation at the header's core: the header's and the frame's leaves first, then the copy, the ends and
the result; `steal` acquires (R254). -/
def State.performDeque (s : State) (p : DequePacket) : DequeTry :=
  let c := p.core
  let own := coreOfSlot p.slot
  let h := dequeHeader (s.scratchWord c p.offset) (s.scratchWord c (p.offset + 8)) (s.scratchSize ((s.coreJob c).getD 0))
  let act := dequeAct p.kind h
  let at_ (f : Nat) : Word := wordOf (p.ea.toNat / 2 ^ 18 * 2 ^ 18 + f)
  let spawns := p.kind == .spawn
  let check (d off size : Nat) (reads : Bool) : LeafCheck :=
    if c = own then s.slotCheck p.slot d off size reads else s.leafCheckAt d off size reads p.accepted none
  let moved : List (LeafCheck × Nat × Nat × Word) := match act.frame with
    | some f => [(check c f 64 (!spawns), c, f, at_ f), (check own p.frame 64 spawns, own, p.frame, localAddress p.frame)]
    | none => []
  match leafGate ((check c p.offset 16 true, c, p.offset, p.ea) :: moved) with
  | some t => t
  | none =>
    let bytes := if act.frame.isSome then 80 else 16
    let s0 := match p.retire with
      | some r => s.onSlot p.slot fun x => x.retire r
      | none => s
    let s1 := (s0.chargeNear own c bytes).l1Forget own (nearWord c p.offset) 16
    let s2 := match act.frame with
      | none => s1
      | some f =>
        let t := if spawns then s1.putScratch c f (s.scratch own p.frame 64) else s1.putScratch own p.frame (s.scratch c f 64)
        t.putScratch c p.offset (bytesOfNat 8 act.top.toNat
          ++ bytesOfNat 8 (act.bottom.toNat * 2 ^ 32 + fieldOf (s.scratchWord c (p.offset + 8)) 0 32))
    let s3 := s2.landOn p.slot p.dst [act.result]
    .done (if p.kind == .steal then s3.acquire own true else s3)

/-- `spawn`, `take` and `steal` (R254). -/
def State.dequeForm (s : State) (i : Instr) (d a b : Reg) (la lb : Bool) (k : DequeKind) : State :=
  s.longForm i (readAB d a b la lb) [] fun x v misuse =>
    let n := s.focus
    let own := coreOfSlot n
    let ea := v.getD 0 0
    let fa := v.getD 1 0
    match s.objectTarget n ea 16 16, s.objectTarget n fa 64 64 with
    | .scratch tc off, tb =>
      if k != .steal && tc != own then s.raise n 0x07 ea
      else match tb with
        | .fails cause w => s.raise n cause w
        | .global _ => s.raise n 0x0A fa
        | .scratch fc frame =>
          let r := x.next (x.lastUses [(a, la), (b, lb)]) (x.dst [d]) 0
          let p : DequePacket :=
            { slot := n, core := tc, offset := off, ea := ea, frame := frame, kind := k, dst := x.dst [d], retire := some r }
          if fc != own then s.raise n 0x07 fa
          else if misuse then s.raise n 0x0E i.word
          else if k == .spawn && !s.released n true then s.waits n
          else if tc != own then (s.post (.deque p)).uncheck n off .atomic false
          else match s.performDeque p with
            | .done t => t
            | .holds tc off => s.waitsLeaf n tc off
            | .off w => s.raise n 0x05 w
    | .fails cause w, _ => s.raise n cause w
    | .global _, _ => s.raise n 0x0A ea

/-- `spawn` (R254). -/
def execSpawn (d a b : Reg) (la lb : Bool) (s : State) : Result :=
  .next (s.dequeForm (.spawn d a b la lb) d a b la lb .spawn)
/-- `take` (R254). -/
def execTake (d a b : Reg) (la lb : Bool) (s : State) : Result :=
  .next (s.dequeForm (.take d a b la lb) d a b la lb .take)
/-- `steal` (R254). -/
def execSteal (d a b : Reg) (la lb : Bool) (s : State) : Result :=
  .next (s.dequeForm (.steal d a b la lb) d a b la lb .steal)

/-- DEQUE_OPERATION: a `steal` reaches its victim's core and is performed there (R254); a deque of zeros on a lost tile is
empty (R366). -/
def execDequeOperation (n : Nat) (s : State) : Result :=
  match s.net[n]? with
  | some (.deque p) =>
    if !s.arrivesNext n then .next s
    else if s.lostTile (s.slot p.slot).job p.core then
      .next ((((s.taken n).pass p.slot p.retire).landOn p.slot p.dst [allOnes]).acquire (coreOfSlot p.slot) true)
    else match s.performDeque p with
      | .done t => .next ((t.taken n).countPair p.slot (match p.retire with | some r => r.count | none => 0))
      | .holds c off =>
        .next (if p.accepted.isSome then s.wakeScratch c off
          else s.accepts n c off p.slot p.retire (.deque { p with retire := none, accepted := some s.moves }))
      | .off w => .next ((s.taken n).failCheck p.slot 0x05 w)
  | _ => .next s

/-! ## `join` (R255) -/

/-- `join` (R255): the word lies in the issuing core's own scratchpad. -/
def execJoin (d a : Reg) (la : Bool) (s : State) : Result :=
  let i := Instr.join d a la
  .next (
    match s.gate s.focus false (readA d a la) i.word with
    | .stop t => t
    | .go => match s.objectTarget s.focus ((s.slot s.focus).val a) 8 8 with
      | .scratch tc _ =>
        if tc != coreOfSlot s.focus && ((s.slot s.focus).bound a).isNone then s.raise s.focus 0x07 ((s.slot s.focus).val a)
        else s.waitForm i (readA d a la) a 8 8 fun _ => .join
      | _ => s.waitForm i (readA d a la) a 8 8 fun _ => .join)

/-- JOIN_REPLY (R255). -/
def execJoinReply (n : Nat) (s : State) : Result :=
  match s.net[n]? with
  | some (.joinReply m v) =>
    .next (if s.pairHolds m then s else if (s.slot m).takesReply then (s.taken n).waitReply m v else s.wakeReply m)
  | _ => .next s

/-! ## Placing messages (R176, R179, R180, R260, R366, R384) -/

/-- The image of a job is being written or read, or the job waits: its messages are held (R384). -/
def Job.holdsMessages (x : Job) : Bool := match x.phase with
  | .saving _ _ => true
  | .restoring _ _ => true
  | .waiting => true
  | _ => false

/-- MESSAGE_PLACED: a message reaches its core: sent on after a thread that has left, where it waits for the slot that its
context takes; discarded on a tile that its job has lost; held while there is no room, and on a scrubbed tile until the cession
ends; else placed (R176, R260, R366). -/
def execMessagePlaced (n : Nat) (s : State) : Result :=
  match s.net[n]? with
  | some (.message p) =>
    let c := p.core
    if !s.arrivesNext n || p.follows.isSome || (match s.job p.job with | some x => x.holdsMessages | none => false) then .next s
    else match s.forwardOf c p.w0 with
      | some f => match f.placed with
        | some m => .next ((s.taken n).post (.message { p with core := coreOfSlot m, w0 := retag m p.w0 }))
        | none => .next ((s.taken n).post (.message { p with core := f.core, follows := some (f.slot, f.left) }))
      | none =>
        if (s.tile (c / 4)).owner != some p.job then .next ((s.taken n).endSend p allOnes)
        else if s.lostTile p.job c || !inboxRoom (s.core c).inbox p.w0 then .next s
        else .next (((s.taken n).placeMessage c p.w0 p.w1).endSend p 0)
  | _ => .next s

end Sys2Proof.Machine
end

