-- ==== Sys2Proof/Machine/Hierarchy.lean ====
section
/-! DEFINITION. What happens to accesses in flight: loads, stores and atomics at their homes, at die proxies and at other
cores' scratchpads (R134-R151, R283-R287, R315), and the walker (R295, R299). -/

namespace Sys2Proof.Machine

/-! ## Order and landing -/

/-- An earlier checked store of a slot's core to some word of an access is still on its way (R137, R306). -/
def State.ownStoreAhead (s : State) (n : Nat) (slot va size : Nat) : Bool :=
  (s.net.take n).any fun p => match p with
    | .store q => q.slot / 64 == slot / 64 && q.retire.isNone && wordsMeet va size q.va q.bytes.length
    | _ => false

/-- An earlier load of a slot has been forwarded to the owner of a word that an access touches (R137, R306). -/
def State.ownReadAhead (s : State) (n : Nat) (slot va size : Nat) : Bool :=
  (s.net.take n).any fun p => match p with
    | .forwarded q _ => q.slot == slot && wordsMeet va size q.va q.size
    | _ => false

/-- A registration that the same die's proxy acknowledged before a store's has not reached the same home: the proxy forwards in
order of arrival (R285). -/
def State.proxiedBefore (s : State) (j : Nat) (p : StorePacket) : Bool :=
  match p.proxied with
  | none => false
  | some m =>
    let die := dieOfTile (tileOfSlot p.slot)
    s.net.any fun q => match q with
      | .store r => (match r.proxied with | some k => decide (k < m) | none => false)
          && dieOfTile (tileOfSlot r.slot) == die && s.proxyOf j die r.va == s.proxyOf j die p.va
          && s.homeOf j r.va == s.homeOf j p.va
      | _ => false

/-- Results can land on a slot: their leaves are FULL, or the job is being flushed (R112, R155). -/
def State.canLand (s : State) (n : Nat) (ls : List RegLoc) : Bool :=
  (s.slot n).landable ls || s.jobHalted (s.slot n).job

/-- A home that the slot's access must be translated at asks the walker; a check that failed raises its cause (R134). -/
def State.askFor (s : State) (slot j va : Nat) (k : AccKind) : State :=
  let h := s.homeOf j va
  s.askWalker h { va := va, kind := k, job := j, tile := h.tile, slice := h.slice, who := .slot slot }

/-! ## Loads (R140, R142, R146) -/

/-- The bytes of an access within the words that contain it. -/
def bytesWithin (ws : List Word) (va n : Nat) : List Byte := ((bytesOfWords ws).drop (va % 8)).take n

/-- A load has been served: it is checked, and its value goes back (R134, R135). -/
def State.serveLoad (s : State) (p : LoadPacket) (bs : List Byte) : State :=
  (s.pass p.slot p.retire).post (.reply { slot := p.slot, va := p.va, dst := p.dst, vals := loadWords p.signed bs,
                                          acquire := p.acquire })

/-- The L1 of a load's core takes the sector as its home holds it now. Where registrations of its die are on their way there, which
a later load of the core must find, it takes nothing, and drops what it held of the words, which may be older than what the load
gave (R279, R306, R315). -/
def State.fillL1 (s : State) (h : Place) (slot va size : Nat) : State :=
  let c := coreOfSlot slot
  if s.proxiedAhead (dieOfTile (tileOfSlot slot)) va none then s.l1Forget c (va / 8) size
  else s.l1Fill c (s.sectorWords h va)

/-- A load is served with the bytes of its home. -/
def State.serveHome (s : State) (h : Place) (p : LoadPacket) : State :=
  ((s.serveLoad p (s.homeBytes h p.va p.size)).fillL1 h p.slot p.va p.size).letGo h p.va

/-- What a home does with an access that was checked before: it takes it, asks the walker, holds it, or has no page left for it. -/
inductive TakeIn where
  | ready (s : State)
  | asks
  | holds
  | gone

/-- A home fills a sector from a given place of the backing store, where it has room and no line that may not be evicted holds
these bytes elsewhere (R283; assumption 38). -/
def State.takeFrom (s : State) (h : Place) (j va tile : Nat) (b : Backing) : TakeIn :=
  if s.roomFor h va == .none || s.heldElsewhere b.host b.pa (h.sectorKey va) then .holds else .ready (s.fill h j va tile b)

/-- A home takes an access that was checked before: it completes under the translation of its check, whatever the tables say now
(R134, R296); `op` is an atomic's AtomicOp. -/
def State.takeIn (s : State) (h : Place) (j va tile : Nat) (k : AccKind) (op : Option Nat) (f : Option Backing) : TakeIn :=
  let old : TakeIn := if (s.sectorAt h va).isSome then .ready s else match f with
    | some b => s.takeFrom h j va tile b
    | none => .gone
  match s.homeCheck h va k op with
  | .busy => .holds
  | .held => .ready s
  | .mapped t => s.takeFrom h j va tile (f.getD (t.backing va))
  | .miss => (match s.walk h.slice va with
    | .leaf _ t => if t.allows k then .asks else old
    | _ => old)
  | .fails _ => old

/-- A load is served: its sector is at the home, and `f` says where its page was found. Its die's proxy, if it reads there, fills a
copy from the home; else a word that another core owns is asked of its owner (R140, R142, R285). -/
def State.loadHeld (s : State) (h : Place) (p : LoadPacket) (f : Option Backing) (viaProxy : Option Place) : State :=
  let c := coreOfSlot p.slot
  let j := (s.slot p.slot).job
  match viaProxy with
  | some q =>
    ((((s.keepProxy q p.va (s.homeBytes h (sectorStart p.va) (sectorLen p.va))).serveLoad p (s.homeBytes h p.va p.size)).chargeSlice
      q (c / 4) (sectorLen p.va)).letGo h p.va)
  | none =>
    let u := (s.dropProxy j p.slot p.va).chargeSlice h (c / 4) (sectorLen p.va)
    match u.ownerAt h p.va c with
    | some owner => (u.pass p.slot p.retire).post (.forwarded { p with frame := f, retire := none } owner)
    | none => u.serveHome h p

/-- A load at its home, or at its die's proxy (R140, R142, R285). A proxy that keeps no copy of the sector fills one once the
registrations of its die that it has forwarded have reached the home, so that its copy stands at one point of each word's order
(R313). A load that was checked before completes under the translation of its check (R134, R296). -/
def State.loadAtHome (s : State) (n : Nat) (p : LoadPacket) : State :=
  let j := (s.slot p.slot).job
  let c := coreOfSlot p.slot
  let h := s.homeOf j p.va
  let viaProxy := if p.reach = .die then s.proxyFor j (tileOfSlot p.slot) p.va else none
  let u := s.taken n
  let behind := viaProxy.isSome && s.proxiedAhead (dieOfTile (c / 4)) p.va none
  match viaProxy.bind fun q => (storeGet noProxy s.proxyCopies (q.sectorKey p.va)).map (q, ·) with
  | some (q, bs) =>
    (u.serveLoad p ((bs.drop (p.va - sectorStart p.va)).take p.size)).chargeSlice q (c / 4) (sectorLen p.va)
  | none =>
    if p.retire.isNone then
      match s.takeIn h j p.va (c / 4) .read none p.frame with
      | .ready v => if behind then s else (v.taken n).loadHeld h p p.frame viaProxy
      | .asks => s.askFor p.slot j p.va .read
      | .holds => s
      | .gone => s
    else match s.homeCheck h p.va .read none with
      | .miss => s.askFor p.slot j p.va .read
      | .busy => s
      | .fails cause => u.failCheck p.slot cause.toNat (wordOf p.va)
      | ok => if behind then s else (u.present h j p.va (c / 4) ok).loadHeld h p (ok.backing s h p.va) viaProxy

/-- The bytes of the sector of an address, as another package answers with its words (R279, R286). -/
def peerSector (va : Nat) (ws : List Word) : List Byte := (bytesOfWords ws).take (sectorLen va)

/-- The words of a sector that another package answered with, by address (R279). -/
def peerWords (va : Nat) (ws : List Word) : List (Nat × List Byte) :=
  ((ws.take (sectorLen va / 8)).zipIdx).map fun e => (sectorStart va / 8 + e.2, bytesOfNat 8 e.1.toNat)

/-- The check that a home in another package has made, for an instruction that is then refused: the accesses that follow are
checked, then its 0x0E is raised. During a flush the instruction, which has had no effect, issues again once the job goes on
(R43, R139, R155). -/
def State.probed (s : State) (p : LoadPacket) (m : Misuse) : State :=
  let u := s.onSlot p.slot fun x => { x with unchecked := none }
  if s.jobHalted (s.slot p.slot).job then u else u.misusedAll p.slot m.word m.rest

/-- A check that failed in another package: the address is the access's, a fetch's its pc (R72, R134). -/
def State.peerFails (s : State) (p : LoadPacket) (cause : Nat) : State :=
  s.failCheck p.slot cause (match (s.slot p.slot).unchecked with
    | some u => if p.fetch then wordOf u.va else wordOf p.va
    | none => wordOf p.va)

/-- LOAD_REQUEST: a load reaches the place that serves it; `peer` answers for another package, with the words of its sector, which
the L1 takes (R138, R140, R279). One that was checked before does not fail there (R134). -/
def execLoadRequest (n : Nat) (peer : PeerAnswer) (s : State) : Result :=
  match s.net[n]? with
  | some (.load p) =>
    if !s.arrivesNext n || s.ownStoreAhead n p.slot p.va p.size || s.ownReadAhead n p.slot p.va p.size then .next s
    else if !s.isOurs p.va then
      match peer with
      | .none => .next s
      | .fails cause => .next (if p.retire.isNone && p.misuse.isNone then s else (s.taken n).peerFails p cause.toNat)
      | .words ws => match p.misuse with
        | some m => .next ((s.taken n).probed p m)
        | none =>
          let bs := ((peerSector p.va ws).drop (p.va - sectorStart p.va)).take p.size
          .next (((s.taken n).serveLoad p bs).l1Fill (coreOfSlot p.slot) (peerWords p.va ws))
    else if s.proxiedAhead (dieOfTile (tileOfSlot p.slot)) p.va (some p.left) then .next s
    else .next (s.loadAtHome n p)
  | _ => .next s

/-- FORWARDED_READ: the owner answers from its L1, or the home where the owner has dropped the sector or has a store of these words
on its way; the home holds every byte registered so far (R279, R283). -/
def execForwardedRead (n : Nat) (s : State) : Result :=
  match s.net[n]? with
  | some (.forwarded p owner) =>
    let j := (s.slot p.slot).job
    let h := s.homeOf j p.va
    let storing := s.net.any fun q => match q with
      | .store r => r.slot / 64 == owner && wordsMeet p.va p.size r.va r.bytes.length
      | _ => false
    match (if !storing && s.l1Owns owner (p.va / 8) p.size then s.l1Read owner (p.va / 8) (p.va % 8) p.size else none) with
    | some bs => .next (((s.taken n).serveLoad p bs).fillL1 h p.slot p.va p.size)
    | none => match s.takeIn h j p.va (tileOfSlot p.slot) .read none p.frame with
      | .ready v => .next ((v.taken n).serveHome h p)
      | .asks => .next (s.askFor p.slot j p.va .read)
      | .holds => .next s
      | .gone => .next s
  | _ => .next s

/-- A slot that asked for a word to fetch or to read in a block pass issues again once it is there. -/
def Slot.retries (x : Slot) (p : ReplyPacket) : Slot :=
  match x.unchecked with
  | some u => if u.retry && u.va / 8 == p.va / 8 && p.dst == [] then { x with unchecked := none } else x
  | none => x

/-- LOAD_REPLY: a value lands, and an acquire invalidates (R135, R142). -/
def execLoadReply (n : Nat) (s : State) : Result :=
  match s.net[n]? with
  | some (.reply p) =>
    if !s.canLand p.slot p.dst || s.pairHolds p.slot then .next s
    else
      let u := ((s.taken n).onSlot p.slot fun x => (x.landAll p.dst p.vals).retries p).logInput p.slot p.vals
      .next (if p.acquire then u.acquire (coreOfSlot p.slot) true else u)
  | _ => .next s

/-! ## Stores (R136, R141, R283, R285) -/

/-- A registration of another core of the same die to a word, which the die's proxy has acknowledged, is on its way. -/
def State.wordShared (s : State) (c w : Nat) : Bool := s.net.any fun q => match q with
  | .store r => r.proxied.isSome && r.slot / 64 != c && dieOfTile (tileOfSlot r.slot) == dieOfTile (c / 4)
      && (wordsOf r.va r.bytes.length).contains w
  | _ => false

/-- The home performs a registration: it merges the bytes, makes the core the owner and acknowledges. What the core's L1 holds of
the sector is brought up to the home's bytes, and its ownership bits are set, but for a word that another core of its die is about
to take (R136, R279, R283). -/
def State.registerStore (s : State) (h : Place) (p : StorePacket) : State :=
  let c := coreOfSlot p.slot
  let ws := wordsOf p.va p.bytes.length
  let s1 := s.merge h p.va p.bytes (some { package := s.pkgid, core := c })
  let kept : Bool := match s1.sectorAt h p.va with | some x => !(x.host && !Config.cxlCache) | none => false
  let owns := if !kept then [] else ws.filter fun w => !s1.wordShared c w
  ((s1.l1Refresh c (s1.sectorWords h p.va) owns).letGo h p.va).post (.ack p.slot true p.proxied.isNone ws p.array)

/-- STORE_REGISTRATION: a store reaches its home (R136, R283); `peer` answers for another package, with the words of their
sector as its home holds them then (R138). One that was checked before is performed under the translation of its check; with
no page left for it, it is dropped and acknowledged (R134, R296; log 24). -/
def execStoreRegistration (n : Nat) (peer : PeerAnswer) (s : State) : Result :=
  match s.net[n]? with
  | some (.store p) =>
    let j := (s.slot p.slot).job
    let c := coreOfSlot p.slot
    let h := s.homeOf j p.va
    let u := s.taken n
    if !s.arrivesNext n || s.ownReadAhead n p.slot p.va p.bytes.length then .next s
    else if !s.isOurs p.va then
      match peer with
      | .none => .next s
      | .fails cause =>
        .next (if p.retire.isSome then u.failCheck p.slot cause.toNat (wordOf p.va) else u.post (.ack p.slot true true [] p.array))
      | .words ws =>
        let mine := wordsOf p.va p.bytes.length
        .next (((u.pass p.slot p.retire).l1Refresh c (peerWords p.va ws) mine).post (.ack p.slot true true mine p.array))
    else if (p.proxied.isNone && (s.proxyFor j (tileOfSlot p.slot) p.va).isSome) || s.proxiedBefore j p || s.armed p.va then .next s
    else match p.retire with
      | some _ => (match s.homeCheck h p.va .write none with
        | .miss => .next (s.askFor p.slot j p.va .write)
        | .busy => .next s
        | .fails cause => .next (u.failCheck p.slot cause.toNat (wordOf p.va))
        | ok => .next (((u.pass p.slot p.retire).present h j p.va (c / 4) ok).registerStore h p))
      | none => (match s.takeIn h j p.va (c / 4) .write none p.frame with
        | .ready v => .next ((v.taken n).registerStore h p)
        | .asks => .next (s.askFor p.slot j p.va .write)
        | .holds => .next s
        | .gone => .next (u.post (.ack p.slot true p.proxied.isNone [] p.array)))
  | _ => .next s

/-- The proxy's copy of a sector takes the bytes of a registration of whole words. One of a part of a word drops the copy, whose
other bytes of that word may be older than what the home holds by the time the registration gets there (R285, R313). -/
def State.updateProxy (s : State) (q : Place) (va : Nat) (bs : List Byte) : State :=
  let whole : Bool := va % 8 == 0 && bs.length % 8 == 0
  match storeGet noProxy s.proxyCopies (q.sectorKey va) with
  | some old => { s with
      proxyCopies := storeSet noProxy s.proxyCopies (q.sectorKey va)
        (if whole then some (spliceBytes old (va - sectorStart va) bs) else none) }
  | none => s

/-- The other cores of a core's die no longer own some words. -/
def State.disown (s : State) (c : Nat) (ws : List Nat) : State :=
  ((s.cores.map (·.1)).filter fun d => d != c && dieOfTile (d / 4) == dieOfTile (c / 4)).foldl
    (fun (u : State) d => ws.foldl (fun (v : State) w => v.setOwned d w false) u) s

/-- The die's proxy acknowledges a registration, updates its copy and forwards it: the packet stays in its place, with the move in
which the proxy took it (R136, R285). -/
def State.proxyStore (s : State) (n : Nat) (q : Place) (p : StorePacket) (f : Option Backing) : State :=
  let c := coreOfSlot p.slot
  let s1 := (s.pass p.slot p.retire).updateProxy q p.va p.bytes
  let s2 := if p.retire.isSome then s1.l1Write c (p.va / 8) (p.va % 8) p.bytes else s1
  let s3 := s2.disown c (wordsOf p.va p.bytes.length)
  { s3 with net := s3.net.set n (.store { p with proxied := some s.moves, frame := f, retire := none }) }.post
    (.ack p.slot false true [] false)

/-- PROXY_REGISTRATION: a store to a home on another die reaches its die's proxy (R136, R285). -/
def execProxyRegistration (n : Nat) (s : State) : Result :=
  match s.net[n]? with
  | some (.store p) =>
    let j := (s.slot p.slot).job
    let h := s.homeOf j p.va
    if p.proxied.isSome || !s.arrivesNext n || !s.isOurs p.va then .next s
    else match s.proxyFor j (tileOfSlot p.slot) p.va with
      | none => .next s
      | some q =>
        if p.retire.isNone then .next (s.proxyStore n q p p.frame)
        else match s.homeCheck h p.va .write none with
          | .miss => .next (s.askFor p.slot j p.va .write)
          | .busy => .next s
          | .fails cause => .next ((s.taken n).failCheck p.slot cause.toNat (wordOf p.va))
          | ok => .next (s.proxyStore n q p (ok.backing s h p.va))
  | _ => .next s

/-- STORE_ACK: an acknowledgement reaches its slot: opc and odc fall. It follows the revokes of its words that came before it, and a
home's the proxy's, so that odc never exceeds opc (R136, R283). -/
def execStoreAck (n : Nat) (s : State) : Result :=
  match s.net[n]? with
  | some (.ack slot package die words array) =>
    let waits := (s.net.take n).any fun q => match q with
      | .revoke _ w => words.contains w
      | .ack m pk _ _ _ => m == slot && !pk && !die
      | _ => false
    if waits then .next s
    else
      let u := (s.taken n).onSlot slot fun x =>
        { x with opc := if package then x.opc - 1 else x.opc, odc := if die then x.odc - 1 else x.odc }
      .next (if array && package then u.ackArray slot else u)
  | _ => .next s

/-- REVOKE: a core loses the ownership of a word; its copy stays until its next acquire (R283). -/
def execRevoke (n : Nat) (s : State) : Result :=
  match s.net[n]? with
  | some (.revoke core word) => .next ((s.taken n).setOwned core word false)
  | _ => .next s

/-! ## Near accesses and atomics (R134, R147, R366) -/

/-- NEAR_ACCESS: a load or store reaches another core's scratchpad, which checks it as it accepts it (R161); the issuer's L1
takes what a load reads and keeps up with what a store writes (R134, R136, R140). -/
def execNearAccess (n : Nat) (s : State) : Result :=
  match s.net[n]? with
  | some (.near p) =>
    let j := (s.slot p.slot).job
    let c := coreOfSlot p.slot
    let lost := s.lostTile j p.core
    let reads := match p.kind with | .load _ _ => true | .store _ => false
    let check := if lost then .ready else s.leafCheckAt p.core p.offset p.size reads p.accepted none
    if !s.arrivesNext n then .next s
    else match check with
      | .wait => .next (if p.accepted.isSome then s
        else s.accepts n p.core p.offset p.slot p.retire (.near { p with retire := none, accepted := some s.moves }))
      | .off => .next ((s.taken n).failCheck p.slot 0x05 p.ea)
      | .ready =>
        let u := ((s.taken n).pass p.slot p.retire).chargeNear c p.core p.size
        match p.kind with
        | .load sg acquire =>
          let bs := if lost then List.replicate p.size 0 else s.scratch p.core p.offset p.size
          let u1 := (if lost then u else u.l1Fill c (u.nearSector p.core p.offset (u.scratchSize j))).landOn p.slot p.dst
            (loadWords sg bs)
          .next (if acquire then u1.acquire c true else u1)
        | .store bs =>
          let u1 := if lost then u else u.putScratch p.core p.offset bs
          let u2 := if lost then u1 else u1.l1Refresh c (u1.nearSector p.core p.offset (u1.scratchSize j)) []
          .next (u2.post (.ack p.slot true true [] false))
  | _ => .next s

/-- An owner loses a word, and its L1 no longer holds it; an owner in another package is sent the revoke (R147, R283). -/
def State.recallOwner (s : State) (w : Nat) (o : Owner) : State :=
  if o.package = s.pkgid then s.l1Forget o.core w 8 else 
    { s with peerRevokes := { owner := o, word := w, recalled := true } :: s.peerRevokes }

/-- Every owner of the words of an atomic loses them (R147, R283). -/
def State.recall (s : State) (h : Place) (va n : Nat) : State :=
  match s.sectorAt h va with
  | none => s
  | some x =>
    let base := sectorStart va / 8
    let ws := wordsOf va n
    let s1 := ws.foldl (fun (u : State) w => match storeGet noOwner x.owners (w - base) with
      | some o => u.recallOwner w o
      | none => u) s
    let y := { x with owners := ws.foldl (fun o w => storeSet noOwner o (w - base) none) x.owners }
    { s1 with l2 := storeSet noSector s1.l2 (h.sectorKey va) (some y) }

/-- An atomic's result goes back, unless its thread has left (R147, R260). -/
def State.replyAtomic (s : State) (p : AtomicPacket) (o : AtomicOutcome) : State :=
  let s1 := s.pass p.slot p.retire
  if p.departed then s1 else s1.post (.atomicReply p.slot p.dst o.vals o.flags p.acquire)

/-- The home performs an atomic on a sector it holds: it recalls the bytes, reads, computes and writes, and the issuer's L1 drops
what it holds of them (R147, R283, R291). -/
def State.atomicAtHome (s : State) (h : Place) (j : Nat) (p : AtomicPacket) : State :=
  let c := coreOfSlot p.slot
  let size := atomicSize p.op
  let s1 := (((s.recall h p.addr size).dropProxy j p.slot p.addr).l1Forget c (p.addr / 8) size).chargeSlice h (c / 4) size
  let o := atomicOutcome p.op p.frm (s1.homeBytes h p.addr size) p.operands
  ((s1.merge h p.addr o.bytes none).letGo h p.addr).replyAtomic p o

/-- ATOMIC_PERFORM: an atomic is performed at its home or scratchpad as one indivisible step (R147-R151); `peer` answers for
another package, with the words that stood there. A scratchpad checks it as its core accepts it (R161), and one that was checked
before completes under the translation of its check (R134, R296). -/
def execAtomicPerform (n : Nat) (peer : PeerAnswer) (s : State) : Result :=
  match s.net[n]? with
  | some (.atomic p) =>
    let j := ((s.tile (tileOfSlot p.slot)).owner).getD 0
    let c := coreOfSlot p.slot
    let size := atomicSize p.op
    let u := s.taken n
    if !s.arrivesNext n then .next s
    else match p.core with
      | some tc =>
        let lost := s.lostTile j tc
        (match (if lost then .ready else s.leafCheckAt tc p.addr size true p.accepted none) with
        | .wait => .next (if p.accepted.isSome then s
          else s.accepts n tc p.addr p.slot p.retire (.atomic { p with retire := none, accepted := some s.moves }))
        | .off => .next (u.failCheck p.slot 0x05 p.ea)
        | .ready =>
          let o := atomicOutcome p.op p.frm (s.scratch tc p.addr size) p.operands
          let zero : AtomicOutcome := { bytes := [], vals := o.vals.map fun _ => 0, flags := noFlags }
          let u1 := (u.chargeNear c tc size).l1Forget c (nearWord tc p.addr) size
          .next (if lost then u1.replyAtomic p zero else (u1.putScratch tc p.addr o.bytes).replyAtomic p o))
      | none =>
        let h := s.homeOf j p.addr
        if s.ownStoreAhead n p.slot p.addr size || s.ownReadAhead n p.slot p.addr size then .next s
        else if !s.isOurs p.addr then
          (match peer with
          | .none => .next s
          | .fails cause => .next (u.failCheck p.slot cause.toNat p.ea)
          | .words ws => .next ((u.l1Forget c (p.addr / 8) size).replyAtomic p
              (atomicOutcome p.op p.frm (bytesWithin ws p.addr size) p.operands)))
        else if s.proxiedAhead (dieOfTile (c / 4)) p.addr none || s.armed p.addr then .next s
        else if p.retire.isNone then
          (match s.takeIn h j p.addr (c / 4) .atomic (atomicOpOf p.op) p.frame with
          | .ready v => .next ((v.taken n).atomicAtHome h j p)
          | .asks => .next (s.askFor p.slot j p.addr .atomic)
          | .holds => .next s
          | .gone => .next s)
        else match s.homeCheck h p.addr .atomic (atomicOpOf p.op) with
          | .miss => .next (s.askFor p.slot j p.addr .atomic)
          | .busy => .next s
          | .fails cause => .next (u.failCheck p.slot cause.toNat p.ea)
          | ok => .next ((u.present h j p.addr (c / 4) ok).atomicAtHome h j p)
  | _ => .next s

/-- ATOMIC_REPLY: the old value lands, with the flags of amo.fadd; an acquire invalidates (R147, R150). -/
def execAtomicReply (n : Nat) (s : State) : Result :=
  match s.net[n]? with
  | some (.atomicReply slot dst vals flags acquire) =>
    if !s.canLand slot dst || s.pairHolds slot then .next s
    else
      let u := ((s.taken n).onSlot slot fun x =>
        let y := x.landAll dst vals
        { y with fsr := y.fsr ||| flags }).logInput slot vals
      .next (if acquire then u.acquire (coreOfSlot slot) true else u)
  | _ => .next s

/-! ## The walker (R295, R299) -/

/-- The word of a page-table entry once it has been used: A set, D for a write (R294, R295). -/
def touched (w : Word) (writes : Bool) : Word := w ||| 0x10 ||| (if writes then 0x20 else 0)

/-- Tell one requester that its request failed (R295, R299). -/
def State.walkFails (s : State) (r : WalkRequest) (cause : Nat) : State :=
  match r.who with
  | .slot n => match (s.slot n).unchecked with
    | some u => if u.va / 65536 == r.va / 65536 then s.failCheck n cause (wordOf r.va) else s
    | none => s
  | .copy c id => s.onCopy c id fun x => { x with status := some (BitVec.ofNat 8 cause) }
  | .enqueue c record =>
    let mine (p : Packet) : Bool := match p with
      | .enqueue q => q.core == c && q.record == record
      | _ => false
    match s.net.findIdx? mine with
    | none => s
    | some i => match s.net[i]? with
      | some (.enqueue q) => (s.taken i).enqueueFails q cause
      | _ => s
  | .ring _ => s

/-- A requester waits for the host's notice of a page fault by itself (R240, R252). -/
def State.awaitNotice (s : State) (r : WalkRequest) (seq : Nat) : State :=
  match r.who with
  | .slot _ => s.walkFails r 0x09
  | .copy c id => s.onCopy c id fun x => { x with fault := some seq, notice := none }
  | .enqueue c record => { s with
      net := s.net.map fun p => match p with
      | .enqueue q => if q.core == c && q.record == record then .enqueue { q with fault := some seq, notice := none } else p
      | _ => p }
  | .ring _ => s

/-- A page fault of one request: the record, then the requester (R299). -/
def State.walkFaults (s : State) (r : WalkRequest) : State :=
  match s.job r.job with
  | none => s
  | some x =>
    let k := match r.who with
      | .slot _ => r.kind
      | _ => .copy
    let s1 := s.recordFault x.tenant r.job r.va k [r.who]
    let seq := match (s1.tenant x.tenant).faults.find? fun f => f.va / 65536 == r.va / 65536 && f.job == r.job with
      | some f => f.seq
      | none => 0
    s1.awaitNotice r seq

/-- A requester whose page is translated goes on: a slot that waits to issue again does so. -/
def State.walkDone (s : State) (r : WalkRequest) : State :=
  match r.who with
  | .slot n => s.onSlot n fun x => match x.unchecked with
    | some u => if u.retry && u.va / 65536 == r.va / 65536 then { x with unchecked := none } else x
    | none => x
  | _ => s

/-- The rights that a walker finds missing (R295). -/
def Translation.lacks (t : Translation) (k : AccKind) : Bool := !t.allows k

/-- A malformed entry is reported to the host (R295; assumption 18). -/
def State.reportMalformed (s : State) (at_ : Nat) : State :=
  { s with malformed := (at_, s.physWord at_) :: s.malformed }.onTenant physicalFunction fun t =>
    { t with sentMsix := 2 :: t.sentMsix }

/-- WALKER_TRANSLATION: the walker of a mailbox decides the requests of its oldest page; its update of an entry in an armed granule
waits for the copy (R295, R386). -/
def execWalkerTranslation (core : Nat) (s : State) : Result :=
  let tile := core / 4
  match storeGet noWalks (s.tile tile).mailboxes (core % 4) with
  | [] => .next s
  | first :: others =>
    let page := first.va / 65536
    let rs := (first :: others).filter fun r => r.va / 65536 == page
    let s1 := (s.onTile tile fun t => { t with
      mailboxes := storeSet noWalks t.mailboxes (core % 4) ((first :: others).filter fun r => r.va / 65536 != page) }).askAgain tile
    match s.walk first.slice first.va with
    | .invalid => .next (rs.foldl State.walkFaults s1)
    | .malformed at_ =>
      .next (rs.foldl (fun (u : State) r => u.walkFails r 0x08) (s1.reportMalformed at_))
    | .leaf at_ t =>
      let good := rs.filter fun r => !t.lacks r.kind
      let bad := rs.filter fun r => t.lacks r.kind
      let writes := good.any fun r => r.kind.writes
      let s2 := bad.foldl (fun (u : State) r => u.walkFails r 0x08) s1
      if good = [] then .next s2
      else if s.armedAt at_ != [] then .next s
      else
        let s3 := (s2.setEntry at_ (touched (s2.physWord at_) writes)).cacheTranslation tile
          { t with dirty := t.dirty || writes }
        .next (good.foldl State.walkDone s3)

end Sys2Proof.Machine
end

