-- ==== Sys2Proof/Machine/Heap.lean ====
section
/-! DEFINITION. The managed heap: references and the read barrier (R267-R271), allocation and pins (R272, R273), and the
Calender (R274, R301-R303). -/

namespace Sys2Proof.Machine

/-! ## References and objects (R267, R268) -/

/-- The reference of an object at a global address (R267). -/
def refOf (epoch : BitVec 4) (tag o : Nat) : Word :=
  wordOf (0xF2 * 2 ^ 56 + epoch.toNat * 2 ^ 52 + tag * 2 ^ 48 + o / 16 % 2 ^ 44 * 16)

/-- EPOCH of a reference. -/
def refEpoch (r : Word) : BitVec 4 := BitVec.ofNat 4 (fieldOf r 52 4)
/-- TAG of a reference. -/
def refTag (r : Word) : Nat := fieldOf r 48 4

/-- A heap address of this package: OBJ · 16 below its package field (R267). -/
def State.heapAddress (s : State) (obj : Nat) : Nat := s.pkgid.toNat * 2 ^ 50 + 16 * obj

/-- The states of an object's header (R268). -/
inductive ObjState where
  | normal | moving | forwarded
  deriving DecidableEq, Repr

/-- An object header (R268). -/
structure Header where
  size : Nat
  cls : Nat
  state : ObjState
  pins : Nat
  fwd : Nat                         -- new object address / 16
  deriving DecidableEq, Repr

/-- The header that two words give; the reserved STATE reads as NORMAL. -/
def headerOf (w0 w1 : Word) : Header :=
  { size := fieldOf w0 32 32, cls := fieldOf w0 0 32, pins := fieldOf w1 44 16, fwd := fieldOf w1 0 44,
    state := if fieldOf w1 62 2 = 1 then .moving else if fieldOf w1 62 2 = 2 then .forwarded else .normal }

/-- The two words of a header. -/
def Header.words (h : Header) : List Word :=
  [wordOf (h.size * 2 ^ 32 + h.cls),
   wordOf ((match h.state with | .normal => 0 | .moving => 1 | .forwarded => 2) * 2 ^ 62 + h.pins * 2 ^ 44 + h.fwd)]

/-! ## Heap pages (R268, R301) -/

/-- HSTATE of a page (R294). -/
def pageNormal : BitVec 2 := 0
/-- A page whose objects are being moved away. -/
def pageFrom : BitVec 2 := 1
/-- A page that objects are being moved to. -/
def pageTo : BitVec 2 := 2

/-- The heap page of an address as the tables give it, with the place of its entry. -/
def State.heapLeaf (s : State) (va : Nat) : Option (Nat × Translation) :=
  match s.walk 0 va with
  | .leaf at_ t => if t.heap then some (at_, t) else none
  | _ => none

/-- HeapPage of the read barrier: from the core's cache of 64 pages, or from the tables, in a region that the job may read
(R269, R301). -/
def State.heapPage (s : State) (n va : Nat) : Option HeapPage :=
  let c := coreOfSlot n
  if !isUserSlot n || !s.isOurs va || !s.permits c (s.slot n).job .read va then none
  else match (s.core c).heapCache.find? fun p => p.page == va / 65536 with
    | some p => some p
    | none => (s.heapLeaf va).map fun e => { page := va / 65536, hstate := e.2.hstate, epoch := e.2.epoch }

/-- Keep a heap page in the core's cache. -/
def State.keepHeapPage (s : State) (n : Nat) (p : HeapPage) : State :=
  s.onCore (coreOfSlot n) fun k =>
    if k.heapCache.contains p then k else { k with heapCache := (p :: k.heapCache).take 64 }

/-! ## The read barrier (R269) -/

/-- What reading a header at its home gives a slot. -/
inductive HeaderTry where
  | ok (h : Header) (s : State)
  | stop (s : State)

/-- Some store on its way writes bytes of a range, one of the slot itself or one that the proxy of its die has acknowledged, or an
earlier load or atomic of the slot of these bytes is on its way (R137, R285, R306). -/
def State.storeComing (s : State) (n va size : Nat) : Bool := s.net.any fun p => match p with
  | .store q => (q.slot == n || (q.proxied.isSome && dieOfTile (tileOfSlot q.slot) == dieOfTile (tileOfSlot n)))
      && rangesMeet q.va q.bytes.length va size
  | .load q => q.slot == n && rangesMeet q.va q.size va size
  | .forwarded q _ => q.slot == n && rangesMeet q.va q.size va size
  | .atomic q => q.slot == n && q.core.isNone && rangesMeet q.addr (atomicSize q.op) va size
  | _ => false

/-- Read an object's header at its home for a slot, with the rights that an access asks for. -/
def State.header (s : State) (n o : Nat) (k : AccKind) : HeaderTry :=
  let x := s.slot n
  let c := coreOfSlot n
  let h := s.homeOf x.job o
  if !s.permits c x.job k o then .stop (s.raise n 0x08 (wordOf o))
  else if s.storeComing n o 16 then .stop (s.waits n)
  else match s.homeCheck h o k none with
    | .miss => .stop (s.pageMiss n o k)
    | .busy => .stop (s.waits n)
    | .fails cause => .stop (s.raise n cause.toNat (wordOf o))
    | ok =>
      let t := (s.keepProtection c x.job o).present h x.job o (c / 4) ok
      let w (i : Nat) : Word := wordOf (natOfBytes (t.homeBytes h (o + 8 * i) 8))
      .ok (headerOf (w 0) (w 1)) t

/-- What the read barrier gives: the object, its page and its reference, or the state the slot is left in. -/
inductive Deref where
  | ok (o : Nat) (page : HeapPage) (r : Word) (s : State)
  | stop (s : State)

/-- The read barrier (R269). -/
def State.deref (s : State) (n : Nat) (r : Word) : Deref :=
  if r = 0 then .stop (s.raise n 0x0B 0)
  else if regionOf r != 0xF2 || fieldOf r 0 4 != 0 then .stop (s.raise n 0x0B r)
  else
    let o := s.heapAddress (fieldOf r 4 44)
    match s.heapPage n o with
    | none => .stop (s.raise n 0x0B r)
    | some p =>
      let s1 := s.keepHeapPage n p
      if 2 ≤ (p.epoch - refEpoch r).toNat then .stop (s.raise n 0x0B r)
      else if p.hstate != pageFrom then .ok o p r s1
      else match s1.header n o .read with
        | .stop t => .stop t
        | .ok h t =>
          if h.state != .forwarded then .ok o p r t
          else
            let o2 := s.heapAddress h.fwd
            match t.heapPage n o2 with
            | none => .stop (s.raise n 0x0B r)
            | some q => .ok o2 q (refOf q.epoch (refTag r) o2) (t.keepHeapPage n q)

/-- The rewrite of the reference register that a reference came from (R269). -/
def rewrite (h : HReg) (before after : Word) : List (RegLoc × Word) :=
  if before = after then [] else [(.href h.toNat, after)]

/-! ## Forms with reference registers (R17, R245) -/

/-- The place of a reference register. -/
def hplace (h : HReg) : RegLoc := .href h.toNat

/-- A heap form: the checks of its general registers; then it waits for the reference registers that it reads or writes to
be FULL (R17, R23). -/
def State.heapForm (s : State) (i : Instr) (u : Named) (addresses : List Reg) (hs : List HReg)
    (f : Slot → List Word → Bool → State) : State :=
  s.longForm i u addresses fun x v misuse =>
    if hs.any fun h => (x.cell (hplace h)).pres != .full || (x.cell (hplace h)).owed then s.waits s.focus
    else f x v misuse

/-- An object's word that an instruction of R270 names. -/
inductive ObjectWord where
  | ok (o : Nat) (page : HeapPage) (h : Header) (va : Nat) (r : Word) (s : State)
  | stop (s : State)

/-- The word at an offset of the object that a reference names (R270). -/
def State.objectWord (s : State) (n : Nat) (ref : Word) (f : Nat) : ObjectWord :=
  match s.deref n ref with
  | .stop t => .stop t
  | .ok o p r t =>
    if f % 8 != 0 then .stop (s.raise n 0x06 (wordOf (o + 16 + f)))
    else match t.header n o .read with
      | .stop t2 => .stop t2
      | .ok h t2 => if h.size < f + 8 then .stop (s.raise n 0x0B r) else .ok o p h (o + 16 + f) r t2

/-- The access of an object's word, as `ld.64` or `st.64` (R270). -/
def State.wordAccess (s : State) (n va : Nat) (dst : List RegLoc) (dead : List RegLoc) (misuse : Bool) (word : Word)
    (puts : List (RegLoc × Word)) : Access :=
  { slot := n, ea := wordOf va, target := s.target n (wordOf va) 8 8, size := 8, dst := dst, dead := dead, misuse := misuse,
    word := word, puts := puts }

/-- A store of a slot to a word of a MOVING object is held (R271). -/
def State.holdsStore (s : State) (n o f : Nat) : Bool :=
  s.calenders.any fun e => e.2.any fun r => (match r.moving with | some (q, _) => q == o | none => false)
    && r.held.any fun x => x.slot == n && x.offset == f

/-- Load a word of an object into a place (R270); the register the object came from is rewritten, unless the load lands
there. It waits for a store of the slot that is held for that word, so that it never returns an older value (R137, R318). -/
def State.loadObject (s : State) (ha : HReg) (f : Nat) (dst dead : List RegLoc) (misuse : Bool) (word : Word) : State :=
  let n := s.focus
  let ref := (s.slot n).hval ha
  match s.objectWord n ref f with
  | .stop t => t
  | .ok o _ _ va r t =>
    let puts := (rewrite ha ref r).filter fun e => !dst.contains e.1
    if s.holdsStore n o f then s.waits n
    else t.loadAccess (t.wordAccess n va dst dead misuse word puts) false .plain false

/-- Add a held store to the range that moves an object (R271). -/
def holdStore (o : Nat) (x : HeldStore) (rs : List CompactRange) : List CompactRange :=
  rs.map fun r => match r.moving with
    | some (q, _) => if q == o then { r with held := r.held ++ [x] } else r
    | none => r

/-- Change the ranges of every die. -/
def State.onCalenders (s : State) (f : List CompactRange → List CompactRange) : State :=
  { s with calenders := (List.range 4).foldl (fun m d => storeSet noRange m d (f (storeGet noRange m d))) s.calenders }

/-- Store a word of an object (R270); on a MOVING object the store is checked, held until the relocation ends, and the
register that names the object is owed (R271). -/
def State.storeObject (s : State) (t : State) (h : HReg) (ref v : Word) (f : Nat) (dead : List RegLoc) (misuse : Bool)
    (word : Word) (others : List (RegLoc × Word)) : State :=
  let n := s.focus
  match t.objectWord n ref f with
  | .stop u => u
  | .ok o p hd va r u =>
    let puts := others.filter (fun e => e.1 != hplace h) ++ rewrite h ref r
    if p.hstate == pageFrom && hd.state == .moving then
      if misuse then u.checkGlobal n va .write none fun w => w.raise n 0x0E word
      else if (s.slot n).storesFull then s.waits n
      else u.checkGlobal n va .write none fun w =>
        (w.onSlot n fun y => y.retire { y.next dead [hplace h] 1 with
          puts := others.filter fun e => e.1 != hplace h }).onCalenders
          (holdStore o { slot := n, href := h.toNat, ref := r, offset := f, val := v })
    else u.storeAccess (u.wordAccess n va [] dead misuse word puts) (bytesOfNat 8 v.toNat)

/-- `ldref` (R270). -/
def execLdref (d a : HReg) (b : Reg) (lb : Bool) (s : State) : Result :=
  let i := Instr.ldref d a b lb
  .next (s.heapForm i { reads := [(b, lb)], dests := [], also := [] } [b] [d, a] fun x v misuse =>
    s.loadObject a (v.getD 0 0).toNat [hplace d] (x.lastUses [(b, lb)]) misuse i.word)

/-- `stref`: the stored reference passes the read barrier first, unless it is null (R270). -/
def execStref (d : HReg) (a : Reg) (b : HReg) (la : Bool) (s : State) : Result :=
  let i := Instr.stref d a b la
  .next (s.heapForm i (onlyA a la) [a] [d, b] fun x v misuse =>
    let n := s.focus
    let f := (v.getD 0 0).toNat
    let go (t : State) (r : Word) : State :=
      s.storeObject t d (x.hval d) r f (x.lastUses [(a, la)]) misuse i.word (rewrite b (x.hval b) r)
    if x.hval b = 0 then go s 0
    else match s.deref n (x.hval b) with
      | .stop t => t
      | .ok _ _ r t => go t r)

/-- `mvref` (R270). -/
def execMvref (d : HReg) (a : Reg) (la : Bool) (s : State) : Result :=
  let i := Instr.mvref d a la
  .next (s.heapForm i (onlyA a la) [a] [d] fun x v _ =>
    let n := s.focus
    let land (t : State) (r : Word) : State :=
      t.onSlot n fun y => y.retire { y.next (x.lastUses [(a, la)]) [] 0 with puts := [(hplace d, r)] }
    if v.getD 0 0 = 0 then land s 0
    else match s.deref n (v.getD 0 0) with
      | .stop t => t
      | .ok _ _ r t => land t r)

/-- What `refeq` compares: no object for null, else the object and its rewritten reference. -/
def State.refTarget (s : State) (n : Nat) (r : Word) : Deref :=
  if r = 0 then .ok 0 { page := 0, hstate := 0, epoch := 0 } 0 s else s.deref n r

/-- `refeq`: null names no object and passes no barrier (R270). -/
def execRefeq (d : Reg) (a b : HReg) (s : State) : Result :=
  let i := Instr.refeq d a b
  .next (s.heapForm i (writeD d) [] [a, b] fun x _ misuse =>
    let n := s.focus
    match s.refTarget n (x.hval a) with
    | .stop t => t
    | .ok oa _ ra t => match t.refTarget n (x.hval b) with
      | .stop u => u
      | .ok ob _ rb u =>
        if misuse then s.raise n 0x0E i.word
        else
          let same : Bool := (x.hval a == 0) == (x.hval b == 0) && oa == ob
          u.onSlot n fun y => (y.retire { y.next [] [] 0 with
            puts := rewrite a (x.hval a) ra ++ rewrite b (x.hval b) rb }).put d (if same then 1 else 0))

/-- `ldh` (R270). -/
def execLdh (d : Reg) (a : HReg) (imm : BitVec 11) (s : State) : Result :=
  let i := Instr.ldh d a imm
  .next (s.heapForm i (writeD d) [] [a] fun x _ misuse => s.loadObject a (8 * imm.toNat) (x.dst [d]) [] misuse i.word)

/-- `sth` (R270). -/
def execSth (a : HReg) (b : Reg) (imm : BitVec 11) (s : State) : Result :=
  let i := Instr.sth a b imm
  .next (s.heapForm i { reads := [(b, false)], dests := [], also := [] } [] [a] fun x v misuse =>
    s.storeObject s a (x.hval a) (v.getD 0 0) (8 * imm.toNat) [] misuse i.word [])

/-! ## Allocation and pins (R272, R273) -/

/-- Bytes of a global range cut at sector boundaries: each piece with its first va (R280). -/
def sectorPieces (va : Nat) (bs : List Byte) : Nat → List (Nat × List Byte)
  | 0 => []
  | fuel + 1 =>
    if bs = [] then []
    else
      let n := sectorStart va + sectorLen va - va
      (va, bs.take n) :: sectorPieces (va + n) (bs.drop n) fuel

/-- Register some stores of a new object of a slot (R136, R272; log 25). -/
def State.storeNew (s : State) (n : Nat) (pieces : List (Nat × List Byte)) : State :=
  let s1 := pieces.foldl (fun (u : State) e => (u.l1Write (coreOfSlot n) (e.1 / 8) (e.1 % 8) e.2).post
    (.store { slot := n, va := e.1, bytes := e.2, proxied := none, array := false, frame := u.frameOf (u.slot n).job e.1,
              retire := none })) s
  s1.onSlot n fun x => { x with opc := x.opc + pieces.length, odc := x.odc + pieces.length }

/-- Bytes of a new object whose stores a slot has delivered already (R272). -/
def Slot.allocated (x : Slot) (o size : Nat) : Nat :=
  match x.alloc with
  | some e => if e.at_ = o && e.size = size then e.done else 0
  | none => 0

/-- `newobj` (R272): its stores are delivered as opc has room, and it retires with the last of them (R136). -/
def execNewobj (d : HReg) (a b : Reg) (la lb : Bool) (s : State) : Result :=
  let i := Instr.newobj d a b la lb
  .next (s.heapForm i { reads := [(a, la), (b, lb)], dests := [], also := [] } [a, b] [d] fun x v _ =>
    let n := s.focus
    let size := ((v.getD 0 0).toNat + 15) / 16 * 16
    let o := x.hbump.toNat
    let done (t : State) (r : Word) (bump : Word) : State := t.onSlot n fun y =>
      { y.retire { y.next (x.lastUses [(a, la), (b, lb)]) [] 0 with puts := [(hplace d, r)] } with hbump := bump }
    match (if regionOf x.hbump = 0 then s.heapPage n o else none) with
    | none => s.raise n 0x0B x.hbump
    | some p =>
      if 65520 < size || x.hlim.toNat < o + 16 + size || o / 65536 != (o + 15 + size) / 65536 || p.hstate != pageNormal then
        done s 0 x.hbump
      else s.checkGlobal n o .write none fun t =>
        let h : Header := { size := size, cls := fieldOf (v.getD 1 0) 0 32, state := .normal, pins := 0, fwd := 0 }
        let bs := bytesOfWords h.words ++ List.replicate size 0
        let sofar := x.allocated o size
        let pieces := sectorPieces (o + sofar) (bs.drop sofar) (2 + bs.length / 16)
        let now := pieces.take (32 - x.opc)
        if now = [] then s.waits n
        else if pieces.length ≤ now.length then
          (done (t.keepHeapPage n p) (refOf p.epoch 0 o) (x.hbump + wordOf (16 + size))).storeNew n now
        else
          let rest : NewObject := { at_ := o, size := size, done := sofar + (now.map fun e => e.2.length).sum }
          (((t.keepHeapPage n p).storeNew n now).onSlot n fun y => { y with alloc := some rest }).waits n)

/-- Write an object's header at its home for a slot, no core owning it; what the slot's L1 and its die's proxy hold of it goes, so
that the slot reads its own write (R137, R273, R306). -/
def State.writeHeader (s : State) (n o : Nat) (h : Header) : State :=
  let j := (s.slot n).job
  let p := s.homeOf j o
  ((((s.recall p o 16).dropProxy j n o).l1Forget (coreOfSlot n) (o / 8) 16).merge p o (bytesOfWords h.words) none).letGo p o

/-- The indivisible step of `pin` and `unpin` at an object's header: it waits while the object is MOVING or its granule awaits
its pre-image (R273, R386). -/
def State.pinForm (s : State) (ha : HReg) (misuse : Bool) (word : Word) (go : Nat → Header → Header × Option Word)
    (d : Reg) : State :=
  let n := s.focus
  let ref := (s.slot n).hval ha
  match s.deref n ref with
  | .stop t => t
  | .ok o p r t => match t.header n o .atomic with
    | .stop u => u
    | .ok h u =>
      if misuse then s.raise n 0x0E word
      else if (p.hstate == pageFrom && h.state == .moving) || s.armed o then s.waits n
      else
        let (h2, v) := go o h
        let u1 := if h2 = h then u else u.writeHeader n o h2
        u1.onSlot n fun y =>
          let z := y.retire { y.next [] [] 0 with puts := rewrite ha ref r }
          match v with
          | some w => z.put d w
          | none => z

/-- `pin` (R273). -/
def execPin (d : Reg) (a : HReg) (s : State) : Result :=
  let i := Instr.pin d a
  .next (s.heapForm i (writeD d) [] [a] fun _ _ misuse => s.pinForm a misuse i.word (fun o h =>
    if h.pins = 65535 then (h, some 0) else ({ h with pins := h.pins + 1 }, some (wordOf (o + 16)))) d)

/-- `unpin` (R273). -/
def execUnpin (a : HReg) (s : State) : Result :=
  let i := Instr.unpin a
  .next (s.heapForm i { reads := [], dests := [], also := [] } [] [a] fun _ _ misuse =>
    s.pinForm a misuse i.word (fun _ h => ({ h with pins := h.pins - 1 }, none)) 0)

/-! ## The Calender (R274, R301-R303) -/

/-- The die of a heap page's frames: its affinity, or the die whose channel serves its first granule (R274, R289, R290). -/
def State.dieOfPage (s : State) (va : Nat) : Nat :=
  match s.heapLeaf va with
  | some (at_, t) =>
    let w := s.physWord at_
    if bitOf w 60 then fieldOf w 58 2 else s.dieOfAddress t.frame
  | none => 0

/-- The first page of a range that is no heap page of the job, or has no write right: the fault (R274). -/
def State.rangeFault (s : State) (n first count : Nat) : Option (Nat × Word) :=
  (List.range count).findSome? fun k =>
    let va := first + 65536 * k
    match (if va < 2 ^ 56 then s.heapPage n va else none) with
    | none => some (0x0B, wordOf va)
    | some _ =>
      let w : Bool := match s.heapLeaf va with
        | some (_, t) => t.w
        | none => false
      if w && s.permits (coreOfSlot n) (s.slot n).job .write va then none else some (0x08, wordOf va)

/-- `hcmp` (R274). -/
def execHcmp (d a b : Reg) (la lb : Bool) (s : State) : Result :=
  let i := Instr.hcmp d a b la lb
  .next (s.heapForm i (readAB d a b la lb) [a, b] [] fun x v misuse =>
    let n := s.focus
    let first := v.getD 0 0
    let w := v.getD 1 0
    let count := fieldOf w 0 16
    match (if regionOf first = 0 then s.target n first 65536 65536
        else .fails (if regionOf first = 0xF2 then 0x0B else 0x07) first) with
    | .fails cause e => s.raise n cause e
    | .scratch _ _ => s.raise n 0x07 first
    | .global va =>
      if fieldOf w 19 45 != 0 then s.raise n 0x01 i.word
      else match s.rangeFault n va count with
        | some (cause, e) => s.raise n cause e
        | none =>
          if misuse then s.raise n 0x0E i.word
          else
            let r := x.next (x.lastUses [(a, la), (b, lb)]) (x.dst [d]) 0
            if count = 0 then (s.onSlot n fun y => y.retire r).landOn n (x.dst [d]) [0]
            else
              let range : CompactRange :=
                { job := x.job, slot := n, dst := x.dst [d], pages := (List.range count).map fun k => va + 65536 * k,
                  targetDie := if bitOf w 18 then some (fieldOf w 16 2) else none, walk := none, moving := none,
                  toPages := [], count := 0, held := [] }
              let die := s.dieOfPage va
              { s with calenders := storeSet noRange s.calenders die (storeGet noRange s.calenders die ++ [range]) }.onSlot n
                fun y => y.retire r)

/-- Set HSTATE and HEPOCH of a page in its entry, then drop every cached translation and heap page of it (R301). -/
def State.setHeapPage (s : State) (va : Nat) (hstate : BitVec 2) (epoch : BitVec 4) : State :=
  match s.heapLeaf va with
  | none => s
  | some (at_, _) =>
    let w := (s.physWord at_).toNat
    let s1 := s.setEntry at_ (wordOf (w - bitsOf w 9 6 * 2 ^ 9 + hstate.toNat * 2 ^ 13 + epoch.toNat * 2 ^ 9))
    let page := va / 65536
    let s2 := (s1.tiles.map (·.1)).foldl (fun (u : State) t =>
      if (u.tile t).translations.any fun x => x.page / 65536 == page && x.size == 65536 then
        u.onTile t fun x => { x with translations := x.translations.filter fun y => !(y.page / 65536 == page && y.size == 65536) }
      else u) s1
    (s2.cores.map (·.1)).foldl (fun (u : State) c =>
      if (u.core c).heapCache.any fun p => p.page == page then
        u.onCore c fun k => { k with heapCache := k.heapCache.filter fun p => p.page != page }
      else u) s2

/-- Bytes of a heap page as they stand at their homes. -/
def State.heapBytes (s : State) (va n : Nat) : List Byte :=
  match s.heapLeaf va with
  | some (_, t) => s.physBytes (t.frame + va % 65536) n
  | none => List.replicate n 0

/-- Drop the copies of a range of global bytes that L1s and proxies hold. -/
def State.dropCopies (s : State) (va n : Nat) : State :=
  let near (k : Nat) : Bool := rangesMeet (k % 2 ^ 56) (sectorLen (k % 2 ^ 56)) va n
  let s1 := { s with proxyCopies := s.proxyCopies.filter fun e => !near e.1 }
  (s1.cores.map (·.1)).foldl (fun (u : State) c =>
    if (u.core c).l1.any fun e => rangesMeet (8 * e.1) 8 va n then
      u.onCore c fun k => { k with l1 := k.l1.filter fun e => !rangesMeet (8 * e.1) 8 va n }
    else u) s1

/-- Write bytes of a heap page at their homes on behalf of the Calender: no core owns them, and no copy is left. -/
def State.setHeapBytes (s : State) (j va : Nat) (bs : List Byte) : State :=
  match s.heapLeaf va with
  | none => s
  | some (_, t) =>
    let s1 := (wordsOf va bs.length).foldl (fun (u : State) w => u.recall (u.homeOf j (8 * w)) (8 * w) 8) s
    (s1.setPhysBytes (t.frame + va % 65536) bs).dropCopies va bs.length

/-- The header of an object as it stands at its home. -/
def State.headerNow (s : State) (o : Nat) : Header :=
  let bs := s.heapBytes o 16
  headerOf (wordOf (natOfBytes (bs.take 8))) (wordOf (natOfBytes (bs.drop 8)))

/-- Write an object's header on behalf of the Calender. -/
def State.setHeader (s : State) (j o : Nat) (h : Header) : State := s.setHeapBytes j o (bytesOfWords h.words)

/-- The objects of a page from one on, by header SIZE, to a header whose word 0 is zero or the end of the page (R302). -/
def State.objectsFrom (s : State) (o pageEnd : Nat) : Nat → List Nat
  | 0 => []
  | fuel + 1 =>
    let h := s.headerNow o
    if pageEnd < o + 16 || (h.size = 0 && h.cls = 0) || pageEnd < o + 16 + h.size then []
    else o :: s.objectsFrom (o + 16 + h.size) pageEnd fuel

/-- The objects of a page (R302). -/
def State.pageObjects (s : State) (page : Nat) : List Nat := s.objectsFrom page (page + 65536) 4096

/-- A page retires: bytes zeroed, epoch up, NORMAL, back to the reserve (R302). -/
def State.retirePage (s : State) (j page : Nat) : State :=
  match s.heapLeaf page with
  | none => s
  | some (_, t) =>
    let keys := (s.l2.filter fun e => match e.2 with
      | some x => !x.host && t.frame ≤ x.pa && x.pa < t.frame + 65536
      | none => false).map (·.1)
    let s1 := keys.foldl State.evict s
    let s2 := ((s1.setHbm t.frame (List.replicate 65536 0)).dropCopies page 65536).setHeapPage page
      pageNormal (t.epoch + 1)
    let die := s.dieOfPage page
    s2.onJob j fun x => { x with reserve := storeSet noPages x.reserve die (storeGet noPages x.reserve die ++ [page]) }

/-- Change the range at the head of a die's Calender. -/
def State.onRange (s : State) (die : Nat) (f : CompactRange → CompactRange) : State :=
  match storeGet noRange s.calenders die with
  | [] => s
  | r :: rest => { s with calenders := storeSet noRange s.calenders die (f r :: rest) }

/-- The range at the head of a die's Calender ends: its TO pages become NORMAL, and d lands with the objects moved (R302). -/
def State.endRange (s : State) (die : Nat) : State :=
  match storeGet noRange s.calenders die with
  | [] => s
  | r :: rest =>
    let s1 := r.toPages.foldl (fun (u : State) e => match u.heapLeaf e.1 with
      | some (_, t) => u.setHeapPage e.1 pageNormal t.epoch
      | none => u) s
    { s1 with calenders := storeSet noRange s1.calenders die rest }.landOn r.slot r.dst [wordOf r.count]

/-- The page-table entry of a heap page lies in an armed granule: its change waits for the copy (R386). -/
def State.entryArmed (s : State) (va : Nat) : Bool :=
  match s.heapLeaf va with
  | some (at_, _) => s.armedAt at_ != []
  | none => false

/-- The entry of a page that a range may change waits for its pre-image: of its current page, its TO pages, and those of the reserve
that it may take next (R386). -/
def State.rangeWaits (s : State) (r : CompactRange) : Bool :=
  let reserve := match s.job r.job with
    | some x => (List.range 4).filterMap fun d => (storeGet noPages x.reserve d).head?
    | none => []
  (r.pages.take 1 ++ r.toPages.map (·.1) ++ reserve).any s.entryArmed

/-- CALENDER_PAGE: the Calender turns to the page at the head of its range, or ends the range (R302). -/
def execCalenderPage (die : BitVec 2) (s : State) : Result :=
  let dn := die.toNat
  match storeGet noRange s.calenders dn with
  | [] => .next s
  | r :: _ =>
    if r.walk.isSome || s.rangeWaits r then .next s
    else match r.pages with
      | [] => .next (s.endRange dn)
      | page :: more =>
        let skip : State := s.onRange dn fun q => { q with pages := more }
        let begin_ (u : State) : State := u.onRange dn fun q => { q with walk := some page }
        match s.heapLeaf page with
        | none => .next skip
        | some (_, t) =>
          if t.hstate = pageTo then .next skip
          else if t.hstate = pageNormal then .next (begin_ (s.setHeapPage page pageFrom (t.epoch + 1)))
          else if (s.pageObjects page).all fun o => (s.headerNow o).state == .forwarded then
            (if s.armed page then .next s else .next (skip.retirePage r.job page))
          else .next (begin_ s)

/-- A place for a copy of some bytes in the TO pages that a range has taken on a die (R302). -/
def State.toPlace (s : State) (r : CompactRange) (n target : Nat) : Option Nat :=
  (r.toPages.find? fun e => s.dieOfPage e.1 == target && e.2 + n ≤ e.1 + 65536).map (·.2)

/-- Take a place in the range's TO pages on a die, or in a page of the job's reserve there, which becomes TO (R302). -/
def State.placeCopy (s : State) (die : Nat) (r : CompactRange) (n target : Nat) : Option (Nat × State) :=
  match s.toPlace r n target with
  | some o => some (o, s.onRange die fun q =>
      { q with toPages := updateFirst (fun e => e.2 == o) (fun e => (e.1, e.2 + n)) q.toPages })
  | none => match s.job r.job with
    | none => none
    | some x => match storeGet noPages x.reserve target with
      | [] => none
      | page :: rest =>
        let epoch := match s.heapLeaf page with | some (_, t) => t.epoch | none => 0
        let s1 := (s.setJob r.job { x with reserve := storeSet noPages x.reserve target rest }).setHeapPage page pageTo epoch
        some (page, s1.onRange die fun q => { q with toPages := q.toPages ++ [(page, page + n)] })

/-- Some store on its way writes bytes of a range. -/
def State.anyStoreTo (s : State) (va n : Nat) : Bool := s.net.any fun p => match p with
  | .store q => rangesMeet q.va q.bytes.length va n
  | _ => false

/-- Perform the stores that were held on a moving object at its copy and acknowledge them: whatever finds the object FORWARDED
finds them too (R311). Their registers land (R271, R303). -/
def State.releaseHeld (s : State) (r : CompactRange) (o : Nat) (forwarded : Bool) (epoch : BitVec 4) : State :=
  r.held.foldl (fun (u : State) x =>
    let ref := if forwarded then refOf epoch (refTag x.ref) o else x.ref
    ((u.setHeapBytes r.job (o + 16 + x.offset) (bytesOfNat 8 x.val.toNat)).post (.ack x.slot true true [] false)).landOn x.slot
      [.href x.href] [ref]) s

/-- The step of a relocation that follows MOVING: the copy, FWD and the commit, or the abort (R303). -/
def State.finishMove (s : State) (die : Nat) (r : CompactRange) (o new : Nat) (softError : Bool) : State :=
  let h := s.headerNow o
  let past : CompactRange → CompactRange := fun q =>
    { q with walk := some (o + 16 + h.size), moving := none, held := [], count := if softError then q.count else q.count + 1 }
  if softError then
    ((s.setHeader r.job o { h with state := .normal }).onRange die past).releaseHeld r o false 0
  else
    let epoch := match s.heapLeaf new with | some (_, t) => t.epoch | none => 0
    let copy : Header := { h with state := .normal, pins := 0, fwd := 0 }
    let s1 := s.setHeapBytes r.job new (bytesOfWords copy.words ++ s.heapBytes (o + 16) h.size)
    let s2 := s1.releaseHeld r new true epoch
    (s2.setHeader r.job o { h with state := .forwarded, fwd := new / 16 % 2 ^ 44 }).onRange die past

/-- RELOCATION: the object whose turn it is becomes MOVING, or the object that moves commits or aborts; a pinned or forwarded
one is passed over, and the page ends where its objects do (R302, R303). -/
def execRelocation (die : BitVec 2) (softError : Bool) (s : State) : Result :=
  let dn := die.toNat
  match storeGet noRange s.calenders dn with
  | [] => .next s
  | r :: _ => match r.moving, r.walk with
    | some (o, new), _ => .next (if s.armed o || s.armed new then s else s.finishMove dn r o new softError)
    | none, none => .next s
    | none, some o => if s.rangeWaits r then .next s else match r.pages with
      | [] => .next s
      | page :: more =>
          let h := s.headerNow o
          if (s.objectsFrom o (page + 65536) 1) = [] then
            .next (s.onRange dn fun q => { q with walk := none, pages := more })
          else if h.state = .forwarded || 0 < h.pins then
            .next (s.onRange dn fun q => { q with walk := some (o + 16 + h.size) })
          else if s.anyStoreTo o (16 + h.size) || s.armed o then .next s
          else match s.placeCopy dn r (16 + h.size) (r.targetDie.getD (s.dieOfPage page)) with
            | none => .next (s.endRange dn)
            | some (new, t) =>
              .next ((t.setHeader r.job o { h with state := .moving }).onRange dn fun q => { q with moving := some (o, new) })

end Sys2Proof.Machine
end

