-- ==== Sys2Proof/Machine/Territory.lean ====
section
/-! DEFINITION. Territories and the Deckle: `terr`, `press`, `pwr` (R275-R277), pressure (R349), decisions (R351-R356),
handlers and events (R357-R359), and the cession transaction (R360-R368). -/

namespace Sys2Proof.Machine

/-! ## terr, press, pwr (R275-R277) -/

/-- The shape of the territory of a slot's job as its tile sees it (R275). -/
def State.terrWord (s : State) (n : Nat) : Word :=
  let j := (s.slot n).job
  let ts := s.territory j
  let low (f : Nat → Nat) : Nat := ts.foldl (fun m t => min m (f t)) 31
  let high (f : Nat → Nat) : Nat := ts.foldl (fun m t => max m (f t)) 0
  match s.job j with
  | some x =>
    if !isUserSlot n then 0
    else wordOf (x.version % 2 ^ 16 * 2 ^ 48 + s.indexOfTile j (tileOfSlot n) * 2 ^ 38 + ts.length * 2 ^ 26
      + low tileX * 2 ^ 20 + low tileY * 2 ^ 15 + high tileX * 2 ^ 10 + high tileY * 2 ^ 5)
  | none => 0

/-- `terr` (R275). -/
def execTerr (d : Reg) (s : State) : Result :=
  .next (s.compute (.terr d) (writeD d) d fun _ _ => (s.terrWord s.focus, noFlags))

/-- A bias saturated to its range (R276). -/
def biasOf (w : Word) : BitVec 13 := BitVec.ofInt 13 (max (-4096) (min 4095 w.toInt))

/-- `press`: the pressure as it stood, then the bias; of several cores' writes in one core cycle the highest core's remains
(R276). DESIGN CHOICE equal counts of the cores' own clocks are one core cycle (assumption 6). -/
def execPress (d a : Reg) (la : Bool) (s : State) : Result :=
  let i := Instr.press d a la
  let n := s.focus
  let u := readA d a la
  .next (match s.operands n u i.word with
    | .stop t => t
    | .go v s1 =>
      let tile := s.tile (tileOfSlot n)
      let old : Word := tile.pressure.setWidth 64
      let now := (s.core (coreOfSlot n)).clock
      let s2 := if tile.pressed.1 = now && coreOfSlot n < tile.pressed.2 then s1
        else s1.onTile (tileOfSlot n) fun t => { t with bias := biasOf (v.getD 0 0), pressed := (now, coreOfSlot n) }
      s.deliver s2 n u [(d, old)] noFlags ((s.slot n).pc + 4) i.word)

/-- `pwr` (R277). -/
def execPwr (d : Reg) (s : State) : Result :=
  .next (s.compute (.pwr d) (writeD d) d fun _ _ => (s.pstat (coreOfSlot s.focus), noFlags))

/-! ## Pressure (R349) -/

/-- The demand of a tile (R349). -/
def State.demand (s : State) (t : Nat) : Int :=
  let x := s.tile t
  let arr := ((coresOfTile t).map fun c => (s.core c).arrivals.length + (s.core c).spill.length).sum
  16 * (x.seg0.length + x.seg1.length : Nat) + 4 * (min 4095 arr : Nat) + x.bias.toInt

/-- A pressure after one sample of a demand (R349). -/
def nextPressure (p : Nat) (d : Int) : Nat := (7 * p + (max 0 (min 65535 d)).toNat + 4) / 8

/-- A tile takes its sample; a period that ended since the last one enters ZRUN (R349, R370). -/
def State.sampleTile (s : State) (t : Nat) : State :=
  let p := nextPressure (s.tile t).pressure.toNat (s.demand t)
  let z := s.zrunOf t
  s.onTile t fun x =>
    { x with pressure := BitVec.ofNat 16 p, zrun := min 15 z, sampled := s.period
             zeroSoFar := p == 0 && (x.zeroSoFar || x.sampled != s.period) }

/-- PRESSURE_SAMPLE: at each multiple of 2,000 router cycles every tile takes its sample; a free tile's P stays 0 (R349). -/
def execPressureSample (s : State) : Result :=
  if s.cyc % 2000 = 0 && s.lastSample < s.cyc / 2000 then
    let owned := (s.tiles.filter fun e => e.2.owner.isSome).map (·.1)
    .next { owned.foldl State.sampleTile s with lastSample := s.cyc / 2000 }
  else .next s

/-! ## Device accesses to a job's memory (R357, R364) -/

/-- A word of a job's memory read fresh at its home, unless its page faults (R357). -/
def State.deviceWord (s : State) (va : Nat) : Option Word :=
  match s.walk 0 va with
  | .leaf _ t =>
    let pa := t.frame + (va - t.page)
    if !t.r || s.lacksFrame t.host pa then none else some (s.frameWord t.host pa)
  | _ => none

/-- Write a word of a job's memory at its home, as an atomic does, unless its page faults; the page becomes dirty (R295). The write
and that of the entry wait, within the step, for the copies of their granules that are armed (R386). -/
def State.setDeviceWord (s : State) (j va : Nat) (w : Word) : State :=
  match s.walk 0 va with
  | .leaf at_ t =>
    let pa := t.frame + (va - t.page)
    if !t.w || s.lacksFrame t.host pa then s
    else
      let s0 := (s.armedAt at_ ++ [va / 65536]).foldl (fun (u : State) g => u.preImage (65536 * g)) s
      let s1 := s0.setEntry at_ (touched (s0.physWord at_) true)
      (s1.recall (s1.homeOf j va) va 8).setFrameWord t.host pa w
  | _ => s

/-! ## Receive rings (R407) -/

/-- A job that a function's host may name: one of its tenant that has been started and has not ended (R402). -/
def State.hostJob (s : State) (v j : Nat) : Option Job := (s.job j).filter fun x => x.tenant == v

/-- The bytes of the receive ring of a function (R400). -/
def State.ringBytes (s : State) (v : Nat) : Option Nat :=
  let n := fieldOf (s.tenant v).rxcfg 0 6
  if 12 ≤ n && n ≤ 30 then some (2 ^ n) else none

/-- The words of a message in a ring: its descriptor, with the sending package and its tenant, then its payload padded to a
multiple of 16 bytes (R407). -/
def ringWords (m : NetMessage) : List Word :=
  let n := (m.payload.length + 15) / 16 * 2
  wordOf (m.package.toNat * 2 ^ 48 + m.source.toNat * 2 ^ 42 + m.tag.toNat) :: wordOf m.payload.length ::
    (List.range n).map fun k => wordOf (natOfBytes ((m.payload.drop (8 * k)).take 8))

/-- A job's memory can be written at an address: its page is mapped with W, its frame is there, and its domain permits it
(R240, R297, R415). -/
def State.deviceWrites (s : State) (x : Job) (va : Nat) : Bool :=
  (match s.walk 0 va with | .leaf _ t => t.w && !s.lacksFrame t.host (t.frame + (va - t.page)) | _ => false)
    && (let e := s.directoryEntry x va; e.generation == x.generation && e.rights.toNat.testBit 1)

/-- The page of an address is not mapped. -/
def State.unmapped (s : State) (va : Nat) : Bool := match s.walk 0 va with | .invalid => true | _ => false

/-- A message waits for a page of its tenant's ring, whose fault record is posted as a copy's is (R240, R299, R407). -/
def State.awaitPage (s : State) (v j va : Nat) (m : NetMessage) : State :=
  let s1 := s.recordFault v j va .copy [.ring v]
  let seq := match (s1.tenant v).faults.find? fun f => f.va / 65536 == va / 65536 && f.job == j with
    | some f => f.seq
    | none => 0
  { s1 with inbound := (s1.inbound.filter (·.tenant != v)) ++ [{ tenant := v, message := m, fault := seq }] }

/-- Write a message into a tenant's ring, as a copy's sectors are written, then TAIL past it. A page that is not mapped makes
it wait for the host's notice. One that does not fit, or whose ring may not be written, is left to its service (R240, R407;
log 61). HEAD and TAIL count bytes of the ring after its first 16 (log 32). -/
def State.receive (s : State) (v : Nat) (m : NetMessage) : State :=
  let j := fieldOf (s.tenant v).rxcfg 16 16
  let base := (s.tenant v).rxbase.toNat
  let ws := ringWords m
  match s.hostJob v j, s.ringBytes v with
  | some x, some size =>
    if s.unmapped base then s.awaitPage v j base m
    else match s.deviceWord base, s.deviceWord (base + 8) with
      | some tail, some head =>
        let room := size - 16
        let places := (List.range ws.length).map fun k => base + 16 + (tail.toNat + 8 * k) % room
        if room < (tail - head).toNat + 8 * ws.length then s
        else match places.find? s.unmapped with
          | some va => s.awaitPage v j va m
          | none =>
            if !(base :: places).all (s.deviceWrites x ·) then s
            else
              let s1 := (places.zip ws).foldl (fun (u : State) (e : Nat × Word) => u.setDeviceWord j e.1 e.2) s
              s1.setDeviceWord j base (tail + wordOf (8 * ws.length))
      | _, _ => s
  | _, _ => s

/-! ## Handlers and events (R357-R359) -/

/-- The slot that a handler cell's word 0 names, if its zero fields are zero (R357). -/
def handlerSlot (w : Word) : Option Nat :=
  if bitOf w 63 && fieldOf w 46 17 == 0 && fieldOf w 18 22 == 0 && fieldOf w 13 3 == 0 && fieldOf w 5 3 == 0
      && decide (fieldOf w 40 6 < 62) then
    some (256 * (32 * fieldOf w 8 5 + fieldOf w 0 5) + 64 * fieldOf w 16 2 + fieldOf w 40 6)
  else none

/-- The slot holds a thread of the job on a tile that the job owns (R357). -/
def State.holdsThread (s : State) (j n : Nat) : Bool :=
  (s.slot n).state != .free && (s.slot n).job == j && isUserSlot n && (s.tile (tileOfSlot n)).owner == some j

/-- The handler slot of a job to which an event is delivered now (R357). -/
def State.handlerOf (s : State) (j : Nat) : Option Nat :=
  match s.job j with
  | none => none
  | some x =>
    if x.handler = 0 then none
    else match s.deviceWord x.handler.toNat with
      | none => none
      | some w => (handlerSlot w).filter (s.holdsThread j ·)

/-- Deliver an event message to a job's handler, or count it lost (R357). -/
def State.tellHandler (s : State) (j type status id : Nat) (payload : Word) : State :=
  match s.job j with
  | none => s
  | some x =>
    if x.handler = 0 then s
    else match s.handlerOf j with
      | some n => s.postMessage j n type status id payload
      | none =>
        let va := x.handler.toNat + 8
        match s.deviceWord va with
        | some w => s.setDeviceWord j va (w + 1)
        | none => s

/-- The payload of a territory event (R358). -/
def eventPayload (other : Option Nat) (via tile : Nat) : Word :=
  wordOf ((match other with | some j => j % 65536 * 2 ^ 32 | none => 2 ^ 48) + via * 2 ^ 16 + tile)

/-- The version of a job's home table. -/
def State.versionOf (s : State) (j : Nat) : Nat := match s.job j with | some x => x.version | none => 0

/-! ## Decisions (R351-R356) -/

/-- A tile is free: no owner, and in stage REDUCED on die 0 (R348, R415). -/
def State.isFreeTile (s : State) (t : Nat) : Bool :=
  (s.tile t).owner.isNone && (s.stage != .reduced || dieOfTile t == 0)

/-- HYST of deckle (R350). -/
def State.hysteresis (s : State) : Nat := fieldOf s.deckle 16 16

/-- The job of a tile that may take part in decisions (R368). -/
def State.activeOwner (s : State) (t : Nat) : Option (Nat × Job) :=
  match (s.tile t).owner with
  | none => none
  | some j => match s.job j with
    | some x => if x.stopped then none else some (j, x)
    | none => none

/-- X bids for its edge-neighbour Y: the gap (R352). -/
def State.bidOf (s : State) (x y : Nat) : Option Nat :=
  match s.activeOwner x with
  | none => none
  | some (j, a) =>
    let gap := (s.tile x).pressure.toNat - (s.tile y).pressure.toNat
    let open_ : Bool := s.isFreeTile y || (match s.activeOwner y with | some (k, _) => k != j | none => false)
    if open_ && decide (s.hysteresis ≤ gap) && decide (a.count < a.ceiling) && !s.locked x then some gap else none

/-- The bid that Y takes: the largest gap, the first of N, E, S, W among equals (R353). -/
def State.bestBid (s : State) (y : Nat) : Option (Nat × Nat) :=
  (List.range 4).foldl (fun (best : Option (Nat × Nat)) d => match neighbour y d with
    | none => best
    | some x => match s.bidOf x y with
      | none => best
      | some g => match best with
        | none => some (x, g)
        | some (_, h) => if h < g then some (x, g) else best) none

/-- The tiles of a job among the eight neighbours of a tile (R355). -/
def State.jobRing (s : State) (j y : Nat) : List Nat :=
  (ringOf y).filter fun t => t != y && (s.tile t).owner == some j

/-- Grow a set of tiles by its edge-neighbours within a list, a number of times. -/
def growWithin (all : List Nat) : Nat → List Nat → List Nat
  | 0, xs => xs
  | fuel + 1, xs => growWithin all fuel (all.filter fun t => xs.contains t || xs.any fun u => adjacent t u)

/-- The connectivity test (R355). -/
def State.connected (s : State) (j y : Nat) : Bool :=
  let ring := s.jobRing j y
  match ring.filter (adjacent y ·) with
  | [] => false
  | first :: edges => let comp := growWithin ring 8 [first]; edges.all (comp.contains ·)

/-- HELD: a stage of the job on a core of the tile, or a lockstep pair (R354). -/
def State.heldTile (s : State) (x : Job) (y : Nat) : Bool :=
  x.lockstep || (coresOfTile y).any fun c => (s.core c).stages != []

/-- PINNED: the lines that its slices hold pinned, with the fetches of any tile that wait to pin there, exceed 512 (R354). -/
def State.pinnedTile (s : State) (y : Nat) : Bool :=
  let waiting := (s.tiles.map (·.1)).flatMap s.waitingPins
  512 < (s.pins.filter fun e => e.1 / 2 ^ 57 == y).length + (waiting.filter fun k => k / 2 ^ 57 == y).length

/-- The first reason for which Y, owned by B, refuses (R354). -/
inductive Refuse where
  | floor | conn | recent | held | pinned
  deriving DecidableEq, Repr

/-- The first reason that applies (R354). -/
def State.refusal (s : State) (j : Nat) (b : Job) (y : Nat) : Option Refuse :=
  if b.count = b.floor then some .floor
  else if !s.connected j y then some .conn
  else if s.ageOf y ≤ 7 then some .recent
  else if s.heldTile b y then some .held
  else if s.pinnedTile y then some .pinned
  else none

/-- One more event in a counter that saturates at 1,023 (R370). -/
def satCount (n : BitVec 10) : BitVec 10 := if n = 1023 then n else n + 1

/-- Count a refusal (R354, R370). -/
def countRefusal (r : Refusals) : Refuse → Refusals
  | .floor => { r with floor := satCount r.floor }
  | .conn => { r with conn := satCount r.conn }
  | .recent => { r with recent := satCount r.recent }
  | .held => { r with held := satCount r.held }
  | .pinned => { r with pinned := satCount r.pinned }

/-- The grace window of deckle in router cycles (R350). -/
def State.graceCycles (s : State) : Nat := fieldOf s.deckle 32 16 * 2000

/-- The threads of a job on a tile, in ascending order of core and slot. -/
def State.threadsOn (s : State) (j t : Nat) : List Nat :=
  ((coresOfTile t).flatMap slotsOfCore).filter fun n => isUserSlot n && (s.slot n).state != .free && (s.slot n).job == j

/-- A job's first edge-neighbour of a tile in the order N, E, S, W (R360). -/
def State.heirFor (s : State) (j y : Nat) : Option Nat :=
  (List.range 4).findSome? fun d => match neighbour y d with
    | some t => if (s.tile t).owner == some j then some t else none
    | none => none

/-- The contexts that a tile's cores hold, queued or spilled, go on to the same-numbered cores of another tile in their order
(R259, R360). -/
def State.sendContextsOn (s : State) (y heir : Nat) : State :=
  (coresOfTile y).foldl (fun (u : State) c =>
    let waiting := (u.core c).arrivals ++ u.spilled c
    let sent := waiting.map fun (q : Context) => Packet.context (4 * heir + c % 4) ({ q with poster := .core c } : Context) none []
    { u with net := u.net ++ sent }.onCore c fun k => { k with arrivals := [], spill := [], spillHead := 0 }) s

/-- A thread is on a tile when the tile's cession is decided (R359): the mark goes with it, in place of those of cessions that
are over. -/
def State.warn (s : State) (y n ending : Nat) : State :=
  s.onSlot n fun x => { x.pending 1 (wordOf ending) with
    warnings := (y, s.cyc) :: x.warnings.filter fun e => match (s.tile e.1).cession with
      | some z => z.decided == e.2
      | none => false }

/-- A cession or release of Y starts: the grace window and cause 0x11 on the losing job's threads there (R359, R360). -/
def State.startCession (s : State) (y bidder : Nat) (gainer loser : Option Nat) : State :=
  let ending := s.cyc + s.graceCycles
  let threads := match loser with
    | some b => s.threadsOn b y
    | none => []
  let heir := match loser with
    | some b => (s.heirFor b y).getD y
    | none => y
  let s1 := s.onTile y fun t => { t with
    cession := some { gainer := gainer, loser := loser, bidder := bidder, heir := heir, decided := s.cyc, graceEnd := ending,
                      moved := loser.isNone, emptied := loser.isNone } }
  let s2 := if loser.isSome then s1.sendContextsOn y heir else s1
  threads.foldl (fun (u : State) n => u.warn y n ending) s2

/-- Y may release itself (R356). -/
def State.mayRelease (s : State) (j : Nat) (b : Job) (y : Nat) : Bool :=
  decide (4 ≤ s.zrunOf y) && decide (b.floor < b.count) && s.connected j y && decide (7 < s.ageOf y) && !s.heldTile b y
    && !s.pinnedTile y && (List.range 4).any fun d => match neighbour y d with
      | some t => s.isFreeTile t
      | none => false

/-- The decision of a tile (R351-R356). -/
def State.deckleChoice (s : State) (y : Nat) : State :=
  match s.bestBid y with
  | some (x, _) => match s.activeOwner y with
    | some (j, b) => match s.refusal j b y with
      | some r => s.onTile y fun t => { t with refusals := countRefusal t.refusals r }
      | none => s.startCession y x (s.tile x).owner (some j)
    | none =>
      if s.ageOf y ≤ 7 then s.onTile y fun t => { t with refusals := countRefusal t.refusals .recent }
      else s.startCession y x (s.tile x).owner none
  | none => match s.activeOwner y with
    | some (j, b) => if s.mayRelease j b y then s.startCession y y none (some j) else s
    | none => s

/-- DECKLE_DECISION: at the first router cycle of its colour's sub-period an unlocked tile decides, once (R351). -/
def execDeckleDecision (tile : Nat) (s : State) : Result :=
  let sub := subPeriod s.deckle
  if tile < tileCount && bitOf s.deckle 63 && s.cyc == s.periodStart + colourOf tile * sub && !s.locked tile
      && (s.tile tile).decided != s.period + 1 then
    .next ((s.deckleChoice tile).onTile tile fun t => { t with decided := s.period + 1 })
  else .next s

/-! ## Renaming places -/

/-- Give the slots that senders name other numbers. -/
def Poster.rename (f : Nat → Nat) : Poster → Poster
  | .slot n => .slot (f n)
  | p => p

/-- Give the slots that packets name other numbers. -/
def Packet.rename (f : Nat → Nat) : Packet → Packet
  | .load p => .load { p with slot := f p.slot }
  | .forwarded p o => .forwarded { p with slot := f p.slot } o
  | .reply p => .reply { p with slot := f p.slot }
  | .store p => .store { p with slot := f p.slot }
  | .ack n a b w r => .ack (f n) a b w r
  | .revoke c w => .revoke c w
  | .near p => .near { p with slot := f p.slot }
  | .atomic p => .atomic { p with slot := f p.slot }
  | .atomicReply n a b c d => .atomicReply (f n) a b c d
  | .barrier p => .barrier { p with slot := f p.slot }
  | .barReply n v => .barReply (f n) v
  | .joinReply n v => .joinReply (f n) v
  | .message p => .message { p with sender := p.sender.map f, poster := p.poster.rename f }
  | .record t sl r => .record t sl { r with source := r.source.map f, poster := r.poster.rename f }
  | .enqueue p => .enqueue { p with slot := f p.slot }
  | .context c x n ls => .context c { x with poster := x.poster.rename f } (n.map f) ls
  | .dep p => .dep { p with slot := f p.slot }
  | .deque p => .deque { p with slot := f p.slot }
  | .plbFlush n d ls => .plbFlush n d ls

/-- Give the slots that requesters name other numbers. -/
def Requester.rename (f : Nat → Nat) : Requester → Requester
  | .slot n => .slot (f n)
  | .copy c id => .copy c id
  | .enqueue c r => .enqueue c r
  | .ring t => .ring t

/-- Give the slots that a function's fault records name other numbers. -/
def Tenant.rename (f : Nat → Nat) (t : Tenant) : Tenant :=
  { t with faults := t.faults.map fun r => { r with who := r.who.map (Requester.rename f) } }

/-! ## The grace window and the moves (R360-R363) -/

/-- The places in which a moving thread may land: the same-numbered core of N, else its lowest that has a FREE slot and a
window (R361). -/
def State.landingCore (s : State) (n heir : Nat) : Option Nat :=
  let size := (s.slot n).winSize
  let own := 4 * heir + coreOfSlot n % 4
  if s.canTake own size then some own else (coresOfTile heir).find? (s.canTake · size)

/-- The thread may move to a core: nothing that it waits for is outstanding, nor what it has seen by die reach where the core is on
another die (R310, R319; assumption 62); a result held until its leaf wakes goes with it (R112, R361). -/
def State.readyToMove (s : State) (n core : Nat) : Bool :=
  let x := s.slot n
  let mine (p : Packet) : Bool := p.slot == some n && (match p with
    | .message _ => false
    | .record _ _ _ => false
    | _ => true)
  !x.anyOwed (x.leaseDst ++ x.held.map (·.1)) && !s.vectorPending n && !(s.tile (tileOfSlot n)).arrayOps.any (fun o => o.slot == n)
    && x.opc == 0 && x.unchecked.isNone && !s.net.any mine && !s.seesAhead n core

/-- A thread's state as it travels: without bindings, lease, window base (R361). -/
def Slot.travelling (x : Slot) (base : Nat) : Slot :=
  let y := x.bindings.foldl (fun (z : Slot) (b : Binding) =>
    z.setCell (.win b.reg.toNat) { val := 0, pres := .dead, owed := false }) x
  { y with bindings := [], lease := .none, budget := 0, remain := 0, leaseDst := [], winBase := base, waiting := none }

/-- The inbox of a core as further messages join it, where each finds room (R176). -/
def inboxTakes : List Message → List Message → Option (List Message)
  | box, [] => some box
  | box, m :: ms => if inboxRoom box m.w0 then inboxTakes (box ++ [m]) ms else none

/-- If the handler cell of a job names a slot, the device makes it name another (R361). -/
def State.followHandler (s : State) (j n m : Nat) : State :=
  match s.job j with
  | none => s
  | some x =>
    if x.handler = 0 then s
    else match s.deviceWord x.handler.toNat with
      | none => s
      | some w =>
        if handlerSlot w = some n then
          s.setDeviceWord j x.handler.toNat (wordOf (2 ^ 63 + tidOf m * 2 ^ 40 + coreOfSlot m % 4 * 2 ^ 16
            + tileY (tileOfSlot m) * 2 ^ 8 + tileX (tileOfSlot m)))
        else s

/-- A thread moves whole from a slot to a core, its inbox messages with it, once these find room; its completed copies keep
their places (R46, R361). PEND of 0x15 is set while messages wait for the new slot (R180). The slot it takes is in rotation, so its
leaves that stood in RETAIN wake (R26, R332). Messages for it are sent on for as long as its job holds the old core (R366). -/
def State.moveThread (s0 : State) (n core : Nat) : State :=
  let s := (s0.withdraw n)
  let s := if (s.slot n).lease = .none then s else s.releaseLease n
  let c := coreOfSlot n
  let x := s.slot n
  match s.freeSlotsOf core, s.freeWindow core x.winSize with
  | m :: _, some base =>
    let mail := (s.messagesFor n).map fun (q : Message) => { q with w0 := retag m q.w0, openedBy := none }
    match inboxTakes (s.core core).inbox mail with
    | none => s0
    | some box =>
      let to_ (k : Nat) : Nat := if k = n then m else k
      let moved := (x.travelling base).returned
      let y := { moved with sends := x.sends + (s.slot m).sends }
      let s1 := (s.setSlot n Slot.free).setSlot m (if s.messagesFor m = [] && mail = [] then y else y.pending 5 0)
      let f : Forwarding := { slot := n, core := core, placed := some m, left := s.moves, moved := true }
      let s2 := s1.onCore c fun k => { k with
        inbox := k.inbox.filter fun q => fieldOf q.w0 16 6 != tidOf n
        stages := k.stages.filter fun e => e.slot != n
        forwards := addForward k.forwards f }
      let copying := (s.cores.filter fun e => e.2.copies.any fun q => q.slot == n || q.cancels.any (·.1 == n)).map (·.1)
      let s3 := copying.foldl (fun (u : State) d => u.onCore d fun k => { k with
        copies := k.copies.map fun q =>
          { q with slot := to_ q.slot, cancels := q.cancels.map fun (e : Nat × RegLoc) => (to_ e.1, e.2) } }) s2
      let s4 := s3.onCore core fun k => { k with inbox := box, forwards := k.forwards.filter fun g => g.slot != m }
      let s5 := { s4 with
        net := s4.net.map (Packet.rename to_)
        tenants := s4.tenants.map fun (e : Nat × Tenant) => (e.1, e.2.rename to_) }
      (s5.acquire core true).followHandler x.job n m
  | _, _ => s0

/-- The threads of the losing job that still have to move off a tile: all but PARKED stages (R361). -/
def State.movers (s : State) (j t : Nat) : List Nat := (s.threadsOn j t).filter fun n => (s.slot n).state != .parked

/-- THREAD_MOVE: after the grace window the first remaining thread of the losing job moves to N, once nothing of it is
outstanding and a place is free (R361). -/
def execThreadMove (slot : Nat) (s : State) : Result :=
  let y := tileOfSlot slot
  match (s.tile y).cession with
  | none => .next s
  | some z => match z.loser with
    | none => .next s
    | some b =>
      if !z.moved || z.emptied || (s.movers b y).head? != some slot then .next s
      else match s.landingCore slot z.heir with
        | none => .next s
        | some c => .next (if s.readyToMove slot c then s.moveThread slot c else s)

/-- A line of a slice moves to the slice of the same number of another tile, its owners and Dirty sectors with it; it is
written back instead where it is pinned, or finds its set there full (R284, R362). -/
def State.moveLine (s : State) (source target key : Nat) : State :=
  let slice := key / 2 ^ 56 % 2
  let va := key % 2 ^ 56
  let from_ : Place := { tile := source, slice := slice }
  let to_ : Place := { tile := target, slice := slice }
  if storeGet noPins s.pins key != 0 || s.roomFor to_ va != .free then s.evictLine from_ va
  else (List.range 4).foldl (fun (u : State) k =>
    let a := va + 48 * k
    if lineStart a != va then u
    else match u.sectorAt from_ a with
      | none => u
      | some x => { u with
        l2 := storeSet noSector (storeSet noSector u.l2 (from_.sectorKey a) none) (to_.sectorKey a) (some x) }) s

/-- Move the lines of a tile that a test selects, by first va, to the slices of another (R284, R362). -/
def State.moveLines (s : State) (source target : Nat) (p : Nat → Bool) : State :=
  let mine := s.l2.filter fun e => e.1 / 2 ^ 57 == source && p (e.1 % 2 ^ 56)
  ((mine.map fun e => e.1 / 2 ^ 56 * 2 ^ 56 + lineStart (e.1 % 2 ^ 56)).eraseDups).foldl
      (fun u key => u.moveLine source target key) s

/-- A bucket of a job's table names a tile (R284). -/
def State.bucketNames (s : State) (j t b : Nat) : Bool :=
  match s.job j with
  | some x => s.tileAtIndex j (storeGet homeIndexZero x.homeTable b) == some t
  | none => false

/-- Every home clears the owner fields that name a tile's cores (R360 step 4). -/
def State.clearOwners (s : State) (t : Nat) : State :=
  { s with l2 := s.l2.map fun e => (e.1, e.2.map fun x =>
      { x with owners := x.owners.filter fun o => match o.2 with
        | some c => c.package != s.pkgid || c.core / 4 != t
        | none => true }) }

/-- Nothing of the losing job is left running on a tile: no thread to move, no copy, no operation (R360 step 2). -/
def State.quietTile (s : State) (j y : Nat) : Bool :=
  s.movers j y == [] && (s.tile y).arrayOps == []
    && (coresOfTile y).all fun c => (s.core c).copies.all (·.posted) && (s.core c).vector == []

/-- Steps 3 to 5 of a cession: Vat records and lines go to N, the tile is emptied and scrubbed; the forwarding entries of its
cores stand until the commit (R360, R362, R363, R366). -/
def State.emptyTile (s : State) (j y heir : Nat) : State :=
  let x := s.tile y
  let s1 := (s.appendSegment heir 0 x.seg0).appendSegment heir 1 x.seg1
  let s2 := (s1.moveLines y heir fun va => s1.bucketNames j y (bucketOf va)).sendContextsOn y heir
  let keep := (coresOfTile y).map fun c => (c, (s2.core c).forwards)
  keep.foldl (fun (u : State) e => u.onCore e.1 fun k => { k with forwards := e.2 }) ((s2.clearOwners y).scrubTile y)

/-- GRACE_WINDOW_END: at the end of G the threads begin to move; once the tile is quiet, its records and lines move on and
it is scrubbed (R360 steps 2-5). -/
def execGraceWindowEnd (tile : Nat) (s : State) : Result :=
  match (s.tile tile).cession with
  | none => .next s
  | some z => match z.loser with
    | none => .next s
    | some b =>
      if !z.moved then
        (if z.graceEnd ≤ s.cyc then .next (s.onTile tile fun t => { t with cession := some { z with moved := true } })
        else .next s)
      else if !z.emptied && s.quietTile b tile then
        .next ((s.emptyTile b tile z.heir).onTile tile fun t => { t with cession := some { z with emptied := true } })
      else .next s

/-! ## Abort and commit (R364, R365) -/

/-- The cycle by which a cession must have committed (R360). -/
def State.commitBy (s : State) (z : Cession) : Nat := z.graceEnd + 2 * (fieldOf s.deckle 0 11 * 2000)

/-- Post a message to the thread of a context that is on its way or waits at a core: it follows the context (R260). -/
def State.tellContext (s : State) (core type status id : Nat) (payload : Word) (q : Context) : State :=
  match q.origin with
  | none => s
  | some o => s.post (.message { job := q.job, core := core, w0 := messageWord type status 0 id, w1 := payload, poster := .device,
                                 sender := none, lands := [], follows := some (o, q.left), stopped := s.jobStopped q.job })

/-- Post a message to each thread of a job that was on a tile when a cession was decided, wherever it now runs (R359). -/
def State.tellWarned (s : State) (j y decided type status id : Nat) (payload : Word) : State :=
  let marked (ws : List (Nat × Nat)) : Bool := ws.contains (y, decided)
  let slots := ((s.slots.filter fun e => marked e.2.warnings).map (·.1)).filter (s.holdsThread j ·)
  let s1 := slots.foldl (fun (u : State) n => u.postMessage j n type status id payload) s
  let going := s.net.filterMap fun p => match p with
    | .context c q _ _ => some (c, q)
    | _ => none
  let waiting := s.cores.flatMap fun e => (e.2.arrivals ++ e.2.spill).map (e.1, ·)
  ((going ++ waiting).filter fun e => e.2.job == j && marked e.2.warnings).foldl
    (fun (u : State) e => u.tellContext e.1 type status id payload e.2) s1

/-- Abort a cession of a tile: lines moved early are written back, the count rises, and the losing job is told (R365). -/
def State.abortCession (s : State) (y : Nat) : State :=
  match (s.tile y).cession with
  | none => s
  | some z =>
    let s1 := s.onTile y fun t =>
      { t with cession := none, refusals := { t.refusals with abort := satCount t.refusals.abort } }
    match z.loser with
    | none => s1
    | some b =>
      let early := (s1.l2.filter fun e => e.1 / 2 ^ 57 == z.heir && s1.bucketNames b y (bucketOf (e.1 % 2 ^ 56))).map (·.1)
      let s2 := if z.emptied then early.foldl State.evict s1 else s1
      let id := s2.versionOf b
      let payload := eventPayload z.gainer z.heir y
      (s2.tellWarned b y z.decided 4 3 id payload).tellHandler b 4 3 id payload

/-- Write a job's COUNT, and its word in the record (R348, R364). -/
def State.setCount (s : State) (j n : Nat) : State :=
  match s.job j with
  | some x => (s.setJob j { x with count := n }).setPhysWord (x.recordAt + 48) (wordOf n)
  | none => s

/-- The tile that each bucket of a job's table names. -/
def State.bucketTiles (s : State) (j : Nat) : List Nat :=
  (List.range 4096).map fun b => match s.job j with
    | some x => (s.tileAtIndex j (storeGet homeIndexZero x.homeTable b)).getD x.seed
    | none => 0

/-- Give a job a home table that names these tiles, its version one higher (R284, R364). -/
def State.setTable (s : State) (j : Nat) (ts : List Nat) : State :=
  s.onJob j fun x => { x with
    version := (x.version + 1) % 65536
    homeTable := (ts.zipIdx).foldl (fun m (e : Nat × Nat) => storeSet homeIndexZero m e.2 (s.indexOfTile j e.1)) [] }

/-- Of the places that hold a tile, every second one from the second on takes another (R362). -/
def everySecond (x y : Nat) : Bool → List Nat → List Nat
  | _, [] => []
  | take_, t :: ts =>
    if t = x then (if take_ then y :: everySecond x y false ts else t :: everySecond x y true ts)
    else t :: everySecond x y take_ ts

/-- The links between a tile and its neighbours of a job: entries towards a lost tile are discarded, and those of a link
that works again are empty, at both of its ends (R166, R364). -/
def State.clearLinks (s : State) (j y : Nat) (incoming : Bool) : State :=
  (List.range 4).foldl (fun (u : State) d => match neighbour y d with
    | none => u
    | some t =>
      if (u.tile t).owner != some j then u
      else (coresOfTile t).foldl (fun (v : State) c => v.onCore c fun k =>
        { k with
          linkOut := storeSet noWords k.linkOut (opposite d) []
          linkIn := if incoming then storeSet noWords k.linkIn (opposite d) [] else k.linkIn }) u) s

/-- Drop the proxy copies that a job's tiles hold (R362). -/
def State.dropProxies (s : State) (j : Nat) : State :=
  { s with proxyCopies := s.proxyCopies.filter fun e => (s.tile (e.1 / 2 ^ 57)).owner != some j }

/-- The commit of a cession or release of Y (R364), with step 6 of R360 before it and the events of step 7 after. -/
def State.commitCession (s : State) (y : Nat) (z : Cession) : State :=
  let lost := match z.loser with
    | some b => (s.bucketTiles b).map fun t => if t = y then z.heir else t
    | none => []
  let won := match z.gainer with
    | some a => everySecond z.bidder y false (s.bucketTiles a)
    | none => []
  let s1 := match z.gainer with
    | some _ => s.moveLines z.bidder y fun va => won.getD (bucketOf va) z.bidder == y
    | none => s
  let count (u : State) (j : Nat) : Nat := match u.job j with | some x => x.count | none => 0
  let s2 := match z.gainer with | some a => s1.setCount a (count s1 a + 1) | none => s1
  let s3 := match z.loser with | some b => s2.setCount b (count s2 b - 1) | none => s2
  let onward (p : Packet) : Packet := match p with
    | .context c q n ls => if c / 4 = y && some q.job == z.loser then .context (4 * z.heir + c % 4) q n ls else p
    | _ => p
  let s3b := (coresOfTile y).foldl (fun (u : State) c => u.onCore c fun k => { k with forwards := [], linkOut := [], linkIn := [] })
    { s3 with net := s3.net.map onward }
  let s4 := s3b.onTile y fun t => { t with owner := z.gainer, pressure := 0, bias := 0, changed := s.period, cession := none }
  let s5 := match z.gainer with
    | some a => (((s4.setTable a won).rebuildProxies a).dropProxies a).clearLinks a y true
    | none => s4
  let s6 := match z.loser with
    | some b => (((s5.setTable b lost).moveProxies b y).dropProxies b).clearLinks b y false
    | none => s5
  let s7 := match z.gainer with
    | some a =>
      let t := s6.tellHandler a 4 1 (s6.versionOf a) (eventPayload z.loser z.bidder y)
      (match s6.handlerOf a with
      | some n => t.onSlot n fun x => x.pending 0 (wordOf (s6.versionOf a))
      | none => t)
    | none => s6
  match z.loser with
  | some b => s7.tellHandler b 4 (if z.gainer.isSome then 2 else 4) (s7.versionOf b) (eventPayload z.gainer z.heir y)
  | none => s7

/-- A's COUNT may rise and B's may fall (R364). -/
def State.countsAllow (s : State) (z : Cession) : Bool :=
  (match z.gainer with
    | some a => (match s.job a with | some x => decide (x.count < x.ceiling) | none => false)
    | none => true)
  && (match z.loser with
    | some b => (match s.job b with | some x => decide (x.floor < x.count) | none => false)
    | none => true)

/-- CESSION_COMMIT: the commit, or the abort where a count forbids it (R364, R365). -/
def execCessionCommit (tile : Nat) (s : State) : Result :=
  match (s.tile tile).cession with
  | none => .next s
  | some z =>
    if !z.emptied || s.commitBy z < s.cyc then .next s
    else if s.countsAllow z then .next (s.commitCession tile z)
    else .next (s.abortCession tile)

/-- CESSION_ABORT: a cession that has not committed in time aborts (R365). -/
def execCessionAbort (tile : Nat) (s : State) : Result :=
  match (s.tile tile).cession with
  | none => .next s
  | some z => if s.commitBy z < s.cyc then .next (s.abortCession tile) else .next s

/-- Abort every uncommitted cession in which a job gains or loses (R365, R368). -/
def State.abortFor (s : State) (j : Nat) : State :=
  (s.tiles.map (·.1)).foldl (fun (u : State) t => match (u.tile t).cession with
    | some z => if z.gainer == some j || z.loser == some j then u.abortCession t else u
    | none => u) s

/-- Abort every uncommitted cession that a struck tile takes part in as Y, X or N (R365). -/
def State.abortAround (s : State) (struck : Nat) : State :=
  (s.tiles.map (·.1)).foldl (fun (u : State) t => match (u.tile t).cession with
    | some z => if t == struck || z.bidder == struck || z.heir == struck then u.abortCession t else u
    | none => u) s

/-- TILE_RELEASE: the host releases a retired tile, which returns to service; errstat goes on showing that it was retired (R388,
R391). -/
def execTileRelease (tile : Nat) (s : State) : Result :=
  if (s.tile tile).withheld then
    .next ((s.scrubTile tile).onTile tile fun t => { t with owner := none, pressure := 0, withheld := false })
  else .next s

end Sys2Proof.Machine
end

