-- ==== Sys2Proof/Machine/Stops.lean ====
section
/-! DEFINITION. Synchronised stops: requests and halts (R376, R377), the flush (R378, R379), the image (R380-R382, R423),
restores (R383, R384, R387), Watermarks (R385, R386), soft errors (R388, R391), lockstep pairs (R389, R390), and the end of
a job (R250). -/

namespace Sys2Proof.Machine

/-! ## Requests and the halt (R376, R377) -/

/-- The kind of a stop once a further request has joined it: a containment turns it into one, and the tiles that several have struck
are all struck (R376, R377). -/
def StopKind.join : StopKind → StopKind → StopKind
  | .contain ts, .contain us => .contain (ts ++ us.filter fun u => !ts.contains u)
  | .contain ts, _ => .contain ts
  | _, .contain ts => .contain ts
  | .preempt, _ => .preempt
  | .watermark, k => k

/-- Request a stop of a job, or join the one that is pending and keep its T; cessions of the job abort (R376, R368). -/
def State.requestStop (s : State) (j : Nat) (k : StopKind) : State :=
  match s.job j with
  | none => s
  | some x => match x.phase with
    | .running => (s.setJob j { x with phase := .stopping k (s.cyc + 8192) }).abortFor j
    | .stopping q t => s.setJob j { x with phase := .stopping (q.join k) t }
    | .flushing q t => s.setJob j { x with phase := .flushing (q.join k) t }
    | .saving q t => s.setJob j { x with phase := .saving (q.join k) t }
    | .restoring _ _ => s
    | .waiting => s

/-- STOP_CYCLE: from cycle T on no slot of the job issues; `bar.wait` and `join` are withdrawn (R377). -/
def execStopCycle (job : Nat) (s : State) : Result :=
  match s.job job with
  | none => .next s
  | some x => match x.phase with
    | .stopping k t =>
      if t ≤ s.cyc then
        .next ((s.jobSlots job).foldl State.withdraw (s.setJob job { x with phase := .flushing k t }))
      else .next s
    | _ => .next s

/-- The largest BYTES of an image of a job, overflow aside (R381). -/
def imageBound (pb1 count : Nat) : Nat := 65536 + count * (4 * (pb1 + 65536) + 393216)

/-- Granules that the pre-image part of a half holds: what the bound of an image leaves of CKSZ (R380, R386; log 30). -/
def Job.preImageRoom (x : Job) : Nat := (x.ckptSize - imageBound x.pb1 x.count) / 65536

/-- The pre-image part of the latest complete image is full, and granules are armed still (R386). -/
def Job.preImagesFull (x : Job) : Bool :=
  x.armed != [] && (match x.image with | some i => decide (x.preImageRoom ≤ i.preImages.length) | none => false)

/-- WATERMARK_TIMER: the interval has run since T of the latest complete image, or since the launch (R385), or a write of the device
has filled the pre-image part (R386); never in stage REDUCED (R415). -/
def execWatermarkTimer (job : Nat) (s : State) : Result :=
  match s.job job with
  | none => .next s
  | some x =>
    let due : Bool := x.interval != 0 && decide (x.lastStop + max 1000 x.interval * 2000 ≤ s.cyc)
    if s.stage != .full || x.stopped || !(due || x.preImagesFull) then .next s
    else .next (s.requestStop job .watermark)

/-! ## The flush (R378, R379) -/

/-- A record to be enqueued cannot go on: the host's notice that it waits for is held (R392), or its segment is full. Of a record in
another package, whose segment the answer alone would name, any segment of the job (R252, R378). -/
def State.recordStuck (s : State) (q : EnqueuePacket) : Bool :=
  let va := q.record.toNat
  if q.fault.isSome then q.notice.isNone
  else if !s.isOurs va then
    (s.territory q.job).any fun t => [0, 1].any fun sl => segmentRoom ≤ s.segmentLoad t sl
  else match s.spanCheck q.job va 64 .read with
    | none =>
      let ws := (s.homeWords q.job q.core va 8).1
      (s.sendRecord { words := ws, addr := q.record, job := q.job, source := none, poster := .device }).isNone
    | some _ => false

/-- A packet that finds no room at a tile of its job is captured, and so is a message that waits for a context (R260, R378). -/
def State.findsNoRoom (s : State) (j t : Nat) (p : Packet) : Bool :=
  match p with
  | .enqueue q => q.core / 4 == t && q.job == j && s.recordStuck q
  | .message q => q.core / 4 == t && q.job == j && (q.follows.isSome || !inboxRoom (s.core q.core).inbox q.w0)
  | .record u sl r => u == t && r.job == j && segmentRoom ≤ ((s.tile u).segment sl).length
  | .context c q _ _ => c / 4 == t && q.job == j && !((s.core c).spill == [] && (s.core c).arrivals.length < 16)
      && 4096 ≤ (s.core c).spill.length
  | _ => false

/-- The slot of a sender that is FREE by now: no thread counts the message any more (R179). -/
def State.sentByNone (s : State) (q : MessagePacket) : Bool := match q.sender with
  | some m => (s.slot m).state == .free
  | none => true

/-- What is owed for a captured packet lands before the save: for a `sendw`, or a `spawnm`. A message goes on counting among its
sender's that are not yet placed (R179, R378). An `enq` whose record is not read yet has no effect: it issues again. -/
def State.landCaptured (s : State) (p : Packet) : State :=
  match p with
  | .message q =>
    if s.sentByNone q then s.endSend q 0
    else match q.sender with
      | some m => s.landOn m q.lands [0]
      | none => s
  | .context _ _ (some n) ls => s.landOn n ls [0]
  | .enqueue q => if q.retire.isSome then s.onSlot q.slot fun x => { x with unchecked := none } else s
  | _ => s

/-- A captured packet: no register is owed for it any more; none is left of an `enq` that issues again. -/
def State.capture (s : State) : Packet → Option Packet
  | .message q => some (.message { q with
      sender := if s.sentByNone q then none else q.sender, lands := [], poster := .captured })
  | .context c q _ _ => some (.context c { q with poster := .captured, reached := none } none [])
  | .record t sl r => some (.record t sl { r with poster := .captured })
  | .enqueue q => if q.retire.isSome then none else some (.enqueue q)
  | p => some p

/-- The move in which a context reached its core, for those that wait there (R259). -/
def Packet.reachedAt : Packet → Option Nat
  | .context _ q _ _ => q.reached
  | _ => none

/-- Put a packet among captured ones: behind what reached its place before it (R259, R378). -/
def captureInto (p : Packet) : List Packet → List Packet
  | [] => [p]
  | q :: qs =>
    let first : Bool := match p.reachedAt with
      | some k => (match q.reachedAt with | some m => decide (k < m) | none => true)
      | none => false
    if first then p :: q :: qs else q :: captureInto p qs

/-- FLUSH_TOKEN: the token of a tile passes; what can be delivered there has an event of its own, and what finds no room is
captured, in order (R378). -/
def execFlushToken (job tile : Nat) (s : State) : Result :=
  match s.job job with
  | none => .next s
  | some x => match x.phase with
    | .flushing _ _ =>
      if (s.tile tile).owner != some job then .next s
      else
        let stuck := (s.net.filter (s.findsNoRoom job tile)).foldl (fun ps p => captureInto p ps) []
        let s1 := stuck.foldl State.landCaptured s
        .next ({ s1 with net := s1.net.filter fun p => !s.findsNoRoom job tile p }.onTile tile fun t =>
          { t with captured := t.captured ++ stuck.filterMap s.capture, token := true })
    | _ => .next s

/-- A slot has nothing outstanding but a `lease` destination and what is held until its leaf wakes: a result for a slot that
is OUT is held, in the live slot until its leaf is FULL and in the image as the FULL register (R112, R155, R201, R217, R237;
assumption 69). -/
def State.slotFlushed (s : State) (n : Nat) : Bool :=
  let x := s.slot n
  !x.anyOwed (x.leaseDst ++ x.held.map (·.1)) && x.unchecked.isNone && x.opc == 0 && !s.vectorPending n
    && !(s.tile (tileOfSlot n)).arrayOps.any (fun o => o.slot == n)
    && x.leaves.all fun e => e.2 != .waking

/-- A core's copies stand between sectors, those of the array are done, and no scratchpad leaf wakes (R244, R379). -/
def State.coreFlushed (s : State) (c : Nat) : Bool :=
  let k := s.core c
  (k.copies.all fun q => q.posted || (q.delivered == q.acked && !q.array)) && k.scratchLeaves.all fun e => e.2 != .waking

/-- Every delivery of a job's flush is made (R378, R379). -/
def State.flushed (s : State) (j : Nat) : Bool :=
  ((s.territory j).all fun t => (s.tile t).token)
    && !(s.net.any fun p => s.packetJob p == some j)
    && (s.jobSlots j).all s.slotFlushed
    && (s.territory j).all (fun t => (coresOfTile t).all s.coreFlushed)
    && (List.range 4).all fun d => (storeGet noRange s.calenders d).all fun r => r.job != j

/-! ## The pages of a job (R423) -/

/-- The leaves below a table, downward from a level (R293). -/
def State.leavesFrom (s : State) (va table : Nat) : Nat → List Translation
  | 0 => (List.range 32).filterMap fun i =>
    let w := s.physWord (table + 8 * i)
    if bitOf w 63 && bitOf w 62 && s.leafOk w 0 then some (leafTranslation w 0 0 (va + i * pageSize 0)) else none
  | level + 1 => (List.range (if level = 0 then 512 else 1024)).flatMap fun i =>
    let w := s.physWord (table + 8 * i)
    let at_ := va + i * (if level = 0 then 2 ^ 21 else if level = 1 then 2 ^ 30 else 2 ^ 40)
    if !bitOf w 63 then []
    else if bitOf w 62 then (if s.leafOk w (level + 1) then [leafTranslation w (level + 1) 0 at_] else [])
    else if pointerOk w (level + 1) then s.leavesFrom at_ (fieldOf w 8 44 * 2 ^ 8) level
    else []

/-- The job's pages: leaves of this package in HBM that its domain and the leaf let it write (R423). -/
def State.jobPages (s : State) (j : Nat) : List Translation :=
  match s.job j with
  | none => []
  | some x => (s.leavesFrom (s.pkgid.toNat * 2 ^ 50) (bitsOf s.ptroot.toNat 13 39 * 2 ^ 13) 3).filter fun t =>
    let e := s.directoryEntry x t.page
    !t.host && t.w && e.generation == x.generation && e.rights.toNat.testBit 1

/-- The granules of some pages. -/
def granulesOf (ps : List Translation) : List Nat :=
  ps.flatMap fun t => (List.range (t.size / 65536)).map fun k => t.page / 65536 + k

/-- An address lies in one of some pages. -/
def inPages (ps : List Translation) (va : Nat) : Bool := ps.any fun t => t.page ≤ va && va < t.page + t.size

/-- Write back the Dirty sectors of a job's lines and keep them clean, the owner fields of the job's cores cleared (R380). -/
def State.writeBack (s : State) (j : Nat) : State :=
  let ps := s.jobPages j
  let mine := s.l2.filter fun e => inPages ps (e.1 % 2 ^ 56)
  mine.foldl (fun (u : State) e => match e.2 with
    | none => u
    | some x =>
      let u1 := if x.dirty then u.setBacking x.host x.pa x.bytes else u
      let owners := x.owners.filter fun o => match o.2 with
        | some c => c.package != s.pkgid || (s.tile (c.core / 4)).owner != some j
        | none => true
      { u1 with l2 := storeSet noSector u1.l2 e.1 (some { x with dirty := false, owners := owners }) }) s

/-! ## The image (R380, R381) -/

/-- A slot's number within its territory: territory-relative tile, core and slot (R383). -/
def relativePlace (ts : List Nat) (n : Nat) : Nat := 256 * ts.findIdx (· == n / 256) + n % 256

/-- The slot that a territory-relative number names (R383). -/
def absolutePlace (ts : List Nat) (n : Nat) : Nat := 256 * ts.getD (n / 256) 0 + n % 256

/-- The core that a map of slots gives. -/
def coreUnder (f : Nat → Nat) (c : Nat) : Nat := f (64 * c) / 64

/-- Give the places that a context names other numbers. -/
def Context.rename (f : Nat → Nat) (q : Context) : Context :=
  { q with origin := q.origin.map f, creator := q.creator.map (coreUnder f) }

/-- Give the places that a requester names other numbers. -/
def Requester.move (f : Nat → Nat) : Requester → Requester
  | .slot n => .slot (f n)
  | .copy c id => .copy (coreUnder f c) id
  | .enqueue c r => .enqueue (coreUnder f c) r
  | .ring t => .ring t

/-- Give the slots and cores that a packet names other numbers. -/
def Packet.move (f : Nat → Nat) (p : Packet) : Packet :=
  match p.rename f with
  | .message q => .message { q with core := coreUnder f q.core, follows := q.follows.map fun e => (f e.1, e.2) }
  | .context c q n ls => .context (coreUnder f c) (q.rename f) n ls
  | .record t sl r => .record (coreUnder f (4 * t) / 4) sl r
  | .enqueue q => .enqueue { q with core := coreUnder f q.core }
  | q => q

/-- A core as the image holds it: neither L1, lookaside buffers, vector unit nor power state; a write of k0-k15 that has issued
is in its register (R155, R201, R380; log 53). -/
def Core.saved (k : Core) (f : Nat → Nat) : Core :=
  { k with
    k := k.kWrites.foldl (fun m w => storeSet noVal m w.reg w.val) k.k, kWrites := []
    l1 := [], plb := [], heapCache := [], vector := [], waiters := [], clock := 0, ring := 3, outn := 0, skip := 0
    shape := false
    copies := k.copies.map fun q =>
      { q with slot := f q.slot, leafWait := none, cancels := q.cancels.map fun (e : Nat × RegLoc) => (f e.1, e.2) }
    pairLog := k.pairLog.map fun e => { e with slot := f e.slot }
    stages := k.stages.map fun e => { e with slot := f e.slot }
    splices := k.splices.map fun e => { e with slot := f e.slot }
    moves := k.moves.map fun e => { e with slot := f e.slot }
    arrivals := k.arrivals.map (Context.rename f), spill := k.spill.map (Context.rename f)
    forwards := k.forwards.map fun g => { g with slot := f g.slot, core := coreUnder f g.core, placed := g.placed.map f }
    checkpoint := k.checkpoint.map fun (e : Nat × Slot) => (f e.1, e.2) }

/-- A slot as the image holds it: results held until their leaf wakes in their registers, FULL; registers outside the live mask
DEAD; of a leaf whose eight registers are DEAD the states alone, not the values; its lease QUEUED (R100, R112, R217, R380, R395). -/
def State.savedSlot (s : State) (f : Nat → Nat) (n : Nat) : Slot :=
  let x := s.slot n
  let live := s.liveMask n
  let y := x.held.foldl (fun (z : Slot) (e : RegLoc × Word) => z.setCell e.1 { val := e.2, pres := .full, owed := false }) x
  { y with
    regs := y.regs.filter fun e => (live.testBit e.1 || e.2.owed) && !y.deadLeaf (e.1 / 8)
    held := []
    opc := 0, odc := 0, waiting := none, leafWait := none, acqHold := false
    handlers := x.handlers.map fun h => { h with core := coreUnder f h.core }
    lease := if x.lease = .none then .none else .queued
    remain := 0 }

/-- The SEQ that a stop's image carries: a Watermark counts, a pre-emption does not (R381). -/
def Job.nextSeq (x : Job) (k : StopKind) : Nat := if k = .watermark then x.seq + 1 else x.seq

/-- The image of a job at its stop (R380). -/
def State.imageOf (s : State) (j : Nat) (x : Job) (k : StopKind) (t : Nat) : Image :=
  let ts := s.territory j
  let f := relativePlace ts
  let tile (u : Nat) : Nat := ts.findIdx (· == u)
  { stop := t, seq := x.nextSeq k, preempt := k == .preempt, complete := false
    version := x.version, count := ts.length, homeTable := x.homeTable
    slots := (s.jobSlots j).map fun n => (f n, s.savedSlot f n)
    cores := (ts.flatMap coresOfTile).map fun c => (coreUnder f c, { s.core c with spill := s.spilled c }.saved f)
    segments := ts.map fun u => (tile u, ((s.tile u).seg0, (s.tile u).seg1, (s.tile u).bias))
    pool := (s.pool.filter fun e => (s.tile (e.1 / 2 ^ 20)).owner == some j).map fun e =>
      (2 ^ 20 * tile (e.1 / 2 ^ 20) + e.1 % 2 ^ 20, e.2)
    acc := (s.acc.filter fun e => (s.tile (e.1 / 2 ^ 14)).owner == some j).map fun e =>
      (2 ^ 14 * tile (e.1 / 2 ^ 14) + e.1 % 2 ^ 14, e.2)
    captured := ts.flatMap fun u => (s.tile u).captured.map (Packet.move f)
    faults := ((s.tenant x.tenant).faults.filter fun r => r.job == j).map fun r => { r with who := r.who.map (Requester.move f) }
    heap := ((s.jobPages j).filter (·.heap)).map fun t => (t.page, (t.hstate, t.epoch)), reserve := x.reserve
    preImages := [] }

/-- The half that the next image is written into: the one that the latest complete image did not use (R380). -/
def Job.nextHalf (x : Job) : Bool := x.image.isSome && !x.half

/-- The tile whose router captured a packet, by its place in the image. -/
def Packet.captor : Packet → Nat
  | .message q => q.core / 4
  | .context c _ _ _ => c / 4
  | .record t _ _ => t
  | .enqueue q => q.core / 4
  | _ => 0

/-- The flits that a router's save buffer holds (R378). -/
def saveBuffer : Nat := 16

/-- The bytes of 4 KiB blocks that the routers of an image wrote to their overflow lists: past the 16 flits of each save buffer, a
packet at least one flit (R378, R381). -/
def Image.overflow (i : Image) : Nat :=
  ((List.range i.count).map fun t => ((i.captured.filter fun p => p.captor == t).length - saveBuffer) / saveBuffer * 4096).sum

/-- BYTES of an image: the device's own, within its bound (R381; free value). -/
def Job.bytesOf (x : Job) (i : Image) : Nat := 64 + Config.imageBytes i.stop % (imageBound x.pb1 i.count + i.overflow - 63)

/-- Write the stop record of an image at the start of a half of the checkpoint area (R381). -/
def State.writeRecord (s : State) (j : Nat) (x : Job) (half : Bool) (i : Image) (state : Nat) : State :=
  let at_ := x.ckptArea + (if half then x.ckptSize else 0)
  s.setPhysBytes at_ (bytesOfWords [wordOf i.stop,
    wordOf (j % 65536 * 2 ^ 48 + (if i.preempt then 2 else 1) * 4 + state), wordOf i.seq,
    wordOf (i.version % 65536 * 2 ^ 48 + i.count), wordOf (x.bytesOf i), 0, 0, 0])

/-! ## Going on (R383, R384) -/

/-- The lease requests of a job join their FIFOs anew, in slot order; resident configurations are lost (R217, R221). -/
def State.requeueLeases (s : State) (j : Nat) : State :=
  let s1 := (s.territory j).foldl (fun (u : State) t => u.onTile t fun x =>
    { x with leaseQueues := [], holder := none, configs := [] }) s
  (s1.jobSlots j).foldl (fun (u : State) n =>
    let x := u.slot n
    if x.lease = .none then u
    else (u.onSlot n fun y => { y with lease := .queued, remain := 0 }).onTile (tileOfSlot n) fun t =>
      let waiting := t.requests (coreOfSlot n % 4) ++ [(n, x.budget)]
      { t with leaseQueues := storeSet noRequests t.leaseQueues (coreOfSlot n % 4) waiting }) s1

/-- Captured packets of a job's tiles are delivered again, in order and ahead of what was posted while it was stopped; its tokens go
(R384). -/
def State.releaseCaptured (s : State) (j : Nat) : State :=
  (s.territory j).foldl (fun (u : State) t =>
    { u with net := (u.tile t).captured ++ u.net }.onTile t fun x => { x with captured := [], token := false }) s

/-- Every core of a job performs the invalidation of R142, and holds no L1 copy (R155, R384). -/
def State.invalidateJob (s : State) (j : Nat) : State :=
  let s1 := (s.territory j).foldl (fun (u : State) t => (coresOfTile t).foldl (fun (v : State) c =>
    v.onCore c fun k => { k with l1 := [] }) u) s
  (s1.jobSlots j).foldl (fun (u : State) n => u.onSlot n fun y => { y with acqHold := false }) (s1.dropProxies j)

/-- Post a fault-done notice for a record: a message to each slot that took the fault, the notice of a copy or of a counter's
record, and to a receive ring, whose message is then written or, where the page is refused, dropped; a BLOCKED slot takes its own
message, and a refusal ends its job (R240, R252, R299, R407; log 61). -/
def State.resolveFault (s : State) (v : Nat) (r : FaultRecord) (refused : Bool) : State :=
  let status : Nat := if refused then 1 else 0
  let s1 := s.onTenant v fun t => { t with faults := t.faults.filter fun q => q.seq != r.seq }
  r.who.foldl (fun (u : State) w => match w with
    | .slot n =>
      if (u.slot n).state = .blocked then
        (if refused then u.terminate r.job 0x09 (wordOf r.va) false 0 else u.onSlot n fun y => { y with state := .run })
      else if u.holdsThread r.job n then u.postMessage r.job n 3 status (r.seq % 2 ^ 32) (wordOf r.va)
      else u
    | .copy c id => u.onCopy c id fun q => if q.fault = some r.seq then { q with notice := some refused } else q
    | .enqueue c record => { u with
        net := u.net.map fun p => match p with
        | .enqueue q =>
          if q.core == c && q.record == record && q.fault == some r.seq then .enqueue { q with notice := some refused } else p
        | _ => p }
    | .ring t => (match u.inbound.find? fun m => m.tenant == t && m.fault == r.seq with
      | some m =>
        let u1 := { u with inbound := u.inbound.filter (· != m) }
        if refused then u1 else u1.receive t m.message
      | none => u)) s1

/-- The host's FAULTDONE writes held while a job was stopped act in order (R392). -/
def State.releaseFaults (s : State) (j : Nat) : State :=
  match s.job j with
  | none => s
  | some x =>
    x.heldFaults.foldl (fun (u : State) w =>
      match (u.tenant x.tenant).faults.find? fun r => r.seq == fieldOf w 0 63 with
      | some r => u.resolveFault x.tenant r (bitOf w 63)
      | none => u) (s.setJob j { x with heldFaults := [] })

/-- The job goes on: the steps before the first issue, then the fault notices that were held and what the device tells it last, then
running (R384). -/
def State.goOn (s : State) (j : Nat) (last : State → State) : State :=
  (last ((((s.invalidateJob j).releaseCaptured j).requeueLeases j).releaseFaults j)).onJob j fun x => { x with phase := .running }

/-- A job gives up its tiles and waits for RESUME (R382). -/
def State.giveUp (s : State) (j : Nat) : State :=
  ((s.dropTraffic j).freeTerritory j).onJob j fun x =>
    { x with phase := .waiting, homeTable := [], proxyTable := [], ckpts := [], oldTiles := s.territory j }

/-! ## Restoring memory and threads (R387) -/

/-- Discard the lines of a job's pages in every slice without writing them back (R387). -/
def State.discardLines (s : State) (ps : List Translation) : State :=
  let mine := s.l2.filter fun e => inPages ps (e.1 % 2 ^ 56)
  mine.foldl (fun (u : State) e =>
    let va := e.1 % 2 ^ 56
    let u1 := match e.2 with
      | some x => x.owners.foldl (fun (v : State) (o : Nat × Option Owner) => match o.2 with
        | some c => v.revokeOwner c (va / 8 + o.1)
        | none => v) u
      | none => u
    { u1 with l2 := storeSet noSector u1.l2 e.1 none }) s

/-- Steps 1 and 2 of a restore: the job's memory as it stood at the image's T, the states of its heap pages among it (R319,
R387). -/
def State.restoreMemory (s : State) (j : Nat) (i : Image) : State :=
  let s1 := (s.discardLines (s.jobPages j)).dropProxies j
  let s2 := i.preImages.foldl (fun (u : State) e => match u.walk 0 (65536 * e.1) with
    | .leaf _ t => u.setPhysBytes (t.frame + (65536 * e.1 - t.page)) e.2
    | _ => u) s1
  let s3 := i.heap.foldl (fun (u : State) e => match u.heapLeaf e.1 with
    | some (_, t) => if t.hstate = e.2.1 && t.epoch = e.2.2 then u else u.setHeapPage e.1 e.2.1 e.2.2
    | none => u) s2
  s3.onJob j fun x => { x with reserve := i.reserve }

/-- Load a saved core into its new place; power state and clock are the place's own. -/
def Core.loaded (k here : Core) (f : Nat → Nat) : Core :=
  { k.saved f with clock := here.clock, ring := here.ring, outn := here.outn, skip := here.skip, shape := here.shape }

/-- The contexts that an image holds of a core's spill area are written to the area of their new core (R259, R380). -/
def State.respill (s : State) (c : Nat) : State :=
  (s.core c).spill.foldl (fun u q => u.spillOut c q) (s.onCore c fun k => { k with spill := [], spillHead := 0 })

/-- Step 3 of a restore: the image's threads and structures on the job's present tiles; a thread on a position that is OUT has
its leaves in RETAIN (R332, R383, R384). -/
def State.loadImage (s : State) (j : Nat) (x : Job) (i : Image) : State :=
  let ts := s.territory j
  let f := absolutePlace ts
  let s1 := ts.foldl State.scrubTile s
  let s2 := s1.onJob j fun y => { y with
    homeTable := i.homeTable, version := (i.version + 1) % 65536, count := ts.length, ckpts := [] }
  let s3 := i.cores.foldl (fun (u : State) e =>
    (u.onCore (coreUnder f e.1) fun here => e.2.loaded here f).respill (coreUnder f e.1)) (s2.rebuildProxies j)
  let s4 := i.slots.foldl (fun (u : State) e =>
    let n := f e.1
    let x := { e.2 with handlers := e.2.handlers.map fun h => { h with core := coreUnder f h.core } }
    let y := if u.isOut n then x.retained else x
    u.setSlot n (if (u.messagesFor n) = [] then y else y.pending 5 0)) s3
  let s5 := i.segments.foldl (fun (u : State) e => u.onTile (ts.getD e.1 0) fun t =>
    { t with seg0 := e.2.1, seg1 := e.2.2.1, bias := e.2.2.2, headSince0 := s.cyc, headSince1 := s.cyc }) s4
  let s6 := i.pool.foldl (fun (u : State) e =>
    { u with pool := u.pool.setByte (2 ^ 20 * ts.getD (e.1 / 2 ^ 20) 0 + e.1 % 2 ^ 20) e.2 }) s5
  let s7 := i.acc.foldl (fun (u : State) e =>
    { u with acc := storeSet clearedElem u.acc (2 ^ 14 * ts.getD (e.1 / 2 ^ 14) 0 + e.1 % 2 ^ 14) e.2 }) s6
  let s8 := { s7 with net := i.captured.map (Packet.move f) ++ s7.net }
  s8.onTenant x.tenant fun t => { t with
    faults := t.faults.filter (fun r => r.job != j)
      ++ i.faults.map fun r => { r with who := r.who.map (Requester.move f) } }

/-- A restore to an image: memory, threads, then the type 7 message and event 7 (R384, R387). -/
def State.restoreJob (s : State) (j : Nat) (x : Job) (i : Image) (byHost : Bool) : State :=
  let status : Nat := if byHost then 1 else 0
  let s1 := ((s.answerCkpts x allOnes).restoreMemory j i).loadImage j x i
  let s2 := s1.setCount j (s1.territory j).length
  let s3 := s2.goOn j fun u => u.tellHandler j 7 status (i.seq % 2 ^ 32) (wordOf i.stop)
  s3.postJobEvent j (s3.eventOf j 7 status (wordOf i.stop))

/-- RESTORE: a job returns to its latest complete image, on the tiles that it holds (R387). -/
def execRestore (job : Nat) (s : State) : Result :=
  match s.job job with
  | none => .next s
  | some x => match x.phase, x.image with
    | .restoring _ byHost, some i => .next (s.restoreJob job x i byHost)
    | _, _ => .next s

/-! ## Containment (R388) -/

/-- The tile index that the reports of a containment carry: the first tile struck, or the lowest tile of the job (R403). -/
def State.struckIndex (s : State) (j : Nat) (tiles : List Nat) : Nat := (tiles ++ s.territory j).headD 0

/-- After the flush of a containment: the packets are discarded; the job is terminated without an image, and in stage REDUCED, waits
for RESUME where a tile was retired or the territory is smaller than the image's, and else is restored (R383, R388, R415). -/
def State.contain (s : State) (j : Nat) (x : Job) (tiles : List Nat) (t : Nat) : State :=
  let s1 := s.dropTraffic j
  let ends := s1.terminate j 0 (wordOf (s.struckIndex j tiles)) false 0
  match x.image with
  | none => ends
  | some i =>
    let retired := (s.territory j).filter fun u => (s.tile u).withheld
    if s.stage == .reduced then ends
    else if retired != [] || (s.territory j).length < i.count then
      let s2 := (((s1.answerCkpts x allOnes).restoreMemory j i).giveUp j)
      retired.foldl (fun (u : State) r => u.onTile r fun y => { y with owner := some 0 }) s2
    else s1.setJob j { x with phase := .restoring t false }

/-- FLUSH_COMPLETE: the flush is done; a Watermark or pre-emption writes its dirty lines back and begins its image, and a
containment discards its packets (R378-R380, R388). -/
def execFlushComplete (job : Nat) (s : State) : Result :=
  match s.job job with
  | none => .next s
  | some x => match x.phase with
    | .flushing (.contain tiles) t =>
      if (s.territory job).all fun u => (s.tile u).token then .next (s.contain job x tiles t) else .next s
    | .flushing k t =>
      if !s.flushed job then .next s
      else
        let s1 := (s.writeBack job).invalidateJob job
        let i := s1.imageOf job x k t
        .next ((s1.setJob job { x with phase := .saving k t, writing := some i }).writeRecord job x x.nextHalf i 0)
    | _ => .next s

/-! ## Completing an image (R380-R382, R385, R386) -/

/-- An image reaches STATE 1: it becomes the latest, the pages are armed, and the job continues or gives up its tiles. -/
def State.finishImage (s : State) (j : Nat) (x : Job) (i : Image) (preempt : Bool) : State :=
  let half := x.nextHalf
  let s1 := s.writeRecord j x half i 1
  let y : Job := { x with
    image := some { i with complete := true }, half := half, writing := none, seq := i.seq, lastStop := i.stop
    armed := granulesOf (s.jobPages j), ckpts := [] }
  let s2 := (s1.setJob j y).answerCkpts x (wordOf i.stop)
  if preempt then (s2.postJobEvent j (s2.eventOf j 6 0 (wordOf i.stop))).giveUp j
  else (s2.postJobEvent j (s2.eventOf j 5 0 (wordOf i.seq))).goOn j id

/-- An image that would pass CKSZ is abandoned with STATE 2, and the job continues from its stop (R381). -/
def State.abandonImage (s : State) (j : Nat) (x : Job) (i : Image) (preempt : Bool) : State :=
  let s1 := (s.writeRecord j x x.nextHalf i 2).answerCkpts x allOnes
  let s2 := (s1.setJob j { x with writing := none, ckpts := [] }).goOn j id
  if preempt then s2.postEvent x.tenant (s2.eventOf j 2 2 0x008) else s2

/-- IMAGE_COMPLETE: the image has been written (R380-R382), of the kind that its stop has by now: a pre-emption may have joined a
Watermark; one that a containment has overtaken is abandoned (R376, R381). -/
def execImageComplete (job : Nat) (s : State) : Result :=
  match s.job job with
  | none => .next s
  | some x => match x.phase, x.writing with
    | .saving (.contain tiles) t, some i =>
      .next ((s.writeRecord job x x.nextHalf i 2).contain job { x with writing := none } tiles t)
    | .saving k _, some i =>
      let i := { i with seq := x.nextSeq k, preempt := k == .preempt }
      if x.ckptSize < x.bytesOf i then .next (s.abandonImage job x i (k == .preempt))
      else .next (s.finishImage job x i (k == .preempt))
    | _, _ => .next s

/-- PRE_IMAGE_COPY: a granule is copied before its first write; with the pre-image part full a Watermark is requested at once
(R386). -/
def execPreImageCopy (job granule : Nat) (s : State) : Result :=
  match s.job job with
  | none => .next s
  | some x =>
    if !x.armed.contains granule then .next s
    else
      let s1 := s.preImage (65536 * granule)
      let copied := match s1.job job with
        | some y => (match y.image with | some i => i.preImages.length | none => 0)
        | none => 0
      .next (if x.preImageRoom ≤ copied && s.stage == .full then s1.requestStop job .watermark else s1)

/-! ## Soft errors (R388, R391) -/

/-- CORRECTABLE_ERROR: corrected in place and counted (R388, R391). -/
def execCorrectableError (tile : Nat) (s : State) : Result :=
  if tileCount ≤ tile then .next s else .next (s.onTile tile fun t => { t with errors := { t.errors with
    corr := if t.errors.corr = 255 then 255 else t.errors.corr + 1 } })

/-- One more uncorrectable error of a tile (R391). -/
def State.countUncorr (s : State) (tile : Nat) : State := s.onTile tile fun t => { t with errors := { t.errors with
  uncorr := if t.errors.uncorr = 255 then 255 else t.errors.uncorr + 1 } }

/-- The report of an uncorrectable error of a job: event 9 to its tenant, and to the physical function (R388, R399). -/
def State.reportStrike (s : State) (j status index : Nat) : State :=
  let e := s.eventOf j 9 status (wordOf index)
  (s.postJobEvent j e).reportError e

/-- A job is struck: event 9; with an image, and in full service, containment, otherwise termination (R388, R415). A job that
is about to be restored joins that restore, but gives its tiles up where one of them has been retired by then (R376, R388). -/
def State.strikeJob (s : State) (j : Nat) (tiles : List Nat) (retired : Bool) : State :=
  match s.job j with
  | none => s
  | some x =>
    let index := s.struckIndex j tiles
    let s1 := s.reportStrike j (if retired then 1 else 0) index
    if x.image.isNone || s.stage == .reduced then s1.terminate j 0 (wordOf index) false 0
    else match x.phase with
      | .restoring t _ => if (s.territory j).any fun u => (s.tile u).withheld then s1.contain j x tiles t else s1
      | _ => s1.requestStop j (.contain tiles)

/-- UNCORRECTABLE_ERROR (R388): a struck tile that fails its test, or is struck a second time within 1 s, is retired. An error in a
job's memory or image counts at the tile that its report names (R391; assumption 40). -/
def execUncorrectableError (struck : Struck) (s : State) : Result :=
  match struck with
  | .tile tile testFails =>
    if tileCount ≤ tile then .next s else
    let e := (s.tile tile).errors
    let again : Bool := match e.lastUncorr with
      | some c => decide (s.cyc < c + 2000000000)
      | none => false
    let retire := testFails || again
    let s1 := ((s.abortAround tile).countUncorr tile).onTile tile fun t => { t with
      withheld := t.withheld || retire, errors := { t.errors with lastUncorr := some s.cyc, retired := e.retired || retire } }
    let retireNow (u : State) : State :=
      if retire && (u.tile tile).owner.isNone then u.onTile tile fun t => { t with owner := some 0 } else u
    (match (s1.tile tile).owner with
    | none => .next (retireNow (s1.scrubTile tile))
    | some j => .next (retireNow (s1.strikeJob j [tile] retire)))
  | .memory j => .next (if (s.job j).isNone then s else (s.countUncorr (s.struckIndex j [])).strikeJob j [] false)
  | .image j => match s.job j with
    | none => .next s
    | some x => match x.phase, x.writing with
      | .saving _ t, some i =>
        let index := s.struckIndex j []
        let s1 := ((s.writeRecord j x x.nextHalf i 2).countUncorr index).reportStrike j 0 index
        .next (s1.contain j { x with writing := none } [] t)
      | _, _ => .next s

/-! ## Lockstep pairs (R389, R390) -/

/-- The job of a core runs in lockstep. -/
def State.lockstepCore (s : State) (c : Nat) : Bool := match s.ownerJob (c / 4) with
  | some x => x.lockstep
  | none => false

/-- LOCKSTEP_CHECKPOINT: with 4,096 instructions retired since the last, or its log full, the pair of a core keeps the state of its
slots, and its log begins anew (R390). -/
def execLockstepCheckpoint (core : Nat) (s : State) : Result :=
  let c := core / 2 * 2
  let k := s.core c
  if s.lockstepCore c && k.checkpointDue && k.replay.isNone then
    let held := ((slotsOfCore c).filter fun n => isUserSlot n && (s.slot n).state != .free).map fun n => (n, s.slot n)
    .next (s.onCore c fun k => { k with checkpoint := held, mismatched := false, pairRetired := 0, pairLog := [] })
  else .next s

/-- LOCKSTEP_MISMATCH: the pair returns to its checkpoint and replays, from its log, the instructions that it has retired since; a
second mismatch before the next checkpoint requests a containment (R390, R391). Both cores replay one instruction stream with the
same inputs, which leads back to the state they stand in: until it is done no slot of the pair issues (assumption 35). -/
def execLockstepMismatch (core : Nat) (s : State) : Result :=
  let c := core / 2 * 2
  let t := c / 4
  match s.lockstepCore c, (s.tile t).owner with
  | true, some j =>
    if (s.core c).mismatched then
      .next (((s.onCore c fun k => { k with mismatched := false }).onTile t fun x => { x with errors := { x.errors with
        escal := if x.errors.escal = 65535 then 65535 else x.errors.escal + 1 } }).strikeJob j [t] false)
    else
      .next ((s.onCore c fun k => { k with
        mismatched := true, replay := if k.pairRetired = 0 then none else some k.pairRetired }).onTile t fun x => { x with errors := { x.errors with
        mismatch := if x.errors.mismatch = 65535 then 65535 else x.errors.mismatch + 1 } })
  | _, _ => .next s

/-! ## The end of a job (R250) -/

/-- Nothing of a job is left to run: no thread, record, context or copy (R250). -/
def State.jobDone (s : State) (j : Nat) : Bool :=
  s.jobSlots j == []
    && (s.territory j).all (fun t => (s.tile t).seg0 == [] && (s.tile t).seg1 == []
      && (coresOfTile t).all fun c => (s.core c).arrivals == [] && (s.core c).spill == [] && (s.core c).copies.all (·.posted))
    && !s.net.any fun p => s.packetJob p == some j && (match p with
      | .context _ _ _ _ => true
      | .record _ _ _ => true
      | .enqueue _ => true
      | _ => false)

/-- JOB_END: the job's tiles are scrubbed and free, and the host receives event 3 (R250, R348, R403). -/
def execJobEnd (job : Nat) (s : State) : Result :=
  match s.job job with
  | none => .next s
  | some x =>
    if x.stopped || !s.jobDone job then .next s
    else
      let e := s.eventOf job 3 0 (wordOf (s.retiredBy job))
      let s1 := (((s.abortFor job).lateStores job).dropTraffic job).freeTerritory job
      .next (((s1.answerCkpts x allOnes).removeJob job).postEvent x.tenant e)

end Sys2Proof.Machine
end

