-- ==== Sys2Proof/Machine/System.lean ====
section
/-! DEFINITION. System instructions: `trap`, `brk`, `uret`, `sleep` (R181-R184), the supervisor forms (R185, R186), and the
events UPCALL_ENTRY (R42, R44), PLB_FLUSH_DONE (R186) and HALTED_SLOT_RESTART (R186). -/

namespace Sys2Proof.Machine

/-! ## trap, brk, uret (R181-R183) -/

/-- Raise cause 0x16 for an instruction that retires: uepc = pc + 4, uval = the word (R45, R181). -/
def State.trapAt (s : State) (n : Nat) (word : Word) : State :=
  (s.onSlot n fun x => { x with ist := x.ist + 1 }).raiseAt n 0x16 ((s.slot n).pc + 4) word

/-- `trap` (R181). -/
def execTrap (n : BitVec 7) (s : State) : Result := .next (s.trapAt s.focus (Instr.trap n).word)

/-- The host has attached the debugger to a job (R183, R400). -/
def State.debugged (s : State) (j : Nat) : Bool := match s.job j with
  | some x => bitOf (s.tenant x.tenant).debug 16 && fieldOf (s.tenant x.tenant).debug 0 16 == j
  | none => false

/-- A slot's place in the layout of DBGGO (R400, R403). -/
def debugPlace (n : Nat) : Word := wordOf (n % 64 * 2 ^ 12 + n / 64 % 4 * 2 ^ 10 + n / 256)

/-- `brk`: under a debugger the slot stops at pc + 4 and the host is told; else as `trap` (R183). -/
def execBrk (n : BitVec 7) (s : State) : Result :=
  let m := s.focus
  let j := (s.slot m).job
  .next (if isUserSlot m && s.debugged j then
      (s.onSlot m fun x => { x with state := .debug, pc := x.pc + 4 }).postJobEvent j (s.eventOf j 8 0 (debugPlace m))
    else s.trapAt m (Instr.brk n).word)

/-- `uret` (R44, R182). -/
def execUret (s : State) : Result := .next (s.upcallReturn s.focus Instr.uret.word)

/-! ## sleep (R184) -/

/-- The conditions that hold for a sleeping slot; the deadline counts unless field a is g0 (R184). -/
def State.sleepReasons (s : State) (n : Nat) (deadline : Option Word) : Nat :=
  let x := s.slot n
  let due : Bool := match deadline with
    | some w => decide (w.toNat ≤ s.cyc % 2 ^ 64)
    | none => false
  let mail : Bool := s.messagesFor n != []
  let cause : Bool := !x.active && (x.pendWord &&& x.umask) != 0
  (if due then 1 else 0) + (if mail then 2 else 0) + (if cause then 4 else 0)

/-- `sleep`: bubbles until a condition holds, then d takes the reasons (R184). -/
def execSleep (d a : Reg) (la : Bool) (s : State) : Result :=
  let i := Instr.sleep d a la
  let n := s.focus
  let u := readA d a la
  .next (match s.operands n u i.word with
    | .stop t => t
    | .go v s1 =>
      let r := s.sleepReasons n (if a = 0 then none else some (v.getD 0 0))
      if r = 0 then s.waits n else s.deliver s1 n u [(d, wordOf r)] noFlags ((s.slot n).pc + 4) i.word)

/-! ## Supervisor forms (R185, R186) -/

/-- A supervisor form: 0x08 on a user slot (R43, R109, R186). -/
def State.supervisorForm (s : State) (word : Word) (f : State) : State :=
  if isUserSlot s.focus then s.raise s.focus 0x08 word else f

/-- `sret` (R186). -/
def execSret (s : State) : Result := .next (s.supervisorForm Instr.sret.word (s.supervisorReturn s.focus))

/-- `dflush`: the domain's entries go, and d lands, when every core has acknowledged (R186). -/
def execDflush (d a : Reg) (la : Bool) (s : State) : Result :=
  let i := Instr.dflush d a la
  let n := s.focus
  .next (s.supervisorForm i.word (s.longForm i (readA d a la) [] fun x v misuse =>
    if misuse then s.raise n 0x0E i.word
    else (s.post (.plbFlush n (BitVec.ofNat 16 (fieldOf (v.getD 0 0) 0 16)) (x.dst [d]))).onSlot n fun y =>
      y.retire (x.next (x.lastUses [(a, la)]) (x.dst [d]) 0)))

/-- PLB_FLUSH_DONE: every core has dropped the domain's entries, and d lands with 0 (R186). -/
def execPlbFlushDone (n : Nat) (s : State) : Result :=
  match s.net[n]? with
  | some (.plbFlush slot domain lands) =>
    let s1 := ((s.taken n).cores.map (·.1)).foldl (fun (u : State) c => u.onCore c fun k =>
      { k with plb := k.plb.filter fun e => e.domain != domain.toNat }) (s.taken n)
    .next (s1.onSlot slot fun x => x.landAll lands [0])
  | _ => .next s

/-- A job of this number runs and can be saved (R186, R415). -/
def State.canCheckpoint (s : State) (j : Nat) : Bool := match s.job j with
  | some x => s.stage != .reduced && (match x.phase with
    | .waiting => false
    | .restoring _ _ => false
    | .stopping (.contain _) _ => false
    | .flushing (.contain _) _ => false
    | .saving (.contain _) _ => false
    | _ => true)
  | none => false

/-- `ckpt`: requests a Watermark; d lands with T when the save is complete, or with all ones (R186). -/
def execCkpt (d a : Reg) (la : Bool) (s : State) : Result :=
  let i := Instr.ckpt d a la
  let n := s.focus
  .next (s.supervisorForm i.word (s.longForm i (readA d a la) [] fun x v misuse =>
    if misuse then s.raise n 0x0E i.word
    else
      let j := fieldOf (v.getD 0 0) 0 16
      let dst := x.dst [d]
      let s1 := s.onSlot n fun y => y.retire (x.next (x.lastUses [(a, la)]) dst 0)
      if s.canCheckpoint j then
        (s1.onJob j fun q => { q with ckpts := q.ckpts ++ dst.map fun l => ({ slot := n, dst := l } : CkptWaiter) }).requestStop j
          .watermark
      else s1.onSlot n fun y => y.landAll dst [allOnes]))

/-- `halt`: the slot stops until it is restarted (R186). -/
def execHalt (s : State) : Result :=
  .next (s.supervisorForm Instr.halt.word (s.onSlot s.focus fun x =>
    { x.retire (x.next [] [] 0) with state := .halted }))

/-- The walker slots of the corner tiles' cores 0, which run the dies' management code (R41). -/
def managementSlots : List Nat := [0, 16, 512, 528].map fun t => 256 * t + 63

/-- An image has been verified and measured under a number (R417, R418). -/
def State.measured (s : State) (i : Nat) : Bool := (List.range 4).any fun w => storeGet zeroMeas s.meas (4 * i + w) != 0

/-- The firmware that a walker slot runs has been verified: no other code runs on it (R41, R417). -/
def State.runsVerified (s : State) (slot : Nat) : Bool := s.measured (if managementSlots.contains slot then 1 else 2)

/-- HALTED_SLOT_RESTART: the die's management code or the host restarts a halted walker slot whose firmware is verified, at a
pc if it gives one (R186, R417). -/
def execHaltedSlotRestart (slot : Nat) (pc : Option Word) (s : State) : Result :=
  if slot < 64 * 4 * tileCount && isWalkerSlot slot && (s.slot slot).state == .halted && s.runsVerified slot then
    .next (s.onSlot slot fun x => { x with state := .run, pc := pc.getD x.pc, brPc := 0 })
  else .next s

/-! ## Asynchronous entry between turns (R42) -/

/-- UPCALL_ENTRY: a slot that waits at an instruction boundary takes its pending enabled cause of lowest code; `sleep` excepted,
and a fault that the boundary's fetch meets first; a supervisor slot takes none (R42, R43, R184, R185). -/
def execUpcallEntry (slot : Nat) (s : State) : Result :=
  if !isUserSlot slot || !s.canIssue slot || (s.slot slot).state != .wait then .next s
  else match (s.slot slot).deliverable with
    | none => .next s
    | some b =>
      if (s.slot slot).waiting.isSome then .next (s.takeAsync slot b)
      else match s.fetch slot with
        | .stop t => .next (s.orAsync t slot false)
        | .word w _ => match decodeWord w with
          | .error _ => .next s
          | .ok i => if isSleep i then .next s else .next (s.takeAsync slot b)

end Sys2Proof.Machine
end

