-- ==== Sys2Proof/Machine/Power.lean ====
section
/-! DEFINITION. The power controllers: rotation, clock skipping and pstat (R332-R336), and the thermal trip (R411). What a
controller measures is the outside's: each event says that it has decided to act. -/

namespace Sys2Proof.Machine

/-- Cause 0x14 pending on every user slot of a core that holds a thread, where bit 0 or 1 of pstat changes (R180, R333). -/
def State.tellPower (before after : State) (c : Nat) : State :=
  if fieldOf (before.pstat c) 0 2 = fieldOf (after.pstat c) 0 2 then after
  else ((slotsOfCore c).filter fun n => isUserSlot n && (after.slot n).state != .free).foldl
    (fun (u : State) n => u.onSlot n fun x => x.pending 4 0) after

/-- The power priority of the job of a core, if it has one (R332). -/
def State.priorityOf (s : State) (c : Nat) : Option Nat := (s.ownerJob (c / 4)).map (·.priority)

/-- Another core of the die comes before this one: a lower priority, or within it a higher tile index (R332, R335). -/
def State.comesBefore (s : State) (other c : Nat) : Bool :=
  match s.priorityOf other, s.priorityOf c with
  | some p, some q => p < q || (p == q && c / 4 < other / 4)
  | _, _ => false

/-- The cores of a die whose tiles a job owns. -/
def State.ownedCores (s : State) (die : Nat) : List Nat :=
  ((s.tiles.filter fun e => e.2.owner.isSome && dieOfTile e.1 == die).map (·.1)).flatMap coresOfTile

/-- Every core ahead of one in the order of R332 skips cycles or has no user position left (R335). -/
def State.stepsNext (s : State) (c : Nat) : Bool :=
  (s.ownedCores (dieOfTile (c / 4))).all fun d => !s.comesBefore d c || 0 < (s.core d).skip || 62 ≤ (s.core d).outn

/-- SLOT_REMOVAL: the controller takes the core's highest user position out of rotation at an instruction boundary (R332,
R333, R335). -/
def execSlotRemoval (core : Nat) (s : State) : Result :=
  let k := s.core core
  let n := 64 * core + (61 - k.outn)
  if (s.priorityOf core).isNone || k.skip != 0 || 62 ≤ k.outn || !s.stepsNext core || (s.slot n).unchecked.isSome then .next s
  else
    let s1 := s.onCore core fun k => { k with outn := k.outn + 1, shape := true }
    let s2 := if (s1.slot n).state = .free then s1 else s1.onSlot n Slot.retained
    let s3 := if (s2.slot n).lease = .held then s2.spendLease n else s2
    .next (s.tellPower s3 core)

/-- Every core of the die that was stepped after this one has its positions back: returns go in the reverse order of removal (R332,
R335, R412). -/
def State.returnsNext (s : State) (c : Nat) : Bool :=
  (s.ownedCores (dieOfTile (c / 4))).all fun d => !s.comesBefore c d || (s.core d).outn = 0

/-- SLOT_RETURN: the controller gives back the position it took last, in the reverse order of removal (R332, R335, R412). -/
def execSlotReturn (core : Nat) (s : State) : Result :=
  let k := s.core core
  if k.skip != 0 || k.outn = 0 || !s.returnsNext core then .next s
  else
    let n := 64 * core + (62 - k.outn)
    let s1 := s.onCore core fun k => { k with outn := k.outn - 1 }
    .next (if (s1.slot n).state = .free then s1 else s1.onSlot n Slot.returned)

/-- CLOCK_SKIP_STEP: after 10 µs above the target the core skips one more cycle in four, up to two; after 10 µs below it one
fewer (R334). -/
def execClockSkipStep (core : Nat) (above : Bool) (s : State) : Result :=
  let k := s.core core
  if above then
    (if k.shape && k.skip < 2 then .next (s.tellPower (s.onCore core fun k => { k with skip := k.skip + 1 }) core)
    else .next s)
  else if 0 < k.skip then .next (s.tellPower (s.onCore core fun k => { k with skip := k.skip - 1 }) core)
  else .next s

/-- SHAPE_CLEAR: OUTN has been 0 and the power below the target for 10 µs (R333). -/
def execShapeClear (core : Nat) (s : State) : Result :=
  if (s.core core).shape && (s.core core).outn = 0 then
    .next (s.tellPower (s.onCore core fun k => { k with shape := false }) core)
  else .next s

/-- CLOCK_PAUSE: a core's clock pauses and resumes; no state but time is touched (R336). -/
def execClockPause (_core : Nat) (s : State) : Result := .next s

/-- THERMAL_TRIP: a die at 115 °C stops every core and router, and the host is told (R411). -/
def execThermalTrip (_die : BitVec 2) (s : State) : Result :=
  .next ({ s with tripped := true }.onTenant physicalFunction fun t => { t with sentMsix := 2 :: t.sentMsix })

end Sys2Proof.Machine
end

