-- ==== Sys2Proof/Machine/Host.lean ====
section
/-! DEFINITION. The host's side: measurements (R418), launches (R348, R401, R402), the writes of a virtual function's
registers (R400, R402), function resets and pauses (R392), CXL.mem and snoops (R287, R398). -/

namespace Sys2Proof.Machine

/-! ## Measurements (R418) -/

/-- The bytes of a measurement. -/
def State.measurement (s : State) (i : Nat) : List Byte :=
  bytesOfWords ((List.range 4).map fun w => storeGet zeroMeas s.meas (4 * i + w))

/-- Extend a measurement with an image: the digest of the old value and the image's digest (R418). -/
def State.measure (s : State) (i : Nat) (image : List Byte) : State :=
  let d := sha256 (s.measurement i ++ sha256 image)
  { s with
    meas := (List.range 4).foldl (fun (m : Store Word) w =>
      storeSet zeroMeas m (4 * i + w) (wordOf (natOfBytes ((d.drop (8 * w)).take 8)))) s.meas }

/-! ## Launches (R348, R401, R402) -/

/-- The functions' registers are served: the device runs jobs (R411, R414). -/
def State.serves (s : State) : Bool := !s.tripped && (s.stage == .reduced || s.stage == .full)

/-- The address of the record of a job (R401). -/
def State.recordOf (s : State) (v n : Nat) : Nat := fieldOf (s.tenant v).jobtab 16 24 * 2 ^ 16 + 64 * (n % 1024)

/-- A job record (R401). -/
structure JobRecord where
  entry : Word
  handler : Word
  ckpt : Word
  cksz : Word
  config : Word
  shape : Word
  count : Word
  wmi : Word
  deriving DecidableEq, Repr

/-- The record at a device address, read fresh (R402). -/
def State.readRecord (s : State) (at_ : Nat) : JobRecord :=
  let w (k : Nat) : Word := s.physWord (at_ + 8 * k)
  { entry := w 0, handler := w 1, ckpt := w 2, cksz := w 3, config := w 4, shape := w 5, count := w 6, wmi := w 7 }

/-- pb0, pb1 and pb2 of a record, in bytes (R401). -/
def JobRecord.bounds (r : JobRecord) : Nat × Nat × Nat :=
  (1024 * fieldOf r.config 24 8, 1024 * fieldOf r.config 32 8, 1024 * fieldOf r.config 40 8)
/-- The seed tile of a record. -/
def JobRecord.seed (r : JobRecord) : Nat := fieldOf r.shape 0 10
/-- FLOOR of a record. -/
def JobRecord.floor (r : JobRecord) : Nat := fieldOf r.shape 16 11
/-- CEILING of a record. -/
def JobRecord.ceiling (r : JobRecord) : Nat := fieldOf r.shape 32 11
/-- The protection domain of a record. -/
def JobRecord.domain (r : JobRecord) : Nat := fieldOf r.config 48 16

/-- The fields of a record that must be zero are zero (R401). -/
def JobRecord.zerosHold (r : JobRecord) : Bool :=
  fieldOf r.config 17 7 == 0 && fieldOf r.config 11 5 == 0 && fieldOf r.config 0 8 == 0 && fieldOf r.shape 43 21 == 0
    && fieldOf r.shape 27 5 == 0 && fieldOf r.shape 10 6 == 0 && fieldOf r.wmi 32 32 == 0

/-- The constraints of R24 on the boundaries. -/
def boundsOk (b : Nat × Nat × Nat) : Bool :=
  (b.1 == 4096 || b.1 == 8192 || b.1 == 12288 || b.1 == 16384) && b.2.1 % 4096 == 0 && b.2.2 % 4096 == 0
    && b.1 ≤ b.2.1 && b.2.1 + 16384 ≤ b.2.2 && b.2.2 ≤ 196608

/-- The limits of R348 on FLOOR and CEILING. -/
def JobRecord.shapeOk (r : JobRecord) : Bool := 1 ≤ r.floor && r.floor ≤ r.ceiling && r.ceiling ≤ 1024

/-- The tile can take a job: free, and no cession has it in hand (R348, R361). -/
def State.tileOpen (s : State) (t : Nat) : Bool := s.isFreeTile t && (s.tile t).cession.isNone

/-- The eight words of a job's entry record, if it lies 64-aligned in a page that can be read (R246). -/
def State.entryWords (s : State) (va : Nat) : Option (List Word) :=
  if va % 64 != 0 || 2 ^ 56 ≤ va then none else (List.range 8).mapM fun k => s.deviceWord (va + 8 * k)

/-- The STATUS with which a launch is refused, by the first check that fails (R402, R403). -/
def State.launchFault (s : State) (v n : Nat) (r : JobRecord) : Option Nat :=
  if n = 0 || (s.job n).isSome then some 1
  else if !r.zerosHold || !boundsOk r.bounds || !r.shapeOk then some 2
  else if !s.tileOpen r.seed then some 3
  else if !Config.tenantDomain v r.domain then some 4
  else if (s.entryWords r.entry.toNat).isNone then some 2
  else none

/-- The job that a record describes (R401). -/
def State.jobOf (s : State) (v at_ : Nat) (r : JobRecord) : Job :=
  { newJob with
    tenant := v, recordAt := at_, seed := r.seed, floor := r.floor, ceiling := r.ceiling, pb0 := r.bounds.1
    pb1 := r.bounds.2.1, pb2 := r.bounds.2.2, priority := fieldOf r.config 8 3, lockstep := bitOf r.config 16
    domain := r.domain, handler := r.handler, ckptArea := r.ckpt.toNat, ckptSize := r.cksz.toNat
    interval := fieldOf r.wmi 0 32, lastStop := s.cyc
    generation := fieldOf (s.physWord (bitsOf s.ddir.toNat 20 32 * 2 ^ 20 + 16 * r.domain + 8)) 0 8 }

/-- Start a job on its seed tile with its entry record (R348, R402): M6 is extended and event 1 posted (R403, R418). -/
def State.startJob (s : State) (v n at_ : Nat) (r : JobRecord) : State :=
  let ws := (s.entryWords r.entry.toNat).getD []
  let slice := popCount (fieldOf (ws.getD 1 0) 0 32) % 2
  let entry : VatRecord := { words := ws, addr := r.entry, job := n, source := none, poster := .device }
  let s1 := (s.setJob n (s.jobOf v at_ r)).setCount n 1
  let s2 := s1.onTile r.seed fun t => { t with owner := some n, pressure := 0, changed := s.period }
  let s3 := (s2.appendSegment r.seed slice [entry]).measure 6
    (bytesOfWords [r.config, r.shape])
  s3.postEvent v (s3.eventOf n 1 0 (wordOf r.seed))

/-- Process a LAUNCH write (R402). -/
def State.launchNow (s : State) (v : Nat) (value : Word) : State :=
  let n := fieldOf value 0 16
  let at_ := s.recordOf v n
  let r := s.readRecord at_
  match s.launchFault v n r with
  | some status => s.refuseRequest v n status 0x000
  | none => s.startJob v n at_ r

/-- LAUNCH (R402); held in order while a trained device waits for its last job in stage REDUCED (R416). -/
def execLaunch (vf : BitVec 6) (value : Word) (s : State) : Result :=
  if !s.serves then .next s
  else if s.stage == .reduced && s.trained == 0xFFFF then .next { s with heldLaunches := s.heldLaunches ++ [(vf.toNat, value)] }
  else .next (s.launchNow vf.toNat value)

/-! ## DESCHED, RESUME (R376, R383, R402) -/

/-- DESCHED: a pre-emption is requested (R376, R402). -/
def execDesched (vf : BitVec 6) (value : Word) (s : State) : Result :=
  let j := fieldOf value 0 16
  if !s.serves then .next s
  else match s.hostJob vf.toNat j with
    | none => .next (s.refuseRequest vf.toNat j 5 0x008)
    | some x =>
      if x.phase = .waiting then .next (s.refuseRequest vf.toNat j 6 0x008) else .next (s.requestStop j .preempt)

/-- The tiles of the list at a device address (R400). -/
def State.tileList (s : State) (at_ : Nat) : List Nat :=
  (List.range 16).flatMap fun k => ((List.range 64).filter fun b => bitOf (s.physWord (at_ + 8 * k)) b).map fun b => 64 * k + b

/-- A set of tiles is 4-connected (R348). -/
def connectedSet : List Nat → Bool
  | [] => false
  | t :: ts => (t :: ts).all fun u => (growWithin (t :: ts) (t :: ts).length [t]).contains u

/-- The STATUS with which a RESUME onto some tiles is refused (R402). -/
def State.resumeFault (s : State) (x : Job) (rtiles : Word) (tiles : List Nat) : Option Nat :=
  if rtiles.toNat % 64 != 0 then some 2
  else if tiles.any fun t => !s.tileOpen t then some 3
  else if tiles.length < (match x.image with | some i => i.count | none => 1) || !connectedSet tiles then some 2
  else none

/-- A waiting job takes its new territory, its kept events and fault records are delivered, and its restore begins (R383, R387,
R392). -/
def State.resumeOn (s : State) (j : Nat) (x : Job) (tiles : List Nat) : State :=
  let t := match x.image with | some i => i.stop | none => 0
  let s1 := s.setJob j { x with phase := .restoring t true, heldEvents := [] }
  let s2 := tiles.foldl (fun (u : State) k => u.onTile k fun y =>
    { y with owner := some j, pressure := 0, changed := s.period }) s1
  (x.heldEvents.foldl (fun (u : State) e => u.postEvent x.tenant e) s2).drainFaults x.tenant

/-- RESUME: onto the listed tiles, or with RTILES = 0 the old ones; the device never waits for a tile (R383, R402). -/
def execResume (vf : BitVec 6) (value : Word) (s : State) : Result :=
  let v := vf.toNat
  let j := fieldOf value 0 16
  let rtiles := (s.tenant v).rtiles
  if !s.serves then .next s
  else match s.hostJob v j with
    | none => .next (s.refuseRequest v j 5 0x010)
    | some x =>
      if x.phase != .waiting then .next (s.refuseRequest v j 6 0x010)
      else
        let tiles := if rtiles = 0 then x.oldTiles else s.tileList rtiles.toNat
        match s.resumeFault x rtiles tiles with
        | some status => .next (s.refuseRequest v j status 0x010)
        | none => .next (s.resumeOn j x tiles)

/-! ## FAULTDONE, DEBUG, DBGGO, HRESERVE (R183, R299, R301, R400) -/

/-- FAULTDONE: the notice of a fault record, held while its job is stopped (R299, R392, R400). -/
def execFaultdone (vf : BitVec 6) (value : Word) (s : State) : Result :=
  let v := vf.toNat
  if !s.serves then .next s
  else match (s.tenant v).faults.find? fun r => r.seq == fieldOf value 0 63 with
    | none => .next (s.refuseRequest v 0 7 0x058)
    | some r =>
      let held : Bool := match s.job r.job with | some x => x.halted | none => false
      if held then .next (s.onJob r.job fun x => { x with heldFaults := x.heldFaults ++ [value] })
      else .next (s.resolveFault v r (bitOf value 63))

/-- DEBUG: the debugger attaches to a job or detaches (R183, R400, R402). -/
def execDebug (vf : BitVec 6) (value : Word) (s : State) : Result :=
  let v := vf.toNat
  let j := fieldOf value 0 16
  if !s.serves then .next s
  else if (s.hostJob v j).isNone then .next (s.refuseRequest v j 5 0x068)
  else .next (s.onTenant v fun t => { t with debug := keepBits value 0 17 })

/-- DBGGO: a slot that a `brk` stopped goes on, at its pc or at DBGPC; the `brk` retires. No instruction gave that pc, so that a
misaligned one has uval 0 (R72, R183, R400). -/
def execDbggo (vf : BitVec 6) (value : Word) (s : State) : Result :=
  let v := vf.toNat
  let n := 256 * fieldOf value 0 10 + 64 * fieldOf value 10 2 + fieldOf value 12 6
  let x := s.slot n
  if !s.serves || x.state != .debug || (s.hostJob v x.job).isNone then .next s
  else
    let pc := if bitOf value 18 then (s.tenant v).dbgpc else x.pc
    .next (s.setSlot n { x with state := .run, pc := pc, brPc := 0, ist := x.ist + 1 })

/-- A page that the supervisor may put into a job's reserve on a die: a NORMAL heap page there that no reserve holds (R301). -/
def State.reservable (s : State) (x : Job) (die page : Nat) : Bool :=
  (match s.heapLeaf page with | some (_, t) => t.hstate == pageNormal | none => false)
    && s.dieOfPage page == die && !(x.reserve.any fun e => e.2.contains page)

/-- Clear the bytes of a heap page. -/
def State.zeroPage (s : State) (page : Nat) : State :=
  match s.heapLeaf page with
  | none => s
  | some (_, t) =>
    let keys := (s.l2.filter fun e => match e.2 with
      | some x => !x.host && t.frame ≤ x.pa && x.pa < t.frame + 65536
      | none => false).map (·.1)
    let s1 := keys.foldl State.evict s
    (s1.setHbm t.frame (List.replicate 65536 0)).dropCopies page 65536

/-- HRESERVE: the supervisor adds empty heap pages to a job's reserve on a die (R301, R400). -/
def execHreserve (vf : BitVec 6) (value : Word) (s : State) : Result :=
  let v := vf.toNat
  let j := fieldOf value 0 16
  let die := fieldOf value 16 2
  let pages := fieldOf value 20 12
  if !s.serves then .next s
  else match s.hostJob v j with
    | none => .next (s.refuseRequest v j 5 0x080)
    | some x =>
      if pages = 0 then .next (s.refuseRequest v j 2 0x080)
      else
        let fresh := (((Config.reservePages j die s.moves).map fun p => 65536 * p).eraseDups.filter
          (s.reservable x die ·)).take pages
        .next ((fresh.foldl State.zeroPage s).onJob j fun y =>
          { y with reserve := storeSet noPages y.reserve die (storeGet noPages y.reserve die ++ fresh) })

/-! ## Registers that hold a value (R400) -/

/-- EVHEAD: pending events enter the ring as it has room (R400). -/
def execEvhead (vf : BitVec 6) (value : Word) (s : State) : Result :=
  if !s.serves then .next s
  else .next ((s.onTenant vf.toNat fun t => { t with evhead := value }).drainEvents vf.toNat)

/-- PGHEAD: waiting fault records enter the pager ring as it has room (R299, R400). -/
def execPghead (vf : BitVec 6) (value : Word) (s : State) : Result :=
  if !s.serves then .next s
  else .next ((s.onTenant vf.toNat fun t => { t with pghead := value }).drainFaults vf.toNat)

/-- Write a register of a function that has no row of its own; other offsets ignore writes (R400, R405). -/
def Tenant.write (t : Tenant) (offset : Nat) (w : Word) : Tenant :=
  if offset = 0x018 then { t with rtiles := w }
  else if offset = 0x020 then { t with jobtab := keepBits w 16 24 }
  else if offset = 0x028 then { t with evbase := keepBits w 12 52 ||| keepBits w 0 5 }
  else if offset = 0x040 then { t with pgbase := keepBits w 12 52 ||| keepBits w 0 5 }
  else if offset = 0x078 then { t with dbgpc := w }
  else if 0x100 ≤ offset && offset ≤ 0x138 && offset % 8 = 0 then
    { t with nsqctx := storeSet noVal t.nsqctx ((offset - 0x100) / 8) (keepBits w 62 2 ||| keepBits w 42 12 ||| keepBits w 0 1) }
  else if offset = 0x140 then { t with rxbase := keepBits w 12 52 }
  else if offset = 0x148 then { t with rxcfg := keepBits w 16 16 ||| keepBits w 0 6 }
  else t

/-- What a host read of BAR0 at an offset returns: a register that can be read, and 0 for one that can only be written and for an
offset that no register has (R400, R405). -/
def Tenant.read (t : Tenant) (offset : Nat) : Word :=
  if offset = 0x018 then t.rtiles
  else if offset = 0x020 then t.jobtab
  else if offset = 0x028 then t.evbase
  else if offset = 0x030 then t.evhead
  else if offset = 0x038 then t.evtail
  else if offset = 0x040 then t.pgbase
  else if offset = 0x048 then t.pghead
  else if offset = 0x050 then t.pgtail
  else if offset = 0x060 then t.discard
  else if offset = 0x068 then t.debug
  else if offset = 0x078 then t.dbgpc
  else if 0x100 ≤ offset && offset ≤ 0x138 && offset % 8 = 0 then storeGet noVal t.nsqctx ((offset - 0x100) / 8)
  else if offset = 0x140 then t.rxbase
  else if offset = 0x148 then t.rxcfg
  else 0

/-- HOST_REGISTER_WRITE: a register of a virtual function, or through the management window ptroot and ddir; every other
write is ignored (R296, R400, R410). -/
def execHostRegisterWrite (vf : Option (BitVec 6)) (offset : Nat) (value : Word) (s : State) : Result :=
  match vf with
  | none =>
    if offset = 8 * 0x420 then .next { s with ptroot := keepBits value 13 39 }
    else if offset = 8 * 0x422 then .next { s with ddir := keepBits value 20 32 }
    else .next s
  | some f =>
    if !s.serves then .next s
    else
      let s1 := s.onTenant f.toNat fun t => t.write offset value
      .next ((s1.drainEvents f.toNat).drainFaults f.toNat)

/-! ## Function reset, pause, resume (R392) -/

/-- FUNCTION_RESET: the events raised before it are discarded and counted, and the registers reset (R392, R400). -/
def execFunctionReset (vf : BitVec 6) (s : State) : Result :=
  let v := vf.toNat
  let mine := s.jobs.filterMap fun e => match e.2 with
    | some x => if x.tenant = v then some (e.1, x) else none
    | none => none
  let t := s.tenant v
  let lost := t.events.length + t.pagerWaiting.length + (mine.map fun e => e.2.heldEvents.length).sum
  let s1 := mine.foldl (fun (u : State) e => u.setJob e.1 { e.2 with heldEvents := [] }) s
  .next (s1.onTenant v fun y =>
    { tenantAt v with
      discard := y.discard + wordOf lost, eventCount := y.eventCount, faultCount := y.faultCount, faults := y.faults
      paused := y.paused, sentMsix := y.sentMsix })

/-- FUNCTION_PAUSE: the function's events are kept pending from now on (R392). -/
def execFunctionPause (vf : BitVec 6) (s : State) : Result := .next (s.onTenant vf.toNat fun t => { t with paused := true })

/-- FUNCTION_RESUME: the pending events are delivered in order (R392). -/
def execFunctionResume (vf : BitVec 6) (s : State) : Result :=
  .next (((s.onTenant vf.toNat fun t => { t with paused := false }).drainEvents vf.toNat).drainFaults vf.toNat)

/-! ## CXL.mem and snoops (R287, R398) -/

/-- Bytes of HBM: 1,024 GB (R3, R288). DESIGN CHOICE: a GB is 2^30 bytes; no rule gives its bytes (R8; assumption 41). -/
def hbmBytes : Nat := 2 ^ 40

/-- HOST_MEM_ACCESS: a CXL.mem read or write of the HDM range goes straight to HBM; in stage REDUCED the low 96 MiB are held
in the slices and are served there (R397, R398, R415). -/
def execHostMemAccess (write : Option (List Byte)) (address size : Nat) (s : State) : Result :=
  if !s.serves then .next s
  else match write with
    | none =>
      if hbmBytes < address + size then .next s
      else .next { s with hostRead := if s.stage == .reduced then s.physBytes address size else s.hbmBytes address size }
    | some bs =>
      if hbmBytes < address + bs.length then .next s
      else if s.stage == .reduced then .next (s.setPhysBytes address bs)
      else .next (s.setHbm address bs)

/-- HOST_SNOOP: the sectors of a 64-byte line of host memory are written back and let go (R287). -/
def execHostSnoop (address : Nat) (s : State) : Result :=
  let line := address - address % 64
  let keys := (s.l2.filter fun e => match e.2 with
    | some x => x.host && rangesMeet x.pa x.bytes.length line 64
    | none => false).map (·.1)
  .next (keys.foldl State.evict s)

end Sys2Proof.Machine
end

