-- ==== Sys2Proof/Machine/Fabric.lean ====
section
/-! DEFINITION. The fabric: messages that leave a network send queue (R405, R406) and that fill a receive ring (R407), the
requests of other packages (R286, R408), and the lanes of the die bridges (R409). -/

namespace Sys2Proof.Machine

/-! ## Sending (R405, R406) -/

/-- Split a send queue's words after the first that ends a message. -/
def splitMessage : List SendWord → Option (List SendWord × List SendWord)
  | [] => none
  | w :: ws =>
    if w.last then some ([w], ws)
    else match splitMessage ws with
      | some (m, rest) => some (w :: m, rest)
      | none => none

/-- The message that the words of a send queue of a tenant make, under a context (R405, R406). -/
def messageOf (tenant : Nat) (context : Word) (ws : List SendWord) : NetMessage :=
  { package := BitVec.ofNat 6 (fieldOf context 48 6), tenant := BitVec.ofNat 6 (fieldOf context 42 6)
    source := BitVec.ofNat 6 tenant, service := BitVec.ofNat 2 (fieldOf context 62 2)
    tag := match ws.find? (·.header) with | some w => BitVec.ofNat 32 (fieldOf w.val 16 32) | none => 0
    payload := (ws.filter (!·.header)).flatMap fun w => bytesOfNat w.bytes w.val.toNat }

/-- NET_SEND: the head message of a send queue leaves once it is complete; the words of one that is not yet complete leave
the queue, which holds 64 (R406). A context that is closed holds them. -/
def execNetSend (core : Nat) (queue : BitVec 3) (s : State) : Result :=
  let q := queue.toNat
  let sq := storeGet noSend (s.core core).sendQueues q
  match s.coreJob core with
  | none => .next s
  | some j =>
    let context := s.sendContext j q
    let halted : Bool := match s.job j with | some x => x.halted | none => true
    let tenant : Nat := match s.job j with | some x => x.tenant | none => 0
    if !contextOpen context || halted then .next s
    else match splitMessage sq.words with
      | some (m, rest) =>
        .next ({ s with sent := messageOf tenant context (sq.leaving ++ m) :: s.sent }.onCore core fun k =>
          { k with sendQueues := storeSet noSend k.sendQueues q { sq with words := rest, leaving := [] } })
      | none =>
        .next (s.onCore core fun k =>
          { k with sendQueues := storeSet noSend k.sendQueues q { sq with words := [], leaving := sq.leaving ++ sq.words } })

/-! ## Receiving (R407) -/

/-- A message waits for a page of a tenant's ring (R240, R407). -/
def State.ringWaits (s : State) (v : Nat) : Bool := s.inbound.any fun m => m.tenant == v
  && (s.tenant v).faults.any fun f => f.seq == m.fault && f.who.contains (.ring v)

/-- NET_RECEIVE: a message reaches the receiving package, which writes it into the tenant's ring. While the job is stopped, or an
earlier message waits for a page of the ring, it stays with its service (R407). -/
def execNetReceive (vf : BitVec 6) (message : NetMessage) (s : State) : Result :=
  let v := vf.toNat
  let halted : Bool := match s.hostJob v (fieldOf (s.tenant v).rxcfg 16 16) with | some x => x.halted | none => true
  .next (if !s.serves || halted || s.ringWaits v then s else s.receive v message)

/-! ## Requests of other packages (R286, R408) -/

/-- The entry and leaf under which a request of another package is performed, or the cause that its check gives: a malformed
entry's is 0x08 (R286, R295, R415). -/
def State.exportLeaf (s : State) (r : RemoteAccess) : Except (BitVec 8) (Nat × Translation) :=
  let va := r.address.toNat
  let k : AccKind := match r.kind with | .fetch => .fetch | .store _ => .write | .atomic _ _ _ => .atomic | _ => .read
  match s.walk 0 va with
  | .leaf at_ t =>
    let refused : Bool := match r.kind with
      | .atomic op _ _ => t.host && !Config.cxlCache && !(match atomicOpOf op with | some n => Config.atomicOp n | none => false)
      | _ => false
    if !t.allows k || s.lacksFrame t.host (t.frame + (va - t.page)) then .error 0x08
    else if refused then .error 0x0D
    else .ok (at_, t)
  | .malformed _ => .error 0x08
  | .invalid => .error 0x09

/-- The slice that the export table names for a line (R286). -/
def exportPlace (va : Nat) : Place :=
  let e := Config.exportTable (bucketOf va)
  { tile := e.1 % tileCount, slice := e.2 % 2 }

/-- The slice at which a request of another package is performed, with the address under which it holds the line: the one that
holds it now, else the one that the export table names, which fills it. None while a cession moves the slice's lines, or where no
line of the set may be evicted (R283, R286, R362). -/
def State.exportHold (s : State) (va : Nat) (t : Translation) : Option (Place × Nat × State) :=
  let pa := t.frame + (va - t.page)
  let (p, at_, u) := match s.cachedAt t.host pa with
    | some (k, x) => (placeOfKey k, k % 2 ^ 56 + (pa - x.pa), s)
    | none => (exportPlace va, va, s.fill (exportPlace va) 0 va tileCount (t.backing va))
  if s.linesMoving p.tile || s.roomFor p at_ == .none then none else some (p, at_, u)

/-- The aligned words that hold some bytes at a slice. -/
def State.wordsAt (s : State) (p : Place) (va n : Nat) : List Word :=
  (List.range ((va % 8 + n + 7) / 8)).map fun k => wordOf (natOfBytes (s.homeBytes p (va / 8 * 8 + 8 * k) 8))

/-- The words of the sector of an address, as a slice holds them: what another package is answered, whose L1 takes the sector
(R279, R286). -/
def State.sectorAnswer (s : State) (p : Place) (va : Nat) : PeerAnswer :=
  .words ((List.range (sectorLen va / 8)).map fun k => wordOf (natOfBytes (s.homeBytes p (sectorStart va + 8 * k) 8)))

/-- Write bytes at a slice for another package: every former owner but the one that registers again is revoked before the
answer, and the core that stored is the words' owner, as for a local home (R138, R283). -/
def State.peerWrite (s : State) (p : Place) (va : Nat) (bs : List Byte) (owner : Option Owner) : State :=
  let base := sectorStart va / 8
  let owners := match s.sectorAt p va with | some x => x.owners | none => []
  (s.revokeWords (p.sectorKey va) base ((wordsOf va bs.length).filter fun w => storeGet noOwner owners (w - base) != owner)).merge
    p va bs owner

/-- Answer another package. -/
def State.answerPeer (s : State) (q : BitVec 6) (a : PeerAnswer) : State := { s with peerAnswers := (q, a) :: s.peerAnswers }

/-- Perform a checked request of another package at the slice that holds its line. An atomic is answered with the words it
found, any other with its sector (R138, R279, R286, R408). -/
def State.serveRemote (s : State) (p : Place) (va : Nat) (r : RemoteAccess) : State :=
  match r.kind with
  | .store bs =>
    let u := s.peerWrite p va bs (some { package := r.package, core := r.core })
    (u.letGo p va).answerPeer r.package (u.sectorAnswer p va)
  | .atomic op frm operands =>
    let n := atomicSize op
    let o := atomicOutcome op frm (s.homeBytes p va n) operands
    (((s.recall p va n).peerWrite p va o.bytes none).letGo p va).answerPeer r.package (.words (s.wordsAt p va n))
  | _ => (s.letGo p va).answerPeer r.package (s.sectorAnswer p va)

/-- REMOTE_REQUEST: a request of another package is translated and homed here by the export table, performed, and answered;
its page is marked used, and its writes, of an entry too, wait for the copy of an armed granule. A revoke takes a core's
ownership of words whose home is there, and a recall the words too (R138, R147, R279, R283, R286, R295, R386, R408). -/
def execRemoteRequest (r : RemoteAccess) (s : State) : Result :=
  let va := r.address.toNat
  let writes : Bool := match r.kind with | .store _ => true | .atomic _ _ _ => true | _ => false
  if !s.serves then .next s
  else match r.kind with
    | .revoke => .next (if s.isOurs va then s else (wordsOf va r.size).foldl (fun (u : State) w => u.setOwned r.core w false) s)
    | .recall => .next (if s.isOurs va then s else s.l1Forget r.core (va / 8) r.size)
    | _ =>
      if !s.isOurs va || (writes && s.armed va) then .next s
      else match s.exportLeaf r with
        | .error cause =>
          let u := match s.walk 0 va with
            | .malformed at_ => s.reportMalformed at_
            | _ => s
          .next (u.answerPeer r.package (.fails cause))
        | .ok (at_, t) => match s.exportHold va t with
          | none => .next s
          | some (p, held, u) =>
            let entry := touched (u.physWord at_) writes
            if entry != u.physWord at_ && s.armedAt at_ != [] then .next s
            else .next ((u.setEntry at_ entry).serveRemote p held r)

/-! ## The die bridges (R409) -/

/-- The tile of a bridge link on the lower die (R409). -/
def lowerTile (link : Nat) : Nat := if link < 32 then 32 * link + 15 else 32 * 15 + (link - 32)

/-- LANE_SHED: a link sheds half its lanes and retrains, and event 9 tells the physical function (R409). -/
def execLaneShed (link : BitVec 6) (s : State) : Result :=
  .next ({ s with links := storeSet linkAt s.links link.toNat { half := true, retraining := true } }.reportError
    (s.eventOf 0 9 0 (wordOf (lowerTile link.toNat))))

/-- LANE_RETRAIN_DONE: the link's held packets go on, at half its bandwidth (R409). -/
def execLaneRetrainDone (link : BitVec 6) (s : State) : Result :=
  let l := storeGet linkAt s.links link.toNat
  .next { s with links := storeSet linkAt s.links link.toNat { l with retraining := false } }

end Sys2Proof.Machine
end

