-- ==== Sys2Proof/Machine/Boot.lean ====
section
/-! DEFINITION. Bring-up: package reset and the stages (R414-R416), secure boot (R417), and attestation (R419). -/

namespace Sys2Proof.Machine

/-- PACKAGE_RESET: the reset state of the machine; the host's memory and the contents of HBM are not the package's to clear
(R414). -/
def execPackageReset (s : State) : Result :=
  .next { State.reset with moves := s.moves, agenda := s.agenda, hbm := s.hbm, host := s.host }

/-- The FAIL code of the first check that an image does not pass (R417). -/
def firmwareFault (f : Firmware) : Option (BitVec 8) :=
  let slot := Config.keyDigests.findIdx (· == sha256 f.key)
  if 4 ≤ slot || Config.keyDigests.length ≤ slot then some 1
  else if Config.keyRevoked slot then some 2
  else if !Config.signatureVerifies f.key (sha256 f.body) f.signature then some 1
  else if f.version < Config.minVersion then some 3
  else none

/-- Load an image and start it on the walker slots that run it, at its first instruction: the supervisor firmware on the management
slots, the walker firmware on the others (R41, R417). DESIGN CHOICE: its bytes are put where its entry points (assumption 4). -/
def State.startFirmware (s : State) (measures : BitVec 3) (body : List Byte) : State :=
  let slots := if measures = 1 then managementSlots
    else if measures = 2 then ((List.range 4096).map fun c => 64 * c + 63).filter (!managementSlots.contains ·)
    else []
  let entry := Config.firmwareEntry measures
  let loaded := if slots == [] then s else s.setPhysBytes entry.toNat body
  slots.foldl (fun (u : State) n => u.onSlot n fun x => { x with state := .run, pc := entry }) loaded

/-- The ROM measures itself and the fuses before the first image (R418). DESIGN CHOICE: that moment (assumption 4). -/
def State.measureRom (s : State) : State := if s.measured 0 then s else s.measure 0 Config.romAndFuses

/-- Everything that the ROM measures and loads has been measured (R417, R418). -/
def State.firmwareComplete (s : State) : Bool := (List.range 6).all s.measured

/-- FIRMWARE_LOAD: the boot ROM checks an image, measures it and runs it; with the last the device serves on die 0. A failure
sets stage FAILED. M0 is the ROM's own, and M6 and M7 are no image's (R414, R417, R418). -/
def execFirmwareLoad (image : Firmware) (s : State) : Result :=
  if s.stage != .rom || image.measures = 0 || 5 < image.measures.toNat then .next s
  else
    let s0 := s.measureRom
    match firmwareFault image with
    | some code => .next (s0.failBoot code)
    | none =>
      let s1 := (s0.measure image.measures.toNat image.body).startFirmware image.measures image.body
      .next (if s1.firmwareComplete then { s1 with stage := .reduced } else s1)

/-- HBM_STACK_TRAINED: a stack has trained, or has failed, which fails the bring-up once no job runs (R416). -/
def execHbmStackTrained (stack : BitVec 4) (trained : Bool) (s : State) : Result :=
  if s.stage != .reduced then .next s
  else if trained then .next { s with trained := s.trained ||| BitVec.ofNat 16 (2 ^ stack.toNat) }
  else .next (State.failStack { s with stackFailed := true })

/-- The frames that stage REDUCED holds in the slices (R415). -/
def reducedBytes : Nat := 96 * 2 ^ 20

/-- The interleave sets that the supervisor lays out for full service: each has a channel at least, of the package's 512 (R288).
DESIGN CHOICE: which, and that they stand from then on (assumption 41). -/
def laidOutSets : List InterleaveSet :=
  (Config.interleaveSets.filter fun e => e.2.2 != []).map fun e =>
    { base := e.1, size := e.2.1, channels := e.2.2.map (· % 512) }

/-- FULL_SERVICE_ENTRY: with all sixteen stacks trained and no job running the interleave sets stand, the range is zeroed, the
stage becomes FULL, and the held launches are processed in order (R416). -/
def execFullServiceEntry (s : State) : Result :=
  if s.stage != .reduced || s.trained != 0xFFFF || s.jobs != [] then .next s
  else
    let zeroed := ({ s with sets := laidOutSets }).setHbm 0 (List.replicate reducedBytes 0)
    let s1 := { zeroed with
      l2 := s.l2.filter fun e => match e.2 with
        | some x => x.host || reducedBytes ≤ x.pa
        | none => false
      stage := .full, heldLaunches := [] }
    .next (s.heldLaunches.foldl (fun (u : State) (e : Nat × Word) => u.launchNow e.1 e.2) s1)

/-! ## Attestation (R419) -/

/-- The bytes of some measurements, in order. -/
def State.measurements (s : State) (n : Nat) : List Byte := (List.range n).flatMap s.measurement

/-- SPDM_GET_CERTIFICATE: the certificates of the identity key and of the key derived from M0-M5 (R419). -/
def execSpdmGetCertificate (s : State) : Result := .next { s with spdm := Config.certificates (s.measurements 6) }

/-- SPDM_GET_MEASUREMENTS: M0-M6, signed by the key derived from M0-M5 over SHA-256 (R419). -/
def execSpdmGetMeasurements (s : State) : Result :=
  .next { s with
    spdm := s.measurements 7 ++ Config.bootSignature (s.measurements 6) (sha256 (s.measurements 7)) }

end Sys2Proof.Machine
end

