-- ==== Sys2Proof/Machine/Control.lean ====
section
/-! DEFINITION. Branches and jumps (R122-R125). -/

namespace Sys2Proof.Machine

/-- The target of a branch (R80). -/
def branchTarget (pc : Word) (imm : BitVec 11) : Word := pc + (imm.signExtend 64 <<< 2)
/-- The target of `jal` (R80). -/
def jumpTarget (pc : Word) (imm : BitVec 18) : Word := pc + (imm.signExtend 64 <<< 2)

/-- A conditional branch (R122). -/
def State.condBranch (s : State) (i : Instr) (a b : Reg) (imm : BitVec 11) (cond : Word → Word → Bool) : State :=
  s.branch i (onlyAB a b false false) fun x v =>
    ([], if cond (v.getD 0 0) (v.getD 1 0) then branchTarget x.pc imm else x.pc + 4)

/-- `beq` (R122). -/
def execBeq (a b : Reg) (imm : BitVec 11) (s : State) : Result :=
  .next (s.condBranch (.beq a b imm) a b imm fun a b => a == b)
/-- `bne` (R122). -/
def execBne (a b : Reg) (imm : BitVec 11) (s : State) : Result :=
  .next (s.condBranch (.bne a b imm) a b imm fun a b => a != b)
/-- `blt` (R122). -/
def execBlt (a b : Reg) (imm : BitVec 11) (s : State) : Result :=
  .next (s.condBranch (.blt a b imm) a b imm fun a b => decide (a.toInt < b.toInt))
/-- `bge` (R122). -/
def execBge (a b : Reg) (imm : BitVec 11) (s : State) : Result :=
  .next (s.condBranch (.bge a b imm) a b imm fun a b => decide (b.toInt ≤ a.toInt))
/-- `bltz` (R122). -/
def execBltz (a b : Reg) (imm : BitVec 11) (s : State) : Result :=
  .next (s.condBranch (.bltz a b imm) a b imm fun a b => decide (a.toNat < b.toNat))
/-- `bgez` (R122). -/
def execBgez (a b : Reg) (imm : BitVec 11) (s : State) : Result :=
  .next (s.condBranch (.bgez a b imm) a b imm fun a b => decide (b.toNat ≤ a.toNat))
/-- `dbnz` (R123). -/
def execDbnz (a : Reg) (imm : BitVec 11) (s : State) : Result :=
  .next (s.branch (.dbnz a imm) (readA a a false) fun x v =>
    let w := v.getD 0 0 - 1
    ([(a, w)], if w != 0 then branchTarget x.pc imm else x.pc + 4))
/-- `jal` (R124). -/
def execJal (d : Reg) (imm : BitVec 18) (s : State) : Result :=
  .next (s.branch (.jal d imm) (writeD d) fun x _ => ([(d, x.pc + 4)], jumpTarget x.pc imm))
/-- `jalr`: a is read before d is written; low bits of the target stay (R124). -/
def execJalr (d a : Reg) (imm : BitVec 11) (s : State) : Result :=
  .next (s.branch (.jalr d a imm) (readA d a false) fun x v => ([(d, x.pc + 4)], v.getD 0 0 + imm.signExtend 64))

end Sys2Proof.Machine
end

