-- ==== Sys2Proof/Machine/Float.lean ====
section
/-! DEFINITION. Scalar floating-point instructions (R187-R193). -/

namespace Sys2Proof.Machine

/-- The value of a register in a format: its low bits (R52). -/
def FloatFormat.ofReg (f : FloatFormat) (w : Word) : FVal := f.value (w.toNat % 2 ^ f.width)

/-- A result as a register holds it, with its flags (R52, R59). -/
def FRes.reg (r : FRes) : Word × FlagSet := (wordOf r.bits, r.flags)

/-- An operation on the values of a and b under the slot's rounding (R188). -/
def FloatFormat.two (f : FloatFormat) (op : BitVec 2 → FVal → FVal → FRes) (x : Slot) (v : List Word) : Word × FlagSet :=
  (op x.frm (f.ofReg (v.getD 0 0)) (f.ofReg (v.getD 1 0))).reg

/-- The smaller or larger of a and b (R56). -/
def FloatFormat.pick (f : FloatFormat) (wantMax : Bool) (_x : Slot) (v : List Word) : Word × FlagSet :=
  (f.minMax wantMax ((v.getD 0 0).toNat % 2 ^ f.width) ((v.getD 1 0).toNat % 2 ^ f.width)).reg

/-- A comparison of a and b (R189): `quiet` for `feq`. -/
def FloatFormat.test (f : FloatFormat) (quiet : Bool) (p : FVal → FVal → Bool) (_x : Slot) (v : List Word) : Word × FlagSet :=
  let a := f.ofReg (v.getD 0 0)
  let b := f.ofReg (v.getD 1 0)
  (if p a b then 1 else 0, compareFlags quiet a b)

/-- Convert a between formats (R190). -/
def FloatFormat.from (f g : FloatFormat) (x : Slot) (v : List Word) : Word × FlagSet :=
  (f.ofValue x.frm (g.ofReg (v.getD 0 0))).reg

/-- A sign operation on an FP32 value: a NaN in a gives the canonical NaN (R193). -/
def signForm (f : Nat → Nat → Nat) (_x : Slot) (v : List Word) : Word × FlagSet :=
  let a := (v.getD 0 0).toNat % 2 ^ 32
  match fp32.value a with
  | .nan s => (fp32.nan s).reg
  | _ => (wordOf (f a ((v.getD 1 0).toNat % 2 ^ 32)), noFlags)

/-- `fadd` (R188). -/
def execFadd (d a b : Reg) (fmt : FType) (la lb : Bool) (s : State) : Result :=
  .next (s.compute (.fadd d a b fmt la lb) (readAB d a b la lb) d ((formatOf fmt).two (formatOf fmt).add))
/-- `fsub` (R188). -/
def execFsub (d a b : Reg) (fmt : FType) (la lb : Bool) (s : State) : Result :=
  .next (s.compute (.fsub d a b fmt la lb) (readAB d a b la lb) d ((formatOf fmt).two (formatOf fmt).sub))
/-- `fmul` (R188). -/
def execFmul (d a b : Reg) (fmt : FType) (la lb : Bool) (s : State) : Result :=
  .next (s.compute (.fmul d a b fmt la lb) (readAB d a b la lb) d ((formatOf fmt).two (formatOf fmt).mul))
/-- `fmin` (R188). -/
def execFmin (d a b : Reg) (fmt : FType) (la lb : Bool) (s : State) : Result :=
  .next (s.compute (.fmin d a b fmt la lb) (readAB d a b la lb) d ((formatOf fmt).pick false))
/-- `fmax` (R188). -/
def execFmax (d a b : Reg) (fmt : FType) (la lb : Bool) (s : State) : Result :=
  .next (s.compute (.fmax d a b fmt la lb) (readAB d a b la lb) d ((formatOf fmt).pick true))
/-- `fma`: it reads d (R188). -/
def execFma (d a b : Reg) (fmt : FType) (la lb : Bool) (s : State) : Result :=
  .next (s.compute (.fma d a b fmt la lb) (readABD d a b la lb) d fun x v =>
    ((formatOf fmt).fma x.frm ((formatOf fmt).ofReg (v.getD 0 0)) ((formatOf fmt).ofReg (v.getD 1 0))
      ((formatOf fmt).ofReg (v.getD 2 0))).reg)
/-- `flt` (R189). -/
def execFlt (d a b : Reg) (fmt : FType) (la lb : Bool) (s : State) : Result :=
  .next (s.compute (.flt d a b fmt la lb) (readAB d a b la lb) d ((formatOf fmt).test false FVal.lt))
/-- `fle` (R189). -/
def execFle (d a b : Reg) (fmt : FType) (la lb : Bool) (s : State) : Result :=
  .next (s.compute (.fle d a b fmt la lb) (readAB d a b la lb) d ((formatOf fmt).test false FVal.le))
/-- `feq` (R189). -/
def execFeq (d a b : Reg) (fmt : FType) (la lb : Bool) (s : State) : Result :=
  .next (s.compute (.feq d a b fmt la lb) (readAB d a b la lb) d ((formatOf fmt).test true FVal.eq))
/-- `fcvtSH` (R190). -/
def execFcvtSH (d a : Reg) (la : Bool) (s : State) : Result :=
  .next (s.compute (.fcvtSH d a la) (readA d a la) d (fp32.from fp16))
/-- `fcvtHS` (R190). -/
def execFcvtHS (d a : Reg) (la : Bool) (s : State) : Result :=
  .next (s.compute (.fcvtHS d a la) (readA d a la) d (fp16.from fp32))
/-- `fcvtSB` (R190). -/
def execFcvtSB (d a : Reg) (la : Bool) (s : State) : Result :=
  .next (s.compute (.fcvtSB d a la) (readA d a la) d (fp32.from bf16))
/-- `fcvtBS` (R190). -/
def execFcvtBS (d a : Reg) (la : Bool) (s : State) : Result :=
  .next (s.compute (.fcvtBS d a la) (readA d a la) d (bf16.from fp32))
/-- `fcvt.s.i`: a signed integer to FP32 (R191). -/
def execFcvtSI (d a : Reg) (la : Bool) (s : State) : Result :=
  .next (s.compute (.fcvtSI d a la) (readA d a la) d fun x v => (fp32.ofInt x.frm (v.getD 0 0).toInt).reg)
/-- `fcvt.i.s`: FP32 to a signed integer (R191). -/
def execFcvtIS (d a : Reg) (la : Bool) (s : State) : Result :=
  .next (s.compute (.fcvtIS d a la) (readA d a la) d fun x v =>
    let r := toIntBetween x.frm (-(2 ^ 63)) (2 ^ 63 - 1) (fp32.ofReg (v.getD 0 0))
    (wordOfInt r.1, r.2))
/-- `fclass` (R191): the table's bit for the class. -/
def execFclass (d a : Reg) (la : Bool) (s : State) : Result :=
  .next (s.compute (.fclass d a la) (readA d a la) d fun _ v =>
    (wordOf (2 ^ fp32.classBit ((v.getD 0 0).toNat % 2 ^ 32)), noFlags))
/-- `fneg` (R193). -/
def execFneg (d a : Reg) (la : Bool) (s : State) : Result :=
  .next (s.compute (.fneg d a la) (readA d a la) d (signForm fun a _ => a ^^^ 2 ^ 31))
/-- `fabs` (R193). -/
def execFabs (d a : Reg) (la : Bool) (s : State) : Result :=
  .next (s.compute (.fabs d a la) (readA d a la) d (signForm fun a _ => a % 2 ^ 31))
/-- `fsgn` (R193). -/
def execFsgn (d a b : Reg) (la lb : Bool) (s : State) : Result :=
  .next (s.compute (.fsgn d a b la lb) (readAB d a b la lb) d (signForm fun a b => a % 2 ^ 31 + b / 2 ^ 31 * 2 ^ 31))

/-! ## Square roots (R192) -/

/-- A square root on its way: rounded by frm as read at issue, its destination owed (R59, R192). DESIGN CHOICE: with d = g0
nothing is owed and nothing lands, and R59 gives no time for its flags: they reach fsr at retirement (assumption 45). -/
def State.squareRoot (s : State) (i : Instr) (d a : Reg) (la : Bool) (f : FloatFormat) : State :=
  s.longCompute i (readA d a la) d fun x v y dst =>
    let r := f.sqrt x.frm (f.ofReg (v.getD 0 0))
    if dst = [] then { y with fsr := y.fsr ||| r.flags }
    else { y with sqrts := y.sqrts ++ dst.map fun l => { dst := l, val := wordOf r.bits, flags := r.flags } }

/-- `fsqrt.s` (R192). -/
def execFsqrtS (d a : Reg) (la : Bool) (s : State) : Result := .next (s.squareRoot (.fsqrtS d a la) d a la fp32)
/-- `fsqrt.h` (R192). -/
def execFsqrtH (d a : Reg) (la : Bool) (s : State) : Result := .next (s.squareRoot (.fsqrtH d a la) d a la fp16)

/-- SQRT_RESULT: the `n`-th result of a slot's square-root unit lands with its flags, once its leaf is FULL (R59, R192). -/
def execSqrtResult (slot n : Nat) (s : State) : Result :=
  let x := s.slot slot
  match x.sqrts[n]? with
  | none => .next s
  | some r =>
    .next (s.setSlot slot { x.land r.dst r.val with sqrts := x.sqrts.eraseIdx n, fsr := x.fsr ||| r.flags })

end Sys2Proof.Machine
end

