-- ==== Sys2Proof/Machine/Integer.lean ====
section
/-! DEFINITION. Integer instructions: arithmetic, logic, shifts, products, quotients, bit counts and fields, immediates
and constants (R110-R121). -/

namespace Sys2Proof.Machine

/-! ## Pure functions -/

/-- A function of operands a and b, no flags. -/
def bin (f : Word → Word → Word) (_x : Slot) (v : List Word) : Word × FlagSet := (f (v.getD 0 0) (v.getD 1 0), noFlags)
/-- A function of operand a, no flags. -/
def una (f : Word → Word) (_x : Slot) (v : List Word) : Word × FlagSet := (f (v.getD 0 0), noFlags)
/-- 1 or 0. -/
def truth (c : Bool) : Word := if c then 1 else 0
/-- The count of a shift: the low six bits (R114). -/
def shiftCount (b : Word) : Nat := b.toNat % 64
/-- a << n. -/
def shlOf (a b : Word) : Word := a <<< shiftCount b
/-- Z(a) >> n. -/
def shrOf (a b : Word) : Word := a >>> shiftCount b
/-- Floor(S(a) / 2^n). -/
def sraOf (a b : Word) : Word := wordOfInt (a.toInt / 2 ^ shiftCount b)
/-- a rotated left by n. -/
def rolOf (a b : Word) : Word := (a <<< shiftCount b) ||| (a >>> (64 - shiftCount b))
/-- The high half of a product of two integers (R115). -/
def highHalf (x y : Int) : Word := wordOfInt (x * y / 2 ^ 64)
/-- The signed quotient (R116): −2^63 / −1 wraps to itself. -/
def divOf (a b : Word) : Word := if b = 0 then allOnes else wordOfInt (a.toInt.tdiv b.toInt)
/-- The unsigned quotient. -/
def divzOf (a b : Word) : Word := if b = 0 then allOnes else wordOf (a.toNat / b.toNat)
/-- The signed remainder. -/
def remOf (a b : Word) : Word := if b = 0 then a else wordOfInt (a.toInt - b.toInt * a.toInt.tdiv b.toInt)
/-- The unsigned remainder. -/
def remzOf (a b : Word) : Word := if b = 0 then a else wordOf (a.toNat - b.toNat * (a.toNat / b.toNat))
/-- min, max, minz, maxz (R113). -/
def minOf (a b : Word) : Word := if a.toInt ≤ b.toInt then a else b
/-- The signed maximum. -/
def maxOf (a b : Word) : Word := if b.toInt ≤ a.toInt then a else b
/-- The unsigned minimum. -/
def minzOf (a b : Word) : Word := if a.toNat ≤ b.toNat then a else b
/-- The unsigned maximum. -/
def maxzOf (a b : Word) : Word := if b.toNat ≤ a.toNat then a else b
/-- Zero bits above the highest one (R117). -/
def clzOf (a : Word) : Word := if a = 0 then 64 else wordOf (63 - Nat.log2 a.toNat)
/-- Zero bits below the lowest one (R117). -/
def ctzOf (a : Word) : Word := wordOf (((List.range 64).find? fun k => bitOf a k).getD 64)
/-- The number of one bits. -/
def popcOf (a : Word) : Word := wordOf (popCount a.toNat)
/-- Bit i moved to bit 63 − i. -/
def brevOf (a : Word) : Word := a.reverse
/-- The number of bytes that are not zero. -/
def cnzOf (a : Word) : Word := wordOf ((bytesOfNat 8 a.toNat).filter (· != 0)).length
/-- POS of a field descriptor (R118). -/
def fieldPos (b : Word) : Nat := fieldOf b 0 6
/-- The length of a field descriptor: LEN + 1. -/
def fieldLen (b : Word) : Nat := fieldOf b 8 6 + 1
/-- The field, zero-extended. -/
def bfxzOf (a b : Word) : Word := wordOf (a.toNat / 2 ^ fieldPos b % 2 ^ fieldLen b)
/-- The field, sign-extended. -/
def bfxOf (a b : Word) : Word :=
  let f := a.toNat / 2 ^ fieldPos b % 2 ^ fieldLen b
  if 2 ^ (fieldLen b - 1) ≤ f then wordOfInt ((f : Int) - 2 ^ fieldLen b) else wordOf f
/-- The low bits of a inserted into d. -/
def bfiOf (a b d : Word) : Word :=
  let mask := wordOf ((2 ^ fieldLen b - 1) * 2 ^ fieldPos b)
  (d &&& ~~~mask) ||| ((a <<< fieldPos b) &&& mask)
/-- An 11-bit immediate, sign-extended (R80). -/
def immI (imm : BitVec 11) : Word := imm.signExtend 64

/-! ## Operations on registers (R113-R115, R117, R118) -/

/-- `add` (R113). -/
def execAdd (d a b : Reg) (la lb : Bool) (s : State) : Result :=
  .next (s.compute (.add d a b la lb) (readAB d a b la lb) d (bin (fun a b => a + b)))
/-- `sub` (R113). -/
def execSub (d a b : Reg) (la lb : Bool) (s : State) : Result :=
  .next (s.compute (.sub d a b la lb) (readAB d a b la lb) d (bin (fun a b => a - b)))
/-- `and` (R113). -/
def execAnd (d a b : Reg) (la lb : Bool) (s : State) : Result :=
  .next (s.compute (.and d a b la lb) (readAB d a b la lb) d (bin (fun a b => a &&& b)))
/-- `or` (R113). -/
def execOr (d a b : Reg) (la lb : Bool) (s : State) : Result :=
  .next (s.compute (.or d a b la lb) (readAB d a b la lb) d (bin (fun a b => a ||| b)))
/-- `xor` (R113). -/
def execXor (d a b : Reg) (la lb : Bool) (s : State) : Result :=
  .next (s.compute (.xor d a b la lb) (readAB d a b la lb) d (bin (fun a b => a ^^^ b)))
/-- `andn` (R113). -/
def execAndn (d a b : Reg) (la lb : Bool) (s : State) : Result :=
  .next (s.compute (.andn d a b la lb) (readAB d a b la lb) d (bin (fun a b => a &&& ~~~b)))
/-- `orn` (R113). -/
def execOrn (d a b : Reg) (la lb : Bool) (s : State) : Result :=
  .next (s.compute (.orn d a b la lb) (readAB d a b la lb) d (bin (fun a b => a ||| ~~~b)))
/-- `xnor` (R113). -/
def execXnor (d a b : Reg) (la lb : Bool) (s : State) : Result :=
  .next (s.compute (.xnor d a b la lb) (readAB d a b la lb) d (bin (fun a b => ~~~(a ^^^ b))))
/-- `shl` (R114). -/
def execShl (d a b : Reg) (la lb : Bool) (s : State) : Result :=
  .next (s.compute (.shl d a b la lb) (readAB d a b la lb) d (bin shlOf))
/-- `shr` (R114). -/
def execShr (d a b : Reg) (la lb : Bool) (s : State) : Result :=
  .next (s.compute (.shr d a b la lb) (readAB d a b la lb) d (bin shrOf))
/-- `sra` (R114). -/
def execSra (d a b : Reg) (la lb : Bool) (s : State) : Result :=
  .next (s.compute (.sra d a b la lb) (readAB d a b la lb) d (bin sraOf))
/-- `rol` (R114). -/
def execRol (d a b : Reg) (la lb : Bool) (s : State) : Result :=
  .next (s.compute (.rol d a b la lb) (readAB d a b la lb) d (bin rolOf))
/-- `mul` (R115). -/
def execMul (d a b : Reg) (la lb : Bool) (s : State) : Result :=
  .next (s.compute (.mul d a b la lb) (readAB d a b la lb) d (bin (fun a b => a * b)))
/-- `mulh` (R115). -/
def execMulh (d a b : Reg) (la lb : Bool) (s : State) : Result :=
  .next (s.compute (.mulh d a b la lb) (readAB d a b la lb) d (bin (fun a b => highHalf a.toInt b.toInt)))
/-- `mulhz` (R115). -/
def execMulhz (d a b : Reg) (la lb : Bool) (s : State) : Result :=
  .next (s.compute (.mulhz d a b la lb) (readAB d a b la lb) d (bin (fun a b => highHalf a.toNat b.toNat)))
/-- `mulhsz` (R115). -/
def execMulhsz (d a b : Reg) (la lb : Bool) (s : State) : Result :=
  .next (s.compute (.mulhsz d a b la lb) (readAB d a b la lb) d (bin (fun a b => highHalf a.toInt b.toNat)))
/-- `min` (R113). -/
def execMin (d a b : Reg) (la lb : Bool) (s : State) : Result :=
  .next (s.compute (.min d a b la lb) (readAB d a b la lb) d (bin minOf))
/-- `max` (R113). -/
def execMax (d a b : Reg) (la lb : Bool) (s : State) : Result :=
  .next (s.compute (.max d a b la lb) (readAB d a b la lb) d (bin maxOf))
/-- `minz` (R113). -/
def execMinz (d a b : Reg) (la lb : Bool) (s : State) : Result :=
  .next (s.compute (.minz d a b la lb) (readAB d a b la lb) d (bin minzOf))
/-- `maxz` (R113). -/
def execMaxz (d a b : Reg) (la lb : Bool) (s : State) : Result :=
  .next (s.compute (.maxz d a b la lb) (readAB d a b la lb) d (bin maxzOf))
/-- `slt` (R113). -/
def execSlt (d a b : Reg) (la lb : Bool) (s : State) : Result :=
  .next (s.compute (.slt d a b la lb) (readAB d a b la lb) d (bin (fun a b => truth (decide (a.toInt < b.toInt)))))
/-- `sltz` (R113). -/
def execSltz (d a b : Reg) (la lb : Bool) (s : State) : Result :=
  .next (s.compute (.sltz d a b la lb) (readAB d a b la lb) d (bin (fun a b => truth (decide (a.toNat < b.toNat)))))
/-- `seq` (R113). -/
def execSeq (d a b : Reg) (la lb : Bool) (s : State) : Result :=
  .next (s.compute (.seq d a b la lb) (readAB d a b la lb) d (bin (fun a b => truth (a == b))))
/-- `sne` (R113). -/
def execSne (d a b : Reg) (la lb : Bool) (s : State) : Result :=
  .next (s.compute (.sne d a b la lb) (readAB d a b la lb) d (bin (fun a b => truth (a != b))))
/-- `bfx` (R118). -/
def execBfx (d a b : Reg) (la lb : Bool) (s : State) : Result :=
  .next (s.compute (.bfx d a b la lb) (readAB d a b la lb) d (bin bfxOf))
/-- `bfxz` (R118). -/
def execBfxz (d a b : Reg) (la lb : Bool) (s : State) : Result :=
  .next (s.compute (.bfxz d a b la lb) (readAB d a b la lb) d (bin bfxzOf))
/-- `clz` (R117). -/
def execClz (d a : Reg) (la : Bool) (s : State) : Result :=
  .next (s.compute (.clz d a la) (readA d a la) d (una clzOf))
/-- `ctz` (R117). -/
def execCtz (d a : Reg) (la : Bool) (s : State) : Result :=
  .next (s.compute (.ctz d a la) (readA d a la) d (una ctzOf))
/-- `popc` (R117). -/
def execPopc (d a : Reg) (la : Bool) (s : State) : Result :=
  .next (s.compute (.popc d a la) (readA d a la) d (una popcOf))
/-- `brev` (R117). -/
def execBrev (d a : Reg) (la : Bool) (s : State) : Result :=
  .next (s.compute (.brev d a la) (readA d a la) d (una brevOf))
/-- `cnz` (R117). -/
def execCnz (d a : Reg) (la : Bool) (s : State) : Result :=
  .next (s.compute (.cnz d a la) (readA d a la) d (una cnzOf))
/-- `bfi`: it reads d after a and b (R111, R118). -/
def execBfi (d a b : Reg) (la lb : Bool) (s : State) : Result :=
  .next (s.compute (.bfi d a b la lb) (readABD d a b la lb) d fun _ v => (bfiOf (v.getD 0 0) (v.getD 1 0) (v.getD 2 0), noFlags))

/-! ## Division (R112, R116) -/

/-- A quotient or remainder on its way: the destination is owed and the divider holds the result (R112). -/
def State.divide (s : State) (i : Instr) (d a b : Reg) (la lb : Bool) (f : Word → Word → Word) : State :=
  s.longCompute i (readAB d a b la lb) d fun _ v y dst =>
    { y with divs := y.divs ++ dst.map fun l => { dst := l, val := f (v.getD 0 0) (v.getD 1 0), flags := noFlags } }

/-- `div` (R116). -/
def execDiv (d a b : Reg) (la lb : Bool) (s : State) : Result :=
  .next (s.divide (.div d a b la lb) d a b la lb divOf)
/-- `divz` (R116). -/
def execDivz (d a b : Reg) (la lb : Bool) (s : State) : Result :=
  .next (s.divide (.divz d a b la lb) d a b la lb divzOf)
/-- `rem` (R116). -/
def execRem (d a b : Reg) (la lb : Bool) (s : State) : Result :=
  .next (s.divide (.rem d a b la lb) d a b la lb remOf)
/-- `remz` (R116). -/
def execRemz (d a b : Reg) (la lb : Bool) (s : State) : Result :=
  .next (s.divide (.remz d a b la lb) d a b la lb remzOf)
/-- DIVIDE_RESULT: the `n`-th result of a slot's divider lands; with its leaf not FULL it is held (R112; assumption 69). -/
def execDivideResult (slot n : Nat) (s : State) : Result :=
  let x := s.slot slot
  match x.divs[n]? with
  | none => .next s
  | some r =>
    .next (s.setSlot slot { x.land r.dst r.val with divs := x.divs.eraseIdx n })

/-! ## Immediates and constants (R119-R121) -/

/-- `addi` (R119). -/
def execAddi (d a : Reg) (imm : BitVec 11) (s : State) : Result :=
  .next (s.compute (.addi d a imm) (readA d a false) d (una fun a => a + immI imm))
/-- `andi` (R119). -/
def execAndi (d a : Reg) (imm : BitVec 11) (s : State) : Result :=
  .next (s.compute (.andi d a imm) (readA d a false) d (una fun a => a &&& immI imm))
/-- `ori` (R119). -/
def execOri (d a : Reg) (imm : BitVec 11) (s : State) : Result :=
  .next (s.compute (.ori d a imm) (readA d a false) d (una fun a => a ||| immI imm))
/-- `xori` (R119). -/
def execXori (d a : Reg) (imm : BitVec 11) (s : State) : Result :=
  .next (s.compute (.xori d a imm) (readA d a false) d (una fun a => a ^^^ immI imm))
/-- `slti` (R119). -/
def execSlti (d a : Reg) (imm : BitVec 11) (s : State) : Result :=
  .next (s.compute (.slti d a imm) (readA d a false) d (una fun a => truth (decide (a.toInt < (immI imm).toInt))))
/-- `sltzi` (R119). -/
def execSltzi (d a : Reg) (imm : BitVec 11) (s : State) : Result :=
  .next (s.compute (.sltzi d a imm) (readA d a false) d (una fun a => truth (decide (a.toNat < (immI imm).toNat))))
/-- `muli` (R119). -/
def execMuli (d a : Reg) (imm : BitVec 11) (s : State) : Result :=
  .next (s.compute (.muli d a imm) (readA d a false) d (una fun a => a * immI imm))
/-- `shli` (R120). -/
def execShli (d a : Reg) (n : BitVec 6) (s : State) : Result :=
  .next (s.compute (.shli d a n) (readA d a false) d (una fun a => shlOf a (n.setWidth 64)))
/-- `shri` (R120). -/
def execShri (d a : Reg) (n : BitVec 6) (s : State) : Result :=
  .next (s.compute (.shri d a n) (readA d a false) d (una fun a => shrOf a (n.setWidth 64)))
/-- `srai` (R120). -/
def execSrai (d a : Reg) (n : BitVec 6) (s : State) : Result :=
  .next (s.compute (.srai d a n) (readA d a false) d (una fun a => sraOf a (n.setWidth 64)))
/-- `roli` (R120). -/
def execRoli (d a : Reg) (n : BitVec 6) (s : State) : Result :=
  .next (s.compute (.roli d a n) (readA d a false) d (una fun a => rolOf a (n.setWidth 64)))
/-- `lil` (R121). -/
def execLil (d : Reg) (imm : BitVec 18) (s : State) : Result :=
  .next (s.compute (.lil d imm) (writeD d) d fun _ _ => (imm.signExtend 64, noFlags))
/-- `lis`: it reads d (R111, R121). -/
def execLis (d : Reg) (imm : BitVec 18) (s : State) : Result :=
  .next (s.compute (.lis d imm) (readA d d false) d (una fun v => (v <<< 18) ||| imm.setWidth 64))
/-- `apc`: from the pc of the `apc` itself (R121). -/
def execApc (d : Reg) (imm : BitVec 18) (s : State) : Result :=
  .next (s.compute (.apc d imm) (writeD d) d fun x _ => (x.pc + (imm.signExtend 64 <<< 12), noFlags))

end Sys2Proof.Machine
end

