-- ==== Sys2Proof/Machine/Memory.lean ====
section
/-! DEFINITION. Loads, stores, acquire and release, fences, pairs, atomics and the block forms (R131-R154). -/

namespace Sys2Proof.Machine

/-- A form with one address: its register checks, the wait of a release, then the access with the operands (R131, R139,
R143). -/
def State.memoryForm (s : State) (i : Instr) (u : Named) (address : Reg) (imm : Int) (size : Nat) (release : Option Bool)
    (go : Access → List Word → State) : State :=
  s.longForm i u [address] fun x v misuse =>
    let held := match release with
      | some package => !s.released s.focus package
      | none => false
    if held then s.waits s.focus
    else
      let a := v.getD 0 0
      go { slot := s.focus, ea := eaOf a imm, target := s.targetOf s.focus a imm size size, size := size,
           dst := x.dst u.dests, dead := x.lastUses u.reads, misuse := misuse, word := i.word } v

/-- A plain load (R140). -/
def State.plainLoad (s : State) (i : Instr) (d a : Reg) (imm : BitVec 11) (size : Nat) (signed : Bool) : State :=
  s.memoryForm i (readA d a false) a imm.toInt size none fun q _ => s.loadAccess q signed .plain false

/-- A plain store of the low bytes of b (R141). -/
def State.plainStore (s : State) (i : Instr) (a b : Reg) (imm : BitVec 11) (size : Nat) : State :=
  s.memoryForm i (onlyAB a b false false) a imm.toInt size none fun q v => s.storeAccess q (bytesOfNat size (v.getD 1 0).toNat)

/-- `ldS8` (R140). -/
def execLdS8 (d a : Reg) (imm : BitVec 11) (s : State) : Result :=
  .next (s.plainLoad (.ldS8 d a imm) d a imm 1 true)
/-- `ldZ8` (R140). -/
def execLdZ8 (d a : Reg) (imm : BitVec 11) (s : State) : Result :=
  .next (s.plainLoad (.ldZ8 d a imm) d a imm 1 false)
/-- `ldS16` (R140). -/
def execLdS16 (d a : Reg) (imm : BitVec 11) (s : State) : Result :=
  .next (s.plainLoad (.ldS16 d a imm) d a imm 2 true)
/-- `ldZ16` (R140). -/
def execLdZ16 (d a : Reg) (imm : BitVec 11) (s : State) : Result :=
  .next (s.plainLoad (.ldZ16 d a imm) d a imm 2 false)
/-- `ldS32` (R140). -/
def execLdS32 (d a : Reg) (imm : BitVec 11) (s : State) : Result :=
  .next (s.plainLoad (.ldS32 d a imm) d a imm 4 true)
/-- `ldZ32` (R140). -/
def execLdZ32 (d a : Reg) (imm : BitVec 11) (s : State) : Result :=
  .next (s.plainLoad (.ldZ32 d a imm) d a imm 4 false)
/-- `ld64` (R140). -/
def execLd64 (d a : Reg) (imm : BitVec 11) (s : State) : Result :=
  .next (s.plainLoad (.ld64 d a imm) d a imm 8 false)
/-- `st8` (R141). -/
def execSt8 (a b : Reg) (imm : BitVec 11) (s : State) : Result :=
  .next (s.plainStore (.st8 a b imm) a b imm 1)
/-- `st16` (R141). -/
def execSt16 (a b : Reg) (imm : BitVec 11) (s : State) : Result :=
  .next (s.plainStore (.st16 a b imm) a b imm 2)
/-- `st32` (R141). -/
def execSt32 (a b : Reg) (imm : BitVec 11) (s : State) : Result :=
  .next (s.plainStore (.st32 a b imm) a b imm 4)
/-- `st64` (R141). -/
def execSt64 (a b : Reg) (imm : BitVec 11) (s : State) : Result :=
  .next (s.plainStore (.st64 a b imm) a b imm 8)

/-! ## Acquire, release, fences, pairs (R142-R146) -/

/-- `ld.acq` (R142). -/
def execLdAcq (d a : Reg) (la : Bool) (s : State) : Result :=
  .next (s.memoryForm (.ldAcq d a la) (readA d a la) a 0 8 none fun q _ => s.loadAccess q false .package true)
/-- `ld.acq.d` (R142). -/
def execLdAcqD (d a : Reg) (la : Bool) (s : State) : Result :=
  .next (s.memoryForm (.ldAcqD d a la) (readA d a la) a 0 8 none fun q _ => s.loadAccess q false .die true)
/-- `st.rel` (R143). -/
def execStRel (a b : Reg) (la lb : Bool) (s : State) : Result :=
  .next (s.memoryForm (.stRel a b la lb) (onlyAB a b la lb) a 0 8 (some true) fun q v =>
    s.storeAccess q (bytesOfNat 8 (v.getD 1 0).toNat))
/-- `st.rel.d` (R143). -/
def execStRelD (a b : Reg) (la lb : Bool) (s : State) : Result :=
  .next (s.memoryForm (.stRelD a b la lb) (onlyAB a b la lb) a 0 8 (some false) fun q v =>
    s.storeAccess q (bytesOfNat 8 (v.getD 1 0).toNat))

/-- A fence: it waits for its condition, then invalidates and retires in one pass (R144). -/
def State.fence (s : State) (ready : Bool) (invalidates : Option Bool) : State :=
  let n := s.focus
  if !ready then s.waits n
  else
    let s1 := match invalidates with
      | some package => s.acquire (coreOfSlot n) package
      | none => s
    s1.onSlot n fun x => x.retire (x.next [] [] 0)

/-- `fence.acq` (R144). -/
def execFenceAcq (s : State) : Result := .next (s.fence (s.loadsLanded s.focus) (some true))
/-- `fence.rel` (R144). -/
def execFenceRel (s : State) : Result := .next (s.fence (s.released s.focus true) none)
/-- `fence.full` (R144). -/
def execFenceFull (s : State) : Result := .next (s.fence (s.released s.focus true) (some true))
/-- `fence.d` (R144). -/
def execFenceD (s : State) : Result := .next (s.fence (s.released s.focus false) (some false))

/-- `ld.pair` (R146). -/
def execLdPair (d a : Reg) (la : Bool) (s : State) : Result :=
  .next (s.memoryForm (.ldPair d a la) { reads := [(a, la)], dests := [d, d + 1], also := [] } a 0 16 none fun q _ =>
    s.loadAccess q false .plain false)
/-- `st.pair` (R146). -/
def execStPair (a b : Reg) (la lb : Bool) (s : State) : Result :=
  .next (s.memoryForm (.stPair a b la lb) { reads := [(a, la), (b, lb), (b + 1, lb)], dests := [], also := [] } a 0 16 none
    fun q v => s.storeAccess q (bytesOfNat 8 (v.getD 1 0).toNat ++ bytesOfNat 8 (v.getD 2 0).toNat))

/-! ## Atomics (R147-R151) -/

/-- The ordering acquires. -/
def orderAcquires : Order → Bool
  | .acq => true
  | .ar => true
  | _ => false
/-- The release of the ordering, at package reach. -/
def orderRelease : Order → Option Bool
  | .rel => some true
  | .ar => some true
  | _ => none

/-- An atomic (R147): `operands` takes what the form sends from what it reads. -/
def State.atomic (s : State) (i : Instr) (u : Named) (a : Reg) (order : Order) (op : BitVec 7)
    (operands : List Word → List Word) : State :=
  s.memoryForm i u a 0 (atomicSize op) (orderRelease order) fun q v => s.atomicAccess q op (operands v) (orderAcquires order)

/-- `amoAdd` (R148). -/
def execAmoAdd (d a b : Reg) (order : Order) (la lb : Bool) (s : State) : Result :=
  .next (s.atomic (.amoAdd d a b order la lb) (readAB d a b la lb) a order 0x40 fun v => [v.getD 1 0])
/-- `amoAnd` (R148). -/
def execAmoAnd (d a b : Reg) (order : Order) (la lb : Bool) (s : State) : Result :=
  .next (s.atomic (.amoAnd d a b order la lb) (readAB d a b la lb) a order 0x41 fun v => [v.getD 1 0])
/-- `amoOr` (R148). -/
def execAmoOr (d a b : Reg) (order : Order) (la lb : Bool) (s : State) : Result :=
  .next (s.atomic (.amoOr d a b order la lb) (readAB d a b la lb) a order 0x42 fun v => [v.getD 1 0])
/-- `amoXor` (R148). -/
def execAmoXor (d a b : Reg) (order : Order) (la lb : Bool) (s : State) : Result :=
  .next (s.atomic (.amoXor d a b order la lb) (readAB d a b la lb) a order 0x43 fun v => [v.getD 1 0])
/-- `amoMin` (R148). -/
def execAmoMin (d a b : Reg) (order : Order) (la lb : Bool) (s : State) : Result :=
  .next (s.atomic (.amoMin d a b order la lb) (readAB d a b la lb) a order 0x44 fun v => [v.getD 1 0])
/-- `amoMax` (R148). -/
def execAmoMax (d a b : Reg) (order : Order) (la lb : Bool) (s : State) : Result :=
  .next (s.atomic (.amoMax d a b order la lb) (readAB d a b la lb) a order 0x45 fun v => [v.getD 1 0])
/-- `amoMinz` (R148). -/
def execAmoMinz (d a b : Reg) (order : Order) (la lb : Bool) (s : State) : Result :=
  .next (s.atomic (.amoMinz d a b order la lb) (readAB d a b la lb) a order 0x46 fun v => [v.getD 1 0])
/-- `amoMaxz` (R148). -/
def execAmoMaxz (d a b : Reg) (order : Order) (la lb : Bool) (s : State) : Result :=
  .next (s.atomic (.amoMaxz d a b order la lb) (readAB d a b la lb) a order 0x47 fun v => [v.getD 1 0])
/-- `amoSwap` (R148). -/
def execAmoSwap (d a b : Reg) (order : Order) (la lb : Bool) (s : State) : Result :=
  .next (s.atomic (.amoSwap d a b order la lb) (readAB d a b la lb) a order 0x48 fun v => [v.getD 1 0])
/-- `amo.fadd` (R150). -/
def execAmoFadd (d a b : Reg) (order : Order) (la lb : Bool) (s : State) : Result :=
  .next (s.atomic (.amoFadd d a b order la lb) (readAB d a b la lb) a order 0x4B fun v => [v.getD 1 0])
/-- `cas`: d is the expected value (R149). -/
def execCas (d a b : Reg) (order : Order) (la lb : Bool) (s : State) : Result :=
  .next (s.atomic (.cas d a b order la lb) (readABD d a b la lb) a order 0x49 fun v => [v.getD 2 0, v.getD 1 0])
/-- `cas2`: d and d + 1 are the expected pair (R149). -/
def execCas2 (d a b : Reg) (order : Order) (la lb : Bool) (s : State) : Result :=
  .next (s.atomic (.cas2 d a b order la lb)
    { reads := [(a, la), (b, lb), (b + 1, lb), (d, false), (d + 1, false)], dests := [d, d + 1], also := [] } a order 0x4A
    fun v => [v.getD 3 0, v.getD 4 0, v.getD 1 0, v.getD 2 0])

/-! ## Block and repeat (R152-R154) -/

/-- Which block form. -/
inductive BlockKind where
  | move | zero | fill | compare
  deriving DecidableEq, Repr

/-- The form reads through a. -/
def BlockKind.reads : BlockKind → Bool
  | .move => true
  | .compare => true
  | _ => false

/-- One access of a block word: done, or the reason it is not. -/
inductive BlockTry where
  | ok (v : Word) (s : State)
  | faults (cause : Nat) (val : Word)
  | waits (s : State)
  | miss (va : Nat) (k : AccKind)
  | remote (va : Nat)

/-- The slot has a request in flight to a core's scratchpad that a block word must follow (R137). -/
def State.onWayNear (s : State) (n core : Nat) : Bool :=
  s.net.any fun p => p.slot == some n && (match p with
    | .near q => q.core == core
    | .atomic q => q.core == some core
    | _ => false)

/-- The slot has a request in flight to the home of an address, or for its word, that a block word must follow: requests of a slot
to one home take one path, in order (R136, R137). -/
def State.onWayHome (s : State) (n j va : Nat) : Bool :=
  let same (w : Nat) : Bool := s.homeOf j w == s.homeOf j va && s.isOurs w == s.isOurs va
  s.net.any fun p => p.slot == some n && (match p with
    | .load q => same q.va
    | .atomic q => q.core.isNone && same q.addr
    | .store q => same q.va
    | .forwarded q _ => same q.va
    | _ => false)

/-- Read a word for a block form, as a plain load (R137, R153, R291, R315). -/
def State.blockRead (s : State) (n : Nat) (a : Word) : BlockTry :=
  let x := s.slot n
  let c := coreOfSlot n
  match s.target n a 8 8 with
  | .fails cause v => .faults cause v
  | .scratch tc off =>
    if tc = c then
      match s.slotCheck n c off 8 true with
      | .ready => .ok (s.scratchWord c off) s
      | .off => .faults 0x05 a
      | .wait => .waits (s.waitsLeaf n c off)
    else match s.nearHit n tc off 8 with
      | some bs => .ok (wordOf (natOfBytes bs)) s
      | none =>
        if s.onWayNear n tc then .waits s
        else if s.lostTile x.job tc then .ok 0 (s.chargeNear c tc 8)
        else match s.slotCheck n tc off 8 true with
          | .ready => .ok (s.scratchWord tc off)
              ((s.chargeNear c tc 8).l1Fill c (s.nearSector tc off (s.scratchSize x.job)))
          | .off => .faults 0x05 a
          | .wait => .waits (s.waitsLeaf n tc off)
  | .global va =>
    if !isUserSlot n then .ok (s.physWord va) s
    else if !s.permits c x.job .read va then .faults 0x08 a
    else
      let s1 := s.keepProtection c x.job va
      match s.l1Hit n va 8 with
      | some bs => .ok (wordOf (natOfBytes bs)) s1
      | none =>
        if s.onWayHome n x.job va then .waits s
        else if !s.isOurs va then .remote va
        else if s.proxiedAhead (dieOfTile (c / 4)) va none then .waits s
        else
          let h := s.homeOf x.job va
          match s.homeCheck h va .read none with
          | .miss => .miss va .read
          | .busy => .waits s
          | .fails cause => .faults cause.toNat a
          | ok =>
            let s2 := ((s1.present h x.job va (c / 4) ok).dropProxy x.job n va).chargeSlice h (c / 4) (sectorLen va)
            .ok (wordOf (natOfBytes (s2.homeBytes h va 8))) ((s2.l1Fill c (s2.sectorWords h va)).letGo h va)

/-- Write a word for a block form, as a plain store: one to another core or to a home counts among the slot's 32 until it is
acknowledged (R136, R153). -/
def State.blockWrite (s : State) (n : Nat) (a v : Word) : BlockTry :=
  let x := s.slot n
  let c := coreOfSlot n
  let bs := bytesOfNat 8 v.toNat
  match s.target n a 8 8 with
  | .fails cause w => .faults cause w
  | .scratch tc off =>
    let counted (u : State) : State :=
      (u.post (.ack n true true [] false)).onSlot n fun y => { y with opc := y.opc + 1, odc := y.odc + 1 }
    if tc != c && (s.onWayNear n tc || x.storesFull) then .waits s
    else if tc != c && s.lostTile x.job tc then .ok v (counted (s.chargeNear c tc 8))
    else match s.slotCheck n tc off 8 false with
      | .ready =>
        if tc = c then .ok v (s.putScratch c off bs)
        else
          let s1 := (s.chargeNear c tc 8).putScratch tc off bs
          .ok v (counted (s1.l1Refresh c (s1.nearSector tc off (s.scratchSize x.job)) []))
      | _ => .waits (s.waitsLeaf n tc off)
  | .global va =>
    if !isUserSlot n then .ok v (s.setPhysBytes va bs)
    else if !s.permits c x.job .write va then .faults 0x08 a
    else if x.storesFull then .waits s
    else if !s.isOurs va then .remote va
    else
      let h := s.homeOf x.job va
      match s.homeCheck h va .write none with
      | .miss => .miss va .write
      | .busy => .waits s
      | .fails cause => .faults cause.toNat a
      | ok =>
        let s1 := ((s.keepProtection c x.job va).l1Write c (va / 8) 0 bs).post
          (.store { slot := n, va := va, bytes := bs, proxied := none, array := false, frame := ok.backing s h va,
                    retire := none })
        .ok v (s1.onSlot n fun y => { y with opc := y.opc + 1, odc := y.odc + 1 })

/-- The registers of a block form at a word. -/
structure BlockRegs where
  d : Word
  a : Word
  b : Word
  deriving DecidableEq, Repr

/-- The registers once a word is done. -/
def BlockRegs.step (r : BlockRegs) (k : BlockKind) : BlockRegs :=
  { d := r.d + 8, a := if k.reads then r.a + 8 else r.a, b := r.b - 1 }

/-- The places and values that a pass lands; a destination g0 is dropped. -/
def BlockRegs.puts (r : BlockRegs) (k : BlockKind) (x : Slot) (d a b : Reg) : List (RegLoc × Word) :=
  (x.dst [d]).map (·, r.d) ++ (if k.reads then (x.dst [a]).map (·, r.a) else []) ++ (x.dst [b]).map (·, r.b)

/-- What ends a pass with these registers: the instruction retires with its count at 0 or at an unequal pair. -/
def Slot.blockRetire (x : Slot) (k : BlockKind) (d a b : Reg) (r : BlockRegs) (unequal : Bool) (stores : Nat) : Retire :=
  let ends := r.b == 0 || unequal
  { dead := [], owe := [], puts := r.puts k x d a b, pc := if ends then x.pc + 4 else x.pc, stores := stores,
    count := if ends then 1 else 0 }

/-- What one word of a pass gives. -/
inductive BlockWord where
  | done (s : State)
  | unequal (s : State)
  | stop (first : State)            -- the state that the issue gives, if this is its first word

/-- Send a slot to a walker for a word of a block form (R134). -/
def State.blockMiss (s : State) (n va : Nat) (k : AccKind) : State :=
  let x := s.slot n
  let h := s.homeOf x.job va
  (s.askWalker h { va := va, kind := k, job := x.job, tile := h.tile, slice := h.slice, who := .slot n }).uncheck n va k true

/-- What a read or a compare that is not done gives as a first word: a fault, a wait, or a request. -/
def State.blockStop (s : State) (n : Nat) : BlockTry → State
  | .ok _ t => t
  | .faults cause v => s.raise n cause v
  | .waits t => t.waits n
  | .miss va k => s.blockMiss n va k
  | .remote va =>
    if s.net.any (Packet.isLoadOf n) then s.waits n
    else (s.post (.load { slot := n, va := va, size := 8, signed := false, dst := [], reach := .plain, acquire := false,
                          fetch := false, left := s.moves, frame := none, retire := none })).uncheck n va .read true

/-- The store of one word; to another package it is checked there, and the pass is that word (R134, R138). -/
def State.blockStore (s s1 : State) (n : Nat) (k : BlockKind) (d a b : Reg) (r : BlockRegs) (v : Word) : BlockWord :=
  match s1.blockWrite n r.d v with
  | .ok _ t => .done t
  | .remote va =>
    let p : StorePacket :=
      { slot := n, va := va, bytes := bytesOfNat 8 v.toNat, proxied := none, array := false, frame := none,
        retire := some ((s.slot n).blockRetire k d a b (r.step k) false 1) }
    .stop ((s.post (.store p)).uncheck n va .write false)
  | other => .stop (s.blockStop n other)

/-- One word of a pass (R153). -/
def State.blockWord (s : State) (n : Nat) (k : BlockKind) (d a b : Reg) (r : BlockRegs) : BlockWord :=
  match k with
  | .zero => s.blockStore s n k d a b r 0
  | .fill => s.blockStore s n k d a b r r.a
  | .move =>
    match s.blockRead n r.a with
    | .ok v t => s.blockStore t n k d a b r v
    | other => .stop (s.blockStop n other)
  | .compare =>
    match s.blockRead n r.d with
    | .ok v t =>
      match t.blockRead n r.a with
      | .ok w t2 => if v == w then .done t2 else .unequal t2
      | other => .stop (s.blockStop n other)
    | other => .stop (s.blockStop n other)

/-- The words of a pass, at most `fuel` of them (R153). -/
def State.blockPass (n : Nat) (k : BlockKind) (d a b : Reg) : Nat → Bool → BlockRegs → State → State
  | 0, _, r, s => s.onSlot n fun x => x.retire (x.blockRetire k d a b r false 0)
  | fuel + 1, first, r, s =>
    if r.b = 0 then s.onSlot n fun x => x.retire (x.blockRetire k d a b r false 0)
    else match s.blockWord n k d a b r with
      | .done t => State.blockPass n k d a b fuel false (r.step k) t
      | .unequal t => t.onSlot n fun x => x.retire (x.blockRetire k d a b r true 0)
      | .stop t => if first then t else s.onSlot n fun x => x.retire (x.blockRetire k d a b r false 0)

/-- The accesses of the first word of a block form, in order: the pointer, and what it is accessed for (R153). -/
def BlockRegs.accesses (r : BlockRegs) : BlockKind → List (Word × AccKind)
  | .zero => [(r.d, .write)]
  | .fill => [(r.d, .write)]
  | .move => [(r.a, .read), (r.d, .write)]
  | .compare => [(r.d, .read), (r.a, .read)]

/-- A block form: one pass of its issue. A bound count or fill value raises 0x0E after the checks of the first word, which a count
of 0 has none of (R139, R153). -/
def State.block (s : State) (i : Instr) (k : BlockKind) (d a b : Reg) : State :=
  let names : Named :=
    if k = .zero then { reads := [(b, false), (d, false)], dests := [d, b], also := [] }
    else { reads := [(a, false), (b, false), (d, false)], dests := if k.reads then [d, a, b] else [d, b], also := [] }
  s.longForm i names (if k.reads then [d, a] else [d]) fun x _ misuse =>
    let n := s.focus
    let r : BlockRegs := { d := x.val d, a := if k = .zero then 0 else x.val a, b := x.val b }
    if misuse then s.misusedAll n i.word (if r.b = 0 && (x.bound b).isNone then [] else r.accesses k)
    else State.blockPass n k d a b (1 + Config.passLimit s.moves % 8) true r s

/-- `mvblk` (R152, R153). -/
def execMvblk (d a b : Reg) (s : State) : Result := .next (s.block (.mvblk d a b) .move d a b)
/-- `rep.zero` (R152, R153). -/
def execRepZero (d b : Reg) (s : State) : Result := .next (s.block (.repZero d b) .zero d 0 b)
/-- `rep.fill` (R152, R153). -/
def execRepFill (d a b : Reg) (s : State) : Result := .next (s.block (.repFill d a b) .fill d a b)
/-- `rep.cmp` (R152, R153). -/
def execRepCmp (d a b : Reg) (s : State) : Result := .next (s.block (.repCmp d a b) .compare d a b)

end Sys2Proof.Machine
end

