-- ==== Sys2Proof/Machine/Pipeline.lean ====
section
/-! DEFINITION. Pipelines: `stage` and `sinh` (R262), `splice` (R264) and the end of a stage's removal (R266). Meeting a
marker is part of a read of a queue (R265). -/

namespace Sys2Proof.Machine

/-- `splice` (R264). -/
def execSplice (a b : Reg) (la lb : Bool) (s : State) : Result :=
  let n := s.focus
  let c := coreOfSlot n
  let i := Instr.splice a b la lb
  let u := onlyAB a b la lb
  .next (match s.operands n u i.word with
    | .stop t => t
    | .go v s1 =>
      let q := fieldOf (v.getD 0 0) 0 4
      let m := v.getD 1 0
      let op := fieldOf m 60 4
      if s.endHolder c q true != some n || !(op == 1 || op == 2 || op == 3) then s.raise n 0x0E i.word
      else if s1.queueShut c q || 8 ≤ (s.core c).splices.length then
        s.waits n
      else
        let e : SpliceEntry := { seq := BitVec.ofNat 12 (fieldOf m 32 12), slot := n, matched := false }
        let s2 := (s1.setQueue c q (s1.queue c q ++ [{ val := m, marker := true }])).onCore c fun k =>
          { k with splices := k.splices ++ [e] }
        s.deliver s2 n u [] noFlags ((s.slot n).pc + 4) i.word)

/-- A stage descriptor (R95). -/
structure StageDesc where
  entry : Word
  mask : BitVec 32
  id : BitVec 8
  deriving DecidableEq, Repr

/-- What the reading of a descriptor gives: it, a fault or a wait (R262). -/
inductive DescTry where
  | ok (d : StageDesc)
  | fails (cause : Nat) (val : Word)
  | waits (off : Nat)               -- a leaf that is not FULL

/-- Read a stage descriptor at a 16-aligned local address; a breach of R262 raises 0x01. -/
def State.readStage (s : State) (n : Nat) (a word : Word) : DescTry :=
  let c := coreOfSlot n
  if regionOf a != 0xF0 then .fails 0x01 word
  else match s.ownOffset n a 16 16 with
    | .error _ => .fails 0x01 word
    | .ok off => match s.slotCheck n c off 16 true with
      | .off => .fails 0x05 a
      | .wait => .waits off
      | .ready =>
        let w := s.scratchWord c (off + 8)
        let mask := fieldOf w 0 32
        if fieldOf w 40 24 != 0 || mask % 2 != 0 || 8 < popCount mask then .fails 0x01 word
        else .ok { entry := s.scratchWord c off, mask := BitVec.ofNat 32 mask, id := BitVec.ofNat 8 (fieldOf w 32 8) }

/-- Stages of a core (R262). -/
def stageRoom : Nat := 16

/-- Create a PARKED stage on the lowest FREE slot of a core with a window of 32, from its issuer (R262). -/
def State.park (s : State) (n : Nat) (d : StageDesc) : Option (Nat × State) :=
  let c := coreOfSlot n
  let x := s.slot n
  if stageRoom ≤ (s.core c).stages.length then none
  else
    let fill (y : Slot) : Slot :=
      { y with state := .parked, pc := d.entry, fmt0 := x.fmt0, fmt1 := x.fmt1, scl0 := x.scl0, scl1 := x.scl1, frm := x.frm,
               stb := x.stb, ubase := x.ubase, umask := x.umask, firstFetch := true }
    (s.startThread c x.job 32 fill).map fun e =>
      let entry : StageEntry := { slot := e.1, id := d.id, mask := d.mask, entry := d.entry, running := false }
      (e.1, e.2.onCore c fun k => { k with stages := k.stages ++ [entry] })

/-- `stage` (R262). -/
def execStage (d a : Reg) (la : Bool) (s : State) : Result :=
  let n := s.focus
  let i := Instr.stage d a la
  let u := readA d a la
  .next (match s.operands n u i.word with
    | .stop t => t
    | .go v s1 => match s.readStage n (v.getD 0 0) i.word with
      | .fails cause w => s.raise n cause w
      | .waits off => s.waitsLeaf n (coreOfSlot n) off
      | .ok e => match (if isUserSlot n then s1.park n e else none) with
        | none => s.deliver s1 n u [(d, allOnes)] noFlags ((s.slot n).pc + 4) i.word
        | some (m, s2) => s.deliver s2 n u [(d, wordOf (tidOf m))] noFlags ((s.slot n).pc + 4) i.word)

/-- `sinh`: the thread becomes a RUNNING stage; a second one replaces its id and mask (R262). -/
def execSinh (a : Reg) (la : Bool) (s : State) : Result :=
  let n := s.focus
  let c := coreOfSlot n
  let i := Instr.sinh a la
  let u := onlyA a la
  .next (match s.operands n u i.word with
    | .stop t => t
    | .go v s1 => match s.readStage n (v.getD 0 0) i.word with
      | .fails cause w => s.raise n cause w
      | .waits off => s.waitsLeaf n (coreOfSlot n) off
      | .ok e =>
        if (s.stageOf n).isSome then
          let renew (z : StageEntry) : StageEntry := if z.slot == n then { z with id := e.id, mask := e.mask } else z
          s.deliver (s1.onCore c fun k => { k with stages := k.stages.map renew }) n u [] noFlags ((s.slot n).pc + 4) i.word
        else if stageRoom ≤ (s.core c).stages.length then s.raise n 0x0E i.word
        else
          let entry : StageEntry := { slot := n, id := e.id, mask := e.mask, entry := e.entry, running := true }
          s.deliver (s1.onCore c fun k => { k with stages := k.stages ++ [entry] }) n u [] noFlags ((s.slot n).pc + 4) i.word)

/-- A removed stage's slot may exit: nothing of it is on its way (R256). -/
def State.removable (s : State) (n : Nat) : Bool :=
  !((s.slot n).anyOwed [] || s.vectorPending n || (s.tile (tileOfSlot n)).arrayOps.any (fun o => o.slot == n))
    && s.released n true

/-- A move may take a step: its next entry has room, or none follows and none can (R266). -/
def State.moveReady (s : State) (c : Nat) (m : QueueMove) : Bool :=
  if s.queue c m.source = [] then !(s.core c).moves.any (·.target == m.source)
  else (s.queue c m.target).length < queueRoom

/-- SPLICE_REMOVE_MOVE: the next entry that follows a removed stage's marker moves to its output as that has room; with the
last one the stage exits as `exit` does, and its input queue is free (R256, R266). -/
def execSpliceRemoveMove (core : Nat) (s : State) : Result :=
  match (s.core core).moves.find? (s.moveReady core) with
  | none => .next s
  | some m => match s.queue core m.source with
    | e :: es => .next ((s.setQueue core m.source es).setQueue core m.target (s.queue core m.target ++ [e]))
    | [] =>
      let x := s.slot m.slot
      let s0 := if x.lease = .queued then s.releaseLease m.slot else s
      if !s0.removable m.slot then .next s0
      else .next ((((s0.releaseLease m.slot).endThread m.slot).onCore core fun k => { k with moves := k.moves.erase m }).onJob
        x.job fun j => { j with retired := j.retired + x.ist.toNat })

end Sys2Proof.Machine
end

