-- ==== Sys2Proof/Machine/Presence.lean ====
section
/-! DEFINITION. Presence instructions, leaves, bindings and links (R156-R166), and the power controller's leaf events
(R26, R27). -/

namespace Sys2Proof.Machine

/-! ## wait, mkempty, mkfull, drop (R156-R159) -/

/-- `wait`: it reads the presence of a and b as a read would, and discards the values (R157). -/
def execWait (a b : Reg) (la lb : Bool) (s : State) : Result :=
  .next (s.longForm (.wait a b la lb) (onlyAB a b la lb) [] fun x _ misuse =>
    if misuse then s.raise s.focus 0x0E (Instr.wait a b la lb).word
    else s.onSlot s.focus fun y => y.retire (x.next (x.lastUses [(a, la), (b, lb)]) [] 0))

/-- Set the presence of d, waking a leaf that is not FULL as a write does; an owed result still lands (R158). -/
def State.setPresence (s : State) (i : Instr) (d : Reg) (p : Presence) : State :=
  s.longForm i { reads := [], dests := [], also := [d] } [] fun x _ misuse =>
    let n := s.focus
    if misuse then s.raise n 0x0E i.word
    else if d != 0 && x.leafOf (x.loc d) != .full then (s.onSlot n fun y => y.wakeNames [d]).waits n
    else s.onSlot n fun y =>
      let z := if d = 0 then y else y.setPres (y.loc d) p
      z.retire (x.next [] [] 0)

/-- `mkempty` (R158). -/
def execMkempty (d : Reg) (s : State) : Result := .next (s.setPresence (.mkempty d) d .empty)
/-- `mkempty.trap` (R158). -/
def execMkemptyTrap (d : Reg) (s : State) : Result := .next (s.setPresence (.mkemptyTrap d) d .trap)
/-- `mkfull` (R158). -/
def execMkfull (d : Reg) (s : State) : Result := .next (s.setPresence (.mkfull d) d .full)

/-- `drop`: it waits for owed results, then makes each named register DEAD; g0 is skipped (R159). -/
def execDrop (d a b : Reg) (s : State) : Result :=
  let i := Instr.drop d a b
  .next (s.longForm i { reads := [], dests := [], also := [d, a, b] } [] fun x _ misuse =>
    let places := x.dst [d, a, b]
    if misuse then s.raise s.focus 0x0E i.word
    else if places.any x.owes then s.waits s.focus
    else s.onSlot s.focus fun y => y.retire (x.next places [] 0))

/-! ## Leaves (R160, R161) -/

/-- The offset of the scratchpad leaf that begins at an address of this core, or the fault (R161). -/
def State.leafAddress (s : State) (n : Nat) (a : Word) : Except Nat Nat :=
  let x := s.slot n
  let off := fieldOf a 0 18
  let canonical : Bool :=
    if regionOf a = 0xF0 then fieldOf a 18 38 == 0
    else if regionOf a = 0xF1 then fieldOf a 50 6 == 0 && fieldOf a 18 20 == 0
      && s.tileAtIndex x.job (fieldOf a 40 10) == some (tileOfSlot n) && fieldOf a 38 2 == coreOfSlot n % 4
    else false
  if !canonical || s.scratchSize x.job ≤ off then .error 0x07
  else if off % 4096 != 0 then .error 0x06
  else .ok off

/-- A form that names a scratchpad leaf by its address in a: 0x0E for a bound a, then R161's checks. -/
def State.leafForm (s : State) (i : Instr) (a : Reg) (la : Bool) (go : Slot → Nat → State) : State :=
  s.longForm i (onlyA a la) [a] fun x v _ =>
    match s.leafAddress s.focus (v.getD 0 0) with
    | .error cause => s.raise s.focus cause (v.getD 0 0)
    | .ok off => go x off

/-- `wake d` and `wake [a]`: it starts a wake and does not wait for it (R160). -/
def execWake (d a : Reg) (la : Bool) (s : State) : Result :=
  let n := s.focus
  let i := Instr.wake d a la
  .next (
    if a != 0 then
      s.leafForm i a la fun x off =>
        (s.wakeScratch (coreOfSlot n) off).onSlot n fun y => y.retire (x.next (x.lastUses [(a, la)]) [] 0)
    else s.longForm i { reads := [], dests := [], also := [d] } [] fun x _ _ => s.onSlot n fun y =>
      let z := if d = 0 then y else y.wakePlace (y.loc d)
      z.retire (x.next [] [] 0))

/-- Some access to a scratchpad leaf that its core has accepted has not completed: of the core's tile operations and copies, of
another slot that waits for the leaf, of another core's slot or copy that has arrived, or one for which the leaf is on its way to
FULL (R161). -/
def State.leafInUse (s : State) (n c off : Nat) : Bool :=
  s.tileBusy c off 4096 none || s.copiesOn c [(off, 4096)] != [] || s.scratchLeaf c off == .waking
    || s.earlierOn c off 4096 none (some n)
    || s.cores.any (fun e => e.2.copies.any fun x => !x.posted && x.status.isNone && (match x.leafWait with
      | some (d, l) => d == c && (l == off / 4096 || l + 1 == off / 4096)
      | none => false))

/-- Request a supply state for a scratchpad leaf: it waits for the accesses that the core has accepted (R161). -/
def State.setLeaf (s : State) (i : Instr) (a : Reg) (la : Bool) (f : LeafState → LeafState) : State :=
  let n := s.focus
  let c := coreOfSlot n
  s.leafForm i a la fun x off =>
    if s.leafInUse n c off then s.waits n
    else (s.onCore c fun k =>
        { k with scratchLeaves := storeSet fullLeaf k.scratchLeaves (off / 4096) (f (s.scratchLeaf c off)) }).onSlot n
      fun y => y.retire (x.next (x.lastUses [(a, la)]) [] 0)

/-- `lfoff` (R161). -/
def execLfoff (a : Reg) (la : Bool) (s : State) : Result := .next (s.setLeaf (.lfoff a la) a la fun _ => .off)
/-- `lfret`: an OFF leaf stays OFF (R161). -/
def execLfret (a : Reg) (la : Bool) (s : State) : Result :=
  .next (s.setLeaf (.lfret a la) a la fun l => if l = .off then .off else .retain)

/-- LEAF_POWER_OFF: the power controller switches off a leaf of a window whose eight registers are DEAD (R26). -/
def execLeafPowerOff (slot leaf : Nat) (s : State) : Result :=
  let x := s.slot slot
  if x.deadLeaf leaf && 8 * leaf + 8 ≤ x.winSize then
    .next (s.setSlot slot { x with leaves := storeSet fullLeaf x.leaves leaf .off })
  else .next s

/-- LEAF_WAKE_DONE: a leaf that wakes becomes FULL (R26, R27), and the results held for its registers land (R112). -/
def execLeafWakeDone (leaf : LeafRef) (s : State) : Result :=
  match leaf with
  | .register n l =>
    let x := s.slot n
    if storeGet fullLeaf x.leaves l = .waking then
      .next (s.setSlot n { x with leaves := storeSet fullLeaf x.leaves l .full }.landHeld)
    else .next s
  | .scratch c l =>
    let k := s.core c
    if storeGet fullLeaf k.scratchLeaves l = .waking then
      .next (s.setCore c { k with scratchLeaves := storeSet fullLeaf k.scratchLeaves l .full })
    else .next s

/-! ## Supply states of the pool (R24-R27, R278) -/

/-- The supply state of register leaf `k` of a core's pool: of the window that holds it, else OFF (R26, R278). -/
def State.registerLeaf (s : State) (c k : Nat) : LeafState :=
  match (slotsOfCore c).find? fun n => isUserSlot n && (s.slot n).state != .free
      && (s.slot n).winBase ≤ 8 * k && 8 * k < (s.slot n).winBase + (s.slot n).winSize with
  | some n => storeGet fullLeaf (s.slot n).leaves (k - (s.slot n).winBase / 8)
  | none => .off

/-- The supply state of 4 KiB leaf `k` of a core's pool above the register region: of the scratchpad, FULL in the L1, OFF above
pb2 (R24, R27, R278). -/
def State.poolLeaf (s : State) (c k : Nat) : LeafState :=
  let (_, pb1, pb2) := s.bounds ((s.coreJob c).getD 0)
  let pb0 := (s.bounds ((s.coreJob c).getD 0)).1
  if 4096 * k < pb1 then s.scratchLeaf c (4096 * k - pb0)
  else if 4096 * k < pb2 then .full
  else .off

/-! ## Bindings (R162, R163) -/

/-- Another slot of the core holds an end that a direction takes of a queue or link (R162), or the write end of a network send queue
(R406); a queue that a removed stage's entries are leaving is not free (R266). -/
def State.endsTaken (s : State) (n port : Nat) (dir : BindDir) : Bool :=
  let other (write : Bool) : Bool := match s.endHolder (coreOfSlot n) port write with
    | some m => m != n
    | none => false
  (port < 20 && ((s.core (coreOfSlot n)).moves.any (·.source == port) || (dir != .wr && other false)
    || (dir != .rd && other true))) || (24 ≤ port && other true)

/-- `bind` (R162). -/
def execBind (d : Reg) (dir : BindDir) (port : BitVec 5) (s : State) : Result :=
  let n := s.focus
  let i := Instr.bind d dir port
  let p := port.toNat
  .next (s.longForm i { reads := [], dests := [], also := [d] } [] fun x _ _ =>
    if d = 0 then s.raise n 0x01 i.word
    else if (x.bindingOf d).isSome || 8 ≤ x.bindings.length || !portOffers p dir
        || (16 ≤ p && p < 20 && !s.linkEnabled (coreOfSlot n) (p - 16)) || s.endsTaken n p dir
        || (x.active && d.toNat < 8) then s.raise n 0x0E i.word
    else if x.owes (.win d.toNat) then s.waits n
    else s.onSlot n fun y =>
      let z := y.setCell (.win d.toNat) { val := Config.discarded s.moves, pres := .dead, owed := false }
      let bound : Binding := { reg := d, dir := dir, port := port }
      { z with bindings := z.bindings ++ [bound] }.retire (x.next [] [] 0))

/-- `unbind` (R163). -/
def execUnbind (d : Reg) (s : State) : Result :=
  let n := s.focus
  let i := Instr.unbind d
  .next (s.longForm i { reads := [], dests := [], also := [d] } [] fun x _ _ =>
    if (x.bound d).isNone then s.raise n 0x0E i.word
    else (s.unbindReg n d).onSlot n fun y => y.retire (x.next [] [] 0))

/-! ## Links (R166) -/

/-- LINK_DELIVERY: the oldest entry of an outgoing link buffer reaches the neighbour's incoming one (R166); a bridge link that
retrains holds it (R409), and a tile that a cession has scrubbed takes and sends none before the commit (R166, R360). -/
def execLinkDelivery (core : Nat) (dir : BitVec 2) (s : State) : Result :=
  let d := dir.toNat
  match neighbour (core / 4) d, storeGet noWords (s.core core).linkOut d with
  | some t, v :: rest =>
    let c := 4 * t + core % 4
    let dst := storeGet noWords (s.core c).linkIn (opposite d)
    let pauses : Bool := match bridgeOf (core / 4) d with | some l => (storeGet linkAt s.links l).retraining | none => false
    if s.linkEnabled core d && dst.length < 4 && !pauses && !s.linesMoving t && !s.linesMoving (core / 4) then
      .next ((s.onCore core fun k => { k with linkOut := storeSet noWords k.linkOut d rest }).onCore c fun k =>
        { k with linkIn := storeSet noWords k.linkIn (opposite d) (dst ++ [v]) })
    else .next s
  | _, _ => .next s

end Sys2Proof.Machine
end

