-- ==== Sys2Proof/Machine/Dispatch.lean ====
section
/-! DEFINITION. The meaning of each instruction and event, one arm per constructor of `Instr`. -/

namespace Sys2Proof.Machine

/-- Perform an instruction on the slot in focus, or an event. -/
def exec (i : Instr) (s : State) : Host.Outcome State Fault Refusal :=
  match i with
  | .add d a b la lb => Sys2Proof.Machine.execAdd d a b la lb s
  | .sub d a b la lb => Sys2Proof.Machine.execSub d a b la lb s
  | .and d a b la lb => Sys2Proof.Machine.execAnd d a b la lb s
  | .or d a b la lb => Sys2Proof.Machine.execOr d a b la lb s
  | .xor d a b la lb => Sys2Proof.Machine.execXor d a b la lb s
  | .andn d a b la lb => Sys2Proof.Machine.execAndn d a b la lb s
  | .orn d a b la lb => Sys2Proof.Machine.execOrn d a b la lb s
  | .xnor d a b la lb => Sys2Proof.Machine.execXnor d a b la lb s
  | .shl d a b la lb => Sys2Proof.Machine.execShl d a b la lb s
  | .shr d a b la lb => Sys2Proof.Machine.execShr d a b la lb s
  | .sra d a b la lb => Sys2Proof.Machine.execSra d a b la lb s
  | .rol d a b la lb => Sys2Proof.Machine.execRol d a b la lb s
  | .mul d a b la lb => Sys2Proof.Machine.execMul d a b la lb s
  | .mulh d a b la lb => Sys2Proof.Machine.execMulh d a b la lb s
  | .mulhz d a b la lb => Sys2Proof.Machine.execMulhz d a b la lb s
  | .mulhsz d a b la lb => Sys2Proof.Machine.execMulhsz d a b la lb s
  | .div d a b la lb => Sys2Proof.Machine.execDiv d a b la lb s
  | .divz d a b la lb => Sys2Proof.Machine.execDivz d a b la lb s
  | .rem d a b la lb => Sys2Proof.Machine.execRem d a b la lb s
  | .remz d a b la lb => Sys2Proof.Machine.execRemz d a b la lb s
  | .min d a b la lb => Sys2Proof.Machine.execMin d a b la lb s
  | .max d a b la lb => Sys2Proof.Machine.execMax d a b la lb s
  | .minz d a b la lb => Sys2Proof.Machine.execMinz d a b la lb s
  | .maxz d a b la lb => Sys2Proof.Machine.execMaxz d a b la lb s
  | .slt d a b la lb => Sys2Proof.Machine.execSlt d a b la lb s
  | .sltz d a b la lb => Sys2Proof.Machine.execSltz d a b la lb s
  | .seq d a b la lb => Sys2Proof.Machine.execSeq d a b la lb s
  | .sne d a b la lb => Sys2Proof.Machine.execSne d a b la lb s
  | .clz d a la => Sys2Proof.Machine.execClz d a la s
  | .ctz d a la => Sys2Proof.Machine.execCtz d a la s
  | .popc d a la => Sys2Proof.Machine.execPopc d a la s
  | .brev d a la => Sys2Proof.Machine.execBrev d a la s
  | .bfx d a b la lb => Sys2Proof.Machine.execBfx d a b la lb s
  | .bfxz d a b la lb => Sys2Proof.Machine.execBfxz d a b la lb s
  | .bfi d a b la lb => Sys2Proof.Machine.execBfi d a b la lb s
  | .cnz d a la => Sys2Proof.Machine.execCnz d a la s
  | .csrr d csr => Sys2Proof.Machine.execCsrr d csr s
  | .csrw d a csr => Sys2Proof.Machine.execCsrw d a csr s
  | .csrs d a csr => Sys2Proof.Machine.execCsrs d a csr s
  | .csrc d a csr => Sys2Proof.Machine.execCsrc d a csr s
  | .sleep d a la => Sys2Proof.Machine.execSleep d a la s
  | .sret => Sys2Proof.Machine.execSret s
  | .dflush d a la => Sys2Proof.Machine.execDflush d a la s
  | .ckpt d a la => Sys2Proof.Machine.execCkpt d a la s
  | .addi d a imm => Sys2Proof.Machine.execAddi d a imm s
  | .andi d a imm => Sys2Proof.Machine.execAndi d a imm s
  | .ori d a imm => Sys2Proof.Machine.execOri d a imm s
  | .xori d a imm => Sys2Proof.Machine.execXori d a imm s
  | .shli d a n => Sys2Proof.Machine.execShli d a n s
  | .shri d a n => Sys2Proof.Machine.execShri d a n s
  | .srai d a n => Sys2Proof.Machine.execSrai d a n s
  | .roli d a n => Sys2Proof.Machine.execRoli d a n s
  | .slti d a imm => Sys2Proof.Machine.execSlti d a imm s
  | .sltzi d a imm => Sys2Proof.Machine.execSltzi d a imm s
  | .muli d a imm => Sys2Proof.Machine.execMuli d a imm s
  | .lil d imm => Sys2Proof.Machine.execLil d imm s
  | .lis d imm => Sys2Proof.Machine.execLis d imm s
  | .apc d imm => Sys2Proof.Machine.execApc d imm s
  | .beq a b imm => Sys2Proof.Machine.execBeq a b imm s
  | .bne a b imm => Sys2Proof.Machine.execBne a b imm s
  | .blt a b imm => Sys2Proof.Machine.execBlt a b imm s
  | .bge a b imm => Sys2Proof.Machine.execBge a b imm s
  | .bltz a b imm => Sys2Proof.Machine.execBltz a b imm s
  | .bgez a b imm => Sys2Proof.Machine.execBgez a b imm s
  | .jal d imm => Sys2Proof.Machine.execJal d imm s
  | .jalr d a imm => Sys2Proof.Machine.execJalr d a imm s
  | .dbnz a imm => Sys2Proof.Machine.execDbnz a imm s
  | .ldS8 d a imm => Sys2Proof.Machine.execLdS8 d a imm s
  | .ldZ8 d a imm => Sys2Proof.Machine.execLdZ8 d a imm s
  | .ldS16 d a imm => Sys2Proof.Machine.execLdS16 d a imm s
  | .ldZ16 d a imm => Sys2Proof.Machine.execLdZ16 d a imm s
  | .ldS32 d a imm => Sys2Proof.Machine.execLdS32 d a imm s
  | .ldZ32 d a imm => Sys2Proof.Machine.execLdZ32 d a imm s
  | .ld64 d a imm => Sys2Proof.Machine.execLd64 d a imm s
  | .ldAcq d a la => Sys2Proof.Machine.execLdAcq d a la s
  | .ldAcqD d a la => Sys2Proof.Machine.execLdAcqD d a la s
  | .st8 a b imm => Sys2Proof.Machine.execSt8 a b imm s
  | .st16 a b imm => Sys2Proof.Machine.execSt16 a b imm s
  | .st32 a b imm => Sys2Proof.Machine.execSt32 a b imm s
  | .st64 a b imm => Sys2Proof.Machine.execSt64 a b imm s
  | .stRel a b la lb => Sys2Proof.Machine.execStRel a b la lb s
  | .stRelD a b la lb => Sys2Proof.Machine.execStRelD a b la lb s
  | .fenceAcq => Sys2Proof.Machine.execFenceAcq s
  | .fenceRel => Sys2Proof.Machine.execFenceRel s
  | .fenceFull => Sys2Proof.Machine.execFenceFull s
  | .fenceD => Sys2Proof.Machine.execFenceD s
  | .ldPair d a la => Sys2Proof.Machine.execLdPair d a la s
  | .stPair a b la lb => Sys2Proof.Machine.execStPair a b la lb s
  | .amoAdd d a b order la lb => Sys2Proof.Machine.execAmoAdd d a b order la lb s
  | .amoAnd d a b order la lb => Sys2Proof.Machine.execAmoAnd d a b order la lb s
  | .amoOr d a b order la lb => Sys2Proof.Machine.execAmoOr d a b order la lb s
  | .amoXor d a b order la lb => Sys2Proof.Machine.execAmoXor d a b order la lb s
  | .amoMin d a b order la lb => Sys2Proof.Machine.execAmoMin d a b order la lb s
  | .amoMax d a b order la lb => Sys2Proof.Machine.execAmoMax d a b order la lb s
  | .amoMinz d a b order la lb => Sys2Proof.Machine.execAmoMinz d a b order la lb s
  | .amoMaxz d a b order la lb => Sys2Proof.Machine.execAmoMaxz d a b order la lb s
  | .amoSwap d a b order la lb => Sys2Proof.Machine.execAmoSwap d a b order la lb s
  | .cas d a b order la lb => Sys2Proof.Machine.execCas d a b order la lb s
  | .cas2 d a b order la lb => Sys2Proof.Machine.execCas2 d a b order la lb s
  | .amoFadd d a b order la lb => Sys2Proof.Machine.execAmoFadd d a b order la lb s
  | .mvblk d a b => Sys2Proof.Machine.execMvblk d a b s
  | .repZero d b => Sys2Proof.Machine.execRepZero d b s
  | .repFill d a b => Sys2Proof.Machine.execRepFill d a b s
  | .repCmp d a b => Sys2Proof.Machine.execRepCmp d a b s
  | .wait a b la lb => Sys2Proof.Machine.execWait a b la lb s
  | .mkempty d => Sys2Proof.Machine.execMkempty d s
  | .mkemptyTrap d => Sys2Proof.Machine.execMkemptyTrap d s
  | .mkfull d => Sys2Proof.Machine.execMkfull d s
  | .drop d a b => Sys2Proof.Machine.execDrop d a b s
  | .wake d a la => Sys2Proof.Machine.execWake d a la s
  | .lfoff a la => Sys2Proof.Machine.execLfoff a la s
  | .lfret a la => Sys2Proof.Machine.execLfret a la s
  | .bind d dir port => Sys2Proof.Machine.execBind d dir port s
  | .unbind d => Sys2Proof.Machine.execUnbind d s
  | .barInit a b la lb => Sys2Proof.Machine.execBarInit a b la lb s
  | .barArr d a b la lb => Sys2Proof.Machine.execBarArr d a b la lb s
  | .barWait d a b la lb => Sys2Proof.Machine.execBarWait d a b la lb s
  | .barTst d a la => Sys2Proof.Machine.execBarTst d a la s
  | .ipop d b lb => Sys2Proof.Machine.execIpop d b lb s
  | .ipeek d b lb => Sys2Proof.Machine.execIpeek d b lb s
  | .send a b la lb => Sys2Proof.Machine.execSend a b la lb s
  | .sendw d a b la lb => Sys2Proof.Machine.execSendw d a b la lb s
  | .fadd d a b fmt la lb => Sys2Proof.Machine.execFadd d a b fmt la lb s
  | .fsub d a b fmt la lb => Sys2Proof.Machine.execFsub d a b fmt la lb s
  | .fmul d a b fmt la lb => Sys2Proof.Machine.execFmul d a b fmt la lb s
  | .fmin d a b fmt la lb => Sys2Proof.Machine.execFmin d a b fmt la lb s
  | .fmax d a b fmt la lb => Sys2Proof.Machine.execFmax d a b fmt la lb s
  | .fma d a b fmt la lb => Sys2Proof.Machine.execFma d a b fmt la lb s
  | .flt d a b fmt la lb => Sys2Proof.Machine.execFlt d a b fmt la lb s
  | .fle d a b fmt la lb => Sys2Proof.Machine.execFle d a b fmt la lb s
  | .feq d a b fmt la lb => Sys2Proof.Machine.execFeq d a b fmt la lb s
  | .fcvtSH d a la => Sys2Proof.Machine.execFcvtSH d a la s
  | .fcvtHS d a la => Sys2Proof.Machine.execFcvtHS d a la s
  | .fcvtSB d a la => Sys2Proof.Machine.execFcvtSB d a la s
  | .fcvtBS d a la => Sys2Proof.Machine.execFcvtBS d a la s
  | .fcvtSI d a la => Sys2Proof.Machine.execFcvtSI d a la s
  | .fcvtIS d a la => Sys2Proof.Machine.execFcvtIS d a la s
  | .fclass d a la => Sys2Proof.Machine.execFclass d a la s
  | .fsqrtS d a la => Sys2Proof.Machine.execFsqrtS d a la s
  | .fneg d a la => Sys2Proof.Machine.execFneg d a la s
  | .fabs d a la => Sys2Proof.Machine.execFabs d a la s
  | .fsgn d a b la lb => Sys2Proof.Machine.execFsgn d a b la lb s
  | .fsqrtH d a la => Sys2Proof.Machine.execFsqrtH d a la s
  | .vadd d a b la lb => Sys2Proof.Machine.execVadd d a b la lb s
  | .vsub d a b la lb => Sys2Proof.Machine.execVsub d a b la lb s
  | .vmul d a b la lb => Sys2Proof.Machine.execVmul d a b la lb s
  | .vfma d a b la lb => Sys2Proof.Machine.execVfma d a b la lb s
  | .vmin d a b la lb => Sys2Proof.Machine.execVmin d a b la lb s
  | .vmax d a b la lb => Sys2Proof.Machine.execVmax d a b la lb s
  | .vabs d a la => Sys2Proof.Machine.execVabs d a la s
  | .vneg d a la => Sys2Proof.Machine.execVneg d a la s
  | .vlt d a b la lb => Sys2Proof.Machine.execVlt d a b la lb s
  | .vle d a b la lb => Sys2Proof.Machine.execVle d a b la lb s
  | .veq d a b la lb => Sys2Proof.Machine.execVeq d a b la lb s
  | .vsel d a b la lb => Sys2Proof.Machine.execVsel d a b la lb s
  | .vexp2 d a la => Sys2Proof.Machine.execVexp2 d a la s
  | .vlog2 d a la => Sys2Proof.Machine.execVlog2 d a la s
  | .vrcp d a la => Sys2Proof.Machine.execVrcp d a la s
  | .vrsqrt d a la => Sys2Proof.Machine.execVrsqrt d a la s
  | .vsum d a la => Sys2Proof.Machine.execVsum d a la s
  | .vmaxr d a la => Sys2Proof.Machine.execVmaxr d a la s
  | .vminr d a la => Sys2Proof.Machine.execVminr d a la s
  | .vdot d a b la lb => Sys2Proof.Machine.execVdot d a b la lb s
  | .vcvt d a la => Sys2Proof.Machine.execVcvt d a la s
  | .vq d a la => Sys2Proof.Machine.execVq d a la s
  | .vdq d a la => Sys2Proof.Machine.execVdq d a la s
  | .vscale d a b la lb => Sys2Proof.Machine.execVscale d a b la lb s
  | .vcopy d a la => Sys2Proof.Machine.execVcopy d a la s
  | .vtr d a la => Sys2Proof.Machine.execVtr d a la s
  | .vfill d a la => Sys2Proof.Machine.execVfill d a la s
  | .viota d a la => Sys2Proof.Machine.execViota d a la s
  | .vand d a b la lb => Sys2Proof.Machine.execVand d a b la lb s
  | .vor d a b la lb => Sys2Proof.Machine.execVor d a b la lb s
  | .vxor d a b la lb => Sys2Proof.Machine.execVxor d a b la lb s
  | .vshl d a b la lb => Sys2Proof.Machine.execVshl d a b la lb s
  | .lease d a la => Sys2Proof.Machine.execLease d a la s
  | .lrel => Sys2Proof.Machine.execLrel s
  | .lstat d => Sys2Proof.Machine.execLstat d s
  | .mm d a b la lb => Sys2Proof.Machine.execMm d a b la lb s
  | .mmZ d a b la lb => Sys2Proof.Machine.execMmZ d a b la lb s
  | .mmW d a b la lb => Sys2Proof.Machine.execMmW d a b la lb s
  | .mmWz d a b la lb => Sys2Proof.Machine.execMmWz d a b la lb s
  | .accRd d a la => Sys2Proof.Machine.execAccRd d a la s
  | .accRdq d a la => Sys2Proof.Machine.execAccRdq d a la s
  | .accLd d a la => Sys2Proof.Machine.execAccLd d a la s
  | .accClr d => Sys2Proof.Machine.execAccClr d s
  | .accSv d a b la lb => Sys2Proof.Machine.execAccSv d a b la lb s
  | .accRs d a b la lb => Sys2Proof.Machine.execAccRs d a b la lb s
  | .accSt d a b la lb => Sys2Proof.Machine.execAccSt d a b la lb s
  | .cp d a la => Sys2Proof.Machine.execCp d a la s
  | .cpNet d a la => Sys2Proof.Machine.execCpNet d a la s
  | .cpStat d a la => Sys2Proof.Machine.execCpStat d a la s
  | .cpCancel d a la => Sys2Proof.Machine.execCpCancel d a la s
  | .enq a la => Sys2Proof.Machine.execEnq a la s
  | .depInit a b la lb => Sys2Proof.Machine.execDepInit a b la lb s
  | .depDec d a la => Sys2Proof.Machine.execDepDec d a la s
  | .depAdd a b la lb => Sys2Proof.Machine.execDepAdd a b la lb s
  | .spawn d a b la lb => Sys2Proof.Machine.execSpawn d a b la lb s
  | .take d a b la lb => Sys2Proof.Machine.execTake d a b la lb s
  | .steal d a b la lb => Sys2Proof.Machine.execSteal d a b la lb s
  | .join d a la => Sys2Proof.Machine.execJoin d a la s
  | .yield => Sys2Proof.Machine.execYield s
  | .exit => Sys2Proof.Machine.execExit s
  | .migrate a la => Sys2Proof.Machine.execMigrate a la s
  | .spawnm d a b la lb => Sys2Proof.Machine.execSpawnm d a b la lb s
  | .splice a b la lb => Sys2Proof.Machine.execSplice a b la lb s
  | .stage d a la => Sys2Proof.Machine.execStage d a la s
  | .sinh a la => Sys2Proof.Machine.execSinh a la s
  | .ldref d a b lb => Sys2Proof.Machine.execLdref d a b lb s
  | .stref d a b la => Sys2Proof.Machine.execStref d a b la s
  | .mvref d a la => Sys2Proof.Machine.execMvref d a la s
  | .refeq d a b => Sys2Proof.Machine.execRefeq d a b s
  | .ldh d a imm => Sys2Proof.Machine.execLdh d a imm s
  | .sth a b imm => Sys2Proof.Machine.execSth a b imm s
  | .newobj d a b la lb => Sys2Proof.Machine.execNewobj d a b la lb s
  | .pin d a => Sys2Proof.Machine.execPin d a s
  | .unpin a => Sys2Proof.Machine.execUnpin a s
  | .hcmp d a b la lb => Sys2Proof.Machine.execHcmp d a b la lb s
  | .terr d => Sys2Proof.Machine.execTerr d s
  | .press d a la => Sys2Proof.Machine.execPress d a la s
  | .pwr d => Sys2Proof.Machine.execPwr d s
  | .trap n => Sys2Proof.Machine.execTrap n s
  | .uret => Sys2Proof.Machine.execUret s
  | .brk n => Sys2Proof.Machine.execBrk n s
  | .halt => Sys2Proof.Machine.execHalt s
  | .packageReset => Sys2Proof.Machine.execPackageReset s
  | .firmwareLoad image => Sys2Proof.Machine.execFirmwareLoad image s
  | .hbmStackTrained stack trained => Sys2Proof.Machine.execHbmStackTrained stack trained s
  | .fullServiceEntry => Sys2Proof.Machine.execFullServiceEntry s
  | .thermalTrip die => Sys2Proof.Machine.execThermalTrip die s
  | .slotRemoval core => Sys2Proof.Machine.execSlotRemoval core s
  | .slotReturn core => Sys2Proof.Machine.execSlotReturn core s
  | .clockSkipStep core above => Sys2Proof.Machine.execClockSkipStep core above s
  | .shapeClear core => Sys2Proof.Machine.execShapeClear core s
  | .clockPause core => Sys2Proof.Machine.execClockPause core s
  | .leafPowerOff slot leaf => Sys2Proof.Machine.execLeafPowerOff slot leaf s
  | .leafWakeDone leaf => Sys2Proof.Machine.execLeafWakeDone leaf s
  | .upcallEntry slot => Sys2Proof.Machine.execUpcallEntry slot s
  | .divideResult slot n => Sys2Proof.Machine.execDivideResult slot n s
  | .sqrtResult slot n => Sys2Proof.Machine.execSqrtResult slot n s
  | .loadRequest n peer => Sys2Proof.Machine.execLoadRequest n peer s
  | .loadReply n => Sys2Proof.Machine.execLoadReply n s
  | .storeRegistration n peer => Sys2Proof.Machine.execStoreRegistration n peer s
  | .proxyRegistration n => Sys2Proof.Machine.execProxyRegistration n s
  | .storeAck n => Sys2Proof.Machine.execStoreAck n s
  | .revoke n => Sys2Proof.Machine.execRevoke n s
  | .forwardedRead n => Sys2Proof.Machine.execForwardedRead n s
  | .nearAccess n => Sys2Proof.Machine.execNearAccess n s
  | .atomicPerform n peer => Sys2Proof.Machine.execAtomicPerform n peer s
  | .atomicReply n => Sys2Proof.Machine.execAtomicReply n s
  | .walkerTranslation core => Sys2Proof.Machine.execWalkerTranslation core s
  | .linkDelivery core dir => Sys2Proof.Machine.execLinkDelivery core dir s
  | .barrierOperation n => Sys2Proof.Machine.execBarrierOperation n s
  | .barWaitReply n => Sys2Proof.Machine.execBarWaitReply n s
  | .messagePlaced n => Sys2Proof.Machine.execMessagePlaced n s
  | .leaseGrant tile => Sys2Proof.Machine.execLeaseGrant tile s
  | .leaseIdleTimeout tile => Sys2Proof.Machine.execLeaseIdleTimeout tile s
  | .matrixCommand tile => Sys2Proof.Machine.execMatrixCommand tile s
  | .accOperation tile => Sys2Proof.Machine.execAccOperation tile s
  | .accStStore tile => Sys2Proof.Machine.execAccStStore tile s
  | .tileFetchLine tile => Sys2Proof.Machine.execTileFetchLine tile s
  | .arrayOpComplete tile => Sys2Proof.Machine.execArrayOpComplete tile s
  | .vectorOperation core => Sys2Proof.Machine.execVectorOperation core s
  | .vectorOpComplete core => Sys2Proof.Machine.execVectorOpComplete core s
  | .copySector core id peer => Sys2Proof.Machine.execCopySector core id peer s
  | .copySectorAck core id => Sys2Proof.Machine.execCopySectorAck core id s
  | .copyFaultResume core id => Sys2Proof.Machine.execCopyFaultResume core id s
  | .copyComplete core id => Sys2Proof.Machine.execCopyComplete core id s
  | .vatRecordArrival n peer => Sys2Proof.Machine.execVatRecordArrival n peer s
  | .dispatch tile slice => Sys2Proof.Machine.execDispatch tile slice s
  | .vatOfferTimeout tile slice => Sys2Proof.Machine.execVatOfferTimeout tile slice s
  | .contextArrival n => Sys2Proof.Machine.execContextArrival n s
  | .contextPlacement core => Sys2Proof.Machine.execContextPlacement core s
  | .spillRefill core => Sys2Proof.Machine.execSpillRefill core s
  | .depCounterOperation n => Sys2Proof.Machine.execDepCounterOperation n s
  | .dequeOperation n => Sys2Proof.Machine.execDequeOperation n s
  | .joinReply n => Sys2Proof.Machine.execJoinReply n s
  | .spliceRemoveMove core => Sys2Proof.Machine.execSpliceRemoveMove core s
  | .calenderPage die => Sys2Proof.Machine.execCalenderPage die s
  | .relocation die softError => Sys2Proof.Machine.execRelocation die softError s
  | .plbFlushDone n => Sys2Proof.Machine.execPlbFlushDone n s
  | .jobEnd job => Sys2Proof.Machine.execJobEnd job s
  | .pressureSample => Sys2Proof.Machine.execPressureSample s
  | .deckleDecision tile => Sys2Proof.Machine.execDeckleDecision tile s
  | .graceWindowEnd tile => Sys2Proof.Machine.execGraceWindowEnd tile s
  | .threadMove slot => Sys2Proof.Machine.execThreadMove slot s
  | .cessionCommit tile => Sys2Proof.Machine.execCessionCommit tile s
  | .cessionAbort tile => Sys2Proof.Machine.execCessionAbort tile s
  | .watermarkTimer job => Sys2Proof.Machine.execWatermarkTimer job s
  | .stopCycle job => Sys2Proof.Machine.execStopCycle job s
  | .flushToken job tile => Sys2Proof.Machine.execFlushToken job tile s
  | .flushComplete job => Sys2Proof.Machine.execFlushComplete job s
  | .imageComplete job => Sys2Proof.Machine.execImageComplete job s
  | .preImageCopy job granule => Sys2Proof.Machine.execPreImageCopy job granule s
  | .restore job => Sys2Proof.Machine.execRestore job s
  | .correctableError tile => Sys2Proof.Machine.execCorrectableError tile s
  | .uncorrectableError struck => Sys2Proof.Machine.execUncorrectableError struck s
  | .lockstepCheckpoint core => Sys2Proof.Machine.execLockstepCheckpoint core s
  | .lockstepMismatch core => Sys2Proof.Machine.execLockstepMismatch core s
  | .launch vf value => Sys2Proof.Machine.execLaunch vf value s
  | .desched vf value => Sys2Proof.Machine.execDesched vf value s
  | .resume vf value => Sys2Proof.Machine.execResume vf value s
  | .faultdone vf value => Sys2Proof.Machine.execFaultdone vf value s
  | .debug vf value => Sys2Proof.Machine.execDebug vf value s
  | .dbggo vf value => Sys2Proof.Machine.execDbggo vf value s
  | .hreserve vf value => Sys2Proof.Machine.execHreserve vf value s
  | .evhead vf value => Sys2Proof.Machine.execEvhead vf value s
  | .pghead vf value => Sys2Proof.Machine.execPghead vf value s
  | .functionReset vf => Sys2Proof.Machine.execFunctionReset vf s
  | .hostRegisterWrite vf offset value => Sys2Proof.Machine.execHostRegisterWrite vf offset value s
  | .hostMemAccess write address size => Sys2Proof.Machine.execHostMemAccess write address size s
  | .hostSnoop address => Sys2Proof.Machine.execHostSnoop address s
  | .netSend core queue => Sys2Proof.Machine.execNetSend core queue s
  | .netReceive vf message => Sys2Proof.Machine.execNetReceive vf message s
  | .remoteRequest request => Sys2Proof.Machine.execRemoteRequest request s
  | .laneShed link => Sys2Proof.Machine.execLaneShed link s
  | .deckle value => Sys2Proof.Machine.execDeckle value s
  | .pwrlim value => Sys2Proof.Machine.execPwrlim value s
  | .tcinv value => Sys2Proof.Machine.execTcinv value s
  | .pkgid value => Sys2Proof.Machine.execPkgid value s
  | .spdmGetCertificate => Sys2Proof.Machine.execSpdmGetCertificate s
  | .spdmGetMeasurements => Sys2Proof.Machine.execSpdmGetMeasurements s
  | .functionPause vf => Sys2Proof.Machine.execFunctionPause vf s
  | .functionResume vf => Sys2Proof.Machine.execFunctionResume vf s
  | .tileRelease tile => Sys2Proof.Machine.execTileRelease tile s
  | .haltedSlotRestart slot pc => Sys2Proof.Machine.execHaltedSlotRestart slot pc s
  | .laneRetrainDone link => Sys2Proof.Machine.execLaneRetrainDone link s

end Sys2Proof.Machine
end

