-- ==== Sys2Proof/Machine/Step.lean ====
section
/-! DEFINITION. One step of the machine: the next move of the agenda, an issue turn of a slot or an event. -/

namespace Sys2Proof.Machine

/-- The next move: the agenda's, or a turn of the slot in focus after free numbers of cycles and rotations (log 1, 2). -/
def State.nextMove (s : State) : Move :=
  match s.agenda with
  | m :: _ => m
  | [] => { dt := Config.elapsed s.moves, rotations := Config.rotations s.moves, turn := .issue s.focus }

/-- The machine as a move begins: its cycles have passed. -/
def State.beginMove (s : State) : State :=
  { s.tick s.nextMove.dt with agenda := s.agenda.tail, moves := s.moves + 1 }

/-- An issue turn of a slot (R11, R42): fetch, decode and perform one instruction, or a bubble. -/
def issueTurn (s : State) (n : Nat) : Host.Outcome State Fault Refusal :=
  if !s.canIssue n then .next s
  else if (s.slot n).waiting.isSome then .next (s.orAsync s n false)
  else match s.fetch n with
    | .stop t => .next (s.orAsync t n false)
    | .word w t =>
      match decodeWord w with
      | .error _ => .next (s.orAsync (t.raise n 0x01 (w.setWidth 64)) n false)
      | .ok i =>
        if (isMemoryClass i || (t.slot n).readsPort i) && t.acquiring n then .next (s.orAsync (t.waits n) n (isSleep i))
        else match exec i (t.settle n i) with
          | .next u => .next (s.orAsync u n (isSleep i))
          | .fault f => .fault f
          | .refused r => .refused r

/-- One step. A machine that has tripped serves configuration space and BAR2 alone (R411). -/
def step (s : State) : Host.Outcome State Fault Refusal :=
  let s1 := s.beginMove
  match s.nextMove.turn with
  | .issue n =>
    if s1.tripped then .next s1
    else
      let s2 := s1.beginTurn n s.nextMove.rotations
      issueTurn s2 s2.focus
  | .event e => if e.isWord || (s1.tripped && !servesTripped e) then .next s1 else exec e s1

/-- The state with an instruction of the opcode table stored where `step` fetches its next one. -/
def State.withFetchWord (s : State) (_nbits w : Nat) : State := s.placeWord w

end Sys2Proof.Machine
end

