-- ==== Sys2Proof/Safety.lean ====
section
/-! DEFINITION. What counts as a safe run: memories in their one form, register ranges that the spec states, and steps that go
on. -/

namespace Sys2Proof.Safety

open Sys2Proof.Machine

/-- The three memories are in canonical form: addresses strictly rising, no byte equal to what an unlisted one reads as. -/
def memoriesOk (s : State) : Prop := s.hbm.wf = true ∧ s.host.wf = true ∧ s.pool.wf = true

/-- pwrlim holds a value in its ranges (R412), and deckle one in force and one to come in theirs (R350). -/
def limitsOk (s : State) : Prop := pwrlimOk s.pwrlim = true ∧ deckleOk s.deckle = true ∧ deckleOk s.deckleNext = true

/-- A step from this state goes on. -/
def goesOn (s : State) : Prop := ∃ t, step s = .next t

/-- A run of `n` steps goes on throughout. -/
def runs : Nat → State → Prop
  | 0, _ => True
  | n + 1, s => ∃ t, step s = .next t ∧ runs n t

end Sys2Proof.Safety
end

