-- ==== Sys2Proof/Certificates/Slice0/Obligations.lean ====
section
/-! DEFINITION. The statements for the provers: what the rules of the spec say that instructions, events and the machine
do. Words used throughout stand first, then the statements family by family. -/

namespace Sys2Proof.Claims

open Sys2Proof.Machine

/-! ## Words of the statements -/

/-- A field can be read at once: inside the window, and g0 or an unbound FULL register on a FULL leaf (R15, R22, R26). -/
def readable (x : Slot) (r : Reg) : Bool :=
  decide (r.toNat < x.winSize)
    && (r == 0 || ((x.bound r).isNone && x.leafOf (x.loc r) == .full && (x.cell (x.loc r)).pres == .full))

/-- A field can be written at once: inside the window, and g0 or an unbound register on a FULL leaf that is owed nothing
(R23, R26). -/
def writable (x : Slot) (r : Reg) : Bool :=
  decide (r.toNat < x.winSize)
    && (r == 0 || ((x.bound r).isNone && x.leafOf (x.loc r) == .full && !(x.cell (x.loc r)).owed))

/-- Every source can be read and every destination written at once. -/
def usable (s : State) (reads dests : List Reg) : Bool :=
  reads.all (readable (s.slot s.focus)) && dests.all (writable (s.slot s.focus))

/-- The value of a register of the issuing slot. -/
def val (s : State) (r : Reg) : Word := (s.slot s.focus).val r

/-- The pc of the issuing slot. -/
def pcOf (s : State) : Word := (s.slot s.focus).pc

/-- The register at a place after an instruction: its destinations hold their values, FULL; a register that was read with
its last-use bit is DEAD; every other one is as it was (R15, R23). -/
def cellAfter (x : Slot) (reads : List (Reg × Bool)) (writes : List (Reg × Word)) (l : RegLoc) : RegCell :=
  match writes.find? fun e => e.1 != 0 && x.loc e.1 == l with
  | some e => { val := e.2, pres := .full, owed := false }
  | none =>
    if reads.any fun e => e.2 && e.1 != 0 && x.loc e.1 == l then { x.cell l with pres := .dead } else x.cell l

/-- The register at a place after an instruction whose result is owed: the destination is EMPTY and owed, its value as it
was (R23). -/
def cellOwing (x : Slot) (reads : List (Reg × Bool)) (dests : List Reg) (l : RegLoc) : RegCell :=
  if dests.any fun r => r != 0 && x.loc r == l then { val := (x.cell l).val, pres := .empty, owed := true }
  else if reads.any fun e => e.2 && e.1 != 0 && x.loc e.1 == l then { x.cell l with pres := .dead }
  else x.cell l

/-- Nothing but one slot differs between two states: no memory, core, tile, job or packet. -/
def onlySlot (s t : State) (n : Nat) : Prop := t = { s with slots := t.slots } ∧ ∀ m, m ≠ n → t.slot m = s.slot m

/-- The slot has retired one instruction and goes on at `pc`; beyond its registers nothing of it differs. -/
def retired (x y : Slot) (pc : Word) : Prop :=
  y = { x with regs := y.regs, shadow := y.shadow, pc := pc, brPc := x.pc, ist := x.ist + 1, unchecked := none, leafWait := none,
               waiting := none, alloc := none, state := .run }

/-- The issuing slot retires, its named registers hold their new values, and nothing else in the machine differs. -/
def gives (s t : State) (reads : List (Reg × Bool)) (writes : List (Reg × Word)) (pc : Word) : Prop :=
  onlySlot s t s.focus ∧ retired (s.slot s.focus) (t.slot s.focus) pc
    ∧ ∀ l, (t.slot s.focus).cell l = cellAfter (s.slot s.focus) reads writes l

/-- As `gives`, with flags ORed into fsr (R32). -/
def givesFlags (s t : State) (reads : List (Reg × Bool)) (writes : List (Reg × Word)) (flags : FlagSet) : Prop :=
  onlySlot s t s.focus
    ∧ retired { s.slot s.focus with fsr := (s.slot s.focus).fsr ||| flags } (t.slot s.focus) (pcOf s + 4)
    ∧ ∀ l, (t.slot s.focus).cell l = cellAfter (s.slot s.focus) reads writes l

end Sys2Proof.Claims

open Sys2Proof Sys2Proof.Machine Sys2Proof.Claims

/-! ## Integer instructions (R110-R121) -/

namespace Sys2Proof.Claims

/-- The two-source integer instructions and their results (R113-R115, R118). -/
def integerOps : List ((Reg → Reg → Reg → Bool → Bool → Instr) × (Word → Word → Word)) :=
  [(.add, fun a b => a + b), (.sub, fun a b => a - b), (.and, fun a b => a &&& b), (.or, fun a b => a ||| b),
   (.xor, fun a b => a ^^^ b), (.andn, fun a b => a &&& ~~~b), (.orn, fun a b => a ||| ~~~b), (.xnor, fun a b => ~~~(a ^^^ b)),
   (.min, fun a b => if a.toInt ≤ b.toInt then a else b), (.max, fun a b => if a.toInt ≥ b.toInt then a else b),
   (.minz, fun a b => if a.toNat ≤ b.toNat then a else b), (.maxz, fun a b => if a.toNat ≥ b.toNat then a else b),
   (.slt, fun a b => if a.toInt < b.toInt then 1 else 0), (.sltz, fun a b => if a.toNat < b.toNat then 1 else 0),
   (.seq, fun a b => if a = b then 1 else 0), (.sne, fun a b => if a ≠ b then 1 else 0),
   (.shl, fun a b => a <<< (b.toNat % 64)), (.shr, fun a b => a >>> (b.toNat % 64)),
   (.sra, fun a b => a.sshiftRight (b.toNat % 64)), (.rol, fun a b => a.rotateLeft (b.toNat % 64)),
   (.mul, fun a b => a * b), (.mulh, fun a b => BitVec.ofInt 64 (a.toInt * b.toInt / 2 ^ 64)),
   (.mulhz, fun a b => BitVec.ofNat 64 (a.toNat * b.toNat / 2 ^ 64)),
   (.mulhsz, fun a b => BitVec.ofInt 64 (a.toInt * b.toNat / 2 ^ 64)),
   (.bfxz, fun a b => BitVec.ofNat 64 (a.toNat / 2 ^ (b.toNat % 64) % 2 ^ (b.toNat / 256 % 64 + 1))),
   (.bfx, fun a b =>
     let f := a.toNat / 2 ^ (b.toNat % 64) % 2 ^ (b.toNat / 256 % 64 + 1)
     if 2 ^ (b.toNat / 256 % 64) ≤ f then BitVec.ofInt 64 ((f : Int) - 2 ^ (b.toNat / 256 % 64 + 1)) else BitVec.ofNat 64 f)]

/-- The number of one bits among the low `n` bits of a word. -/
def onesBelow (a : Word) : Nat → Nat
  | 0 => 0
  | n + 1 => onesBelow a n + (if a.getLsbD n then 1 else 0)

/-- The immediate forms and their results (R119, R120). -/
def immediateOps : List ((Reg → Reg → BitVec 11 → Instr) × (Word → Word → Word)) :=
  [(.addi, fun a i => a + i), (.andi, fun a i => a &&& i), (.ori, fun a i => a ||| i), (.xori, fun a i => a ^^^ i),
   (.slti, fun a i => if a.toInt < i.toInt then 1 else 0), (.sltzi, fun a i => if a.toNat < i.toNat then 1 else 0),
   (.muli, fun a i => a * i)]

/-- The shifts by an immediate and their results (R120). -/
def shiftOps : List ((Reg → Reg → BitVec 6 → Instr) × (Word → Nat → Word)) :=
  [(.shli, fun a n => a <<< n), (.shri, fun a n => a >>> n), (.srai, fun a n => a.sshiftRight n), (.roli,
      fun a n => a.rotateLeft n)]

/-- The four divides and their results (R116). -/
def divideOps : List ((Reg → Reg → Reg → Bool → Bool → Instr) × (Word → Word → Word)) :=
  [(.div, fun a b => if b = 0 then BitVec.allOnes 64
      else if a.toInt = -2 ^ 63 ∧ b.toInt = -1 then a else BitVec.ofInt 64 (a.toInt.tdiv b.toInt)),
   (.divz, fun a b => if b = 0 then BitVec.allOnes 64 else a / b),
   (.rem, fun a b => if b = 0 then a
      else if a.toInt = -2 ^ 63 ∧ b.toInt = -1 then 0 else BitVec.ofInt 64 (a.toInt - b.toInt * a.toInt.tdiv b.toInt)),
   (.remz, fun a b => if b = 0 then a else a % b)]

end Sys2Proof.Claims

/-- R113-R115, R117, R118: each two-source integer instruction, and each of the bit counts, `brev` and `cnz`, whose registers can
be read and written at once retires, and d holds its result; last-use sources are DEAD; no flag, memory or other register
changes, and a write to g0 is dropped. -/
def Obligations.IntegerResults : Prop :=
  (∀ op ∈ integerOps, ∀ (d a b : Reg) (la lb : Bool) (s : State), usable s [a, b] [d] = true →
      ∃ t, exec (op.1 d a b la lb) s = .next t
        ∧ gives s t [(a, la), (b, lb)] [(d, op.2 (val s a) (val s b))] (pcOf s + 4))
  ∧ (∀ (d a : Reg) (la : Bool) (s : State), usable s [a] [d] = true →
      (∃ t, exec (.popc d a la) s = .next t ∧ gives s t [(a, la)] [(d, BitVec.ofNat 64 (onesBelow (val s a) 64))] (pcOf s + 4))
      ∧ (∃ t v, exec (.clz d a la) s = .next t ∧ gives s t [(a, la)] [(d, v)] (pcOf s + 4)
        ∧ (val s a = 0 → v = 64)
        ∧ (val s a ≠ 0 → ∃ k, k < 64 ∧ v = BitVec.ofNat 64 k ∧ 2 ^ (63 - k) ≤ (val s a).toNat ∧ (val s a).toNat < 2 ^ (64 - k)))
      ∧ (∃ t v, exec (.ctz d a la) s = .next t ∧ gives s t [(a, la)] [(d, v)] (pcOf s + 4)
        ∧ (val s a = 0 → v = 64)
        ∧ (val s a ≠ 0 → ∃ k, k < 64 ∧ v = BitVec.ofNat 64 k ∧ (val s a).getLsbD k = true
            ∧ ∀ m, m < k → (val s a).getLsbD m = false))
      ∧ (∃ t v, exec (.brev d a la) s = .next t ∧ gives s t [(a, la)] [(d, v)] (pcOf s + 4)
        ∧ ∀ k, k < 64 → v.getLsbD k = (val s a).getLsbD (63 - k))
      ∧ (∃ t, exec (.cnz d a la) s = .next t
        ∧ gives s t [(a, la)]
            [(d, BitVec.ofNat 64 ((List.range 8).countP fun j => (val s a).extractLsb' (8 * j) 8 != 0))] (pcOf s + 4)))

/-- R111, R118-R121: the I-format arithmetic on the sign-extended immediate, and the shifts by a constant; `bfi` and `lis` read d
as well; `lil` and `apc` build constants, `apc` from its own pc. -/
def Obligations.ConstantsAndImmediates : Prop :=
  ((∀ op ∈ immediateOps, ∀ (d a : Reg) (imm : BitVec 11) (s : State), usable s [a] [d] = true →
      ∃ t, exec (op.1 d a imm) s = .next t ∧ gives s t [(a, false)] [(d, op.2 (val s a) (imm.signExtend 64))] (pcOf s + 4))
    ∧ (∀ op ∈ shiftOps, ∀ (d a : Reg) (n : BitVec 6) (s : State), usable s [a] [d] = true →
      ∃ t, exec (op.1 d a n) s = .next t ∧ gives s t [(a, false)] [(d, op.2 (val s a) n.toNat)] (pcOf s + 4)))
  ∧ ((∀ (d a b : Reg) (la lb : Bool) (s : State), usable s [a, b, d] [d] = true →
      ∃ t, exec (.bfi d a b la lb) s = .next t
        ∧ gives s t [(a, la), (b, lb)]
            [(d, (val s d &&& ~~~(BitVec.ofNat 64 ((2 ^ ((val s b).toNat / 256 % 64 + 1) - 1) * 2 ^ ((val s b).toNat % 64))))
              ||| ((val s a <<< ((val s b).toNat % 64))
                &&& BitVec.ofNat 64 ((2 ^ ((val s b).toNat / 256 % 64 + 1) - 1) * 2 ^ ((val s b).toNat % 64))))] (pcOf s + 4))
    ∧ (∀ (d : Reg) (imm : BitVec 18) (s : State), usable s [d] [d] = true →
      ∃ t, exec (.lis d imm) s = .next t ∧ gives s t [] [(d, (val s d <<< 18) ||| imm.setWidth 64)] (pcOf s + 4))
    ∧ (∀ (d : Reg) (imm : BitVec 18) (s : State), usable s [] [d] = true →
      (∃ t, exec (.lil d imm) s = .next t ∧ gives s t [] [(d, imm.signExtend 64)] (pcOf s + 4))
      ∧ ∃ t, exec (.apc d imm) s = .next t ∧ gives s t [] [(d, pcOf s + (imm.signExtend 64 <<< 12))] (pcOf s + 4)))

/-! ## Control transfer (R122-R125) -/

namespace Sys2Proof.Claims

/-- The conditional branches and when they are taken (R122). -/
def branchOps : List ((Reg → Reg → BitVec 11 → Instr) × (Word → Word → Bool)) :=
  [(.beq, fun a b => a == b), (.bne, fun a b => a != b), (.blt, fun a b => a.slt b), (.bge, fun a b => b.sle a),
   (.bltz, fun a b => a.ult b), (.bgez, fun a b => b.ule a)]

end Sys2Proof.Claims

/-- R80, R122-R124: a branch goes to pc + 4 × its immediate if its condition holds, else to pc + 4; `dbnz` writes a − 1 to a and
branches while that is not zero; `jal` and `jalr` link pc + 4 in d, and `jalr` reads a first. -/
def Obligations.BranchesAndJumps : Prop :=
  (∀ op ∈ branchOps, ∀ (a b : Reg) (imm : BitVec 11) (s : State), usable s [a, b] [] = true →
      ∃ t, exec (op.1 a b imm) s = .next t
        ∧ gives s t [] [] (if op.2 (val s a) (val s b) then pcOf s + imm.signExtend 64 * 4 else pcOf s + 4))
  ∧ (∀ (a : Reg) (imm : BitVec 11) (s : State), usable s [a] [a] = true →
      ∃ t, exec (.dbnz a imm) s = .next t
        ∧ gives s t [] [(a, val s a - 1)] (if val s a - 1 ≠ 0 then pcOf s + imm.signExtend 64 * 4 else pcOf s + 4))
  ∧ ((∀ (d : Reg) (imm : BitVec 18) (s : State), usable s [] [d] = true →
      ∃ t, exec (.jal d imm) s = .next t ∧ gives s t [] [(d, pcOf s + 4)] (pcOf s + imm.signExtend 64 * 4))
    ∧ (∀ (d a : Reg) (imm : BitVec 11) (s : State), usable s [a] [d] = true →
      ∃ t, exec (.jalr d a imm) s = .next t ∧ gives s t [] [(d, pcOf s + 4)] (val s a + imm.signExtend 64)))

/-! ## Scalar floating point (R187-R193) -/

namespace Sys2Proof.Claims

/-- The value of a register in a format: its low bits (R52). -/
def floatOf (f : FloatFormat) (w : Word) : FVal := f.value (w.toNat % 2 ^ f.width)

/-- The sums and products, each one rounding of the exact result under frm (R53, R188). -/
def floatOps : List ((Reg → Reg → Reg → FType → Bool → Bool → Instr) × (FloatFormat → BitVec 2 → FVal → FVal → FRes)) :=
  [(.fadd, FloatFormat.add), (.fsub, FloatFormat.sub), (.fmul, FloatFormat.mul)]

/-- The comparisons: when d is 1, and whether a quiet NaN is no reason for NV (R55, R189). -/
def floatTests : List ((Reg → Reg → Reg → FType → Bool → Bool → Instr) × (FVal → FVal → Bool) × Bool) :=
  [(.flt, fun x y => x.lt y, false), (.fle, fun x y => x.lt y || x.eq y, false), (.feq, fun x y => x.eq y, true)]

/-- The format conversions, from one format to another (R190). -/
def floatConversions : List ((Reg → Reg → Bool → Instr) × FloatFormat × FloatFormat) :=
  [(.fcvtSH, fp16, fp32), (.fcvtHS, fp32, fp16), (.fcvtSB, bf16, fp32), (.fcvtBS, fp32, bf16)]

/-- A value as a format holds it, rounded once (R57, R190). -/
def converted (g : FloatFormat) (mode : BitVec 2) : FVal → FRes
  | .nan signalling => { bits := g.nanBits, flags := if signalling then flagNV else noFlags }
  | .inf neg => { bits := g.signBit neg + g.infBits, flags := noFlags }
  | .fin neg m e => g.round mode neg m e

end Sys2Proof.Claims

/-- R53, R59, R188: `fadd`, `fsub`, `fmul` and `fma` write the once-rounded result in their type's low bits, the rest zero,
and OR their flags into fsr; `fma` reads d. -/
def Obligations.FloatArithmetic : Prop :=
  (∀ op ∈ floatOps, ∀ (d a b : Reg) (fmt : FType) (la lb : Bool) (s : State), usable s [a, b] [d] = true →
    ∃ t, exec (op.1 d a b fmt la lb) s = .next t
      ∧ (let f := formatOf fmt
         let r := op.2 f (s.slot s.focus).frm (floatOf f (val s a)) (floatOf f (val s b))
         givesFlags s t [(a, la), (b, lb)] [(d, BitVec.ofNat 64 r.bits)] r.flags))
  ∧ (∀ (d a b : Reg) (fmt : FType) (la lb : Bool) (s : State), usable s [a, b, d] [d] = true →
    ∃ t, exec (.fma d a b fmt la lb) s = .next t
      ∧ (let f := formatOf fmt
         let r := f.fma (s.slot s.focus).frm (floatOf f (val s a)) (floatOf f (val s b)) (floatOf f (val s d))
         givesFlags s t [(a, la), (b, lb)] [(d, BitVec.ofNat 64 r.bits)] r.flags))

/-- R189-R191, R193: comparisons, `fmin` and `fmax`, conversions and `fclass`; `fneg`, `fabs` and `fsgn` act on the sign bit of
FP32, and a NaN in a gives the canonical NaN. -/
def Obligations.FloatTestsAndSigns : Prop :=
  ((∀ op ∈ floatTests, ∀ (d a b : Reg) (fmt : FType) (la lb : Bool) (s : State), usable s [a, b] [d] = true →
      ∃ t, exec (op.1 d a b fmt la lb) s = .next t
        ∧ (let x := floatOf (formatOf fmt) (val s a)
           let y := floatOf (formatOf fmt) (val s b)
           givesFlags s t [(a, la), (b, lb)] [(d, if op.2.1 x y then 1 else 0)]
             (if x.signals || y.signals || (!op.2.2 && (x.isNan || y.isNan)) then flagNV else noFlags)))
    ∧ (∀ op ∈ [(Instr.fmin, false), (Instr.fmax, true)], ∀ (d a b : Reg) (fmt : FType) (la lb : Bool) (s : State),
      usable s [a, b] [d] = true →
      ∃ t, exec (op.1 d a b fmt la lb) s = .next t
        ∧ (let f := formatOf fmt
           let r := f.minMax op.2 ((val s a).toNat % 2 ^ f.width) ((val s b).toNat % 2 ^ f.width)
           givesFlags s t [(a, la), (b, lb)] [(d, BitVec.ofNat 64 r.bits)] r.flags))
    ∧ (∀ op ∈ floatConversions, ∀ (d a : Reg) (la : Bool) (s : State), usable s [a] [d] = true →
      ∃ t, exec (op.1 d a la) s = .next t
        ∧ (let r := converted op.2.2 (s.slot s.focus).frm (floatOf op.2.1 (val s a))
           givesFlags s t [(a, la)] [(d, BitVec.ofNat 64 r.bits)] r.flags))
    ∧ (∀ (d a : Reg) (la : Bool) (s : State), usable s [a] [d] = true →
      (∃ t, exec (.fcvtSI d a la) s = .next t
        ∧ (let r := fp32.roundInt (s.slot s.focus).frm false (val s a).toInt 0
           givesFlags s t [(a, la)] [(d, BitVec.ofNat 64 r.bits)] r.flags))
      ∧ (∃ t, exec (.fcvtIS d a la) s = .next t
        ∧ (let r := toIntBetween (s.slot s.focus).frm (-(2 ^ 63)) (2 ^ 63 - 1) (floatOf fp32 (val s a))
           givesFlags s t [(a, la)] [(d, BitVec.ofInt 64 r.1)] r.2))
      ∧ ∃ t k, exec (.fclass d a la) s = .next t ∧ k < 10 ∧ gives s t [(a, la)] [(d, BitVec.ofNat 64 (2 ^ k))] (pcOf s + 4)
        ∧ (k = 8 ↔ (floatOf fp32 (val s a)).signals = true) ∧ (k = 0 ↔ floatOf fp32 (val s a) = .inf true)
        ∧ (k = 7 ↔ floatOf fp32 (val s a) = .inf false)
        ∧ (k = 3 ∨ k = 4 ↔ (floatOf fp32 (val s a)).isZero = true)))
  ∧ (∀ (d a b : Reg) (la lb : Bool) (s : State),
      (usable s [a] [d] = true → (floatOf fp32 (val s a)).isNan = false →
        (∃ t, exec (.fneg d a la) s = .next t
          ∧ gives s t [(a, la)] [(d, (val s a ^^^ 0x80000000#64) &&& 0xFFFFFFFF#64)] (pcOf s + 4))
        ∧ ∃ t, exec (.fabs d a la) s = .next t ∧ gives s t [(a, la)] [(d, val s a &&& 0x7FFFFFFF#64)] (pcOf s + 4))
      ∧ (usable s [a, b] [d] = true → (floatOf fp32 (val s a)).isNan = false →
        ∃ t, exec (.fsgn d a b la lb) s = .next t
          ∧ gives s t [(a, la), (b, lb)] [(d, (val s a &&& 0x7FFFFFFF#64) ||| (val s b &&& 0x80000000#64))] (pcOf s + 4))
      ∧ (usable s [a] [d] = true → (floatOf fp32 (val s a)).isNan = true →
        ∃ t, exec (.fneg d a la) s = .next t
          ∧ givesFlags s t [(a, la)] [(d, 0x7FC00000)]
              (if (floatOf fp32 (val s a)).signals then flagNV else noFlags)))

/-- R59, R112, R116, R192: a divide, and a square root, retires at once with d owed; DIVIDE_RESULT lands its quotient or remainder
and SQRT_RESULT its root, rounded under the frm read at issue, with its flags. With d = g0 nothing is owed; that a square root's
flags then reach fsr as it retires is the model's choice (log 45). -/
def Obligations.LongScalarResults : Prop :=
  (∀ op ∈ divideOps, ∀ (d a b : Reg) (la lb : Bool) (s : State), usable s [a, b] [d] = true →
      (d = 0 → ∃ t, exec (op.1 d a b la lb) s = .next t ∧ gives s t [(a, la), (b, lb)] [] (pcOf s + 4))
      ∧ (d ≠ 0 → (s.slot s.focus).divs = [] →
      ∃ t u, exec (op.1 d a b la lb) s = .next t ∧ exec (.divideResult s.focus 0) t = .next u
        ∧ onlySlot s t s.focus ∧ onlySlot s u s.focus
        ∧ (t.slot s.focus).pc = pcOf s + 4
        ∧ (∀ l, (t.slot s.focus).cell l = cellOwing (s.slot s.focus) [(a, la), (b, lb)] [d] l)
        ∧ (∀ l, (u.slot s.focus).cell l
            = cellAfter (s.slot s.focus) [(a, la), (b, lb)] [(d, op.2 (val s a) (val s b))] l)
        ∧ (u.slot s.focus).divs = [] ∧ (u.slot s.focus).fsr = (s.slot s.focus).fsr))
  ∧ (∀ op ∈ [(Instr.fsqrtS, fp32), (Instr.fsqrtH, fp16)], ∀ (d a : Reg) (la : Bool) (s : State), usable s [a] [d] = true →
      (d = 0 → ∃ t, exec (op.1 d a la) s = .next t
        ∧ givesFlags s t [(a, la)] [] (op.2.sqrt (s.slot s.focus).frm (floatOf op.2 (val s a))).flags)
      ∧ (d ≠ 0 → (s.slot s.focus).sqrts = [] →
      ∃ t u, exec (op.1 d a la) s = .next t ∧ exec (.sqrtResult s.focus 0) t = .next u
        ∧ onlySlot s t s.focus ∧ onlySlot s u s.focus
        ∧ (t.slot s.focus).pc = pcOf s + 4 ∧ (t.slot s.focus).fsr = (s.slot s.focus).fsr
        ∧ (∀ l, (t.slot s.focus).cell l = cellOwing (s.slot s.focus) [(a, la)] [d] l)
        ∧ (let r := op.2.sqrt (s.slot s.focus).frm (floatOf op.2 (val s a))
           (∀ l, (u.slot s.focus).cell l = cellAfter (s.slot s.focus) [(a, la)] [(d, BitVec.ofNat 64 r.bits)] l)
           ∧ (u.slot s.focus).fsr = (s.slot s.focus).fsr ||| r.flags)
        ∧ (u.slot s.focus).sqrts = []))

/-! ## Presence faults and waits (R22, R43) -/

namespace Sys2Proof.Claims

/-- A slot is at an instruction of user code with upcalls on and no handler running (R44). -/
def plainUser (s : State) (n : Nat) : Bool :=
  isUserSlot n && !(s.slot n).active && (s.slot n).ubase != 0

/-- The slot has entered its handler for a cause: uepc, uval and ucause are written, ACTIVE is set, the pc is at
ubase + 64 × cause, and nothing else in the machine differs (R44). -/
def entersHandler (s t : State) (n cause : Nat) (epc v : Word) : Prop :=
  onlySlot s t n ∧ t.slot n = { s.slot n with
    uepc := epc, uval := v, code := BitVec.ofNat 8 cause, active := true, pc := (s.slot n).ubase + BitVec.ofNat 64 (64 * cause),
    brPc := 0, state := .run, unchecked := none, leafWait := none }

end Sys2Proof.Claims

/-- R15, R16, R22, R43, R45: a two-source integer instruction whose first source is DEAD enters the handler for 0x04, one whose
first source is EMPTY-TRAP that for 0x03, with uval the register number; an EMPTY source makes the slot wait, and with
xmode[0] = 1 enters the handler for 0x03. A register field beyond the window enters the handler for 0x02 with uval the word.
Nothing else happens. -/
def Obligations.PresenceFaults : Prop :=
  (∀ op ∈ integerOps, ∀ (d a b : Reg) (la lb : Bool) (s : State), usable s [b] [d] = true → a ≠ 0 →
      a.toNat < (s.slot s.focus).winSize → (s.slot s.focus).bound a = none →
      (s.slot s.focus).leafOf ((s.slot s.focus).loc a) = .full → plainUser s s.focus = true →
      (let p := ((s.slot s.focus).cell ((s.slot s.focus).loc a)).pres
       (p = .dead → ∃ t, exec (op.1 d a b la lb) s = .next t ∧ entersHandler s t s.focus 0x04 (pcOf s) (a.setWidth 64))
       ∧ (p = .trap → ∃ t, exec (op.1 d a b la lb) s = .next t ∧ entersHandler s t s.focus 0x03 (pcOf s) (a.setWidth 64))
       ∧ (p = .empty → (s.slot s.focus).xmode = true →
          ∃ t, exec (op.1 d a b la lb) s = .next t ∧ entersHandler s t s.focus 0x03 (pcOf s) (a.setWidth 64))
       ∧ (p = .empty → (s.slot s.focus).xmode = false →
          ∃ t, exec (op.1 d a b la lb) s = .next t ∧ onlySlot s t s.focus
            ∧ t.slot s.focus = { s.slot s.focus with state := .wait })))
  ∧ (∀ op ∈ integerOps, ∀ (d a b : Reg) (la lb : Bool) (s : State), plainUser s s.focus = true →
      (s.slot s.focus).winSize ≤ max d.toNat (max a.toNat b.toNat) →
      ∃ t, exec (op.1 d a b la lb) s = .next t
        ∧ entersHandler s t s.focus 0x02 (pcOf s) (op.1 d a b la lb).word)

/-! ## Upcalls and returns (R42-R45, R181-R186) -/

namespace Sys2Proof.Claims

/-- The host has attached no debugger to the slot's job (R183). -/
def noDebugger (s : State) : Prop :=
  ∀ x, s.job (s.slot s.focus).job = some x → bitOf (s.tenant x.tenant).debug 16 = false

/-- The four supervisor forms (R186). -/
def supervisorForms (d a : Reg) (la : Bool) : List Instr := [.sret, .dflush d a la, .ckpt d a la, .halt]

end Sys2Proof.Claims

/-- R44, R45, R181, R183: `trap n`, and `brk n` with no debugger attached, retire and enter the handler for 0x16 with uepc = pc + 4
and uval = the word; with one attached to the slot's job `brk` leaves the slot in DEBUG at pc + 4. `uret` in a handler whose
shadows are owed nothing clears ACTIVE and goes to uepc; outside a handler it enters the handler for 0x01. That `uret` leaves
brPc = 0, the uval of a 0x0F at a misaligned uepc, is the model's choice (log 50). -/
def Obligations.TrapsAndReturns : Prop :=
  (∀ (n : BitVec 7) (s : State), plainUser s s.focus = true →
      (let retiredOne := s.onSlot s.focus fun x => { x with ist := x.ist + 1 }
       (∃ t, exec (.trap n) s = .next t
         ∧ entersHandler retiredOne t s.focus 0x16 (pcOf s + 4) (Instr.trap n).word)
       ∧ (noDebugger s → ∃ t, exec (.brk n) s = .next t
         ∧ entersHandler retiredOne t s.focus 0x16 (pcOf s + 4) (Instr.brk n).word)
       ∧ (s.debugged (s.slot s.focus).job = true → ∃ t, exec (.brk n) s = .next t
         ∧ t.slots = (s.setSlot s.focus { s.slot s.focus with state := .debug, pc := pcOf s + 4 }).slots)))
  ∧ ((∀ (s : State), (s.slot s.focus).active = true → (s.slot s.focus).shadowOwed = false →
      ∃ t, exec .uret s = .next t ∧ onlySlot s t s.focus
        ∧ t.slot s.focus = { s.slot s.focus with
            active := false, pc := (s.slot s.focus).uepc, brPc := 0, ist := (s.slot s.focus).ist + 1, state := .run })
    ∧ (∀ (s : State), plainUser s s.focus = true →
      ∃ t, exec .uret s = .next t ∧ entersHandler s t s.focus 0x01 (pcOf s) Instr.uret.word))

/-- R42, R44, R184: a slot in WAIT whose next instruction is not `sleep` takes its enabled pending cause of lowest code: its
PEND bit is cleared, uepc is its pc, and it runs the handler. `sleep` retires as soon as a condition holds and writes its
reasons: a deadline that has passed, a message for the slot, an enabled pending cause outside a handler; with none it waits.
Readings and choices of the model it rests on: log 34. -/
def Obligations.PendingCausesAndSleep : Prop :=
  (∀ (s u : State) (n b : Nat) (w : Code) (i : Instr), isUserSlot n = true → s.canIssue n = true → (s.slot n).state = .wait →
      (s.slot n).waiting = none → (s.slot n).deliverable = some b → b ≠ 2 →
      s.fetch n = .word w u → decodeWord w = .ok i → isSleep i = false →
      ∃ t, exec (.upcallEntry n) s = .next t ∧ onlySlot s t n
        ∧ t.slot n = { s.slot n with
            pend := (s.slot n).pend &&& ~~~(BitVec.ofNat 9 (2 ^ b)), pendVal := storeSet noVal (s.slot n).pendVal b 0,
            uepc := (s.slot n).pc, uval := s.asyncVal n b, code := BitVec.ofNat 8 (causeOfBit b), active := true,
            pc := (s.slot n).ubase + BitVec.ofNat 64 (64 * causeOfBit b), brPc := 0, state := .run, unchecked := none,
            leafWait := none })
  ∧ (∀ (d a : Reg) (la : Bool) (s : State), usable s [a] [d] = true →
      (let due := decide (a ≠ 0) && decide ((val s a).toNat ≤ s.cyc % 2 ^ 64)
       let mail := s.messagesFor s.focus != []
       let cause := !(s.slot s.focus).active && ((s.slot s.focus).pendWord &&& (s.slot s.focus).umask) != 0
       ((due || mail || cause) = true → ∃ t, exec (.sleep d a la) s = .next t
         ∧ gives s t [(a, la)]
             [(d, (if due then 1 else 0) + (if mail then 2 else 0) + (if cause then 4 else 0))] (pcOf s + 4))
       ∧ ((due || mail || cause) = false → ∃ t, exec (.sleep d a la) s = .next t ∧ onlySlot s t s.focus
         ∧ t.slot s.focus = { s.slot s.focus with state := .wait })))

/-! ## Control registers (R28-R37, R126-R130) -/

namespace Sys2Proof.Claims

/-- The writable control registers of a slot, with the bits that a write keeps (R29, R32, R35). -/
def slotRegisters : List (Nat × Word) :=
  [(0x004, 0x3F), (0x005, 0x3), (0x006, 0x1), (0x010, 0xFFFFFFFFFFFFF000), (0x011, 0xFFFFFFFFFFFFFFFC),
   (0x013, 0xFFFFFFFFFFFFFFFF), (0x014, 0x13F), (0x020, 0xF), (0x021, 0xF), (0x022, 0xFFFFFFFFFFFFFFFC),
   (0x023, 0xFFFFFFFFFFFFFFFC), (0x024, 0xFFFFFFFFFFFFFFFF), (0x025, 0xFFFFFFFFFFFFFFF8), (0x060, 0xFFFFFFFFFFFFFFF0),
   (0x061, 0xFFFFFFFFFFFFFFF0)]

/-- A writing form, the value it writes from the old value and a, and whether it writes with a = g0 as well (R127). -/
def csrWrites : List ((Reg → Reg → BitVec 11 → Instr) × (Word → Word → Word) × Bool) :=
  [(.csrw, fun _ a => a, true), (.csrs, fun old a => old ||| a, false), (.csrc, fun old a => old &&& ~~~a, false)]

/-- The writable registers of a supervisor slot and of address translation, with the bits that a write keeps (R185, R296). -/
def supervisorRegisters : List (Nat × Word) :=
  [(0x410, 0xFFFFFFFFFFFFF000), (0x411, 0xFFFFFFFFFFFFFFFC), (0x413, 0xFFFFFFFFFFFFFFFF), (0x420, 0xFFFFFFFFFE000),
   (0x422, 0xFFFFFFFF00000)]

/-- The write of a control register has retired: d holds the old value, the register the new one's kept bits, and every other
register of the list what it held. -/
def csrWritten (s t : State) (regs : List (Nat × Word)) (d : Reg) (r : Nat × Word) (new : Word) : Prop :=
  (let y := t.slot s.focus
   retired { s.slot s.focus with
      fsr := y.fsr, frm := y.frm, xmode := y.xmode, ubase := y.ubase, uepc := y.uepc, uval := y.uval, umask := y.umask, fmt0 :=
          y.fmt0,
      fmt1 := y.fmt1, scl0 := y.scl0, scl1 := y.scl1, vmask := y.vmask, stb := y.stb, hbump := y.hbump, hlim := y.hlim,
      sbase := y.sbase, sepc := y.sepc, sval := y.sval } y (pcOf s + 4))
    ∧ (∀ m, m ≠ s.focus → t.slot m = s.slot m)
    ∧ (∀ l, (t.slot s.focus).cell l = cellAfter (s.slot s.focus) [] [(d, s.readCsr s.focus r.1)] l)
    ∧ t.readCsr s.focus r.1 = new &&& r.2
    ∧ ∀ q ∈ regs, q.1 ≠ r.1 → t.readCsr s.focus q.1 = s.readCsr s.focus q.1

end Sys2Proof.Claims

/-- R28, R32, R35, R127-R129: `csrr` of a register that can be read returns it in d, and so do `csrs` and `csrc` with a = g0, which
write nothing; a write of one of the slot's own registers returns the old value, keeps the bits that the register has, and
leaves every other register of the machine, and all memory, as it was, and so does a write of a supervisor register by a
supervisor slot; an unassigned number below 0x400, or a write of a read-only register, enters the handler for 0x01 with uval the
word, and any access of a user slot from 0x400 on that for 0x08. A write of k0-k15 returns the old value and reads as such from the
ninth core cycle after it (R19, R37), until when the register keeps what it held. That a read of the write-only tcinv gives the
free value Config.tcinvReads is the model's choice (log 21). -/
def Obligations.ControlRegisters : Prop :=
  (∀ (d : Reg) (csr : BitVec 11) (s : State), usable s [] [d] = true →
      csrKind csr.toNat ≠ .unassigned → (isUserSlot s.focus = true → csr.toNat < 0x400) →
      ∀ i ∈ [Instr.csrr d csr, .csrs d 0 csr, .csrc d 0 csr],
        ∃ t, exec i s = .next t
          ∧ gives (if csr.toNat = 0x040 then s.logInput s.focus [s.readCsr s.focus 0x040] else s) t []
              [(d, s.readCsr s.focus csr.toNat)] (pcOf s + 4))
  ∧ (∀ r ∈ slotRegisters, ∀ form ∈ csrWrites, ∀ (d a : Reg) (s : State), usable s [a] [d] = true →
      (form.2.2 = true ∨ a ≠ 0) →
      (let old := s.readCsr s.focus r.1
       ∃ t, exec (form.1 d a (BitVec.ofNat 11 r.1)) s = .next t ∧ onlySlot s t s.focus
         ∧ csrWritten s t slotRegisters d r (form.2.1 old (val s a))))
  ∧ (∀ r ∈ supervisorRegisters, ∀ form ∈ csrWrites, ∀ (d a : Reg) (s : State), usable s [a] [d] = true →
      isUserSlot s.focus = false → (form.2.2 = true ∨ a ≠ 0) →
      (let old := s.readCsr s.focus r.1
       ∃ t, exec (form.1 d a (BitVec.ofNat 11 r.1)) s = .next t
         ∧ t = { s with slots := t.slots, ptroot := t.ptroot, ddir := t.ddir }
         ∧ csrWritten s t (supervisorRegisters ++ slotRegisters) d r (form.2.1 old (val s a))))
  ∧ (∀ (d a : Reg) (csr : BitVec 11) (s : State), plainUser s s.focus = true →
      (csr.toNat < 0x400 → csrKind csr.toNat = .unassigned →
        ∀ i ∈ [Instr.csrr d csr, .csrw d a csr, .csrs d a csr, .csrc d a csr],
        ∃ t, exec i s = .next t ∧ entersHandler s t s.focus 0x01 (pcOf s) i.word)
      ∧ (csr.toNat < 0x400 → csrKind csr.toNat = .readOnly → ∀ form ∈ csrWrites, (form.2.2 = true ∨ a ≠ 0) →
        ∃ t, exec (form.1 d a csr) s = .next t ∧ entersHandler s t s.focus 0x01 (pcOf s) (form.1 d a csr).word)
      ∧ (0x400 ≤ csr.toNat → ∀ i ∈ [Instr.csrr d csr, .csrw d a csr, .csrs d a csr, .csrc d a csr],
        ∃ t, exec i s = .next t ∧ entersHandler s t s.focus 0x08 (pcOf s) i.word))
  ∧ (∀ (k : Nat) (s : State), k < 16 →
      (∀ form ∈ csrWrites, ∀ (d a : Reg), usable s [a] [d] = true → (form.2.2 = true ∨ a ≠ 0) →
        (let c := coreOfSlot s.focus
         let old := storeGet noVal (s.core c).k k
         let w : KWrite := { cycle := (s.core c).clock, ring := s.focus % 4, reg := k, val := form.2.1 old (val s a) }
         ∃ t, exec (form.1 d a (BitVec.ofNat 11 (0x050 + k))) s = .next t
          ∧ gives (s.onCore c fun x => { x with kWrites := x.kWrites ++ [w] }) t [] [(d, old)] (pcOf s + 4)))
      ∧ ∀ n rotations : Nat,
        storeGet noVal ((s.beginTurn n rotations).core (coreOfSlot n)).k k =
          (match ((s.core (coreOfSlot n)).kWrites.filter fun w =>
              w.reg == k && decide (w.cycle + 9 ≤ s.nextTurn n rotations / 4)).getLast? with
            | some w => w.val
            | none => storeGet noVal (s.core (coreOfSlot n)).k k))

/-- R296, R350, R412, R422: the management registers that the host writes, and a supervisor slot with `csrw`. A deckle value
in range is in force from the next period; a pwrlim value in range from then on; pkgid while no job exists and no launch is
held; a tcinv value drops the translations that meet its range in every slice and no others, once no checked access of the
range is on its way. Readings and choices of the model it rests on: log 22, log 24, log 67. -/
def Obligations.ManagementRegisters : Prop :=
  ∀ (v : Word) (s : State),
    (1 ≤ bitsOf v.toNat 32 16 → bitsOf v.toNat 32 16 ≤ 1000 → 1 ≤ bitsOf v.toNat 16 16 → 16 ≤ bitsOf v.toNat 0 11 →
      bitsOf v.toNat 0 11 ≤ 1024 →
      ∃ t, exec (.deckle v) s = .next t ∧ t = { s with deckleNext := v &&& 0x8000FFFFFFFF07FF#64 })
    ∧ (125 ≤ bitsOf v.toNat 16 12 → bitsOf v.toNat 16 12 ≤ 750 → 500 ≤ bitsOf v.toNat 0 12 → bitsOf v.toNat 0 12 ≤ 3000 →
      ∃ t, exec (.pwrlim v) s = .next t ∧ t = { s with pwrlim := v &&& 0x0FFF0FFF#64 })
    ∧ (s.jobs = [] → s.heldLaunches = [] → ∃ t, exec (.pkgid v) s = .next t ∧ t = { s with pkgid := v.setWidth 6 })
    ∧ (s.tcinvWaits v = false → ∃ t, exec (.tcinv v) s = .next t ∧ ∀ n x, x ∈ (t.tile n).translations ↔
        x ∈ (s.tile n).translations ∧ rangesMeet x.page x.size (tcinvRange v).1 (tcinvRange v).2 = false)
    ∧ (s.tcinvWaits v = true → exec (.tcinv v) s = .next s)
    ∧ ∀ d a : Reg, usable s [a] [d] = true → isUserSlot s.focus = false → val s a = v →
      (1 ≤ bitsOf v.toNat 32 16 → bitsOf v.toNat 32 16 ≤ 1000 → 1 ≤ bitsOf v.toNat 16 16 → 16 ≤ bitsOf v.toNat 0 11 →
        bitsOf v.toNat 0 11 ≤ 1024 → ∃ t, exec (.csrw d a 0x430) s = .next t
          ∧ gives { s with deckleNext := v &&& 0x8000FFFFFFFF07FF#64 } t [] [(d, s.deckle)] (pcOf s + 4))
      ∧ (125 ≤ bitsOf v.toNat 16 12 → bitsOf v.toNat 16 12 ≤ 750 → 500 ≤ bitsOf v.toNat 0 12 → bitsOf v.toNat 0 12 ≤ 3000 →
        ∃ t, exec (.csrw d a 0x440) s = .next t
          ∧ gives { s with pwrlim := v &&& 0x0FFF0FFF#64 } t [] [(d, s.pwrlim)] (pcOf s + 4))
      ∧ (s.jobs = [] → s.heldLaunches = [] → ∃ t, exec (.csrw d a 0x442) s = .next t
          ∧ gives { s with pkgid := v.setWidth 6 } t [] [(d, s.pkgid.setWidth 64)] (pcOf s + 4))

/-! ## Presence, leaves, ports and links (R20, R26, R27, R156-R166) -/

namespace Sys2Proof.Claims

/-- Fields that are named but neither read nor written: inside the window and not bound to a port. -/
def named (s : State) (rs : List Reg) : Bool :=
  rs.all fun r => decide (r.toNat < (s.slot s.focus).winSize) && (r == 0 || ((s.slot s.focus).bound r).isNone)

/-- The three forms that set a register's presence (R158). -/
def presenceForms : List ((Reg → Instr) × Presence) :=
  [(.mkempty, .empty), (.mkemptyTrap, .trap), (.mkfull, .full)]

/-- The address in a register names the leaf that begins at an offset of the issuing core's scratchpad, in region 0xF0
(R38, R161). -/
def namesLeaf (s : State) (a : Word) (off : Nat) : Bool :=
  a == 0xF000000000000000#64 + BitVec.ofNat 64 off && decide (off < s.scratchSize (s.slot s.focus).job)
    && decide (off < 2 ^ 18) && decide (off % 4096 = 0)

/-- The leaf's supply state in a core. -/
def leafIn (s : State) (c off : Nat) : LeafState := storeGet fullLeaf (s.core c).scratchLeaves (off / 4096)

end Sys2Proof.Claims

/-- R157-R159: `wait` retires once its sources are FULL, and last use then applies; `mkempty`, `mkempty.trap` and `mkfull`
set d's presence and keep its value; `drop` makes its registers DEAD once nothing is owed to them. -/
def Obligations.PresenceForms : Prop :=
  (∀ (a b : Reg) (la lb : Bool) (s : State), usable s [a, b] [] = true →
    ∃ t, exec (.wait a b la lb) s = .next t ∧ gives s t [(a, la), (b, lb)] [] (pcOf s + 4))
  ∧ (∀ form ∈ presenceForms, ∀ (d : Reg) (s : State), named s [d] = true →
    (s.slot s.focus).leafOf ((s.slot s.focus).loc d) = .full →
    ∃ t, exec (form.1 d) s = .next t ∧ onlySlot s t s.focus ∧ retired (s.slot s.focus) (t.slot s.focus) (pcOf s + 4)
      ∧ ∀ l, (t.slot s.focus).cell l =
          if d ≠ 0 ∧ l = (s.slot s.focus).loc d then { (s.slot s.focus).cell l with pres := form.2 }
          else (s.slot s.focus).cell l)
  ∧ (∀ (d a b : Reg) (s : State), named s [d, a, b] = true →
    (∀ r ∈ [d, a, b], r ≠ 0 → ((s.slot s.focus).cell ((s.slot s.focus).loc r)).owed = false) →
    ∃ t, exec (.drop d a b) s = .next t ∧ gives s t [(d, true), (a, true), (b, true)] [] (pcOf s + 4))

/-- R26, R27, R160, R161: `wake` starts a register leaf's wake, or a scratchpad leaf's; `lfoff` makes a scratchpad leaf OFF and
`lfret` makes it RETAIN unless it is OFF, once nothing that the core accepted still uses it; other leaves stay as they are. The
power controller switches off a register leaf whose eight registers are DEAD and owed nothing; a leaf that wakes becomes FULL, and
a result held for one of its registers lands; every other register keeps its state. -/
def Obligations.LeafPower : Prop :=
  ((∀ (d : Reg) (s : State), named s [d] = true → d ≠ 0 → (s.slot s.focus).active = false →
      (let k := d.toNat / 8
       ∃ t, exec (.wake d 0 false) s = .next t ∧ onlySlot s t s.focus ∧ (t.slot s.focus).pc = pcOf s + 4
         ∧ (∀ j, j ≠ k → storeGet fullLeaf (t.slot s.focus).leaves j = storeGet fullLeaf (s.slot s.focus).leaves j)
         ∧ storeGet fullLeaf (t.slot s.focus).leaves k =
             (match storeGet fullLeaf (s.slot s.focus).leaves k with
              | .full => .full
              | _ => .waking)))
    ∧ (∀ (a : Reg) (la : Bool) (off : Nat) (s : State), usable s [a] [] = true → namesLeaf s (val s a) off = true → a ≠ 0 →
      (let c := coreOfSlot s.focus
       (∃ t, exec (.wake 0 a la) s = .next t ∧ (t.slot s.focus).pc = pcOf s + 4
          ∧ leafIn t c off = (match leafIn s c off with | .full => .full | _ => .waking)
          ∧ ∀ o, o / 4096 ≠ off / 4096 → leafIn t c o = leafIn s c o)
       ∧ (s.leafInUse s.focus c off = false →
          (∃ t, exec (.lfoff a la) s = .next t ∧ (t.slot s.focus).pc = pcOf s + 4 ∧ leafIn t c off = .off
            ∧ t.pool = s.pool ∧ ∀ o, o / 4096 ≠ off / 4096 → leafIn t c o = leafIn s c o)
          ∧ ∃ t, exec (.lfret a la) s = .next t ∧ (t.slot s.focus).pc = pcOf s + 4
            ∧ leafIn t c off = (if leafIn s c off = .off then .off else .retain)
            ∧ t.pool = s.pool ∧ ∀ o, o / 4096 ≠ off / 4096 → leafIn t c o = leafIn s c o))))
  ∧ ((∀ (s : State) (n leaf : Nat), 8 * leaf + 8 ≤ (s.slot n).winSize →
      (∀ k, k < 8 → ((s.slot n).cell (.win (8 * leaf + k))).pres = .dead
        ∧ ((s.slot n).cell (.win (8 * leaf + k))).owed = false) →
      ∃ t, exec (.leafPowerOff n leaf) s = .next t ∧ onlySlot s t n
        ∧ storeGet fullLeaf (t.slot n).leaves leaf = .off
        ∧ t.slot n = { s.slot n with leaves := (t.slot n).leaves })
    ∧ (∀ (s : State) (n leaf : Nat), storeGet fullLeaf (s.slot n).leaves leaf = .waking →
      ∃ t, exec (.leafWakeDone (.register n leaf)) s = .next t ∧ onlySlot s t n
        ∧ storeGet fullLeaf (t.slot n).leaves leaf = .full
        ∧ ((s.slot n).held = [] → t.slot n = { s.slot n with leaves := (t.slot n).leaves })
        ∧ (∀ i v, (s.slot n).held = [(.win i, v)] → i / 8 = leaf →
            t.slot n = { s.slot n with leaves := (t.slot n).leaves, held := [], regs := (t.slot n).regs }
              ∧ ∀ l, (t.slot n).cell l = if l = .win i then { val := v, pres := .full, owed := false } else (s.slot n).cell l))
    ∧ (∀ (s : State) (c leaf : Nat), storeGet fullLeaf (s.core c).scratchLeaves leaf = .waking →
      ∃ t, exec (.leafWakeDone (.scratch c leaf)) s = .next t ∧ t.pool = s.pool ∧ t.slots = s.slots
        ∧ storeGet fullLeaf (t.core c).scratchLeaves leaf = .full))

/-- R20, R162-R166: `bind` gives d's name to a port that offers the direction and that no other slot of the core holds;
`unbind` removes the binding and leaves d DEAD. An instruction that reads a register bound to a queue's read end takes the
oldest entry, and one that writes a register bound to a queue's write end with room gives its result as the newest entry, of
tag 0. The oldest entry of an outgoing link buffer reaches the facing buffer of the neighbour's core of the same number.
Readings and choices of the model it rests on: log 23. -/
def Obligations.PortsQueuesAndLinks : Prop :=
  ((∀ (d : Reg) (dir : BindDir) (q : BitVec 5) (s : State), d ≠ 0 → d.toNat < (s.slot s.focus).winSize → q.toNat < 16 →
      (s.slot s.focus).active = false → (s.slot s.focus).bindingOf d = none → (s.slot s.focus).bindings.length < 8 →
      s.endsTaken s.focus q.toNat dir = false → ((s.slot s.focus).cell (.win d.toNat)).owed = false →
      ∃ t, exec (.bind d dir q) s = .next t ∧ onlySlot s t s.focus ∧ (t.slot s.focus).pc = pcOf s + 4
        ∧ (t.slot s.focus).bindings = (s.slot s.focus).bindings ++ [{ reg := d, dir := dir, port := q }]
        ∧ ∀ l, l ≠ .win d.toNat → (t.slot s.focus).cell l = (s.slot s.focus).cell l)
    ∧ (∀ (d : Reg) (s : State), d.toNat < (s.slot s.focus).winSize → ((s.slot s.focus).bound d).isSome = true →
      (∀ m ∈ (s.core (coreOfSlot s.focus)).inbox, m.openedBy = none) →
      ∃ t, exec (.unbind d) s = .next t ∧ (t.slot s.focus).pc = pcOf s + 4
        ∧ (t.slot s.focus).bindings = (s.slot s.focus).bindings.filter (fun b => b.reg != d)
        ∧ ((t.slot s.focus).cell (.win d.toNat)).pres = .dead
        ∧ (t.core (coreOfSlot s.focus)).queues = (s.core (coreOfSlot s.focus)).queues
        ∧ (t.core (coreOfSlot s.focus)).inbox = (s.core (coreOfSlot s.focus)).inbox))
  ∧ ((∀ (d a : Reg) (imm : BitVec 11) (v : Word) (rest : List QEntry) (b : Binding) (s : State), usable s [] [d] = true →
      a.toNat < (s.slot s.focus).winSize → a ≠ 0 → (s.slot s.focus).bound a = some b → b.isRead = true → b.port.toNat < 16 →
      s.queue (coreOfSlot s.focus) b.port.toNat = { val := v, marker := false } :: rest →
      ∃ t, exec (.addi d a imm) s = .next t
        ∧ t.queue (coreOfSlot s.focus) b.port.toNat = rest ∧ (t.slot s.focus).pc = pcOf s + 4
        ∧ ∀ l, (t.slot s.focus).cell l = cellAfter (s.slot s.focus) [] [(d, v + imm.signExtend 64)] l)
    ∧ (∀ (d a : Reg) (imm : BitVec 11) (b : Binding) (s : State), usable s [a] [] = true →
      d.toNat < (s.slot s.focus).winSize → d ≠ 0 → (s.slot s.focus).bound d = some b → b.isWrite = true → b.port.toNat < 16 →
      (s.slot s.focus).leafOf ((s.slot s.focus).loc d) = .full →
      (s.queue (coreOfSlot s.focus) b.port.toNat).length < 32 → (s.core (coreOfSlot s.focus)).moves = [] →
      ∃ t, exec (.addi d a imm) s = .next t
        ∧ t.queue (coreOfSlot s.focus) b.port.toNat =
            s.queue (coreOfSlot s.focus) b.port.toNat ++ [{ val := val s a + imm.signExtend 64, marker := false }]
        ∧ (t.slot s.focus).pc = pcOf s + 4 ∧ ∀ l, (t.slot s.focus).cell l = (s.slot s.focus).cell l))
  ∧ (∀ (s : State) (c t : Nat) (dir : BitVec 2) (v : Word) (rest : List Word), neighbour (c / 4) dir.toNat = some t →
      storeGet noWords (s.core c).linkOut dir.toNat = v :: rest → s.linkEnabled c dir.toNat = true →
      bridgeOf (c / 4) dir.toNat = none → s.linesMoving t = false → s.linesMoving (c / 4) = false →
      (storeGet noWords (s.core (4 * t + c % 4)).linkIn (opposite dir.toNat)).length < 4 →
      ∃ u, exec (.linkDelivery c dir) s = .next u
        ∧ storeGet noWords (u.core c).linkOut dir.toNat = rest
        ∧ storeGet noWords (u.core (4 * t + c % 4)).linkIn (opposite dir.toNat)
            = storeGet noWords (s.core (4 * t + c % 4)).linkIn (opposite dir.toNat) ++ [v]
        ∧ u.pool = s.pool ∧ u.slots = s.slots)

/-! ## Loads, stores, fences, atomics and block forms (R131-R154) -/

namespace Sys2Proof.Claims

/-- An access of the issuing slot goes to a place of its own core's scratchpad (R39, R131). -/
def ownScratch (s : State) (a : Word) (imm : Int) (size off : Nat) : Prop :=
  s.targetOf s.focus a imm size size = .scratch (coreOfSlot s.focus) off

/-- The leaf of that place serves the access now: it is FULL, and everything accepted before on these bytes is done (R27, R134,
R197). -/
def served (s : State) (off size : Nat) (reads : Bool) : Prop :=
  s.slotCheck s.focus (coreOfSlot s.focus) off size reads = .ready

/-- A release at package reach may issue: the slot's earlier loads have landed, no store of it is unacknowledged, and its die's
proxies have forwarded what they acknowledged (R143, R144, R311). -/
def mayRelease (s : State) : Prop :=
  s.loadsLanded s.focus = true ∧ (s.slot s.focus).opc = 0 ∧ s.dieProxied s.focus = false

/-- The pool address of an offset of the issuing core's scratchpad. -/
def own (s : State) (off : Nat) : Nat := poolAt (coreOfSlot s.focus) off

/-- The plain loads: their size and whether they extend the sign (R140). -/
def plainLoads : List ((Reg → Reg → BitVec 11 → Instr) × Nat × Bool) :=
  [(.ldS8, 1, true), (.ldZ8, 1, false), (.ldS16, 2, true), (.ldZ16, 2, false), (.ldS32, 4, true), (.ldZ32, 4, false),
   (.ld64, 8, false)]

/-- The plain stores and their size (R141). -/
def plainStores : List ((Reg → Reg → BitVec 11 → Instr) × Nat) := [(.st8, 1), (.st16, 2), (.st32, 4), (.st64, 8)]

/-- Bytes, least significant first, as a word, their sign extended if asked (R50, R140). -/
def loaded (signed : Bool) (bs : List Byte) : Word :=
  let v := natOfBytes bs
  if signed = true ∧ 2 ^ (8 * bs.length - 1) ≤ v then BitVec.ofInt 64 ((v : Int) - 2 ^ (8 * bs.length)) else BitVec.ofNat 64 v

/-- Of the pool exactly some bytes are written; of the other memories and the tiles nothing; of the slots only the issuing
one, which retires with its named registers as they now are. A join that waits on the bytes may be answered (R255). -/
def storesBytes (s t : State) (first : Nat) (bs : List Byte) (reads : List (Reg × Bool)) (writes : List (Reg × Word)) : Prop :=
  (∀ k, k < bs.length → t.pool.byte (first + k) = bs.getD k 0)
    ∧ (∀ p, p < first ∨ first + bs.length ≤ p → t.pool.byte p = s.pool.byte p)
    ∧ t.hbm = s.hbm ∧ t.host = s.host ∧ t.l2 = s.l2 ∧ t.tiles = s.tiles ∧ t.jobs = s.jobs
    ∧ (∀ m, m ≠ s.focus → t.slot m = s.slot m)
    ∧ retired { s.slot s.focus with fsr := (t.slot s.focus).fsr } (t.slot s.focus) (pcOf s + 4)
    ∧ ∀ l, (t.slot s.focus).cell l = cellAfter (s.slot s.focus) reads writes l

/-- No memory, tile, job or other slot differs; the issuing slot retires with its named registers as they now are. -/
def keepsMemory (s t : State) (reads : List (Reg × Bool)) (writes : List (Reg × Word)) : Prop :=
  t.pool = s.pool ∧ t.hbm = s.hbm ∧ t.host = s.host ∧ t.l2 = s.l2 ∧ t.tiles = s.tiles ∧ t.jobs = s.jobs ∧ t.net = s.net
    ∧ (∀ m, m ≠ s.focus → t.slot m = s.slot m)
    ∧ retired (s.slot s.focus) (t.slot s.focus) (pcOf s + 4)
    ∧ ∀ l, (t.slot s.focus).cell l = cellAfter (s.slot s.focus) reads writes l

/-- The L1 of a core holds no word that the core does not own (R142). -/
def onlyOwned (t : State) (c : Nat) : Prop := ∀ e ∈ (t.core c).l1, ∃ w, e.2 = some w ∧ w.owned = true

/-- The read-modify-write atomics on 8 bytes and the new value from the old one and b (R148). -/
def atomicOps : List ((Reg → Reg → Reg → Order → Bool → Bool → Instr) × (Word → Word → Word)) :=
  [(.amoAdd, fun o b => o + b), (.amoAnd, fun o b => o &&& b), (.amoOr, fun o b => o ||| b), (.amoXor, fun o b => o ^^^ b),
   (.amoMin, fun o b => if o.toInt ≤ b.toInt then o else b), (.amoMax, fun o b => if o.toInt ≥ b.toInt then o else b),
   (.amoMinz, fun o b => if o.toNat ≤ b.toNat then o else b), (.amoMaxz, fun o b => if o.toNat ≥ b.toNat then o else b),
   (.amoSwap, fun _ b => b)]

/-- The release that an ordering asks for is met: earlier loads have landed and no store is unacknowledged (R143, R147). -/
def releases (s : State) (o : Order) : Prop := (o = .rel ∨ o = .ar) → mayRelease s

/-- A memory with a word written over and over, upward from an address (R153). -/
def filled (m : Memory) (first : Nat) (w : Word) : Nat → Memory
  | 0 => m
  | k + 1 => (filled m first w k).setWord (first + 8 * k) w

/-- A memory with words copied one after the other in ascending order (R153). -/
def moved (m : Memory) (src dst : Nat) : Nat → Memory
  | 0 => m
  | k + 1 => (moved m src dst k).setWord (dst + 8 * k) ((moved m src dst k).word (src + 8 * k))

/-- A pass of a block form has done `k` words: its registers land, memory is as given, and the slot goes on at the next
instruction if the form ends (R153). -/
def passed (s t : State) (writes : List (Reg × Word)) (pool : Memory) (ends : Bool) : Prop :=
  t.pool = pool ∧ t.hbm = s.hbm ∧ t.host = s.host ∧ t.l2 = s.l2
    ∧ (∀ m, m ≠ s.focus → t.slot m = s.slot m)
    ∧ (t.slot s.focus).pc = (if ends then pcOf s + 4 else pcOf s) ∧ (t.slot s.focus).fsr = (s.slot s.focus).fsr
    ∧ ∀ l, (t.slot s.focus).cell l = cellAfter (s.slot s.focus) [] writes l

/-- An address's region byte (R38). -/
def region (w : Word) : Nat := w.toNat / 2 ^ 56

/-- An access has left its slot for the mesh: no memory, tile, job or other slot differs. -/
def leavesIssue (s t : State) : Prop :=
  t.hbm = s.hbm ∧ t.host = s.host ∧ t.pool = s.pool ∧ t.l2 = s.l2 ∧ t.tiles = s.tiles ∧ t.jobs = s.jobs
    ∧ ∀ m, m ≠ s.focus → t.slot m = s.slot m

/-- The slot waits until its access has been checked, and nothing else of it differs (R134). -/
def awaitsCheck (s t : State) (va : Nat) (k : AccKind) : Prop :=
  t.slot s.focus = { s.slot s.focus with state := .wait, unchecked := some { va := va, kind := k, retry := false } }

/-- The address checks of an access, in the order of R39, each entering the handler with the effective address in uval. -/
def checksAddress (s : State) (i : Instr) (a : Word) (imm : Int) (size : Nat) : Prop :=
  let e : Int := (a.toNat : Int) + imm
  let w : Word := BitVec.ofInt 64 e
  let faults (cause : Nat) : Prop := ∃ t, exec i s = .next t ∧ entersHandler s t s.focus cause (pcOf s) w
  ((e < 0 ∨ 2 ^ 64 ≤ e ∨ region w ≠ region a) → faults 0x07)
    ∧ (0 ≤ e → e < 2 ^ 64 → region w = region a →
        (region w = 0x00 → w.toNat % 2 ^ 56 + size ≤ 2 ^ 56 → w.toNat % size ≠ 0 → faults 0x06)
        ∧ (region w = 0xF0 → s.scratchSize (s.slot s.focus).job < w.toNat % 2 ^ 56 + size → faults 0x07)
        ∧ (region w = 0xF0 → s.scratchSize (s.slot s.focus).job ≤ 2 ^ 18 →
            w.toNat % 2 ^ 56 + size ≤ s.scratchSize (s.slot s.focus).job → w.toNat % size ≠ 0 → faults 0x06)
        ∧ (region w = 0xF2 → faults 0x0B)
        ∧ (region w = 0xF3 → 0x50000 < w.toNat % 2 ^ 56 + size → faults 0x07)
        ∧ (region w = 0xF3 → w.toNat % 2 ^ 56 + size ≤ 0x50000 → w.toNat % size ≠ 0 → faults 0x06)
        ∧ (region w = 0xF3 → w.toNat % 2 ^ 56 + size ≤ 0x50000 → w.toNat % size = 0 → faults 0x0A)
        ∧ (region w ≠ 0x00 → region w ≠ 0xF0 → region w ≠ 0xF1 → region w ≠ 0xF2 → region w ≠ 0xF3 → faults 0x07))

end Sys2Proof.Claims

/-- R50, R131, R140, R141, R143, R146: a plain load of the core's own scratchpad gives d its bytes, sign-extended or zero-extended,
and `ld.pair` gives d and d + 1 its two words; a plain store writes the low bytes of b, least significant first, `st.rel` and
`st.rel.d` those of b once their release is met, and `st.pair` b and b + 1; every other byte of memory stays as it was. -/
def Obligations.ScratchpadAccesses : Prop :=
  ((∀ op ∈ plainLoads, ∀ (d a : Reg) (imm : BitVec 11) (off : Nat) (s : State), usable s [a] [d] = true →
      ownScratch s (val s a) imm.toInt op.2.1 off → served s off op.2.1 true →
      ∃ t, exec (op.1 d a imm) s = .next t
        ∧ gives s t [(a, false)] [(d, loaded op.2.2 (s.pool.bytes (own s off) op.2.1))] (pcOf s + 4))
    ∧ (∀ (d a : Reg) (la : Bool) (off : Nat) (s : State), (Instr.ldPair d a la).wellFormed = true →
      usable s [a] [d, d + 1] = true → ownScratch s (val s a) 0 16 off → served s off 16 true →
      ∃ t, exec (.ldPair d a la) s = .next t
        ∧ gives s t [(a, la)] [(d, s.pool.word (own s off)), (d + 1, s.pool.word (own s off + 8))] (pcOf s + 4)))
  ∧ ((∀ op ∈ plainStores, ∀ (a b : Reg) (imm : BitVec 11) (off : Nat) (s : State), usable s [a, b] [] = true →
      ownScratch s (val s a) imm.toInt op.2 off → served s off op.2 false →
      ∃ t, exec (op.1 a b imm) s = .next t
        ∧ storesBytes s t (own s off) (bytesOfNat op.2 (val s b).toNat) [(a, false), (b, false)] [])
    ∧ (∀ (a b : Reg) (la lb : Bool) (off : Nat) (s : State), usable s [a, b] [] = true →
      ownScratch s (val s a) 0 8 off → served s off 8 false → s.loadsLanded s.focus = true →
      (mayRelease s → ∃ t, exec (.stRel a b la lb) s = .next t
        ∧ storesBytes s t (own s off) (bytesOfNat 8 (val s b).toNat) [(a, la), (b, lb)] [])
      ∧ ((s.slot s.focus).odc = 0 → ∃ t, exec (.stRelD a b la lb) s = .next t
        ∧ storesBytes s t (own s off) (bytesOfNat 8 (val s b).toNat) [(a, la), (b, lb)] []))
    ∧ (∀ (a b : Reg) (la lb : Bool) (off : Nat) (s : State), (Instr.stPair a b la lb).wellFormed = true →
      usable s [a, b, b + 1] [] = true → ownScratch s (val s a) 0 16 off → served s off 16 false →
      ∃ t, exec (.stPair a b la lb) s = .next t
        ∧ storesBytes s t (own s off) (bytesOfNat 8 (val s b).toNat ++ bytesOfNat 8 (val s (b + 1)).toNat)
            [(a, la), (b, lb), (b + 1, lb)] []))

/-- R142, R144: `ld.acq` and `ld.acq.d` of the core's own scratchpad give d the word and invalidate every word of the L1 that
the core does not own; the fences retire once their condition holds, and all but `fence.rel` do the same to the L1. Until it
holds a fence waits. That a release at package reach also waits for what its die's proxies have acknowledged is the model's reading
of R311 (log 62). -/
def Obligations.AcquiresAndFences : Prop :=
  (∀ (d a : Reg) (la : Bool) (off : Nat) (s : State), usable s [a] [d] = true → ownScratch s (val s a) 0 8 off →
    served s off 8 true → ∀ i ∈ [Instr.ldAcq d a la, .ldAcqD d a la],
    ∃ t, exec i s = .next t ∧ onlyOwned t (coreOfSlot s.focus)
      ∧ keepsMemory s t [(a, la)] [(d, s.pool.word (own s off))])
  ∧ (∀ s : State, s.loadsLanded s.focus = true →
    (∃ t, exec .fenceAcq s = .next t ∧ onlyOwned t (coreOfSlot s.focus) ∧ keepsMemory s t [] [])
    ∧ (mayRelease s →
      (∃ t, exec .fenceRel s = .next t ∧ t.cores = s.cores ∧ keepsMemory s t [] [])
      ∧ ∃ t, exec .fenceFull s = .next t ∧ onlyOwned t (coreOfSlot s.focus) ∧ keepsMemory s t [] [])
    ∧ ((s.slot s.focus).odc = 0 → ∃ t, exec .fenceD s = .next t ∧ onlyOwned t (coreOfSlot s.focus) ∧ keepsMemory s t [] []))
  ∧ (∀ s : State, ¬ mayRelease s → ∀ i ∈ [Instr.fenceRel, .fenceFull],
    ∃ t, exec i s = .next t ∧ onlySlot s t s.focus ∧ t.slot s.focus = { s.slot s.focus with state := .wait })

/-- R147-R150: an atomic on the core's own scratchpad returns the old value in d and leaves the new one in memory as one step;
`cas` and `cas2` store only if the old value is the expected one; `amo.fadd` adds b[31:0] as FP32, rounded by frm, and ORs its
flags into fsr. Every other byte of memory stays as it was. -/
def Obligations.ScratchpadAtomics : Prop :=
  (∀ (d a b : Reg) (o : Order) (la lb : Bool) (off : Nat) (s : State), releases s o →
      (∀ op ∈ atomicOps, usable s [a, b] [d] = true → ownScratch s (val s a) 0 8 off → served s off 8 true →
        ∃ t, exec (op.1 d a b o la lb) s = .next t
          ∧ storesBytes s t (own s off) (bytesOfNat 8 (op.2 (s.pool.word (own s off)) (val s b)).toNat) [(a, la), (b, lb)]
              [(d, s.pool.word (own s off))]
          ∧ (t.slot s.focus).fsr = (s.slot s.focus).fsr)
      ∧ (usable s [a, b, d] [d] = true → ownScratch s (val s a) 0 8 off → served s off 8 true →
        (let old := s.pool.word (own s off)
         ∃ t, exec (.cas d a b o la lb) s = .next t
          ∧ storesBytes s t (own s off) (bytesOfNat 8 (if old = val s d then val s b else old).toNat) [(a, la), (b, lb)]
              [(d, old)]
          ∧ (t.slot s.focus).fsr = (s.slot s.focus).fsr))
      ∧ ((Instr.cas2 d a b o la lb).wellFormed = true → usable s [a, b, b + 1, d, d + 1] [d, d + 1] = true →
        ownScratch s (val s a) 0 16 off → served s off 16 true →
        (let lo := s.pool.word (own s off)
         let hi := s.pool.word (own s off + 8)
         let hit : Bool := decide (lo = val s d) && decide (hi = val s (d + 1))
         ∃ t, exec (.cas2 d a b o la lb) s = .next t
          ∧ storesBytes s t (own s off)
              (bytesOfNat 8 (if hit then val s b else lo).toNat ++ bytesOfNat 8 (if hit then val s (b + 1) else hi).toNat)
              [(a, la), (b, lb), (b + 1, lb)] [(d, lo), (d + 1, hi)]
          ∧ (t.slot s.focus).fsr = (s.slot s.focus).fsr)))
  ∧ (∀ (d a b : Reg) (o : Order) (la lb : Bool) (off : Nat) (s : State), releases s o → usable s [a, b] [d] = true →
      ownScratch s (val s a) 0 4 off → served s off 4 true →
      (let old := natOfBytes (s.pool.bytes (own s off) 4)
       let r := fp32.add (s.slot s.focus).frm (fp32.value old) (fp32.value ((val s b).toNat % 2 ^ 32))
       ∃ t, exec (.amoFadd d a b o la lb) s = .next t
        ∧ storesBytes s t (own s off) (bytesOfNat 4 r.bits) [(a, la), (b, lb)] [(d, BitVec.ofNat 64 old)]
        ∧ (t.slot s.focus).fsr = (s.slot s.focus).fsr ||| r.flags))

/-- R152, R153: a block form whose count is 0 retires with nothing changed. Otherwise one pass over words of the core's own
scratchpad does between one and eight of them in ascending order, advances its pointers by 8 a word and its count down to
what is left, and the form retires at 0; `rep.cmp` ends at the first unequal pair. Readings and choices of the model it
rests on: log 7. -/
def Obligations.BlockPasses : Prop :=
  ∀ (d a b : Reg) (s : State),
    (usable s [b, d] [d, b] = true → (Instr.repZero d b).wellFormed = true →
      (val s b = 0 → ∃ t, exec (.repZero d b) s = .next t ∧ passed s t [] s.pool true)
      ∧ (val s b ≠ 0 → ∀ dst, ownScratch s (val s d) 0 8 dst → served s dst 8 false →
        ∃ t k, exec (.repZero d b) s = .next t ∧ 1 ≤ k ∧ k ≤ 8 ∧ k ≤ (val s b).toNat
          ∧ passed s t [(d, val s d + BitVec.ofNat 64 (8 * k)), (b, val s b - BitVec.ofNat 64 k)]
              (filled s.pool (own s dst) 0 k) (k == (val s b).toNat)))
    ∧ (usable s [a, b, d] [d, b] = true → (Instr.repFill d a b).wellFormed = true →
      (val s b = 0 → ∃ t, exec (.repFill d a b) s = .next t ∧ passed s t [] s.pool true)
      ∧ (val s b ≠ 0 → ∀ dst, ownScratch s (val s d) 0 8 dst → served s dst 8 false →
        ∃ t k, exec (.repFill d a b) s = .next t ∧ 1 ≤ k ∧ k ≤ 8 ∧ k ≤ (val s b).toNat
          ∧ passed s t [(d, val s d + BitVec.ofNat 64 (8 * k)), (b, val s b - BitVec.ofNat 64 k)]
              (filled s.pool (own s dst) (val s a) k) (k == (val s b).toNat)))
    ∧ (usable s [a, b, d] [d, a, b] = true → (Instr.mvblk d a b).wellFormed = true →
      (val s b = 0 → ∀ i ∈ [Instr.mvblk d a b, .repCmp d a b], ∃ t, exec i s = .next t ∧ passed s t [] s.pool true)
      ∧ (val s b ≠ 0 → ∀ dst src, ownScratch s (val s d) 0 8 dst → ownScratch s (val s a) 0 8 src → served s src 8 true →
        (served s dst 8 false → ∃ t k, exec (.mvblk d a b) s = .next t ∧ 1 ≤ k ∧ k ≤ 8 ∧ k ≤ (val s b).toNat
          ∧ passed s t [(d, val s d + BitVec.ofNat 64 (8 * k)), (a, val s a + BitVec.ofNat 64 (8 * k)),
                (b, val s b - BitVec.ofNat 64 k)] (moved s.pool (own s src) (own s dst) k) (k == (val s b).toNat))
        ∧ (served s dst 8 true → ∃ t k, exec (.repCmp d a b) s = .next t ∧ k ≤ 8 ∧ k ≤ (val s b).toNat
          ∧ (∀ j, j < k → s.pool.word (own s dst + 8 * j) = s.pool.word (own s src + 8 * j))
          ∧ ∃ ends, passed s t [(d, val s d + BitVec.ofNat 64 (8 * k)), (a, val s a + BitVec.ofNat 64 (8 * k)),
                (b, val s b - BitVec.ofNat 64 k)] s.pool ends
            ∧ (ends = true → k = (val s b).toNat
                ∨ s.pool.word (own s dst + 8 * k) ≠ s.pool.word (own s src + 8 * k))
            ∧ (ends = false → 1 ≤ k ∧ k < (val s b).toNat))))

/-- R38, R39, R131, R133, R134, R136, R140, R141, R297: the checks of a plain load's or store's address, in order: outside
the base's region 0x07, past the scratchpad, past the accumulator of region 0xF3 or another region 0x07, misaligned 0x06,
references 0x0B, region 0xF3 0x0A, uval the address. A plain access to global memory whose domain has not the right enters the
handler for 0x08. With it, a load of bytes that the L1 holds, no access of them being on its way, gives them at once; any other load
goes to its home, and so does a store. Where the L1 holds the bytes the access is checked at once and retires, a store then counted
as unacknowledged; elsewhere the slot goes no further until the access has been checked. Readings and choices of the model it rests
on: log 15, log 63. -/
def Obligations.AddressesAndRights : Prop :=
  (∀ (x y : Reg) (imm : BitVec 11) (s : State), plainUser s s.focus = true →
      (∀ op ∈ plainLoads, usable s [y] [x] = true → checksAddress s (op.1 x y imm) (val s y) imm.toInt op.2.1)
      ∧ (∀ op ∈ plainStores, usable s [x, y] [] = true → checksAddress s (op.1 x y imm) (val s x) imm.toInt op.2))
  ∧ (∀ (x y : Reg) (imm : BitVec 11) (va : Nat) (s : State), isUserSlot s.focus = true →
      (let c := coreOfSlot s.focus
       let j := (s.slot s.focus).job
       (∀ op ∈ plainLoads, usable s [y] [x] = true → s.targetOf s.focus (val s y) imm.toInt op.2.1 op.2.1 = .global va →
        (plainUser s s.focus = true → s.permits c j .read va = false →
          ∃ t, exec (op.1 x y imm) s = .next t
            ∧ entersHandler s t s.focus 0x08 (pcOf s) (BitVec.ofInt 64 ((val s y).toNat + imm.toInt)))
        ∧ (s.permits c j .read va = true →
          (∀ bs, s.l1Read c (va / 8) (va % 8) op.2.1 = some bs →
            (∀ p, Packet.store p ∈ s.net → p.slot / 64 = s.focus / 64 → wordsMeet va op.2.1 p.va p.bytes.length = false) →
            (∀ p o, Packet.forwarded p o ∈ s.net → p.slot ≠ s.focus) →
            ∃ t, exec (op.1 x y imm) s = .next t ∧ keepsMemory s t [(y, false)] [(x, loaded op.2.2 bs)])
          ∧ (s.l1Hit s.focus va op.2.1 = none →
            ∃ t p, exec (op.1 x y imm) s = .next t ∧ t.net = s.net ++ [.load p] ∧ p.slot = s.focus ∧ p.va = va
              ∧ p.size = op.2.1 ∧ p.signed = op.2.2 ∧ leavesIssue s t
              ∧ (s.hitCheck c j va op.2.1 = none → awaitsCheck s t va .read)
              ∧ (s.hitCheck c j va op.2.1 ≠ none → p.retire = none ∧ retired (s.slot s.focus) (t.slot s.focus) (pcOf s + 4)
                ∧ ∀ l, (t.slot s.focus).cell l = cellOwing (s.slot s.focus) [] [x] l))))
      ∧ (∀ op ∈ plainStores, usable s [x, y] [] = true → s.targetOf s.focus (val s x) imm.toInt op.2 op.2 = .global va →
        (plainUser s s.focus = true → s.permits c j .write va = false →
          ∃ t, exec (op.1 x y imm) s = .next t
            ∧ entersHandler s t s.focus 0x08 (pcOf s) (BitVec.ofInt 64 ((val s x).toNat + imm.toInt)))
        ∧ (s.permits c j .write va = true → (s.slot s.focus).opc < 32 →
          ∃ t p, exec (op.1 x y imm) s = .next t ∧ t.net = s.net ++ [.store p] ∧ p.slot = s.focus ∧ p.va = va
            ∧ p.bytes = bytesOfNat op.2 (val s y).toNat ∧ p.proxied = none ∧ leavesIssue s t
            ∧ (s.l1Holds c va op.2 = false → awaitsCheck s t va .write)
            ∧ (s.l1Holds c va op.2 = true → p.retire = none
              ∧ retired { s.slot s.focus with opc := (s.slot s.focus).opc + 1, odc := (s.slot s.focus).odc + 1 }
                  (t.slot s.focus) (pcOf s + 4)
              ∧ ∀ l, (t.slot s.focus).cell l = (s.slot s.focus).cell l)))))

/-! ## Accesses in flight and the walker (R134-R151, R279-R299) -/

namespace Sys2Proof.Claims

/-- What the slot of an access holds once the check has passed: an unchecked access retires (R134). -/
def afterCheck (s : State) (n : Nat) (r : Option Retire) : Slot :=
  match r with
  | some q => (s.slot n).retire q
  | none => s.slot n

/-- No memory, sector or other slot differs, and the slot is as the check leaves it. -/
def checkedOnly (s t : State) (n : Nat) (r : Option Retire) : Prop :=
  t.hbm = s.hbm ∧ t.host = s.host ∧ t.pool = s.pool ∧ t.l2 = s.l2
    ∧ ∀ m, t.slot m = if m = n then afterCheck s n r else s.slot m

/-- The home holds the sector of an address and answers for it (R134, R282). -/
def heldAt (s : State) (h : Place) (va : Nat) (k : AccKind) (op : Option Nat) (x : Sector) : Prop :=
  s.homeCheck h va k op = .held ∧ s.sectorAt h va = some x ∧ (x.host = false ∨ Config.cxlCache = true)

/-- The bytes of an access within a sector. -/
def bytesIn (x : Sector) (va n : Nat) : List Byte := (x.bytes.drop (va - sectorStart va)).take n

/-- The bytes of a sector with some of them replaced. -/
def patched (x : Sector) (va : Nat) (bs : List Byte) : List Byte :=
  x.bytes.take (va - sectorStart va) ++ bs ++ x.bytes.drop (va - sectorStart va + bs.length)

/-- The words of a store and their owners before it, a core that takes the words aside (R283). -/
def formerOwners (x : Sector) (va n : Nat) (mine : Owner) : List (Owner × Nat) :=
  (wordsOf va n).filterMap fun w => match storeGet noOwner x.owners (w - sectorStart va / 8) with
    | some o => if o = mine then none else some (o, w)
    | none => none

/-- The answer to a load on its way back, with its values (R135). -/
def answer (p : LoadPacket) (vals : List Word) : Packet :=
  .reply { slot := p.slot, va := p.va, dst := p.dst, vals := vals, acquire := p.acquire }

/-- Nothing of a slot differs but its registers at some places, which have taken their values, and its flags. -/
def landed (x y : Slot) (ls : List RegLoc) (vs : List Word) (flags : FlagSet) : Prop :=
  y = { x with regs := y.regs, shadow := y.shadow, href := y.href, fsr := x.fsr ||| flags }
    ∧ ∀ l, y.cell l = match (ls.zip vs).reverse.find? fun e => e.1 == l with
      | some e => { val := e.2, pres := .full, owed := false }
      | none => x.cell l

end Sys2Proof.Claims

/-- R112, R135, R140, R142, R147, R150: a load's or an atomic's reply lands on the registers it is owed, their leaves FULL, with an
atomic's flags, and an acquiring one invalidates the L1 of its core; with a leaf that is not FULL, or while the slot's lockstep pair
takes no input (R390), the reply waits. No memory changes. -/
def Obligations.RepliesLand : Prop :=
  (∀ (s : State) (n : Nat) (p : ReplyPacket), s.net[n]? = some (.reply p) →
    (s.canLand p.slot p.dst = false ∨ s.pairHolds p.slot = true → exec (.loadReply n) s = .next s)
    ∧ ((s.slot p.slot).landable p.dst = true → s.pairHolds p.slot = false → (s.slot p.slot).unchecked = none →
    ∃ t, exec (.loadReply n) s = .next t ∧ t.net = s.net.eraseIdx n ∧ landed (s.slot p.slot) (t.slot p.slot) p.dst p.vals 0
      ∧ t.pool = s.pool ∧ t.hbm = s.hbm ∧ t.l2 = s.l2 ∧ (∀ m, m ≠ p.slot → t.slot m = s.slot m)
      ∧ (p.acquire = true → onlyOwned t (coreOfSlot p.slot))))
  ∧ (∀ (s : State) (n slot : Nat) (dst : List RegLoc) (vals : List Word) (flags : BitVec 6) (acquire : Bool),
      s.net[n]? = some (.atomicReply slot dst vals flags acquire) →
    (s.canLand slot dst = false ∨ s.pairHolds slot = true → exec (.atomicReply n) s = .next s)
    ∧ ((s.slot slot).landable dst = true → s.pairHolds slot = false →
    ∃ t, exec (.atomicReply n) s = .next t ∧ t.net = s.net.eraseIdx n ∧ landed (s.slot slot) (t.slot slot) dst vals flags
      ∧ t.pool = s.pool ∧ t.hbm = s.hbm ∧ t.l2 = s.l2 ∧ (∀ m, m ≠ slot → t.slot m = s.slot m)
      ∧ (acquire = true → onlyOwned t (coreOfSlot slot))))

/-- R136, R279, R283, R285: a store that reaches the home of its line merges its bytes, and only those, into the sector, which
is Dirty from then on; its core owns the words, also in its L1 where that holds one, every other core that owned one of them
is sent a revoke, in this package and in others, and the store is acknowledged. A store to a home on another die is
acknowledged by its die's proxy, which updates its copy and sends the store on; of whole words the copy takes the bytes, and
with a part of a word it goes. An acknowledgement lowers opc, odc or both; a revoke ends the ownership of a word and leaves
its copy. Readings and choices of the model it rests on: log 8, log 9. -/
def Obligations.StoresRegister : Prop :=
  (∀ (s : State) (n : Nat) (peer : PeerAnswer) (p : StorePacket) (x : Sector), s.net[n]? = some (.store p) →
      s.arrivesNext n = true → s.ownReadAhead n p.slot p.va p.bytes.length = false → s.isOurs p.va = true →
      (p.proxied.isSome = true ∨ s.proxyFor (s.slot p.slot).job (tileOfSlot p.slot) p.va = none) →
      s.proxiedBefore (s.slot p.slot).job p = false → s.armed p.va = false →
      heldAt s (s.homeOf (s.slot p.slot).job p.va) p.va .write none x →
      (let h := s.homeOf (s.slot p.slot).job p.va
       let c := coreOfSlot p.slot
       let former := formerOwners x p.va p.bytes.length { package := s.pkgid, core := c }
       ∃ t y, exec (.storeRegistration n peer) s = .next t
        ∧ t.sectorAt h p.va = some y ∧ y = { x with bytes := patched x p.va p.bytes, dirty := true, owners := y.owners }
        ∧ (∀ w ∈ wordsOf p.va p.bytes.length,
            storeGet noOwner y.owners (w - sectorStart p.va / 8) = some { package := s.pkgid, core := c })
        ∧ (∀ key, key ≠ h.sectorKey p.va → storeGet noSector t.l2 key = storeGet noSector s.l2 key)
        ∧ t.net = s.net.eraseIdx n ++ ((former.filter fun e => e.1.package == s.pkgid).map fun e => .revoke e.1.core e.2)
            ++ [.ack p.slot true p.proxied.isNone (wordsOf p.va p.bytes.length) p.array]
        ∧ t.peerRevokes = ((former.filter fun e => e.1.package != s.pkgid).map fun e =>
            { owner := e.1, word := e.2, recalled := false }) ++ s.peerRevokes
        ∧ (x.bytes.length = sectorLen p.va → p.bytes ≠ [] → p.va % 8 + p.bytes.length ≤ 8 → s.wordShared c (p.va / 8) = false →
            (storeGet noL1 (s.core c).l1 (p.va / 8)).isSome = true →
            ∃ e, storeGet noL1 (t.core c).l1 (p.va / 8) = some e ∧ e.owned = true)
        ∧ t.hbm = s.hbm ∧ t.host = s.host ∧ t.pool = s.pool
        ∧ ∀ m, t.slot m = if m = p.slot then afterCheck s p.slot p.retire else s.slot m))
  ∧ (∀ (s : State) (n : Nat) (p : StorePacket) (q : Place), s.net[n]? = some (.store p) → p.proxied = none →
      s.arrivesNext n = true → s.isOurs p.va = true →
      s.proxyFor (s.slot p.slot).job (tileOfSlot p.slot) p.va = some q →
      (p.retire = none ∨ s.homeCheck (s.homeOf (s.slot p.slot).job p.va) p.va .write none = .held) →
      ∃ t f, exec (.proxyRegistration n) s = .next t ∧ checkedOnly s t p.slot p.retire
        ∧ t.net = s.net.set n (.store { p with proxied := some s.moves, frame := f, retire := none })
            ++ [.ack p.slot false true [] false]
        ∧ (∀ bs, storeGet noProxy s.proxyCopies (q.sectorKey p.va) = some bs →
            storeGet noProxy t.proxyCopies (q.sectorKey p.va) =
              if p.va % 8 = 0 ∧ p.bytes.length % 8 = 0 then some (spliceBytes bs (p.va - sectorStart p.va) p.bytes) else none)
        ∧ (storeGet noProxy s.proxyCopies (q.sectorKey p.va) = none → t.proxyCopies = s.proxyCopies))
  ∧ ((∀ (s : State) (n slot : Nat) (package die : Bool) (words : List Nat), s.net[n]? = some (.ack slot package die words false) →
      (∀ c w, Packet.revoke c w ∈ s.net.take n → w ∉ words) →
      (die = true ∨ ∀ d ws a, Packet.ack slot false d ws a ∉ s.net.take n) →
      ∃ t, exec (.storeAck n) s = .next t ∧ t.net = s.net.eraseIdx n ∧ t.pool = s.pool ∧ t.hbm = s.hbm ∧ t.l2 = s.l2
        ∧ t.cores = s.cores
        ∧ t.slot slot = { s.slot slot with
            opc := if package then (s.slot slot).opc - 1 else (s.slot slot).opc,
            odc := if die then (s.slot slot).odc - 1 else (s.slot slot).odc })
    ∧ (∀ (s : State) (n core word : Nat), s.net[n]? = some (.revoke core word) →
      ∃ t, exec (.revoke n) s = .next t ∧ t.net = s.net.eraseIdx n ∧ t.pool = s.pool ∧ t.hbm = s.hbm ∧ t.l2 = s.l2
        ∧ t.slots = s.slots
        ∧ storeGet noL1 (t.core core).l1 word = (storeGet noL1 (s.core core).l1 word).map fun w => { w with owned := false }))

/-- R134, R140, R142, R283: a load that reaches its home finds the sector there. A word that no other core owns is answered
with its bytes; a word that another core owns is forwarded to the owner, whose L1 answers with the owned bytes. Its slot
goes on, and no memory changes. A load of another package's address takes what that package answers, the words of its sector. A load
whose check
fails leaves the mesh, and its slot enters the handler for the cause the check gives, with the address in uval and its own
pc in uepc. Readings and choices of the model it rests on: log 15. -/
def Obligations.LoadsAtTheirHome : Prop :=
  (∀ (s : State) (n : Nat) (peer : PeerAnswer) (p : LoadPacket), s.net[n]? = some (.load p) → s.arrivesNext n = true →
      s.ownStoreAhead n p.slot p.va p.size = false → s.ownReadAhead n p.slot p.va p.size = false →
      (∀ x, s.isOurs p.va = true → s.proxiedAhead (dieOfTile (tileOfSlot p.slot)) p.va (some p.left) = false → p.reach ≠ .die →
        heldAt s (s.homeOf (s.slot p.slot).job p.va) p.va .read none x →
        (s.ownerAt (s.homeOf (s.slot p.slot).job p.va) p.va (coreOfSlot p.slot) = none →
          ∃ t, exec (.loadRequest n peer) s = .next t ∧ checkedOnly s t p.slot p.retire
            ∧ t.net = s.net.eraseIdx n ++ [answer p (loadWords p.signed (bytesIn x p.va p.size))])
        ∧ (∀ c, s.ownerAt (s.homeOf (s.slot p.slot).job p.va) p.va (coreOfSlot p.slot) = some c →
          ∃ t f, exec (.loadRequest n peer) s = .next t ∧ checkedOnly s t p.slot p.retire
            ∧ t.net = s.net.eraseIdx n ++ [.forwarded { p with frame := f, retire := none } c]))
      ∧ (∀ ws, s.isOurs p.va = false → peer = .words ws → p.misuse = none →
          ∃ t, exec (.loadRequest n peer) s = .next t ∧ checkedOnly s t p.slot p.retire
            ∧ t.net = s.net.eraseIdx n ++ [answer p (loadWords p.signed
                ((((bytesOfWords ws).take (sectorLen p.va)).drop (p.va - sectorStart p.va)).take p.size))]))
  ∧ (∀ (s : State) (n : Nat) (p : LoadPacket) (cause : BitVec 8) (j : Job), s.net[n]? = some (.load p) → s.arrivesNext n = true →
      s.ownStoreAhead n p.slot p.va p.size = false → s.ownReadAhead n p.slot p.va p.size = false → s.isOurs p.va = true →
      s.proxiedAhead (dieOfTile (tileOfSlot p.slot)) p.va (some p.left) = false → p.reach ≠ .die
          → s.homeCheck (s.homeOf (s.slot p.slot).job p.va) p.va .read none = .fails cause →
      p.retire ≠ none → plainUser s p.slot = true → s.job (s.slot p.slot).job = some j → j.halted = false →
      ∃ t, exec (.loadRequest n .none) s = .next t
        ∧ entersHandler { s with net := t.net } t p.slot cause.toNat (s.slot p.slot).pc (BitVec.ofNat 64 p.va)
        ∧ ∀ q ∈ t.net, q ∈ s.net)
  ∧ (∀ (s : State) (n owner : Nat) (p : LoadPacket) (bs : List Byte), s.net[n]? = some (.forwarded p owner) →
      (∀ q, Packet.store q ∈ s.net → q.slot / 64 ≠ owner) → s.l1Owns owner (p.va / 8) p.size = true →
      s.l1Read owner (p.va / 8) (p.va % 8) p.size = some bs →
      ∃ t, exec (.forwardedRead n) s = .next t ∧ checkedOnly s t p.slot p.retire
        ∧ t.net = s.net.eraseIdx n ++ [answer p (loadWords p.signed bs)])

/-- R134, R136, R140, R147-R150: a near load gives its registers the bytes of the target core's scratchpad, and a near store writes
its bytes there, and only those, and is acknowledged. An atomic is performed in one step at the place it is sent to: the bytes
there become its new value and only those, and the old value goes back to its slot with the flags. -/
def Obligations.NearAccessesAndAtomics : Prop :=
  (∀ (s : State) (n : Nat) (p : NearPacket), s.net[n]? = some (.near p) → s.arrivesNext n = true →
      s.lostTile (s.slot p.slot).job p.core = false →
      (∀ signed acquire, p.kind = .load signed acquire → (s.slot p.slot).landable p.dst = true →
        s.leafCheckAt p.core p.offset p.size true p.accepted none = .ready →
        ∃ t, exec (.nearAccess n) s = .next t ∧ t.net = s.net.eraseIdx n ∧ t.pool = s.pool ∧ t.hbm = s.hbm ∧ t.l2 = s.l2
          ∧ (∀ m, m ≠ p.slot → t.slot m = s.slot m)
          ∧ landed (afterCheck s p.slot p.retire) (t.slot p.slot) p.dst
              (loadWords signed (s.pool.bytes (poolAt p.core p.offset) p.size)) 0)
      ∧ (∀ bs, p.kind = .store bs →
        s.leafCheckAt p.core p.offset p.size false p.accepted none = .ready →
        ∃ t, exec (.nearAccess n) s = .next t ∧ .ack p.slot true true [] false ∈ t.net
          ∧ (∀ k, k < bs.length → t.pool.byte (poolAt p.core p.offset + k) = bs.getD k 0)
          ∧ (∀ a, a < poolAt p.core p.offset ∨ poolAt p.core p.offset + bs.length ≤ a → t.pool.byte a = s.pool.byte a)
          ∧ t.hbm = s.hbm ∧ t.l2 = s.l2
          ∧ ∀ m, t.slot m = if m = p.slot then afterCheck s p.slot p.retire else s.slot m))
  ∧ (∀ (s : State) (n : Nat) (peer : PeerAnswer) (p : AtomicPacket), s.net[n]? = some (.atomic p) → s.arrivesNext n = true →
      p.departed = false →
      (let j := ((s.tile (tileOfSlot p.slot)).owner).getD 0
       let size := atomicSize p.op
       (∀ c, p.core = some c → s.lostTile j c = false → s.leafCheckAt c p.addr size true p.accepted none = .ready →
        (let o := atomicOutcome p.op p.frm (s.pool.bytes (poolAt c p.addr) size) p.operands
         ∃ t, exec (.atomicPerform n peer) s = .next t ∧ .atomicReply p.slot p.dst o.vals o.flags p.acquire ∈ t.net
          ∧ (∀ k, k < o.bytes.length → t.pool.byte (poolAt c p.addr + k) = o.bytes.getD k 0)
          ∧ (∀ a, a < poolAt c p.addr ∨ poolAt c p.addr + o.bytes.length ≤ a → t.pool.byte a = s.pool.byte a)
          ∧ t.hbm = s.hbm ∧ t.l2 = s.l2
          ∧ ∀ m, t.slot m = if m = p.slot then afterCheck s p.slot p.retire else s.slot m))
       ∧ (∀ x, p.core = none → s.ownStoreAhead n p.slot p.addr size = false → s.ownReadAhead n p.slot p.addr size = false →
        s.isOurs p.addr = true → s.proxiedAhead (dieOfTile (tileOfSlot p.slot)) p.addr none = false → s.armed p.addr = false →
        heldAt s (s.homeOf j p.addr) p.addr .atomic (atomicOpOf p.op) x →
        (let o := atomicOutcome p.op p.frm (bytesIn x p.addr size) p.operands
         ∃ t y, exec (.atomicPerform n peer) s = .next t ∧ t.sectorAt (s.homeOf j p.addr) p.addr = some y
          ∧ y = { x with bytes := patched x p.addr o.bytes, dirty := true, owners := y.owners }
          ∧ (∀ w ∈ wordsOf p.addr size, storeGet noOwner y.owners (w - sectorStart p.addr / 8) = none)
          ∧ (∀ key, key ≠ (s.homeOf j p.addr).sectorKey p.addr → storeGet noSector t.l2 key = storeGet noSector s.l2 key)
          ∧ .atomicReply p.slot p.dst o.vals o.flags p.acquire ∈ t.net
          ∧ t.hbm = s.hbm ∧ t.pool = s.pool
          ∧ ∀ m, t.slot m = if m = p.slot then afterCheck s p.slot p.retire else s.slot m))))

/-- R292, R294, R295: the walker of a mailbox walks the tables for its oldest page. A request that the leaf's rights allow
sets A, and D for a write, in the entry, in the backing store or in the sector that caches it, and the slice holds the
translation; the requests of that page leave the mailbox, and its slot may issue again. Readings and choices of the model it
rests on: log 18. -/
def Obligations.WalkersTranslate : Prop :=
  ∀ (s : State) (core : Nat) (r : WalkRequest) (at_ : Nat) (l : Translation) (n : Nat),
    storeGet noWalks (s.tile (core / 4)).mailboxes (core % 4) = [r] → (s.tile (core / 4)).walkWaiting = [] →
    s.walk r.slice r.va = .leaf at_ l → r.who = .slot n → l.allows r.kind = true → s.armedAt at_ = [] →
    (let entry := s.physWord at_ ||| (if r.kind.writes then 0x30 else 0x10)
     ∃ t, exec (.walkerTranslation core) s = .next t
      ∧ (s.cachedAt false at_ = none → at_ % 8 = 0 → t.physWord at_ = entry)
      ∧ (∀ k x, s.cachedAt false at_ = some (k, x) → storeGet noSector s.l2 k = some x → at_ + 8 ≤ x.pa + x.bytes.length →
          ∃ y, storeGet noSector t.l2 k = some y ∧ y.dirty = true
            ∧ (y.bytes.drop (at_ - x.pa)).take 8 = bytesOfNat 8 entry.toNat)
      ∧ { l with dirty := l.dirty || r.kind.writes } ∈ (t.tile (core / 4)).translations
      ∧ storeGet noWalks (t.tile (core / 4)).mailboxes (core % 4) = []
      ∧ (∀ u, (s.slot n).unchecked = some u → u.retry = true → u.va / 65536 = r.va / 65536 →
          t.slot n = { s.slot n with unchecked := none }))

/-! ## Barriers, messages and tasks (R167-R180, R245-R261, R326-R331) -/

namespace Sys2Proof.Claims

/-- An operation on an object of the core's own scratchpad (R168, R251). -/
def ownObject (s : State) (a : Word) (size off : Nat) : Prop :=
  s.objectTarget s.focus a size size = .scratch (coreOfSlot s.focus) off

/-- Word 0 of a barrier object after a count (R167, R169). -/
def counted (w0 w1 : Word) (arrival : Bool) (n : BitVec 32) : Word :=
  let left : BitVec 16 := w0.extractLsb' 32 16
  let overrun : Bool := w0.getLsbD 62 || (arrival && left == 0)
  let arrivals : BitVec 16 := if arrival && left != 0 then left - 1 else left
  let bytes : BitVec 32 := w0.extractLsb' 0 32 + n
  let phase : BitVec 14 := w0.extractLsb' 48 14
  if !overrun && arrivals == 0 && bytes == 0 then
    1#1 ++ 0#1 ++ (phase + 1) ++ (w1.extractLsb' 32 16 : BitVec 16) ++ 0#1 ++ (w1.extractLsb' 0 31 : BitVec 31)
  else 0#1 ++ (if overrun || (arrivals == 0 && bytes.msb) then 1#1 else 0#1) ++ phase ++ arrivals ++ bytes

/-- PHASE of word 0 (R167). -/
def phase (w0 : Word) : BitVec 14 := w0.extractLsb' 48 14

/-- The reply to a waiting instruction: it retires with the value in its destination, and its acquire is pending (R172). -/
def waitEnds (x y : Slot) (w : WaitRequest) (v : Word) : Prop :=
  landed { x.retire (x.next w.dead [] 0) with acqHold := true } y w.dst [v] 0

/-- A deque operation on the ends and capacity of a well-formed header: the frame it moves and the new ends, or nothing
(R253, R254). -/
def dequeMove (k : DequeKind) (top bottom : BitVec 32) (cap : Nat) : Option (BitVec 32 × BitVec 32 × BitVec 32) :=
  let n := (bottom - top).toInt
  match k with
  | .spawn => if n < 2 ^ cap then some (bottom, top, bottom + 1) else none
  | .take =>
    if n ≤ 0 then none
    else if n = 1 then some (bottom - 1, top + 1, bottom) else some (bottom - 1, top, bottom - 1)
  | .steal => if n ≤ 0 then none else some (top, top + 1, bottom)

/-- The well-formed header of a deque in a scratchpad of a size: TOP, BOTTOM, the capacity and the base of the frames (R253). -/
def dequeEnds (m : Memory) (at_ size : Nat) : Option (BitVec 32 × BitVec 32 × Nat × Nat) :=
  let w0 := m.word at_
  let w1 := m.word (at_ + 8)
  let cap := (w1.extractLsb' 28 4).toNat
  let base := (w1.extractLsb' 0 18).toNat
  if w0.extractLsb' 32 32 = 0#32 ∧ w1.extractLsb' 18 10 = 0#10 ∧ cap ≤ 11 ∧ base % 64 = 0 ∧ base + 64 * 2 ^ cap ≤ size then
    some (w0.extractLsb' 0 32, w1.extractLsb' 32 32, cap, base)
  else none

/-- What a deque operation at a core's header, with its issuer's frame block at a place of its own core, leaves in the pool
and returns (R254). -/
def dequeOutcome (m : Memory) (k : DequeKind) (core off own frame size : Nat) : Memory × Word :=
  match dequeEnds m (poolAt core off) size with
  | none => (m, BitVec.allOnes 64 - 1)
  | some (top, bottom, cap, base) => match dequeMove k top bottom cap with
    | none => (m, BitVec.allOnes 64)
    | some (i, newTop, newBottom) =>
      let place := poolAt core (base + 64 * (i.toNat % 2 ^ cap))
      let mine := poolAt own frame
      let copied := if k = .spawn then m.setBytes place (m.bytes mine 64) else m.setBytes mine (m.bytes place 64)
      (copied.setBytes (poolAt core off) (bytesOfNat 8 newTop.toNat
        ++ bytesOfNat 8 (newBottom.toNat * 2 ^ 32 + (m.word (poolAt core off + 8)).toNat % 2 ^ 32)), i.setWidth 64)

/-- The leaves of a slot's deque operation, its header's and its frames', serve it now; on another core `accepted` is the move in
which that core accepted it, if it has (R161). -/
def dequeServed (s : State) (k : DequeKind) (slot core off frame size : Nat) (accepted : Option Nat) : Prop :=
  let own := coreOfSlot slot
  let serves (d at_ n : Nat) (reads : Bool) : Prop :=
    (if core = own then s.slotCheck slot d at_ n reads else s.leafCheckAt d at_ n reads accepted none) = .ready
  serves core off 16 true
    ∧ ∀ top bottom cap base i ends, dequeEnds s.pool (poolAt core off) size = some (top, bottom, cap, base) →
        dequeMove k top bottom cap = some (i, ends) →
        serves core (base + 64 * (i.toNat % 2 ^ cap)) 64 (k != .spawn) ∧ serves own frame 64 (k == .spawn)

/-- The three deque forms. -/
def dequeForms : List ((Reg → Reg → Reg → Bool → Bool → Instr) × DequeKind) :=
  [(.spawn, .spawn), (.take, .take), (.steal, .steal)]

/-- A slot holds a new thread: running at a pc, in a window of the lowest free base, its inbox cause pending if messages
wait (R14, R16, R249). -/
def startsThread (s t : State) (core job size : Nat) (pc : Word) (n : Nat) : Prop :=
  (s.freeSlotsOf core).head? = some n ∧ (t.slot n).state = .run ∧ (t.slot n).job = job ∧ (t.slot n).winSize = size
    ∧ s.freeWindow core size = some (t.slot n).winBase ∧ (t.slot n).pc = pc
    ∧ ((t.slot n).pend.getLsbD 5 = true ↔ s.messagesFor n ≠ [])

/-- The thread in focus leaves for a core with its context: its words as the slot stands in `u` (R258), its slot is FREE, what it
leaves in the meshes stays, and nothing of memory or of another slot differs (R257, R260). -/
def departs (s u t : State) (c : Nat) (ctx : Context) : Prop :=
  ctx.words = u.contextWords s.focus (pcOf s + 4) ∧ (ctx.words.getD 0 0).toNat % 2 ^ 56 = (pcOf s + 4).toNat / 4 % 2 ^ 54 * 4
    ∧ ctx.job = (s.slot s.focus).job ∧ ctx.origin = some s.focus ∧ ctx.creator = none
    ∧ t.net = s.net.filterMap (Packet.leftBy s.focus) ++ [.context c ctx none []]
    ∧ t.slot s.focus = { Slot.free with sends := (s.slot s.focus).sends } ∧ (∀ m, m ≠ s.focus → t.slot m = s.slot m)
    ∧ t.pool = s.pool ∧ t.hbm = s.hbm ∧ t.host = s.host ∧ t.l2 = s.l2 ∧ t.tiles = s.tiles ∧ t.jobs = s.jobs

/-- A register of a slot is FULL with a value. -/
def holds (x : Slot) (i : Nat) (v : Word) : Prop := x.cell (.win i) = { val := v, pres := .full, owed := false }

end Sys2Proof.Claims

/-- R167-R170, R172, R173, R255: on an object of the core's own scratchpad `bar.init` writes the reload word to both words,
`bar.arr` counts an arrival and its bytes and gives d the phase it was counted in, `bar.tst` gives word 0; a copy's count that
reaches its object is applied there, and every other byte of memory stays as it was. `bar.wait` and `join` send their request
and stay where they are; the object's core answers at once where the phase differs from the one seen, or the join word is 0 or
less, and else keeps the request; the reply writes d and retires the instruction with its acquire pending. -/
def Obligations.BarriersAndWaits : Prop :=
  ((∀ (d a b : Reg) (la lb : Bool) (off : Nat) (s : State), ownObject s (val s a) 16 off →
      (usable s [a, b] [] = true → served s off 16 false →
        (let w := val s b &&& 0x0000FFFF7FFFFFFF#64
         ∃ t, exec (.barInit a b la lb) s = .next t
          ∧ storesBytes s t (own s off) (bytesOfNat 8 w.toNat ++ bytesOfNat 8 w.toNat) [(a, la), (b, lb)] []
          ∧ ∀ x ∈ (s.core (coreOfSlot s.focus)).waiters, x.offset = off → x.seen ≠ none →
              .barReply x.slot (BitVec.allOnes 64) ∈ t.net))
      ∧ (usable s [a, b] [d] = true → served s off 16 true → mayRelease s →
        ∃ t, exec (.barArr d a b la lb) s = .next t
          ∧ storesBytes s t (own s off)
              (bytesOfNat 8 (counted (s.pool.word (own s off)) (s.pool.word (own s off + 8)) true ((val s b).setWidth 32)).toNat)
              [(a, la), (b, lb)] [(d, (phase (s.pool.word (own s off))).setWidth 64)])
      ∧ (usable s [a] [d] = true → served s off 16 true →
        ∃ t, exec (.barTst d a la) s = .next t
          ∧ gives (if d = 0 then s else s.logInput s.focus [s.pool.word (own s off)]) t [(a, la)]
              [(d, s.pool.word (own s off))] (pcOf s + 4)))
    ∧ (∀ (s : State) (n : Nat) (p : BarrierPacket) (bytes : BitVec 32), s.net[n]? = some (.barrier p) → p.kind = .count bytes →
      s.arrivesNext n = true → s.lostTile (s.slot p.slot).job p.core = false →
      s.leafCheckAt p.core p.offset 16 true p.accepted none = .ready →
      (let at_ := poolAt p.core p.offset
       ∃ t, exec (.barrierOperation n) s = .next t
        ∧ t.pool.word at_ = counted (s.pool.word at_) (s.pool.word (at_ + 8)) false bytes
        ∧ (∀ q, q < at_ ∨ at_ + 8 ≤ q → t.pool.byte q = s.pool.byte q)
        ∧ t.hbm = s.hbm ∧ ∀ m, t.slot m = if m = p.slot then afterCheck s p.slot p.retire else s.slot m)))
  ∧ ((∀ (d a b : Reg) (la lb : Bool) (off : Nat) (s : State),
      (usable s [a, b] [d] = true → ownObject s (val s a) 16 off →
        ∃ t p, exec (.barWait d a b la lb) s = .next t ∧ t.net = s.net ++ [.barrier p] ∧ p.core = coreOfSlot s.focus
          ∧ p.offset = off ∧ p.slot = s.focus ∧ p.kind = .wait ((val s b).setWidth 14) ∧ t.pool = s.pool
          ∧ (t.slot s.focus).pc = pcOf s ∧ (t.slot s.focus).state = .wait ∧ (t.slot s.focus).waiting ≠ none)
      ∧ (usable s [a] [d] = true → ownObject s (val s a) 8 off →
        ∃ t p, exec (.join d a la) s = .next t ∧ t.net = s.net ++ [.barrier p] ∧ p.core = coreOfSlot s.focus
          ∧ p.offset = off ∧ p.slot = s.focus ∧ p.kind = .join ∧ t.pool = s.pool
          ∧ (t.slot s.focus).pc = pcOf s ∧ (t.slot s.focus).state = .wait ∧ (t.slot s.focus).waiting ≠ none))
    ∧ (∀ (s : State) (n : Nat) (p : BarrierPacket), s.net[n]? = some (.barrier p) → s.arrivesNext n = true →
      s.lostTile (s.slot p.slot).job p.core = false → p.retire = none →
      (let w := s.pool.word (poolAt p.core p.offset)
       (∀ seen, p.kind = .wait seen → s.leafCheckAt p.core p.offset 16 true p.accepted none = .ready →
        (seen ≠ phase w → ∃ t, exec (.barrierOperation n) s = .next t
          ∧ t.net = s.net.eraseIdx n ++ [.barReply p.slot ((phase w).setWidth 64)] ∧ t.pool = s.pool ∧ t.slots = s.slots)
        ∧ (seen = phase w → (s.core p.core).waiters.length < 64 → ∃ t, exec (.barrierOperation n) s = .next t
          ∧ t.net = s.net.eraseIdx n ∧ t.pool = s.pool ∧ t.slots = s.slots
          ∧ (t.core p.core).waiters = (s.core p.core).waiters ++ [{ slot := p.slot, offset := p.offset, seen := some seen }]))
       ∧ (p.kind = .join → s.leafCheckAt p.core p.offset 8 true p.accepted none = .ready → w.toInt ≤ 0 →
          ∃ t, exec (.barrierOperation n) s = .next t
            ∧ t.net = s.net.eraseIdx n ++ [.joinReply p.slot w] ∧ t.pool = s.pool ∧ t.slots = s.slots)))
    ∧ (∀ (s : State) (n m : Nat) (v : Word) (w : WaitRequest), (s.slot m).waiting = some w →
      ∀ form ∈ [(Instr.barWaitReply, Packet.barReply), (.joinReply, .joinReply)], s.net[n]? = some (form.2 m v) →
        (s.pairHolds m = true → exec (form.1 n) s = .next s)
        ∧ (s.pairHolds m = false → (s.slot m).landable w.dst = true → ∃ t, exec (form.1 n) s = .next t
          ∧ onlySlot ({ s with net := t.net }.logInput m [v]) t m ∧ t.net = s.net.eraseIdx n
          ∧ waitEnds (s.slot m) (t.slot m) w v)))

/-- R175-R179: `ipop` takes the slot's oldest message of the type asked for and `ipeek` copies it, with 0 where there is
none; `send` and `sendw` post a type 6 message to the slot that their destination word names, and MESSAGE_PLACED puts a
message behind those of its core's inbox, sets PEND of cause 0x15 and ends the send. Readings and choices of the model it
rests on: log 16, 17. -/
def Obligations.Messages : Prop :=
  (∀ (d b : Reg) (lb : Bool) (s : State), (Instr.ipop d b lb).wellFormed = true → usable s [b] [d, d + 1] = true →
    (let mine := (s.core (coreOfSlot s.focus)).inbox.filter fun m =>
       m.w0.extractLsb' 16 6 == BitVec.ofNat 6 (s.focus % 64) && m.openedBy.isNone
         && ((val s b).setWidth 8 == 0#8 || m.w0.setWidth 8 == (val s b).setWidth 8)
     (∀ m rest, mine = m :: rest →
      (∃ t, exec (.ipop d b lb) s = .next t
        ∧ (t.core (coreOfSlot s.focus)).inbox = (s.core (coreOfSlot s.focus)).inbox.erase m
        ∧ t.pool = s.pool ∧ t.hbm = s.hbm ∧ (∀ k, k ≠ s.focus → t.slot k = s.slot k)
        ∧ retired { s.slot s.focus with acqHold := true } (t.slot s.focus) (pcOf s + 4)
        ∧ ∀ l, (t.slot s.focus).cell l = cellAfter (s.slot s.focus) [(b, lb)] [(d, m.w0), (d + 1, m.w1)] l)
      ∧ ∃ t, exec (.ipeek d b lb) s = .next t ∧ onlySlot (s.logInput s.focus [m.w0, m.w1]) t s.focus
        ∧ retired { s.slot s.focus with acqHold := true } (t.slot s.focus) (pcOf s + 4)
        ∧ ∀ l, (t.slot s.focus).cell l = cellAfter (s.slot s.focus) [(b, lb)] [(d, m.w0), (d + 1, m.w1)] l)
     ∧ (mine = [] →
      (∃ t, exec (.ipop d b lb) s = .next t ∧ onlySlot s t s.focus ∧ t.slot s.focus = { s.slot s.focus with state := .wait })
      ∧ ∃ t, exec (.ipeek d b lb) s = .next t ∧ gives s t [(b, lb)] [(d, 0), (d + 1, 0)] (pcOf s + 4))))
  ∧ (∀ (d a b : Reg) (la lb : Bool) (tile : Nat) (s : State), mayRelease s →
    (s.slot s.focus).sends < 8 → s.tileAtIndex (s.slot s.focus).job ((val s a).extractLsb' 8 10).toNat = some tile →
    (val s a).extractLsb' 18 14 = 0#14 → (val s a).toNat % 64 < 62 →
    (usable s [a, b] [] = true → ∃ t p, exec (.send a b la lb) s = .next t ∧ t.net = s.net ++ [.message p]
      ∧ p.core = s.pairCore (s.slot s.focus).job (4 * tile + ((val s a).extractLsb' 6 2).toNat) ∧ p.w1 = val s b
      ∧ p.w0 = (val s a &&& 0xFFFFFFFF00000000#64) + ((val s a &&& 63) <<< 16) + 6
      ∧ t.pool = s.pool ∧ retired { s.slot s.focus with sends := (s.slot s.focus).sends + 1 } (t.slot s.focus) (pcOf s + 4)
      ∧ ∀ l, (t.slot s.focus).cell l = cellAfter (s.slot s.focus) [(a, la), (b, lb)] [] l)
    ∧ (usable s [a, b] [d] = true → ∃ t p, exec (.sendw d a b la lb) s = .next t ∧ t.net = s.net ++ [.message p]
      ∧ p.core = s.pairCore (s.slot s.focus).job (4 * tile + ((val s a).extractLsb' 6 2).toNat) ∧ p.w1 = val s b
      ∧ p.w0 = (val s a &&& 0xFFFFFFFF00000000#64) + ((val s a &&& 63) <<< 16) + 6
      ∧ t.pool = s.pool ∧ retired { s.slot s.focus with sends := (s.slot s.focus).sends + 1 } (t.slot s.focus) (pcOf s + 4)
      ∧ ∀ l, (t.slot s.focus).cell l = cellOwing (s.slot s.focus) [(a, la), (b, lb)] [d] l))
  ∧ (∀ (s : State) (n : Nat) (p : MessagePacket) (j : Job), s.net[n]? = some (.message p) → s.arrivesNext n = true →
    p.follows = none → s.job p.job = some j → j.phase = .running → s.forwardOf p.core p.w0 = none →
    (s.tile (p.core / 4)).owner = some p.job → s.lostTile p.job p.core = false → (s.core p.core).inbox.length < 56 →
    (let m := 64 * p.core + (p.w0.extractLsb' 16 6).toNat
     ∃ t, exec (.messagePlaced n) s = .next t ∧ t.net = s.net.eraseIdx n
      ∧ (t.core p.core).inbox = (s.core p.core).inbox ++ [{ w0 := p.w0, w1 := p.w1, openedBy := none }]
      ∧ t.pool = s.pool ∧ t.hbm = s.hbm
      ∧ ((s.slot m).state ≠ .free → (t.slot m).pend = (s.slot m).pend ||| 0x20)
      ∧ ∀ k, p.sender = some k → (t.slot k).sends = (s.slot k).sends - 1
          ∧ ∀ l, p.lands = [l] → (s.slot k).leafOf l = .full → (t.slot k).cell l = { val := 0, pres := .full, owed := false }))

/-- R251, R252: on a counter of the core's own scratchpad `dep.init` writes the count and the record, `dep.add` adds b and
`dep.dec` takes one away and gives d what is left; at zero the record is enqueued, and below it the count is all ones, a
message of type 8 is sent and the slot's cause 0x18 pends. An operation on another core's counter is performed there. -/
def Obligations.DependenceCounters : Prop :=
  (∀ (d a b : Reg) (la lb : Bool) (off : Nat) (s : State), ownObject s (val s a) 16 off →
    ((Instr.depInit a b la lb).wellFormed = true → usable s [a, b, b + 1] [] = true → served s off 16 false →
      (val s (b + 1) = 0 ∨ (region (val s (b + 1)) = 0 ∧ (val s (b + 1)).toNat + 64 ≤ 2 ^ 56 ∧ (val s (b + 1)).toNat % 64 = 0)) →
      ∃ t, exec (.depInit a b la lb) s = .next t
        ∧ storesBytes s t (own s off) (bytesOfNat 8 (val s b).toNat ++ bytesOfNat 8 (val s (b + 1)).toNat)
            [(a, la), (b, lb), (b + 1, lb)] [])
    ∧ (mayRelease s → served s off 16 true →
      (let count := s.pool.word (own s off)
       (usable s [a, b] [] = true → ∃ t, exec (.depAdd a b la lb) s = .next t
        ∧ storesBytes s t (own s off) (bytesOfNat 8 (count + val s b).toNat) [(a, la), (b, lb)] [])
       ∧ (usable s [a] [d] = true → 0 < count.toInt → ∃ t, exec (.depDec d a la) s = .next t
        ∧ storesBytes s t (own s off) (bytesOfNat 8 (count - 1).toNat) [(a, la)] [(d, count - 1)]
        ∧ (count = 1 → s.pool.word (own s off + 8) ≠ 0 → ∃ p, Packet.enqueue p ∈ t.net ∧ p.counter = val s a
            ∧ p.record = s.pool.word (own s off + 8)))
       ∧ (usable s [a] [d] = true → count.toInt ≤ 0 → ∃ t, exec (.depDec d a la) s = .next t
        ∧ t.pool.word (own s off) = BitVec.allOnes 64 ∧ (t.slot s.focus).pc = pcOf s + 4
        ∧ (t.slot s.focus).pend = (s.slot s.focus).pend ||| 0x100
        ∧ (∀ l, (t.slot s.focus).cell l = cellAfter (s.slot s.focus) [(a, la)] [(d, BitVec.allOnes 64)] l)
        ∧ ∃ p, Packet.message p ∈ t.net ∧ p.w1 = val s a ∧ p.w0.setWidth 16 = 0x0108#16))))
  ∧ (∀ (s : State) (n : Nat) (p : DepPacket) (b : Word), s.net[n]? = some (.dep p) → p.kind = .add b → s.arrivesNext n = true →
    s.lostTile (s.slot p.slot).job p.core = false → s.leafCheckAt p.core p.offset 16 true p.accepted none = .ready →
    ∃ t, exec (.depCounterOperation n) s = .next t
      ∧ t.pool.word (poolAt p.core p.offset) = s.pool.word (poolAt p.core p.offset) + b
      ∧ (∀ q, q < poolAt p.core p.offset ∨ poolAt p.core p.offset + 8 ≤ q → t.pool.byte q = s.pool.byte q)
      ∧ ∀ m, t.slot m = if m = p.slot then afterCheck s p.slot p.retire else s.slot m)

/-- R253, R254: on a well-formed deque `spawn` copies the frame in b to the bottom, `take` the newest frame and `steal` the
oldest into b, each storing the new ends and giving d the frame's index; a full deque, or an empty one, gives all ones, a
malformed one all ones less one, and memory stays as it was. `steal` acquires. A `steal` from another core is performed
there. -/
def Obligations.Deques : Prop :=
  (∀ form ∈ dequeForms, ∀ (d a b : Reg) (la lb : Bool) (off fr : Nat) (s : State), usable s [a, b] [d] = true →
    ownObject s (val s a) 16 off → ownObject s (val s b) 64 fr →
    (form.2 = .spawn → mayRelease s) →
    (let c := coreOfSlot s.focus
     let size := s.scratchSize ((s.coreJob c).getD 0)
     dequeServed s form.2 s.focus c off fr size none →
     ∃ t, exec (form.1 d a b la lb) s = .next t
      ∧ t.pool = (dequeOutcome s.pool form.2 c off c fr size).1
      ∧ (t.slot s.focus).pc = pcOf s + 4 ∧ (∀ m, m ≠ s.focus → t.slot m = s.slot m) ∧ t.hbm = s.hbm
      ∧ (∀ l, (t.slot s.focus).cell l = cellAfter (s.slot s.focus) [(a, la), (b, lb)]
          [(d, (dequeOutcome s.pool form.2 c off c fr size).2)] l)
      ∧ (form.2 = .steal → onlyOwned t c)))
  ∧ (∀ (s : State) (n : Nat) (p : DequePacket), s.net[n]? = some (.deque p) → s.arrivesNext n = true →
    s.lostTile (s.slot p.slot).job p.core = false → (s.slot p.slot).landable p.dst = true →
    (let own := coreOfSlot p.slot
     let size := s.scratchSize ((s.coreJob p.core).getD 0)
     dequeServed s p.kind p.slot p.core p.offset p.frame size p.accepted →
     ∃ t, exec (.dequeOperation n) s = .next t
      ∧ t.pool = (dequeOutcome s.pool p.kind p.core p.offset own p.frame size).1
      ∧ (∀ m, m ≠ p.slot → t.slot m = s.slot m)
      ∧ landed (afterCheck s p.slot p.retire) (t.slot p.slot) p.dst
          [(dequeOutcome s.pool p.kind p.core p.offset own p.frame size).2] 0))

/-- R246-R249, R326, R327: `enq` reads the 64 bytes of its record at their homes and sends it to the segment of its key; a
record that arrives joins the segment's tail; DISPATCH starts the head's thread on the core with the most FREE slots, with
the record's pc, its words 5-7 in g1-g3 and its address in g4; a record that no tile can take is offered again 200 ns
later. -/
def Obligations.VatRecords : Prop :=
  (∀ (a : Reg) (la : Bool) (va : Nat) (xs : Nat → Sector) (s : State), usable s [a] [] = true →
    region (val s a) = 0 → s.target s.focus (val s a) 64 64 = .global va → s.isOurs va = true →
    s.permits (coreOfSlot s.focus) (s.slot s.focus).job .read va = true →
    (∀ k, k < 8 → heldAt s (s.homeOf (s.slot s.focus).job (va + 8 * k)) (va + 8 * k) .read none (xs k)) →
    mayRelease s →
    (let words := (List.range 8).map fun k => BitVec.ofNat 64 (natOfBytes (bytesIn (xs k) (va + 8 * k) 8))
     let place := s.segmentOf (s.slot s.focus).job (words.getD 1 0)
     let j := (s.slot s.focus).job
     let r : VatRecord := { words := words, addr := val s a, job := j, source := some s.focus, poster := .slot s.focus }
     s.segmentLoad place.1 place.2 < 256 →
     ∃ t, exec (.enq a la) s = .next t
      ∧ t.net = s.net ++ [.record place.1 place.2 r]
      ∧ t.pool = s.pool ∧ t.hbm = s.hbm ∧ t.l2 = s.l2
      ∧ retired (s.slot s.focus) (t.slot s.focus) (pcOf s + 4)
      ∧ ∀ l, (t.slot s.focus).cell l = cellAfter (s.slot s.focus) [(a, la)] [] l))
  ∧ (∀ (s : State) (n tile : Nat) (slice : Nat) (r : VatRecord), s.net[n]? = some (.record tile slice r) →
    s.arrivesNext n = true → (s.tile tile).cession = none → s.segmentOf r.job (r.words.getD 1 0) = (tile, slice) →
    ((s.tile tile).segment slice).length < 256 →
    ∃ t, exec (.vatRecordArrival n .none) s = .next t ∧ t.net = s.net.eraseIdx n ∧ t.pool = s.pool ∧ t.slots = s.slots
      ∧ (t.tile tile).segment slice = (s.tile tile).segment slice ++ [r])
  ∧ (∀ (s : State) (tile : Nat) (slice : BitVec 1) (r : VatRecord) (rest : List VatRecord) (c : Nat),
    (s.tile tile).segment slice.toNat = r :: rest → (s.tile tile).segment (1 - slice.toNat) = [] →
    s.jobHalted r.job = false → s.takerOf tile true r = some c →
    ∃ t n, exec (.dispatch tile slice) s = .next t ∧ (t.tile tile).segment slice.toNat = rest
      ∧ startsThread s t c r.job (8 * (((r.words.getD 1 0).extractLsb' 32 4).toNat + 1)) (r.words.getD 0 0) n
      ∧ holds (t.slot n) 1 (r.words.getD 5 0) ∧ holds (t.slot n) 2 (r.words.getD 6 0) ∧ holds (t.slot n) 3 (r.words.getD 7 0)
      ∧ holds (t.slot n) 4 r.addr ∧ t.pool = s.pool ∧ t.hbm = s.hbm)
  ∧ (∀ (s : State) (tile : Nat) (r : VatRecord) (rest : List VatRecord), (s.tile tile).seg0 = r :: rest →
    (r.words.getD 1 0).getLsbD 36 = false → (s.tile tile).headSince0 + 400 ≤ s.cyc → s.jobHalted r.job = false →
    (s.nearestTaker tile r = none → ∃ t, exec (.vatOfferTimeout tile 0) s = .next t ∧ t.slots = s.slots
      ∧ t.tile tile = { s.tile tile with headSince0 := (s.tile tile).headSince0 + 400 })
    ∧ (∀ u c, s.nearestTaker tile r = some u → s.takerOf u false r = some c →
      ∃ t n, exec (.vatOfferTimeout tile 0) s = .next t ∧ (t.tile tile).seg0 = rest
        ∧ startsThread s t c r.job (8 * (((r.words.getD 1 0).extractLsb' 32 4).toNat + 1)) (r.words.getD 0 0) n))

/-- R256-R261, R331: a thread that owes nothing ends with `exit`; `migrate`, and `yield` where work waits for its core and the
thread may go, send its context to the core named and leave its slot FREE, and any other `yield` only retires; `spawnm` sends
the context in a block of the core's own scratchpad. A context that arrives joins its core's queue, from which it starts on
the lowest FREE slot; spilled contexts follow, as the records of the spill area hold them, when eight or fewer are left.
Readings and choices of the model it rests on: log 16, log 47, log 58, log 62. -/
def Obligations.ThreadsMove : Prop :=
  (∀ (s : State), isUserSlot s.focus = true → (s.slot s.focus).lease = .none → (s.slot s.focus).anyOwed [] = false →
    s.vectorPending s.focus = false → (s.tile (tileOfSlot s.focus)).arrayOps = [] → mayRelease s →
    ∃ t, exec .exit s = .next t ∧ (t.slot s.focus).state = .free ∧ t.pool = s.pool ∧ t.hbm = s.hbm
      ∧ ∀ m, m ≠ s.focus → t.slot m = s.slot m)
  ∧ (∀ (a : Reg) (la : Bool) (c : Nat) (s : State), usable s [a] [] = true → s.movable s.focus = true →
    s.mustStay s.focus = false → s.moveTarget s.focus (val s a) = .ok c → s.seesAhead s.focus c = false →
    (let u := s.onSlot s.focus fun x => if la = true ∧ a ≠ 0 then x.setPres (x.loc a) .dead else x
     ∃ t ctx, exec (.migrate a la) s = .next t ∧ departs s u t c ctx
      ∧ ((s.slot s.focus).stb = 0 → ∀ k : Nat, 1 ≤ k → k < 8 → k ≠ a.toNat → ((s.slot s.focus).cell (.win k)).pres = .full →
          ctx.words.getD k 0 = ((s.slot s.focus).cell (.win k)).val ∧ (ctx.words.getD 0 0).getLsbD (55 + k) = true)))
  ∧ (∀ (s : State),
    (let c := coreOfSlot s.focus
     let asked := (s.core c).arrivals ≠ [] ∨ (s.recordOffered c = true ∧ s.freeSlotsOf c = [])
     (¬ asked ∨ s.movable s.focus = false ∨ s.mustStay s.focus = true →
      ∃ t, exec .yield s = .next t ∧ gives s t [] [] (pcOf s + 4))
     ∧ (asked → s.movable s.focus = true → s.mustStay s.focus = false →
      ∃ t ctx, exec .yield s = .next t ∧ departs s s t c ctx)))
  ∧ (∀ (d a b : Reg) (la lb : Bool) (c off : Nat) (s : State), usable s [a, b] [d] = true →
    s.moveTarget s.focus (val s a) = .ok c → region (val s b) = 0xF0 → ownObject s (val s b) 64 off → served s off 64 true →
    (s.slot s.focus).lease = .none → mayRelease s → (s.core (coreOfSlot s.focus)).created < 256 →
    ∃ t ctx, exec (.spawnm d a b la lb) s = .next t
      ∧ t.net = s.net ++ [.context c ctx (some s.focus) (if d = 0 then [] else [(s.slot s.focus).loc d])]
      ∧ (∀ k, k < 8 → ctx.words.getD k 0 = s.pool.word (own s off + 8 * k)) ∧ t.pool = s.pool
      ∧ retired (s.slot s.focus) (t.slot s.focus) (pcOf s + 4)
      ∧ ∀ l, (t.slot s.focus).cell l = cellOwing (s.slot s.focus) [(a, la), (b, lb)] [d] l)
  ∧ (∀ (s : State) (n c : Nat) (ctx : Context) (lands : List RegLoc), s.net[n]? = some (.context c ctx none lands) →
    s.arrivesNext n = true → (s.tile (c / 4)).cession = none → s.contextAhead c ctx = false →
    (s.core c).spill = [] → (s.core c).arrivals.length < 16 →
    ∃ t, exec (.contextArrival n) s = .next t ∧ t.net = s.net.eraseIdx n ∧ t.slots = s.slots
      ∧ (t.core c).arrivals = (s.core c).arrivals ++ [{ ctx with reached := none }])
  ∧ (∀ (s : State) (c n base : Nat) (ctx : Context) (rest : List Context), (s.core c).arrivals = ctx :: rest →
    s.jobHalted ctx.job = false → (s.tile (c / 4)).cession = none → s.recordOffered c = false → ctx.origin = none →
    ctx.creator = none → (s.freeSlotsOf c).head? = some n → s.freeWindow c 8 = some base →
    ∃ t, exec (.contextPlacement c) s = .next t ∧ (t.core c).arrivals = rest ∧ (t.slot n).state = .run
      ∧ (t.slot n).job = ctx.job ∧ (t.slot n).winBase = base ∧ (t.slot n).winSize = 8
      ∧ (t.slot n).pc.toNat = (ctx.words.getD 0 0).toNat % 2 ^ 56 / 4 * 4
      ∧ (∀ k, 1 ≤ k → k < 8 → (ctx.words.getD 0 0).getLsbD (55 + k) = true → holds (t.slot n) k (ctx.words.getD k 0)))
  ∧ (∀ (s : State) (c : Nat), (s.core c).arrivals.length ≤ 8 → (s.core c).spill ≠ [] →
    ∃ t, exec (.spillRefill c) s = .next t ∧ t.slots = s.slots ∧ t.pool = s.pool
      ∧ (t.core c).arrivals = (s.core c).arrivals ++ (s.spilled c).take 8 ∧ (t.core c).spill = (s.core c).spill.drop 8)

/-! ## Tile vector instructions (R194-R212) -/

namespace Sys2Proof.Claims

/-- The vector instructions with two sources. -/
def vectorTwo : List (Reg → Reg → Reg → Bool → Bool → Instr) :=
  [.vadd, .vsub, .vmul, .vfma, .vmin, .vmax, .vlt, .vle, .veq, .vsel, .vdot, .vscale, .vand, .vor, .vxor, .vshl]

/-- The vector instructions with one source, a scalar among them. -/
def vectorOne : List (Reg → Reg → Bool → Instr) :=
  [.vabs, .vneg, .vexp2, .vlog2, .vrcp, .vrsqrt, .vsum, .vmaxr, .vminr, .vcvt, .vq, .vdq, .vcopy, .vtr, .vfill, .viota]

/-- The vector unit has accepted an operation: its instruction retires with d owed, and no memory changes (R196, R197). -/
def vectorAccepted (s t : State) (i : Instr) (a b : Word) (d : Reg) (reads : List (Reg × Bool)) : Prop :=
  (∃ o : VectorOp, (t.core (coreOfSlot s.focus)).vector = (s.core (coreOfSlot s.focus)).vector ++ [o] ∧ o.instr = i
      ∧ o.slot = s.focus ∧ o.a = a ∧ o.b = b ∧ o.d = val s d ∧ o.mask = (s.slot s.focus).vmask
      ∧ o.frm = (s.slot s.focus).frm ∧ o.dst = (if d = 0 then [] else [(s.slot s.focus).loc d]) ∧ o.done = false)
    ∧ t.pool = s.pool ∧ t.hbm = s.hbm ∧ t.net = s.net ∧ (∀ m, m ≠ s.focus → t.slot m = s.slot m)
    ∧ retired (s.slot s.focus) (t.slot s.focus) (pcOf s + 4)
    ∧ ∀ l, (t.slot s.focus).cell l = cellOwing (s.slot s.focus) reads [d] l

/-- A result whose register's leaf is not FULL is held for it, and its flags enter fsr (R112, R332). -/
def heldBack (x y : Slot) (l : RegLoc) (v : Word) (flags : FlagSet) : Prop :=
  y = { x with held := x.held ++ [(l, v)], fsr := x.fsr ||| flags }

/-- The array forms and the fields they read beside d. -/
def arrayForms : List ((Reg → Reg → Reg → Bool → Bool → Instr) × (Reg → Reg → Bool → Bool → List (Reg × Bool))) :=
  [(.mm, fun a b la lb => [(a, la), (b, lb)]), (.mmZ, fun a b la lb => [(a, la), (b, lb)]),
   (.mmW, fun a b la lb => [(a, la), (b, lb)]), (.mmWz, fun a b la lb => [(a, la), (b, lb)]),
   (fun d a _ la _ => .accRd d a la, fun a _ la _ => [(a, la)]), (fun d a _ la _ => .accRdq d a la, fun a _ la _ => [(a, la)]),
   (fun d a _ la _ => .accLd d a la, fun a _ la _ => [(a, la)]), (fun d _ _ _ _ => .accClr d, fun _ _ _ _ => []),
   (.accSv, fun a b la lb => [(a, la), (b, lb)]), (.accRs, fun a b la lb => [(a, la), (b, lb)]),
   (.accSt, fun a b la lb => [(a, la), (b, lb)])]

/-- The operand words of an array form. -/
def arrayWords (s : State) (fields : List (Reg × Bool)) : Word × Word :=
  match fields with
  | [a] => (val s a.1, 0)
  | [a, b] => (val s a.1, val s b.1)
  | _ => (0, 0)

/-- An element of a tile in a core's scratchpad, as the pool holds it: of 4, 2 or 1 bytes, or a mask's bit (R65, R194). -/
def tileElement (m : Memory) (c : Nat) (t : TileDesc) (i j : Nat) : Nat :=
  if t.fmt = 10 then natOfBytes (m.bytes (poolAt c (t.addr + i * t.stride + j / 8)) 1) / 2 ^ (j % 8) % 2
  else natOfBytes (m.bytes (poolAt c (t.addr + i * t.stride + elemBytes t.fmt * j)) (elemBytes t.fmt))

/-- The bits of an element of a format code. -/
def elementBits (fmt : Nat) : Nat := if fmt = 10 then 1 else 8 * elemBytes fmt

/-- A result without flags. -/
def plain (bits : Nat) : FRes := { bits := bits, flags := noFlags }

/-- The integer that an element of a code stands for (R65). -/
def asInt (fmt n : Nat) : Int := if fmt = 6 ∨ n < 2 ^ (8 * elemBytes fmt - 1) then n else n - 2 ^ (8 * elemBytes fmt)

/-- An integer reduced modulo 2^w of a code; integer forms set no flag (R48, R203). -/
def wrapped (fmt : Nat) (v : Int) : FRes := plain (v % 2 ^ (8 * elemBytes fmt)).toNat

/-- A result of floats, or of integers, by the code of the elements. -/
def byCode (fmt : Nat) (f : FloatFormat → FRes) (g : FRes) : FRes :=
  match floatCode fmt with
  | some k => f k
  | none => g

/-- An operation on two numbers of the destination's code (R203). -/
def twoNumbers (f : FloatFormat → BitVec 2 → FVal → FVal → FRes) (g : Int → Int → Int) (o : VectorOp) (x y : Nat) : FRes :=
  let fmt := (tileDesc o.d).fmt
  byCode fmt (fun k => f k o.frm (k.value x) (k.value y)) (wrapped fmt (g (asInt fmt x) (asInt fmt y)))

/-- A function on a float of the destination's code (R204). -/
def oneFloat (f : FloatFormat → BitVec 2 → FVal → FRes) (o : VectorOp) (x : Nat) : FRes :=
  byCode (tileDesc o.d).fmt (fun k => f k o.frm (k.value x)) (plain x)

/-- The smaller or larger of two elements of a code (R56, R203). -/
def picked (fmt : Nat) (larger : Bool) (x y : Nat) : FRes :=
  byCode fmt (fun k => k.minMax larger x y)
    (plain (if (if larger then asInt fmt y ≤ asInt fmt x else asInt fmt x ≤ asInt fmt y) then x else y))

/-- A sign operation: a NaN gives the canonical NaN, with NV for a signalling one (R203). -/
def signed (f : FloatFormat → Nat → Nat) (g : Int → Int) (o : VectorOp) (x : Nat) : FRes :=
  let fmt := (tileDesc o.d).fmt
  byCode fmt (fun k => if (k.value x).isNan then { bits := k.nanBits, flags := if (k.value x).signals then flagNV else noFlags }
    else plain (f k x)) (wrapped fmt (g (asInt fmt x)))

/-- A comparison as a mask bit; `quiet` where a quiet NaN is no reason for NV (R55, R205). -/
def compared (quiet : Bool) (f : FVal → FVal → Bool) (g : Int → Int → Bool) (o : VectorOp) (x y : Nat) : FRes :=
  let fmt := (tileDesc o.a).fmt
  byCode fmt (fun k =>
      let u := k.value x
      let v := k.value y
      { bits := if f u v then 1 else 0,
        flags := if u.signals || v.signals || (!quiet && (u.isNan || v.isNan)) then flagNV else noFlags })
    (plain (if g (asInt fmt x) (asInt fmt y) then 1 else 0))

/-- The least and the greatest value of an integer code. -/
def boundsOf (fmt : Nat) : Int × Int :=
  if fmt = 6 then (0, 255) else (-(2 ^ (8 * elemBytes fmt - 1)), 2 ^ (8 * elemBytes fmt - 1) - 1)

/-- An element converted from a's code to d's (R207). -/
def convertedElement (o : VectorOp) (x : Nat) : FRes :=
  let src := (tileDesc o.a).fmt
  let dst := (tileDesc o.d).fmt
  byCode src
    (fun f => byCode dst (fun g => converted g o.frm (f.value x))
      (let r := toIntBetween o.frm (boundsOf dst).1 (boundsOf dst).2 (f.value x)
       { wrapped dst r.1 with flags := r.2 }))
    (byCode dst (fun g => g.roundInt o.frm false (asInt src x) 0)
      (wrapped dst (max (boundsOf dst).1 (min (boundsOf dst).2 (asInt src x)))))

/-- `vshl` of an element by a count (R212). -/
def shifted (o : VectorOp) (x y : Nat) : FRes :=
  let fmt := (tileDesc o.d).fmt
  let w : Int := 8 * elemBytes fmt
  let n := asInt fmt y
  let v := asInt fmt x
  if w ≤ n then plain 0
  else if 0 ≤ n then wrapped fmt (v * 2 ^ n.toNat)
  else if n ≤ -w then wrapped fmt (if 0 ≤ v then 0 else -1)
  else wrapped fmt (v / 2 ^ (-n).toNat)

/-- The scalar of `viota` at a place (R211). -/
def iotaAt (o : VectorOp) (i j : Nat) : FRes :=
  let fmt := (tileDesc o.d).fmt
  let v : Int := o.a.toInt + i * (tileDesc o.d).cols + j
  byCode fmt (fun k => k.roundInt o.frm false v 0) (wrapped fmt v)

/-- The tiles that an operation reads, d's aside: a's, a's and b's, or those and the mask's. -/
def tileA (o : VectorOp) : List TileDesc := [tileDesc o.a]
/-- As `tileA`. -/
def tilesAB (o : VectorOp) : List TileDesc := [tileDesc o.a, tileDesc o.b]
/-- As `tileA`. -/
def tilesABMask (o : VectorOp) : List TileDesc := [tileDesc o.a, tileDesc o.b, tileDesc o.mask]

/-- The elementwise operations: the tiles that each reads, and its result at (i, j) from a's element x, b's y, d's z and the
mask's bit m there (R203-R205, R207, R209-R212). -/
def elementForms : List ((Reg → Reg → Reg → Bool → Bool → Instr) × (VectorOp → List TileDesc)
    × (VectorOp → Nat → Nat → Nat → Nat → Nat → Nat → FRes)) :=
  [(.vadd, tilesAB, fun o _ _ x y _ _ => twoNumbers FloatFormat.add (fun u v => u + v) o x y),
   (.vsub, tilesAB, fun o _ _ x y _ _ => twoNumbers FloatFormat.sub (fun u v => u - v) o x y),
   (.vmul, tilesAB, fun o _ _ x y _ _ => twoNumbers FloatFormat.mul (fun u v => u * v) o x y),
   (.vfma, tilesAB, fun o _ _ x y z _ =>
     byCode (tileDesc o.d).fmt (fun k => k.fma o.frm (k.value x) (k.value y) (k.value z)) (plain 0)),
   (.vmin, tilesAB, fun o _ _ x y _ _ => picked (tileDesc o.d).fmt false x y),
   (.vmax, tilesAB, fun o _ _ x y _ _ => picked (tileDesc o.d).fmt true x y),
   (fun d a _ la _ => .vabs d a la, tileA, fun o _ _ x _ _ _ => signed (fun k n => n % 2 ^ (k.width - 1)) (fun v => v.natAbs) o x),
   (fun d a _ la _ => .vneg d a la, tileA, fun o _ _ x _ _ _ => signed (fun k n => n ^^^ 2 ^ (k.width - 1)) (fun v => -v) o x),
   (.vlt, tilesAB, fun o _ _ x y _ _ => compared false (fun u v => u.lt v) (fun u v => decide (u < v)) o x y),
   (.vle, tilesAB, fun o _ _ x y _ _ => compared false (fun u v => u.lt v || u.eq v) (fun u v => decide (u ≤ v)) o x y),
   (.veq, tilesAB, fun o _ _ x y _ _ => compared true (fun u v => u.eq v) (fun u v => decide (u = v)) o x y),
   (.vsel, tilesABMask, fun _ _ _ x y _ m => plain (if m = 1 then x else y)),
   (fun d a _ la _ => .vexp2 d a la, tileA, fun o _ _ x _ _ _ => oneFloat FloatFormat.exp2 o x),
   (fun d a _ la _ => .vlog2 d a la, tileA, fun o _ _ x _ _ _ => oneFloat FloatFormat.log2 o x),
   (fun d a _ la _ => .vrcp d a la, tileA, fun o _ _ x _ _ _ => oneFloat FloatFormat.rcp o x),
   (fun d a _ la _ => .vrsqrt d a la, tileA, fun o _ _ x _ _ _ => oneFloat FloatFormat.rsqrt o x),
   (fun d a _ la _ => .vcvt d a la, tileA, fun o _ _ x _ _ _ => convertedElement o x),
   (.vscale, tilesAB, fun o _ _ x y _ _ =>
     byCode (tileDesc o.d).fmt (fun k => k.mul o.frm (k.value x) (fp32.value y)) (plain 0)),
   (fun d a _ la _ => .vcopy d a la, tileA, fun _ _ _ x _ _ _ => plain x),
   (fun d a _ la _ => .vfill d a la, fun _ => [], fun o _ _ _ _ _ _ => plain (o.a.toNat % 2 ^ elementBits (tileDesc o.d).fmt)),
   (fun d a _ la _ => .viota d a la, fun _ => [], fun o i j _ _ _ _ => iotaAt o i j),
   (.vand, tilesAB, fun _ _ _ x y _ _ => plain (x &&& y)), (.vor, tilesAB, fun _ _ _ x y _ _ => plain (x ||| y)),
   (.vxor, tilesAB, fun _ _ _ x y _ _ => plain (x ^^^ y)), (.vshl, tilesAB, fun o _ _ x y _ _ => shifted o x y)]

/-- The larger or smaller of a row's elements, joined from the left (R206). -/
def pickedOf (larger : Bool) (o : VectorOp) : List Nat → FRes
  | [] => plain 0
  | x :: rest =>
    let fmt := (tileDesc o.a).fmt
    rest.foldl (fun u y => { bits := (picked fmt larger u.bits y).bits, flags := u.flags ||| (picked fmt larger u.bits y).flags })
      (byCode fmt (fun k => converted k 0 (k.value x)) (plain x))

/-- The sum of a row's elements, or of the products of two rows': of floats in FP32 in the order of R206, of integers exactly and
then modulo 2^32. -/
def summed (o : VectorOp) (xs : List Nat) (ys : Option (List Nat)) : FRes :=
  let fmt := (tileDesc o.a).fmt
  byCode fmt
    (fun k =>
      let wide (x : Nat) : FRes := converted fp32 0 (k.value x)
      let r := reduceRow o.frm (match ys with
        | some ys => (xs.zip ys).map fun e => ((wide e.1).bits, some (wide e.2).bits)
        | none => xs.map fun x => ((wide x).bits, none))
      { bits := r.bits, flags := (xs ++ ys.getD []).foldl (fun f x => f ||| (wide x).flags) r.flags })
    (wrapped 3 (match ys with
      | some ys => ((xs.zip ys).map fun e => asInt fmt e.1 * asInt fmt e.2).sum
      | none => (xs.map (asInt fmt)).sum))

/-- The reductions and their result from a row of a and one of b (R206). -/
def reductionForms : List ((Reg → Reg → Reg → Bool → Bool → Instr) × (VectorOp → List Nat → List Nat → FRes)) :=
  [(fun d a _ la _ => .vsum d a la, fun o xs _ => summed o xs none), (.vdot, fun o xs ys => summed o xs (some ys)),
   (fun d a _ la _ => .vmaxr d a la, fun o xs _ => pickedOf true o xs),
   (fun d a _ la _ => .vminr d a la, fun o xs _ => pickedOf false o xs)]

/-- The vector unit performs this operation next: its descriptors pass their checks, the accesses accepted before it on its bytes
are done, and its leaves are FULL (R195, R197). -/
def vectorReady (s : State) (c : Nat) (o : VectorOp) : Prop :=
  (s.core c).vector.find? (fun v => !v.done) = some o ∧ s.copiesRun c o.copies = false ∧ s.spansClear c o.since o.spans = true
    ∧ s.asleepLeaves c o.spans = [] ∧ s.checkVector o.slot o.instr o.a o.b o.d o.mask = none

/-- The operation has been performed: it is done, with the flags of its results together; no byte outside the rows of
its destination has changed, nor has a slot. -/
def vectorPerformed (s t : State) (c : Nat) (o : VectorOp) (results : List FlagSet) : Prop :=
  (∃ before after fl, (s.core c).vector = before ++ o :: after ∧ (∀ v ∈ before, v.done = true)
      ∧ (t.core c).vector = before ++ { o with done := true, flags := fl } :: after
      ∧ ∀ k, fl.getLsbD k = true ↔ ∃ f ∈ results, f.getLsbD k = true)
    ∧ (∀ p, (∀ i, i < (tileDesc o.d).rows → p < poolAt c ((tileDesc o.d).row i)
          ∨ poolAt c ((tileDesc o.d).row i) + (tileDesc o.d).width ≤ p) → t.pool.byte p = s.pool.byte p)
    ∧ t.hbm = s.hbm ∧ t.slots = s.slots

end Sys2Proof.Claims

/-- R195-R197, R213, R218, R219: every tile vector instruction whose descriptors pass their checks is accepted by its core's
vector unit while that has room, d owed; a failing check enters the handler for its cause, and nothing is accepted. When an
operation is done, d lands with its own descriptor, or that is held until d's leaf is FULL, and the flags enter fsr. In the
same way a matrix command or accumulator instruction of the lease's holder whose checks pass is accepted by the tile's array:
it retires with d owed and stands behind those accepted before, and a matrix command takes one of the budget; without a claim
it raises 0x17. (A word with d = g0 is no instruction, R107.) -/
def Obligations.VectorInstructionsAreAccepted : Prop :=
  (∀ op ∈ vectorTwo, ∀ (d a b : Reg) (la lb : Bool) (s : State), usable s [a, b, d] [d] = true →
    (s.checkVector s.focus (op d a b la lb) (val s a) (val s b) (val s d) (s.slot s.focus).vmask = none →
      (s.core (coreOfSlot s.focus)).vector.length < 16 → (s.tile (tileOfSlot s.focus)).arrayOps = [] →
      ∃ t, exec (op d a b la lb) s = .next t
        ∧ vectorAccepted s t (op d a b la lb) (val s a) (val s b) d [(a, la), (b, lb)])
    ∧ (∀ cause w, plainUser s s.focus = true →
      s.checkVector s.focus (op d a b la lb) (val s a) (val s b) (val s d) (s.slot s.focus).vmask = some (cause, w) →
      ∃ t, exec (op d a b la lb) s = .next t ∧ entersHandler s t s.focus cause (pcOf s) w))
  ∧ (∀ op ∈ vectorOne, ∀ (d a : Reg) (la : Bool) (s : State), usable s [a, d] [d] = true →
    s.checkVector s.focus (op d a la) (val s a) 0 (val s d) (s.slot s.focus).vmask = none →
    (s.core (coreOfSlot s.focus)).vector.length < 16 → (s.tile (tileOfSlot s.focus)).arrayOps = [] →
    ∃ t, exec (op d a la) s = .next t ∧ vectorAccepted s t (op d a la) (val s a) 0 d [(a, la)])
  ∧ (∀ (s : State) (c : Nat) (o : VectorOp) (rest : List VectorOp), (s.core c).vector = o :: rest → o.done = true →
    ∃ t, exec (.vectorOpComplete c) s = .next t ∧ (t.core c).vector = rest ∧ t.pool = s.pool
      ∧ ((s.slot o.slot).landable o.dst = true → landed (s.slot o.slot) (t.slot o.slot) o.dst [o.d] o.flags)
      ∧ (∀ l, o.dst = [l] → (s.slot o.slot).leafOf l ≠ .full → heldBack (s.slot o.slot) (t.slot o.slot) l o.d o.flags)
      ∧ ∀ m, m ≠ o.slot → t.slot m = s.slot m)
  ∧ (∀ form ∈ arrayForms, ∀ (d a b : Reg) (la lb : Bool) (need : List (Nat × AccKind)) (spans : List (Nat × Nat))
        (wa wb : List Word) (pages : List Page) (s : State),
      (let i := form.1 d a b la lb
       let fields := form.2 a b la lb
       let k := arrayKind (some i)
       usable s (fields.map (·.1) ++ [d]) [d] = true → d ≠ 0 →
       selectorOk k (val s d) = true → limitsOk k (val s d) (arrayWords s fields).2 = true →
       s.prepare s.focus k i.word (val s d) (arrayWords s fields).1 (arrayWords s fields).2 = .ok need spans wa wb →
       ((s.slot s.focus).lease = .held →
         (k.isMatrix = true ∨ k = .st → mayRelease s) →
         s.tryPages s.focus need = .ok pages → (s.tile (tileOfSlot s.focus)).arrayOps.length < 8 →
         (s.core (coreOfSlot s.focus)).vector = [] →
         ∃ t o, exec i s = .next t ∧ (t.tile (tileOfSlot s.focus)).arrayOps = (s.tile (tileOfSlot s.focus)).arrayOps ++ [o]
          ∧ o.instr = some i ∧ o.slot = s.focus ∧ o.sel = val s d ∧ o.a = (arrayWords s fields).1
          ∧ o.b = (arrayWords s fields).2 ∧ o.dst = [(s.slot s.focus).loc d] ∧ o.done = false
          ∧ (t.slot s.focus).pc = pcOf s + 4 ∧ t.pool = s.pool ∧ t.acc = s.acc ∧ (∀ m, m ≠ s.focus → t.slot m = s.slot m)
          ∧ (t.slot s.focus).remain = (if k.isMatrix then (s.slot s.focus).remain - 1 else (s.slot s.focus).remain)
          ∧ (k.isMatrix = true → (s.slot s.focus).remain = 1 → (t.slot s.focus).lease = .spent)
          ∧ ∀ l, (t.slot s.focus).cell l = cellOwing (s.slot s.focus) fields [d] l)
       ∧ ((s.slot s.focus).lease = .none → plainUser s s.focus = true →
         ∃ t, exec i s = .next t ∧ entersHandler s t s.focus 0x17 (pcOf s) i.word)))

/-- R199, R203-R212: the vector unit performs an accepted tile vector instruction whose destination lies apart from its
sources. Of an elementwise one each element becomes the result of the source elements at its place, in floats rounded once and
in integers modulo 2^w, `vscale` taking its scale from b's row or column and a mask's padding bits becoming 0; `vtr` exchanges
rows and columns; a reduction gives one value a row; `vq` and `vdq` turn sixteen elements into a quire and back; `vcopy` of
quires copies each row. The flags of the results together are the operation's, and every byte outside the destination's rows
stays as it was. -/
def Obligations.ElementwiseVectorArithmetic : Prop :=
  ∀ (c : Nat) (o : VectorOp) (s : State), vectorReady s c o →
    (let td := tileDesc o.d
     let ta := tileDesc o.a
     let tb := tileDesc o.b
     let before (t : TileDesc) (i j : Nat) : Nat := tileElement s.pool c t i j
     (∀ op ∈ elementForms, ∀ (d a b : Reg) (la lb : Bool), o.instr = op.1 d a b la lb → (td.fmt ≤ 6 ∨ td.fmt = 10) →
      spansMeet td.spans ((op.2.1 o).flatMap TileDesc.spans) = false →
      (let result (i j : Nat) : FRes :=
         op.2.2 o i j (before ta i j) (before tb (if tb.rows = 1 then 0 else i) (if tb.cols = 1 then 0 else j)) (before td i j)
           (before (tileDesc o.mask) i j)
       ∃ t, exec (.vectorOperation c) s = .next t
        ∧ (∀ i j, i < td.rows → j < td.cols → tileElement t.pool c td i j = (result i j).bits % 2 ^ elementBits td.fmt)
        ∧ (∀ i j, td.fmt = 10 → i < td.rows → td.cols ≤ j → j < 8 * td.width → tileElement t.pool c td i j = 0)
        ∧ vectorPerformed s t c o ((List.range td.rows).flatMap fun i => (List.range td.cols).map fun j => (result i j).flags)))
     ∧ (∀ (d a : Reg) (la : Bool), o.instr = .vtr d a la →
      ∃ t, exec (.vectorOperation c) s = .next t
        ∧ (∀ i j, i < td.rows → j < td.cols → tileElement t.pool c td i j = before ta j i)
        ∧ vectorPerformed s t c o [])
     ∧ (∀ (d a : Reg) (la : Bool), o.instr = .vcopy d a la → isQuireCode td.fmt = true → spansMeet td.spans ta.spans = false →
      ∃ t, exec (.vectorOperation c) s = .next t
        ∧ (∀ i, i < td.rows → t.pool.bytes (poolAt c (td.row i)) td.width = s.pool.bytes (poolAt c (ta.row i)) td.width)
        ∧ vectorPerformed s t c o [])
     ∧ (∀ op ∈ reductionForms, ∀ (d a b : Reg) (la lb : Bool), o.instr = op.1 d a b la lb →
      (let result (i : Nat) : FRes := op.2 o ((List.range ta.cols).map (before ta i)) ((List.range ta.cols).map (before tb i))
       ∃ t, exec (.vectorOperation c) s = .next t
        ∧ (∀ i, i < td.rows → tileElement t.pool c td i 0 = (result i).bits % 2 ^ elementBits td.fmt)
        ∧ vectorPerformed s t c o ((List.range td.rows).map fun i => (result i).flags)))
     ∧ (∀ (d a : Reg) (la : Bool), o.instr = .vq d a la →
      (let q (i k : Nat) : Quire × FlagSet := quantise (quireWidth td.fmt)
         ((List.range 16).map fun e => ((floatCode ta.fmt).getD fp32).value (before ta i (16 * k + e)))
       ∃ t, exec (.vectorOperation c) s = .next t
        ∧ (∀ i k, i < td.rows → k < td.cols / 16 →
            t.pool.bytes (poolAt c (td.row i + quireBytes td.fmt * k)) (quireBytes td.fmt)
              = (q i k).1.bytes (quireWidth td.fmt) (quireBytes td.fmt))
        ∧ vectorPerformed s t c o ((List.range td.rows).flatMap fun i => (List.range (td.cols / 16)).map fun k => (q i k).2)))
     ∧ (∀ (d a : Reg) (la : Bool), o.instr = .vdq d a la →
      (let values (i k : Nat) : List FRes := dequantise ((floatCode td.fmt).getD fp32) o.frm (quireWidth ta.fmt)
         (quireOf (quireWidth ta.fmt) (s.pool.bytes (poolAt c (ta.row i + quireBytes ta.fmt * k)) (quireBytes ta.fmt)))
       ∃ t, exec (.vectorOperation c) s = .next t
        ∧ (∀ i k e, i < td.rows → k < td.cols / 16 → e < 16 →
            tileElement t.pool c td i (16 * k + e) = ((values i k).getD e (plain 0)).bits % 2 ^ elementBits td.fmt)
        ∧ vectorPerformed s t c o ((List.range td.rows).flatMap fun i => (List.range (td.cols / 16)).flatMap fun k =>
            (values i k).map (·.flags)))))

/-! ## The tile's array (R213-R236) -/

namespace Sys2Proof.Claims

/-- The array takes this operation next. -/
def arrayAt (s : State) (tile : Nat) (o : ArrayOp) : Prop := (s.tile tile).current = some o

/-- The accumulators of a matrix command's element (i, j): its tile (R225). -/
def accOf (o : ArrayOp) (wide : Bool) (i j : Nat) : Nat := if wide then 2 * (i / 64) + j / 64 else selAcc o.sel

/-- The four forms of a matrix command: wide, and clearing first (R222). -/
def matrixForms : List ((Reg → Reg → Reg → Bool → Bool → Instr) × Bool × Bool) :=
  [(.mm, false, false), (.mmZ, false, true), (.mmW, true, false), (.mmWz, true, true)]

/-- The lease word of a slot: its operations not yet completed, the STATE given, the holder of its tile's array, and the BUDGET and
REMAIN given (R216). -/
def leaseBits (s : State) (n : Nat) (lease : LeaseState) (budget remain : Nat) : Word :=
  BitVec.ofNat 64
    (((s.tile (tileOfSlot n)).arrayOps.countP fun o => o.slot == n && o.instr.isSome) * 2 ^ 32
      + (match lease with | .none => 0 | .queued => 1 | .held => 2 | .spent => 3) * 2 ^ 30
      + (match (s.tile (tileOfSlot n)).holder with | some m => 2 ^ 24 + m / 64 % 4 * 2 ^ 21 | none => 0)
      + budget % 128 * 2 ^ 9 + remain % 128)

/-- The accumulator instruction that the array is at can be performed: the accesses accepted before it on its bytes are done, and
its leaves are FULL (R197, R236). -/
def accReady (s : State) (tile : Nat) (o : ArrayOp) : Prop :=
  arrayAt s tile o ∧ tileOfSlot o.slot = tile ∧ o.stores = [] ∧ o.sent = 0
    ∧ s.copiesRun (coreOfSlot o.slot) o.copies = false ∧ s.spansClear (coreOfSlot o.slot) o.since o.spans = true
    ∧ s.asleepLeaves (coreOfSlot o.slot) o.spans = []

/-- The operation that the array was at is done, with its STATUS and flags; no slot has changed. -/
def arrayDone (s t : State) (tile : Nat) (o : ArrayOp) (status : BitVec 8) (flags : FlagSet) : Prop :=
  (∃ before after, (s.tile tile).arrayOps = before ++ o :: after ∧ (∀ q ∈ before, q.done = true)
      ∧ (t.tile tile).arrayOps
          = before ++ { o with done := true, status := status, flags := flags, pinned := [], lines := [] } :: after)
    ∧ t.slots = s.slots

/-- The scales that a readout reads under its two pointers: those of the block's rows and columns that the operation's tile holds
(R70, R232), with the state after reading them. -/
def scalesRead (s : State) (o : ArrayOp) (rows cols : Nat) (rs cs : List FVal) (after : State) : Prop :=
  ∃ mid, (s.keepConfig o).scales o o.scl0 (selRow o.sel + 64 * (selAcc o.sel / 2) * (if selWide o.sel then 1 else 0)) rows
      = some (rs, mid)
    ∧ mid.scales o o.scl1 (selCol o.sel + 64 * (selAcc o.sel % 2) * (if selWide o.sel then 1 else 0)) cols = some (cs, after)

/-- The readout of the element (i, j) of an operation's tile under those scales (R70). -/
def readoutAt (s : State) (tile : Nat) (o : ArrayOp) (rs cs : List FVal) (i j : Nat) : FRes :=
  accRead (s.accElem tile (selAcc o.sel) (selRow o.sel + i) (selCol o.sel + j)) (rs.getD i (.fin false 1 0))
    (cs.getD j (.fin false 1 0))

/-- The element that `acc.ld` writes for the FP32 value that bits stand for (R233). -/
def loadedElement (bits : Nat) : AccElem :=
  match fp32.value bits with
  | .fin neg m e =>
    if m = 0 then clearedElem 0 else accAdd (clearedElem 0) { p := if neg then -m else m, e := e, isNan := false }
  | _ => accAdd (clearedElem 0) { p := 0, e := 0, isNan := true }

end Sys2Proof.Claims

/-- R213-R216: `lease` queues a request of 1 to 64 commands with d owed, and any other raises 0x17; `lrel` ends the claim,
a queued request with its destination, and raises 0x17 with none; `lstat` gives the lease word, every field of it. A free array
is granted to the head of the first queue from the core after the last holder's, d holding the lease word; a
holder that has been idle for 4,096 core cycles while another waits becomes SPENT. -/
def Obligations.LeasesAndArrayCommands : Prop :=
  (∀ (d a : Reg) (la : Bool) (s : State), usable s [a] [d] = true →
      (1 ≤ (val s a).toNat → (val s a).toNat ≤ 64 → (s.slot s.focus).lease = .none →
        ∃ t, exec (.lease d a la) s = .next t ∧ (t.slot s.focus).lease = .queued ∧ (t.slot s.focus).budget = (val s a).toNat
          ∧ (t.slot s.focus).leaseDst = (if d = 0 then [] else [(s.slot s.focus).loc d])
          ∧ (t.tile (tileOfSlot s.focus)).requests (coreOfSlot s.focus % 4)
              = (s.tile (tileOfSlot s.focus)).requests (coreOfSlot s.focus % 4) ++ [(s.focus, (val s a).toNat)]
          ∧ (t.slot s.focus).pc = pcOf s + 4 ∧ t.pool = s.pool ∧ (∀ m, m ≠ s.focus → t.slot m = s.slot m)
          ∧ ∀ l, (t.slot s.focus).cell l = cellOwing (s.slot s.focus) [(a, la)] [d] l)
      ∧ (plainUser s s.focus = true → ((val s a).toNat = 0 ∨ 64 < (val s a).toNat ∨ (s.slot s.focus).lease ≠ .none) →
        ∃ t, exec (.lease d a la) s = .next t ∧ entersHandler s t s.focus 0x17 (pcOf s) (Instr.lease d a la).word))
  ∧ (∀ (s : State), ((s.slot s.focus).lease = .held ∨ (s.slot s.focus).lease = .spent) → (s.slot s.focus).leaseDst = [] →
      ∃ t, exec .lrel s = .next t ∧ (t.slot s.focus).lease = .none ∧ (t.slot s.focus).budget = 0 ∧ (t.slot s.focus).remain = 0
        ∧ (t.slot s.focus).pc = pcOf s + 4 ∧ (∀ l, (t.slot s.focus).cell l = (s.slot s.focus).cell l)
        ∧ ((s.slot s.focus).lease = .held → (t.tile (tileOfSlot s.focus)).holder = none)
        ∧ ((s.slot s.focus).lease = .spent → t.tiles = s.tiles))
  ∧ (∀ (s : State), (s.slot s.focus).lease = .queued →
      ∃ t, exec .lrel s = .next t ∧ (t.slot s.focus).lease = .none ∧ (t.slot s.focus).pc = pcOf s + 4
        ∧ (t.tile (tileOfSlot s.focus)).requests (coreOfSlot s.focus % 4)
            = ((s.tile (tileOfSlot s.focus)).requests (coreOfSlot s.focus % 4)).filter (fun e => e.1 != s.focus)
        ∧ ∀ l, (s.slot s.focus).leaseDst = [l] → (s.slot s.focus).leafOf l = .full →
            (t.slot s.focus).cell l = { val := leaseBits s s.focus .none 0 0, pres := .full, owed := false })
  ∧ (∀ (s : State), (s.slot s.focus).lease = .none → plainUser s s.focus = true →
      ∃ t, exec .lrel s = .next t ∧ entersHandler s t s.focus 0x17 (pcOf s) Instr.lrel.word)
  ∧ (∀ (d : Reg) (s : State), usable s [] [d] = true →
      ∃ t, exec (.lstat d) s = .next t ∧ gives s t []
        [(d, leaseBits s s.focus (s.slot s.focus).lease (s.slot s.focus).budget (s.slot s.focus).remain)] (pcOf s + 4))
  ∧ (∀ (s : State) (tile n budget c : Nat) (rest : List (Nat × Nat)), (s.tile tile).holder = none → c < 4 →
      ([((s.tile tile).lastGrant + 1) % 4, ((s.tile tile).lastGrant + 2) % 4, ((s.tile tile).lastGrant + 3) % 4,
        (s.tile tile).lastGrant % 4].find? fun k => (s.tile tile).requests k != []) = some c →
      (s.tile tile).requests c = (n, budget) :: rest →
      ∃ t, exec (.leaseGrant tile) s = .next t ∧ (t.tile tile).holder = some n ∧ (t.tile tile).requests c = rest
        ∧ (t.slot n).lease = .held ∧ (t.slot n).remain = budget ∧ t.pool = s.pool ∧ (∀ m, m ≠ n → t.slot m = s.slot m)
        ∧ ∀ l, (s.slot n).leaseDst = [l] → (s.slot n).leafOf l = .full →
            (t.slot n).cell l = { val := leaseBits t n .held (s.slot n).budget budget, pres := .full, owed := false })
  ∧ (∀ (s : State) (tile n : Nat), (s.tile tile).holder = some n → tileOfSlot n = tile → (s.tile tile).anyRequest = true →
      (s.tile tile).idleFrom + 4096 ≤ (s.core (coreOfSlot n)).clock →
      ∃ t, exec (.leaseIdleTimeout tile) s = .next t ∧ (t.tile tile).holder = none
        ∧ t.slot n = { s.slot n with lease := .spent, remain := 0 })

/-- R66-R68, R218, R225-R227: the tile fetch unit gives an accepted command the lowest line that it lacks, as its bytes stand
at their homes; that the lines which the running operation pinned first give way to a further one is the model's reading
(DEDUCED, log 56). A matrix command whose lines have all been read adds, to each element of its accumulator tile or tiles, the
block products of its row and column in ascending k, from the cleared state for the forms that clear; no other accumulator
changes. -/
def Obligations.MatrixCommandsAddTheirBlocks : Prop :=
  (∀ form ∈ matrixForms, ∀ (d a b : Reg) (la lb : Bool) (tile : Nat) (o : ArrayOp) (s : State), arrayAt s tile o →
    tileOfSlot o.slot = tile → o.instr = some (form.1 d a b la lb) → o.lineTotal ≤ o.lines.length →
    storeWf clearedElem s.acc = true →
    ∃ t, exec (.matrixCommand tile) s = .next t
      ∧ (∀ i j, i < o.size → j < o.size →
          (let acc := accOf o form.2.1 i j
           let before := if form.2.2 then clearedElem 0 else s.accElem tile acc (i % 64) (j % 64)
           let blocks := blockProducts o.fmtA o.fmtB (o.blocks true i) (o.blocks false j)
           t.accElem tile acc (i % 64) (j % 64) = blocks.foldl accAdd before))
      ∧ (∀ other acc row col, acc < 4 → row < 64 → col < 64 →
          (other ≠ tile ∨ (form.2.1 = false ∧ acc ≠ selAcc o.sel)) →
          t.accElem other acc row col = s.accElem other acc row col)
      ∧ t.pool = s.pool ∧ t.hbm = s.hbm ∧ t.slots = s.slots)
  ∧ (∀ (s s1 s2 : State) (tile k : Nat) (o : ArrayOp) (rest : List ArrayOp) (bs : List Byte) (pinned : List Nat),
    (s.tile tile).arrayOps = o :: rest → o.done = false → o.lines.length < o.lineTotal → k < o.lineTotal →
    (∀ e ∈ o.lines, e.1 ≠ k) → (∀ m, m < k → ∃ e ∈ o.lines, e.1 = m) →
    s.pageBytes (s.slot o.slot).job tile o.pages (o.lineSpan k).1 (o.lineSpan k).2 = some (bs, s1) →
    s1.pinKeys true (s.lineKeys (s.slot o.slot).job (o.lineSpan k).1 (o.lineSpan k).2) o.pinned = some (s2, pinned) →
    ∃ t, exec (.tileFetchLine tile) s = .next t
      ∧ (t.tile tile).arrayOps = { o with lines := o.lines ++ [(k, bs)], pinned := pinned } :: rest
      ∧ t.pool = s.pool ∧ t.acc = s.acc ∧ t.slots = s.slots)

/-- R70, R226, R231-R236: `acc.rd` writes each element's readout under its row's and column's scale, 1.0 for a pointer of 0,
and `acc.rdq` quantises those of a row sixteen at a time; `acc.ld` replaces each element by the value of an FP32 one;
`acc.clr` clears its accumulator tile, `acc.sv` and `acc.rs` move elements of 20 bytes to and from the scratchpad; `acc.st`
reads out its whole tile, and its stores leave one by one and count in opc and odc. A finished operation lands its selector in
d, or that is held until d's leaf is FULL, and its flags in fsr, and posts its message if NOTIFY is set. That the scales are
read before any element is written is the model's choice (log 46). -/
def Obligations.AccumulatorOperations : Prop :=
  (∀ (s : State) (tile : Nat) (o : ArrayOp) (d : Reg), accReady s tile o → o.instr = some (.accClr d) →
    storeWf clearedElem s.acc = true →
    ∃ t, exec (.accOperation tile) s = .next t ∧ t.pool = s.pool ∧ arrayDone s t tile o 0 noFlags
      ∧ ∀ other acc row col, acc < 4 → row < 64 → col < 64 → t.accElem other acc row col =
          if other = tile ∧ (selWide o.sel = true ∨ acc = selAcc o.sel) then clearedElem 0 else s.accElem other acc row col)
  ∧ (∀ (s u : State) (tile : Nat) (o : ArrayOp) (d a : Reg) (la : Bool) (rs cs : List FVal), accReady s tile o →
    (let td := tileDesc o.a
     let c := coreOfSlot o.slot
     let value := readoutAt s tile o rs cs
     scalesRead s o td.rows td.cols rs cs u → (td.rows = 1 ∨ td.width ≤ td.stride) →
     (o.instr = some (.accRd d a la) → td.fmt = 0 → ∃ t fl, exec (.accOperation tile) s = .next t ∧ t.acc = s.acc
        ∧ (∀ i j, i < td.rows → j < td.cols → tileElement t.pool c td i j = (value i j).bits % 2 ^ 32)
        ∧ (∀ p, (∀ i, i < td.rows → p < poolAt c (td.row i) ∨ poolAt c (td.row i) + td.width ≤ p) → t.pool.byte p = s.pool.byte p)
        ∧ arrayDone s t tile o 0 fl ∧ ∀ k, fl.getLsbD k = true ↔ ∃ i, i < td.rows ∧ ∃ j, j < td.cols
            ∧ (value i j).flags.getLsbD k = true)
     ∧ (o.instr = some (.accRdq d a la) → isQuireCode td.fmt = true →
        (let q (i k : Nat) : Quire × FlagSet := quantise (quireWidth td.fmt)
           ((List.range 16).map fun e => fp32.value (value i (16 * k + e)).bits)
         16 * (td.cols / 16) = td.cols → ∃ t fl, exec (.accOperation tile) s = .next t ∧ t.acc = s.acc
          ∧ (∀ i k, i < td.rows → k < td.cols / 16 →
              t.pool.bytes (poolAt c (td.row i + quireBytes td.fmt * k)) (quireBytes td.fmt)
                = (q i k).1.bytes (quireWidth td.fmt) (quireBytes td.fmt))
          ∧ (∀ p, (∀ i, i < td.rows → p < poolAt c (td.row i) ∨ poolAt c (td.row i) + td.width ≤ p) →
              t.pool.byte p = s.pool.byte p)
          ∧ arrayDone s t tile o 0 fl
          ∧ ∀ k, fl.getLsbD k = true ↔ (∃ i, i < td.rows ∧ ∃ j, j < td.cols ∧ (value i j).flags.getLsbD k = true)
              ∨ ∃ i, i < td.rows ∧ ∃ j, j < td.cols / 16 ∧ (q i j).2.getLsbD k = true))))
  ∧ (∀ (s u : State) (tile : Nat) (o : ArrayOp) (a b d : Reg) (la lb : Bool) (rs cs : List FVal), accReady s tile o →
    o.instr = some (.accSt d a b la lb) → scalesRead s o 64 64 rs cs u →
    (let value := readoutAt s tile o rs cs
     ∃ t fl, exec (.accOperation tile) s = .next t ∧ t.acc = s.acc ∧ t.pool = s.pool ∧ t.slots = s.slots
      ∧ arrayAt t tile { o with
          stores := (List.range 64).flatMap fun r => wordPieces (o.a.toNat + r * o.b.toNat)
            ((List.range 64).flatMap fun j => bytesOfNat 4 (value r j).bits)
          flags := fl }
      ∧ ∀ k, fl.getLsbD k = true ↔ ∃ i, i < 64 ∧ ∃ j, j < 64 ∧ (value i j).flags.getLsbD k = true))
  ∧ (∀ (s : State) (o : ArrayOp) (p : Word) (i count : Nat),
      s.scales o 0 i count = some (List.replicate count (.fin false 1 0), s)
      ∧ (region p = 0xF0 → s.scales o p i count = some ((List.range count).map fun k =>
          fp32.value (natOfBytes (s.pool.bytes (poolAt (coreOfSlot o.slot) (p.toNat % 2 ^ 18 + 4 * (i + k))) 4)), s)))
  ∧ (∀ (e : AccElem) (r c : FVal),
      (e.nan = true → accRead e r c = { bits := 0x7FC00000, flags := flagNV })
      ∧ (e.nan = false → e.isEmpty = true → accRead e r c = { bits := 0, flags := if e.nx then flagNX else noFlags }))
  ∧ (∀ (s : State) (tile : Nat) (o : ArrayOp) (d a : Reg) (la : Bool), accReady s tile o → o.instr = some (.accLd d a la) →
    storeWf clearedElem s.acc = true →
    (let td := tileDesc o.a
     let source (i j : Nat) : Nat := tileElement s.pool (coreOfSlot o.slot) td i j
     td.fmt = 0 → selRow o.sel + td.rows ≤ 64 → selCol o.sel + td.cols ≤ 64 →
     ∃ t status fl, exec (.accOperation tile) s = .next t ∧ t.pool = s.pool ∧ arrayDone s t tile o status fl
      ∧ (∀ i j, i < td.rows → j < td.cols →
          t.accElem tile (selAcc o.sel) (selRow o.sel + i) (selCol o.sel + j) = loadedElement (source i j))
      ∧ (∀ other acc row col, acc < 4 → row < 64 → col < 64 →
          (other ≠ tile ∨ acc ≠ selAcc o.sel ∨ row < selRow o.sel ∨ selRow o.sel + td.rows ≤ row ∨ col < selCol o.sel
            ∨ selCol o.sel + td.cols ≤ col) → t.accElem other acc row col = s.accElem other acc row col)
      ∧ (∀ k, fl.getLsbD k = true ↔ flagNV.getLsbD k = true ∧ ∃ i, i < td.rows ∧ ∃ j, j < td.cols
          ∧ (fp32.value (source i j) = .nan true ∨ fp32.value (source i j) = .inf true ∨ fp32.value (source i j) = .inf false))
      ∧ (status = 0 ∨ status = 2) ∧ (status = 2 ↔ ∃ i, i < td.rows ∧ ∃ j, j < td.cols ∧ (loadedElement (source i j)).nan = true
          ∧ (s.accElem tile (selAcc o.sel) (selRow o.sel + i) (selCol o.sel + j)).nan = false)))
  ∧ (∀ (s : State) (tile : Nat) (o : ArrayOp) (d a b : Reg) (la lb : Bool), accReady s tile o → selRow o.sel + o.b.toNat ≤ 64 →
    (let at_ := poolAt (coreOfSlot o.slot) (o.a.toNat % 2 ^ 18)
     (o.instr = some (.accSv d a b la lb) → ∃ t, exec (.accOperation tile) s = .next t ∧ t.acc = s.acc ∧ t.slots = s.slots
      ∧ (∀ row col, row < o.b.toNat → col < 64 → t.pool.bytes (at_ + 20 * (64 * row + col)) 20
          = (s.accElem tile (selAcc o.sel) (selRow o.sel + row) col).bytes)
      ∧ ∀ p, p < at_ ∨ at_ + 1280 * o.b.toNat ≤ p → t.pool.byte p = s.pool.byte p)
     ∧ (o.instr = some (.accRs d a b la lb) → ∃ t, exec (.accOperation tile) s = .next t ∧ t.pool = s.pool
      ∧ t.slots = s.slots ∧ ∀ row col, row < o.b.toNat → col < 64 →
          t.accElem tile (selAcc o.sel) (selRow o.sel + row) col
            = accElemOf (s.pool.bytes (at_ + 20 * (64 * row + col)) 20))))
  ∧ (∀ (s : State) (tile va : Nat) (bs : List Byte) (rest : List (Nat × List Byte)) (o : ArrayOp), arrayAt s tile o →
    o.stores = (va, bs) :: rest → (s.slot o.slot).opc < 32 →
    ∃ t p, exec (.accStStore tile) s = .next t ∧ t.net = s.net ++ [.store p] ∧ p.va = va ∧ p.bytes = bs ∧ p.array = true
      ∧ t.slot o.slot = { s.slot o.slot with opc := (s.slot o.slot).opc + 1, odc := (s.slot o.slot).odc + 1 }
      ∧ arrayAt t tile { o with stores := rest, sent := o.sent + 1 } ∧ t.pool = s.pool)
  ∧ (∀ (s : State) (tile : Nat) (o : ArrayOp) (rest : List ArrayOp), (s.tile tile).arrayOps = o :: rest → o.done = true →
    o.instr.isSome = true →
    ∃ t, exec (.arrayOpComplete tile) s = .next t ∧ (t.tile tile).arrayOps = rest ∧ t.pool = s.pool
      ∧ ((s.slot o.slot).landable o.dst = true → landed (s.slot o.slot) (t.slot o.slot) o.dst [o.sel] o.flags)
      ∧ (∀ l, o.dst = [l] → (s.slot o.slot).leafOf l ≠ .full → heldBack (s.slot o.slot) (t.slot o.slot) l o.sel o.flags)
      ∧ (o.sel.getLsbD 7 = false → t.net = s.net)
      ∧ (o.sel.getLsbD 7 = true → ∃ p, t.net = s.net ++ [.message p] ∧ p.w1 = BitVec.ofNat 64 s.cyc
          ∧ p.w0.setWidth 8 = 2#8 ∧ p.w0.extractLsb' 8 8 = o.status ∧ p.w0.extractLsb' 32 32 = o.sel.extractLsb' 32 32))

/-! ## Copies (R46, R171, R238-R244) -/

/-- R46, R171, R239, R240, R243: `cp` and `cp.net` whose block passes its checks are accepted: d has the copy's id, and the
copy slot of the core holds the copy with nothing delivered. `cp.stat` gives what is left of a running copy and 0 for any
other; `cp.cancel` marks it and owes d, or gives all ones at once where it does not run. The copy slot reads a sector of 48
bytes, or the residue, whole and then writes it, and no other byte, when each other copy still gets its own within four turns;
an acknowledged sector counts against the copy's barrier; a copy that has stopped with all its sectors acknowledged posts its
message and, with a handler pc, joins the handler list of its slot; the notice of a page fault lets a waiting copy continue.
Readings and choices of the model it rests on: log 37, 70. -/
def Obligations.Copies : Prop :=
  ((∀ (d a : Reg) (la net : Bool) (ws : List Word) (s : State), usable s [a] [d] = true →
      s.readBlock s.focus (val s a) 8 = .ok [] [] ws [] →
      (let i : Instr := if net then .cpNet d a la else .cp d a la
       let k := copyBlock ws
       let c := coreOfSlot s.focus
       let id := (s.core c).nextCopy
       s.copyFault s.focus k net i.word = none → (∀ e ∈ k.spans net, region e.word ≠ 0xF3) →
       mayRelease s → (s.core c).copies.length + ((s.slot s.focus).handlers.filter fun h => h.core != c).length < 16 →
       ∃ t x, exec i s = .next t ∧ (t.core c).copies = (s.core c).copies ++ [x]
        ∧ x.id = id ∧ x.slot = s.focus ∧ x.src = ws.getD 0 0 ∧ x.dst = ws.getD 1 0 ∧ x.bytes = (ws.getD 2 0).toNat
        ∧ x.rows = (ws.getD 3 0).toNat ∧ x.sstride = (ws.getD 4 0).toNat ∧ x.dstride = (ws.getD 5 0).toNat
        ∧ x.bar = ws.getD 6 0 ∧ x.hpc = ws.getD 7 0 ∧ x.net = net ∧ x.delivered = 0 ∧ x.acked = 0
        ∧ (t.core c).nextCopy = (if id + 1 = 0 then 1 else id + 1)
        ∧ t.pool = s.pool ∧ t.hbm = s.hbm ∧ t.net = s.net ∧ (∀ m, m ≠ s.focus → t.slot m = s.slot m)
        ∧ retired (s.slot s.focus) (t.slot s.focus) (pcOf s + 4)
        ∧ ∀ l, (t.slot s.focus).cell l = cellAfter (s.slot s.focus) [(a, la)] [(d, id.setWidth 64)] l))
    ∧ (∀ (d a : Reg) (la : Bool) (s : State), usable s [a] [d] = true →
      (let running := (s.core (coreOfSlot s.focus)).copies.find? fun x => x.id == (val s a).setWidth 32 && !x.posted
       (running = none →
        (∃ t, exec (.cpStat d a la) s = .next t ∧ gives s t [(a, la)] [(d, 0)] (pcOf s + 4))
        ∧ ∃ t, exec (.cpCancel d a la) s = .next t ∧ gives s t [(a, la)] [(d, BitVec.allOnes 64)] (pcOf s + 4))
       ∧ (∀ x, running = some x →
        (∃ t, exec (.cpStat d a la) s = .next t
          ∧ gives s t [(a, la)] [(d, BitVec.ofNat 64 ((if x.cancelling then 3 else if x.delivered = 0 then 1 else 2) * 2 ^ 62
              + (x.bytes * x.rows - x.delivered)))] (pcOf s + 4))
        ∧ ∃ t, exec (.cpCancel d a la) s = .next t ∧ (t.slot s.focus).pc = pcOf s + 4 ∧ t.pool = s.pool
          ∧ (∀ l, (t.slot s.focus).cell l = cellOwing (s.slot s.focus) [(a, la)] [d] l)
          ∧ ((t.core (coreOfSlot s.focus)).copies.find? fun y => y.id == (val s a).setWidth 32 && !y.posted)
              = some { x with cancelling := true, cancels := x.cancels
                  ++ (if d = 0 then [] else [(s.focus, (s.slot s.focus).loc d)]) }))))
  ∧ ((∀ (s : State) (c : Nat) (id : BitVec 32) (x : Copy), (s.core c).running id = some x → x.stopped = false → x.fault = none →
      s.suspended x = false → s.copyTurn c x = true → x.net = false → s.sectorTry c x .none = .ok → s.copyFair c x = true →
      (let row := x.delivered / x.bytes
       let col := x.delivered % x.bytes
       let n := min 48 (x.bytes * x.rows - x.delivered)
       let src := x.src + BitVec.ofNat 64 (row * x.sstride) + BitVec.ofNat 64 col
       let dst := x.dst + BitVec.ofNat 64 (row * x.dstride) + BitVec.ofNat 64 col
       col + n ≤ x.bytes → region src = 0xF0 → region dst = 0xF0 →
       ∃ t, exec (.copySector c id .none) s = .next t
        ∧ t.pool = s.pool.setBytes (poolAt c (dst.toNat % 2 ^ 18)) (s.pool.bytes (poolAt c (src.toNat % 2 ^ 18)) n)
        ∧ t.hbm = s.hbm ∧ t.slots = s.slots ∧ ∃ y, (t.core c).running id = some y ∧ y.delivered = x.delivered + n))
    ∧ (∀ (s : State) (c : Nat) (id : BitVec 32) (x : Copy), (s.core c).running id = some x → x.acked < x.delivered →
      s.revoking x (x.sector x.acked) = false →
      (let n := min 48 (x.bytes * x.rows - x.acked)
       (x.bar = 0 → ∃ t, exec (.copySectorAck c id) s = .next t ∧ t.pool = s.pool ∧ t.slots = s.slots
        ∧ ∃ y, (t.core c).running id = some y ∧ y.acked = x.acked + n)
       ∧ (region x.bar = 0xF0 → s.scratchLeaf c (x.bar.toNat % 2 ^ 18) = .full →
        s.busyFor c (x.bar.toNat % 2 ^ 18) 16 c id none = false →
        (let at_ := poolAt c (x.bar.toNat % 2 ^ 18)
         ∃ t, exec (.copySectorAck c id) s = .next t
          ∧ t.pool.word at_ = counted (s.pool.word at_) (s.pool.word (at_ + 8)) false (-(BitVec.ofNat 32 n))
          ∧ (∀ p, p < at_ ∨ at_ + 8 ≤ p → t.pool.byte p = s.pool.byte p)
          ∧ ∃ y, (t.core c).running id = some y ∧ y.acked = x.acked + n))))
    ∧ (∀ (s : State) (c : Nat) (id : BitVec 32) (x : Copy) (seq : Nat) (refused : Bool), (s.core c).running id = some x →
      x.fault = some seq → x.notice = some refused →
      ∃ t y, exec (.copyFaultResume c id) s = .next t ∧ t.pool = s.pool ∧ t.slots = s.slots ∧ (t.core c).running id = some y
        ∧ y.fault = none ∧ y.status = (if refused = true ∧ x.status = none then some 9 else x.status))
    ∧ (∀ (s : State) (c : Nat) (id : BitVec 32) (x : Copy), (s.core c).running id = some x → x.stopped = true →
      x.acked = x.delivered → x.net = false → x.cancels = [] →
      ∃ t p, exec (.copyComplete c id) s = .next t ∧ t.pool = s.pool ∧ t.net = s.net ++ [.message p]
        ∧ p.core = coreOfSlot x.slot ∧ p.w1 = BitVec.ofNat 64 x.delivered ∧ p.w0.setWidth 8 = 1#8
        ∧ p.w0.extractLsb' 8 8 = x.finalStatus ∧ p.w0.extractLsb' 32 32 = id
        ∧ (x.hpc = 0 → (t.core c).copies = (s.core c).copies.erase x ∧ t.slots = s.slots)
        ∧ (x.hpc ≠ 0 → (t.slot x.slot).handlers = (s.slot x.slot).handlers ++ [{ id := id, hpc := x.hpc, core := c }])))

/-! ## Pipelines and the managed heap (R262-R274, R301-R303) -/

namespace Sys2Proof.Claims

/-- The issuing slot retires at the next instruction; some places of its registers take values, and of the rest those named
with their last-use bit are DEAD. -/
def lands (s t : State) (reads : List (Reg × Bool)) (sets : List (RegLoc × Word)) : Prop :=
  retired { s.slot s.focus with href := (t.slot s.focus).href } (t.slot s.focus) (pcOf s + 4)
    ∧ ∀ l, (t.slot s.focus).cell l = match sets.find? fun e => e.1 == l with
      | some e => { val := e.2, pres := .full, owed := false }
      | none => cellAfter (s.slot s.focus) reads [] l

/-- Of memory, sectors, jobs, tiles and the other slots nothing differs. -/
def keepsOthers (s t : State) : Prop :=
  t.pool = s.pool ∧ t.hbm = s.hbm ∧ t.host = s.host ∧ t.l2 = s.l2 ∧ t.tiles = s.tiles ∧ t.jobs = s.jobs
    ∧ ∀ m, m ≠ s.focus → t.slot m = s.slot m

/-- A stage descriptor in the core's own scratchpad that meets R262: its entry, mask and id (R95, R262). -/
def descriptor (s : State) (a : Word) (off : Nat) (entry : Word) (mask : BitVec 32) (id : BitVec 8) : Prop :=
  region a = 0xF0 ∧ ownScratch s a 0 16 off ∧ served s off 16 true ∧ s.pool.word (own s off) = entry
    ∧ s.pool.word (own s off + 8) = id.setWidth 64 <<< 32 ||| mask.setWidth 64
    ∧ mask.getLsbD 0 = false ∧ onesBelow (mask.setWidth 64) 64 ≤ 8

/-- A reference names an object of a page that is not FROM, which the core caches as the tables hold it, and is at most one
epoch behind it (R267, R269, R301). -/
def refersTo (s : State) (r : Word) (o : Nat) (p : HeapPage) : Prop :=
  r ≠ 0 ∧ region r = 0xF2 ∧ r.toNat % 16 = 0 ∧ o = s.pkgid.toNat * 2 ^ 50 + r.toNat / 16 % 2 ^ 44 * 16
    ∧ s.heapPage s.focus o = some p ∧ (∃ e, s.heapLeaf o = some e ∧ e.2.hstate = p.hstate ∧ e.2.epoch = p.epoch)
    ∧ p.hstate ≠ 1 ∧ (p.epoch - r.extractLsb' 52 4).toNat < 2

/-- A reference register can be read and written at once (R17, R23). -/
def hready (s : State) (h : HReg) : Prop :=
  ((s.slot s.focus).cell (.href h.toNat)).pres = .full ∧ ((s.slot s.focus).cell (.href h.toNat)).owed = false

/-- The reference in a register. -/
def refIn (s : State) (h : HReg) : Word := ((s.slot s.focus).cell (.href h.toNat)).val

/-- The header of an object is at its home and can be read there by the issuing slot (R268, R269). -/
def headerAt (s : State) (o : Nat) (k : AccKind) (x : Sector) : Prop :=
  s.permits (coreOfSlot s.focus) (s.slot s.focus).job k o = true ∧ s.storeComing s.focus o 16 = false
    ∧ heldAt s (s.homeOf (s.slot s.focus).job o) o k none x

/-- Word `i` of a header (R268). -/
def headerWord (x : Sector) (o i : Nat) : Word := BitVec.ofNat 64 (natOfBytes (bytesIn x (o + 8 * i) 8))

/-- An offset of an object's body names one of its words, which the issuing slot may access; an object lies in one page, and no
store of the slot is held for the word (R268, R270, R271). -/
def bodyWord (s : State) (o f : Nat) (x : Sector) (k : AccKind) : Prop :=
  headerAt s o .read x ∧ f % 8 = 0 ∧ f + 8 ≤ ((headerWord x o 0).extractLsb' 32 32).toNat ∧ o + 16 + f + 8 ≤ 2 ^ 56
    ∧ (o + 16 + f) / 65536 = o / 65536 ∧ s.holdsStore s.focus o f = false
    ∧ s.permits (coreOfSlot s.focus) (s.slot s.focus).job k (o + 16 + f) = true

/-- A word of the issuing core's L1 (R279). -/
def inL1 (s : State) (va : Nat) : Option (List Byte) := s.l1Read (coreOfSlot s.focus) (va / 8) (va % 8) 8

/-- Packets are the stores of one slot, one after the other from an address, each up to the end of its sector; together they
carry some bytes, and the last bytes are left over (R280). -/
def storeRun (n : Nat) : Nat → List Packet → List Byte → List Byte → Prop
  | _, [], bs, left => bs = left
  | va, .store p :: rest, bs, left => p.slot = n ∧ p.va = va ∧ p.retire = none ∧ bs ≠ []
      ∧ p.bytes = bs.take (sectorStart va + sectorLen va - va)
      ∧ storeRun n (va + p.bytes.length) rest (bs.drop p.bytes.length) left
  | _, _ :: _, _, _ => False

/-- The sectors that a number of bytes from an address on touch (R280). -/
def sectorCount (va n : Nat) : Nat := (List.range n).countP fun k => k == 0 || va + k == sectorStart (va + k)

/-- A load of a body word: from the L1 at once, else its request is sent (R270). -/
def loadsWord (s : State) (i : Instr) (va : Nat) (reads : List (Reg × Bool)) (dst : List RegLoc) : Prop :=
  (∀ bs, s.l1Hit s.focus va 8 = some bs → ∃ t, exec i s = .next t ∧ keepsOthers s t ∧ t.net = s.net
    ∧ lands s t reads (dst.map (·, BitVec.ofNat 64 (natOfBytes bs))))
  ∧ (s.l1Hit s.focus va 8 = none → ∃ t p, exec i s = .next t ∧ keepsOthers s t ∧ t.net = s.net ++ [.load p] ∧ p.slot = s.focus
    ∧ p.va = va ∧ p.size = 8 ∧ p.dst = dst ∧ (inL1 s va = none → (t.slot s.focus).pc = pcOf s))

/-- A store of a body word, with the word in the L1: it retires at once, counted, and goes to its home (R134, R136, R270). -/
def storesWord (s : State) (i : Instr) (va : Nat) (v : Word) (reads : List (Reg × Bool)) : Prop :=
  (∀ bs, inL1 s va = some bs → ∃ t p, exec i s = .next t ∧ keepsOthers s t ∧ t.net = s.net ++ [.store p] ∧ p.slot = s.focus
    ∧ p.va = va ∧ p.bytes = bytesOfNat 8 v.toNat ∧ p.retire = none
    ∧ retired { s.slot s.focus with opc := (s.slot s.focus).opc + 1, odc := (s.slot s.focus).odc + 1 } (t.slot s.focus)
        (pcOf s + 4)
    ∧ ∀ l, (t.slot s.focus).cell l = cellAfter (s.slot s.focus) reads [] l)
  ∧ (inL1 s va = none → ∃ t p, exec i s = .next t ∧ keepsOthers s t ∧ t.net = s.net ++ [.store p] ∧ p.slot = s.focus
    ∧ p.va = va ∧ p.bytes = bytesOfNat 8 v.toNat ∧ (t.slot s.focus).pc = pcOf s)

/-- The range at the head of a die's Calender. -/
def headRange (s : State) (die : BitVec 2) : Option CompactRange := (storeGet noRange s.calenders die.toNat).head?

/-- Device addresses name distinct bytes of the channels (R288). -/
def apartInHbm (s : State) (pas : List Nat) : Prop := (pas.map s.hbmPlace).Nodup

/-- A header with another STATE and FWD, PINS and the first word kept (R268). -/
def headerBytes (w0 w1 : Word) (state : BitVec 2) (fwd : BitVec 44) : List Byte :=
  bytesOfNat 8 w0.toNat ++ bytesOfNat 8 (state ++ 0#2 ++ (w1.extractLsb' 44 16 : BitVec 16) ++ fwd).toNat

end Sys2Proof.Claims

/-- R262-R264, R266: `splice` writes its marker behind the entries of a queue whose write end the slot holds, with an entry
in the splice table; `stage` makes a PARKED thread from its descriptor and gives d the slot, all ones where the core has no
room; `sinh` makes its thread a RUNNING stage; behind a removed stage's marker its input's entries move to its output. -/
def Obligations.Pipelines : Prop :=
  (∀ (a b : Reg) (la lb : Bool) (s : State), usable s [a, b] [] = true →
    (let c := coreOfSlot s.focus
     let q := (val s a).toNat % 16
     let m := val s b
     s.endHolder c q true = some s.focus → m.extractLsb' 60 4 ∈ [1#4, 2#4, 3#4] →
     (s.queue c q).length < 32 → (∀ e ∈ (s.core c).moves, e.target ≠ q) → (s.core c).splices.length < 8 →
     ∃ t, exec (.splice a b la lb) s = .next t ∧ t = { s with slots := t.slots, cores := t.cores }
      ∧ (∀ n, n ≠ s.focus → t.slot n = s.slot n) ∧ (∀ k, k ≠ c → t.core k = s.core k)
      ∧ t.queue c q = s.queue c q ++ [{ val := m, marker := true }] ∧ (∀ k, k ≠ q → t.queue c k = s.queue c k)
      ∧ (t.core c).splices = (s.core c).splices ++ [{ seq := m.extractLsb' 32 12, slot := s.focus, matched := false }]
      ∧ retired (s.slot s.focus) (t.slot s.focus) (pcOf s + 4)
      ∧ ∀ l, (t.slot s.focus).cell l = cellAfter (s.slot s.focus) [(a, la), (b, lb)] [] l))
  ∧ (∀ (d a : Reg) (la : Bool) (off : Nat) (entry : Word) (mask : BitVec 32) (id : BitVec 8) (s : State),
    usable s [a] [d] = true → isUserSlot s.focus = true → descriptor s (val s a) off entry mask id →
    (let c := coreOfSlot s.focus
     (∀ m base, (s.core c).stages.length < 16 → (s.freeSlotsOf c).head? = some m → s.freeWindow c 32 = some base →
      m ≠ s.focus →
      ∃ t, exec (.stage d a la) s = .next t ∧ t.pool = s.pool ∧ t.net = s.net
        ∧ (∀ n, n ≠ s.focus → n ≠ m → t.slot n = s.slot n)
        ∧ (t.slot m).state = .parked ∧ (t.slot m).pc = entry ∧ (t.slot m).winBase = base ∧ (t.slot m).winSize = 32
        ∧ (t.slot m).regs = [] ∧ (t.slot m).job = (s.slot s.focus).job ∧ (t.slot m).fmt0 = (s.slot s.focus).fmt0
        ∧ (t.slot m).fmt1 = (s.slot s.focus).fmt1 ∧ (t.slot m).scl0 = (s.slot s.focus).scl0
        ∧ (t.slot m).scl1 = (s.slot s.focus).scl1 ∧ (t.slot m).frm = (s.slot s.focus).frm
        ∧ (t.slot m).stb = (s.slot s.focus).stb ∧ (t.slot m).ubase = (s.slot s.focus).ubase
        ∧ (t.slot m).umask = (s.slot s.focus).umask
        ∧ (t.core c).stages = (s.core c).stages ++ [{ slot := m, id := id, mask := mask, entry := entry, running := false }]
        ∧ retired (s.slot s.focus) (t.slot s.focus) (pcOf s + 4)
        ∧ ∀ l, (t.slot s.focus).cell l = cellAfter (s.slot s.focus) [(a, la)] [(d, BitVec.ofNat 64 (m % 64))] l)
     ∧ (16 ≤ (s.core c).stages.length ∨ s.freeSlotsOf c = [] ∨ s.freeWindow c 32 = none →
      ∃ t, exec (.stage d a la) s = .next t ∧ gives s t [(a, la)] [(d, BitVec.allOnes 64)] (pcOf s + 4))))
  ∧ (∀ (a : Reg) (la : Bool) (off : Nat) (entry : Word) (mask : BitVec 32) (id : BitVec 8) (s : State),
    usable s [a] [] = true → descriptor s (val s a) off entry mask id →
    (let c := coreOfSlot s.focus
     (∀ e ∈ (s.core c).stages, e.slot ≠ s.focus) → (s.core c).stages.length < 16 →
     ∃ t, exec (.sinh a la) s = .next t ∧ t = { s with slots := t.slots, cores := t.cores }
      ∧ (∀ n, n ≠ s.focus → t.slot n = s.slot n)
      ∧ t.core c = { s.core c with stages := (s.core c).stages
          ++ [{ slot := s.focus, id := id, mask := mask, entry := entry, running := true }] }
      ∧ retired (s.slot s.focus) (t.slot s.focus) (pcOf s + 4)
      ∧ ∀ l, (t.slot s.focus).cell l = cellAfter (s.slot s.focus) [(a, la)] [] l))
  ∧ (∀ (s : State) (c : Nat) (m : QueueMove) (rest : List QueueMove) (e : QEntry) (es : List QEntry),
    (s.core c).moves = m :: rest → m.source ≠ m.target → s.queue c m.source = e :: es → (s.queue c m.target).length < 32 →
    ∃ t, exec (.spliceRemoveMove c) s = .next t ∧ t = { s with cores := t.cores } ∧ t.queue c m.source = es
      ∧ t.queue c m.target = s.queue c m.target ++ [e])

/-- R17, R267-R270: `ldref` and `ldh` load a word of the object that a reference names, `stref` and `sth` store one, `mvref`
moves a reference through the read barrier and `refeq` compares two by the objects they name. Readings and choices of the
model it rests on: log 27. -/
def Obligations.HeapAccesses : Prop :=
  ∀ (s : State) (h : HReg) (o : Nat) (p : HeapPage), hready s h → refersTo s (refIn s h) o p →
    (∀ (d : HReg) (b : Reg) (lb : Bool) (x : Sector), usable s [b] [] = true → hready s d →
      bodyWord s o (val s b).toNat x .read →
      loadsWord s (.ldref d h b lb) (o + 16 + (val s b).toNat) [(b, lb)] [.href d.toNat])
    ∧ (∀ (d : Reg) (imm : BitVec 11) (x : Sector), usable s [] [d] = true → bodyWord s o (8 * imm.toNat) x .read →
      loadsWord s (.ldh d h imm) (o + 16 + 8 * imm.toNat) [] (if d = 0 then [] else [(s.slot s.focus).loc d]))
    ∧ (∀ (b : Reg) (imm : BitVec 11) (x : Sector), usable s [b] [] = true → bodyWord s o (8 * imm.toNat) x .write →
      (s.slot s.focus).opc < 32 → storesWord s (.sth h b imm) (o + 16 + 8 * imm.toNat) (val s b) [])
    ∧ (∀ (a : Reg) (b : HReg) (la : Bool) (x : Sector), usable s [a] [] = true → hready s b →
      (refIn s b = 0 ∨ ∃ o2 p2, refersTo s (refIn s b) o2 p2) → bodyWord s o (val s a).toNat x .write →
      (s.slot s.focus).opc < 32 → storesWord s (.stref h a b la) (o + 16 + (val s a).toNat) (refIn s b) [(a, la)])
    ∧ (∀ (d : HReg) (a : Reg) (la : Bool), usable s [a] [] = true → hready s d →
      (val s a = 0 ∨ ∃ o2 p2, refersTo s (val s a) o2 p2) →
      ∃ t, exec (.mvref d a la) s = .next t ∧ keepsOthers s t ∧ t.net = s.net
        ∧ lands s t [(a, la)] [(.href d.toNat, val s a)])
    ∧ (∀ (d : Reg) (b : HReg), usable s [] [d] = true → hready s b →
      (∀ o2 p2, refersTo s (refIn s b) o2 p2 → ∃ t, exec (.refeq d h b) s = .next t ∧ keepsOthers s t ∧ t.net = s.net
        ∧ retired (s.slot s.focus) (t.slot s.focus) (pcOf s + 4)
        ∧ ∀ l, (t.slot s.focus).cell l = cellAfter (s.slot s.focus) [] [(d, if o = o2 then 1 else 0)] l)
      ∧ (refIn s b = 0 → ∃ t, exec (.refeq d h b) s = .next t ∧ keepsOthers s t ∧ t.net = s.net
        ∧ ∀ l, (t.slot s.focus).cell l = cellAfter (s.slot s.focus) [] [(d, 0)] l))

/-- R136, R267, R268, R272, R273: `newobj` in a NORMAL page of the job gives hd the new reference, moves hbump past the object
and registers the stores of its header and zeroed body, sector by sector as opc has room: with room for all that is left it
retires, else it waits for more; an object that does not fit gives null and changes nothing else. `pin` and `unpin` change
PINS at the header's home by one, within 0 and 65,535, and `pin` gives d the body's address. Readings and choices of the model
it rests on: log 25, 27. -/
def Obligations.HeapAllocationAndPins : Prop :=
  (∀ (d : HReg) (a b : Reg) (la lb : Bool) (p : HeapPage) (x : Sector) (s : State), usable s [a, b] [] = true → hready s d →
    (let o := (s.slot s.focus).hbump.toNat
     let size := ((val s a).toNat + 15) / 16 * 16
     let sofar := (s.slot s.focus).allocated o size
     let bytes := bytesOfNat 8 (size * 2 ^ 32 + (val s b).toNat % 2 ^ 32) ++ List.replicate (8 + size) 0
     let sectors := sectorCount (o + sofar) (16 + size - sofar)
     region (s.slot s.focus).hbump = 0 → s.heapPage s.focus o = some p →
     (size ≤ 65520 → o + 16 + size ≤ (s.slot s.focus).hlim.toNat → o / 65536 = (o + 15 + size) / 65536 → p.hstate = 0 →
      s.permits (coreOfSlot s.focus) (s.slot s.focus).job .write o = true →
      heldAt s (s.homeOf (s.slot s.focus).job o) o .write none x → sofar < 16 + size → (s.slot s.focus).opc < 32 →
      ((s.slot s.focus).opc + sectors ≤ 32 →
       ∃ t run, exec (.newobj d a b la lb) s = .next t ∧ t.net = s.net ++ run
        ∧ storeRun s.focus (o + sofar) run (bytes.drop sofar) []
        ∧ (t.slot s.focus).hbump = BitVec.ofNat 64 (o + 16 + size)
        ∧ (t.slot s.focus).opc = (s.slot s.focus).opc + run.length ∧ (t.slot s.focus).pc = pcOf s + 4
        ∧ (t.slot s.focus).alloc = none ∧ keepsOthers s t
        ∧ ∀ l, (t.slot s.focus).cell l = if l = .href d.toNat then
            { val := 0xF2#8 ++ p.epoch ++ 0#4 ++ BitVec.ofNat 44 (o / 16) ++ 0#4, pres := .full, owed := false }
          else cellAfter (s.slot s.focus) [(a, la), (b, lb)] [] l)
      ∧ (32 < (s.slot s.focus).opc + sectors →
       ∃ t run left, exec (.newobj d a b la lb) s = .next t ∧ t.net = s.net ++ run
        ∧ storeRun s.focus (o + sofar) run (bytes.drop sofar) left ∧ (t.slot s.focus).opc = 32
        ∧ run.length + (s.slot s.focus).opc = 32 ∧ (t.slot s.focus).state = .wait ∧ (t.slot s.focus).pc = pcOf s
        ∧ (t.slot s.focus).allocated o size + left.length = 16 + size
        ∧ (t.slot s.focus).hbump = (s.slot s.focus).hbump ∧ keepsOthers s t
        ∧ ∀ l, (t.slot s.focus).cell l = (s.slot s.focus).cell l))
     ∧ (65520 < size ∨ (s.slot s.focus).hlim.toNat < o + 16 + size ∨ o / 65536 ≠ (o + 15 + size) / 65536 ∨ p.hstate ≠ 0 →
      ∃ t, exec (.newobj d a b la lb) s = .next t ∧ keepsOthers s t ∧ t.net = s.net
        ∧ lands s t [(a, la), (b, lb)] [(.href d.toNat, 0)])))
  ∧ (∀ (h : HReg) (o : Nat) (p : HeapPage) (x : Sector) (s : State), hready s h → refersTo s (refIn s h) o p →
    headerAt s o .atomic x → s.armed o = false → (headerWord x o 1).extractLsb' 62 2 = 0#2 →
    (headerWord x o 1).extractLsb' 60 2 = 0#2 →
    (let w0 := headerWord x o 0
     let w1 := headerWord x o 1
     let pins := (w1.extractLsb' 44 16).toNat
     let key := (s.homeOf (s.slot s.focus).job o).sectorKey o
     let writes (t : State) (w : Word) : Prop :=
       (∃ y, storeGet noSector t.l2 key = some y
          ∧ y.bytes = patched x o (bytesOfNat 8 w0.toNat ++ bytesOfNat 8 w.toNat))
        ∧ (∀ k, k ≠ key → storeGet noSector t.l2 k = storeGet noSector s.l2 k) ∧ t.hbm = s.hbm ∧ t.pool = s.pool
        ∧ ∀ m, m ≠ s.focus → t.slot m = s.slot m
     (∀ d : Reg, usable s [] [d] = true →
      (pins < 65535 → ∃ t, exec (.pin d h) s = .next t ∧ writes t (w1 + 2 ^ 44)
        ∧ (t.slot s.focus).pc = pcOf s + 4
        ∧ ∀ l, (t.slot s.focus).cell l = cellAfter (s.slot s.focus) [] [(d, BitVec.ofNat 64 (o + 16))] l)
      ∧ (pins = 65535 → ∃ t, exec (.pin d h) s = .next t ∧ keepsOthers s t
        ∧ ∀ l, (t.slot s.focus).cell l = cellAfter (s.slot s.focus) [] [(d, 0)] l))
     ∧ (0 < pins → ∃ t, exec (.unpin h) s = .next t ∧ writes t (w1 - 2 ^ 44)
        ∧ retired (s.slot s.focus) (t.slot s.focus) (pcOf s + 4)
        ∧ ∀ l, (t.slot s.focus).cell l = (s.slot s.focus).cell l)
     ∧ (pins = 0 → ∃ t, exec (.unpin h) s = .next t ∧ keepsOthers s t ∧ (t.slot s.focus).pc = pcOf s + 4)))

/-- R274, R301-R303: `hcmp` hands a range to the Calender of its pages' die and owes d, an empty one gives 0 at once. A NORMAL
page at its turn becomes FROM with its epoch raised; a range without pages left lands its count. The object whose turn it is
becomes MOVING, a pinned one is passed over; the relocation leaves its copy in the new place and the object FORWARDED there,
or with a soft error NORMAL as it was and not counted. What an entry that awaits its pre-image holds up waits. Readings and
choices of the model it rests on: log 27. -/
def Obligations.HeapCompaction : Prop :=
  (∀ (d a b : Reg) (la lb : Bool) (va : Nat) (s : State), usable s [a, b] [d] = true →
    s.target s.focus (val s a) 65536 65536 = .global va → (val s b).toNat / 2 ^ 19 = 0 →
    s.rangeFault s.focus va ((val s b).toNat % 2 ^ 16) = none →
    ((val s b).toNat % 2 ^ 16 = 0 → ∃ t, exec (.hcmp d a b la lb) s = .next t
      ∧ gives s t [(a, la), (b, lb)] [(d, 0)] (pcOf s + 4))
    ∧ ((val s b).toNat % 2 ^ 16 ≠ 0 → ∃ t r, exec (.hcmp d a b la lb) s = .next t
      ∧ storeGet noRange t.calenders (s.dieOfPage va) = storeGet noRange s.calenders (s.dieOfPage va) ++ [r]
      ∧ r.slot = s.focus ∧ r.pages = (List.range ((val s b).toNat % 2 ^ 16)).map (fun k => va + 65536 * k)
      ∧ r.targetDie = (if (val s b).getLsbD 18 then some ((val s b).extractLsb' 16 2).toNat else none)
      ∧ r.count = 0 ∧ r.moving = none ∧ r.walk = none ∧ r.dst = (if d = 0 then [] else [(s.slot s.focus).loc d])
      ∧ keepsOthers s t ∧ retired (s.slot s.focus) (t.slot s.focus) (pcOf s + 4)
      ∧ ∀ l, (t.slot s.focus).cell l = cellOwing (s.slot s.focus) [(a, la), (b, lb)] [d] l))
  ∧ (∀ (s : State) (die : BitVec 2) (r : CompactRange), storeWf noSector s.l2 = true → headRange s die = some r →
    r.walk = none → s.rangeWaits r = false →
    (∀ page more at_ l, r.pages = page :: more → s.heapLeaf page = some (at_, l) → l.hstate = 0 →
      ∃ t, exec (.calenderPage die) s = .next t
        ∧ t.physWord at_ = (s.physWord at_ &&& ~~~0x7E00#64) ||| 0x2000#64 ||| ((l.epoch + 1).setWidth 64 <<< 9)
        ∧ headRange t die = some { r with walk := some page } ∧ t.slots = s.slots ∧ t.pool = s.pool)
    ∧ (r.pages = [] → r.toPages = [] → (s.slot r.slot).landable r.dst = true →
      ∃ t, exec (.calenderPage die) s = .next t
        ∧ storeGet noRange t.calenders die.toNat = (storeGet noRange s.calenders die.toNat).drop 1
        ∧ landed (s.slot r.slot) (t.slot r.slot) r.dst (if r.dst = [] then [] else [BitVec.ofNat 64 r.count]) 0
        ∧ t.hbm = s.hbm ∧ t.pool = s.pool))
  ∧ (∀ (s : State) (die : BitVec 2) (soft : Bool) (r : CompactRange) (o at_ : Nat) (l : Translation),
    storeWf noSector s.l2 = true → headRange s die = some r → s.heapLeaf o = some (at_, l) → o % 65536 + 16 ≤ 65536 →
    s.armed o = false →
    (let pa := l.frame + o % 65536
     let w0 : Word := BitVec.ofNat 64 (natOfBytes (s.physBytes pa 8))
     let w1 : Word := BitVec.ofNat 64 (natOfBytes (s.physBytes (pa + 8) 8))
     let size := (w0.extractLsb' 32 32).toNat
     (∀ page more new, r.walk = some o → r.moving = none → s.rangeWaits r = false → r.pages = page :: more → w0 ≠ 0 →
      o + 16 + size ≤ page + 65536 →
      (w1.extractLsb' 62 2 = 0#2 → w1.extractLsb' 44 16 = 0#16 → s.anyStoreTo o (16 + size) = false →
        s.toPlace r (16 + size) (r.targetDie.getD (s.dieOfPage page)) = some new →
        ∃ t, exec (.relocation die soft) s = .next t ∧ t.physBytes pa 16 = headerBytes w0 w1 1#2 (w1.extractLsb' 0 44)
          ∧ (∃ q, headRange t die = some q ∧ q.moving = some (o, new) ∧ q.count = r.count) ∧ t.slots = s.slots)
      ∧ (w1.extractLsb' 62 2 ≠ 2#2 → w1.extractLsb' 44 16 ≠ 0#16 → ∃ t, exec (.relocation die soft) s = .next t
          ∧ headRange t die = some { r with walk := some (o + 16 + size) } ∧ t.slots = s.slots ∧ t.hbm = s.hbm ∧ t.l2 = s.l2))
     ∧ (∀ new, r.moving = some (o, new) → s.armed new = false → r.held = [] →
      (∃ t, exec (.relocation die true) s = .next t ∧ t.physBytes pa 16 = headerBytes w0 w1 0#2 (w1.extractLsb' 0 44)
        ∧ headRange t die = some { r with walk := some (o + 16 + size), moving := none, held := [] } ∧ t.slots = s.slots)
      ∧ ∃ t, exec (.relocation die false) s = .next t
        ∧ headRange t die = some { r with walk := some (o + 16 + size), moving := none, held := [], count := r.count + 1 }
        ∧ t.slots = s.slots
        ∧ ∀ at2 l2, s.heapLeaf new = some (at2, l2) → new % 65536 + 16 + size ≤ 65536 → l2.frame ≠ l.frame →
          apartInHbm s ((List.range 16).map (pa + ·) ++ (List.range (16 + size)).map (l2.frame + new % 65536 + ·)) →
          (let copy := headerBytes w0 0 0#2 0#44 ++ s.heapBytes (o + 16) size
           (s.setHeapBytes r.job new copy).heapLeaf o = some (at_, l) →
           t.physBytes pa 16 = headerBytes w0 w1 2#2 (BitVec.ofNat 44 (new / 16))
            ∧ t.physBytes (l2.frame + new % 65536) (16 + size) = copy))))

/-! ## Territories and the Deckle (R275-R277, R348-R365) -/

namespace Sys2Proof.Claims

/-- A number is the least, or the greatest, that a function takes on a list. -/
def leastOf (f : Nat → Nat) (ts : List Nat) (m : Nat) : Prop := (∃ t ∈ ts, f t = m) ∧ ∀ t ∈ ts, m ≤ f t
/-- The greatest. -/
def greatestOf (f : Nat → Nat) (ts : List Nat) (m : Nat) : Prop := (∃ t ∈ ts, f t = m) ∧ ∀ t ∈ ts, f t ≤ m

/-- The pressure after one sample of a tile (R349). -/
def sampled (s : State) (t : Nat) : Nat :=
  let x := s.tile t
  let arr := (s.core (4 * t)).arrivals.length + (s.core (4 * t)).spill.length
    + ((s.core (4 * t + 1)).arrivals.length + (s.core (4 * t + 1)).spill.length)
    + ((s.core (4 * t + 2)).arrivals.length + (s.core (4 * t + 2)).spill.length)
    + ((s.core (4 * t + 3)).arrivals.length + (s.core (4 * t + 3)).spill.length)
  let d : Int := 16 * (x.seg0.length + x.seg1.length : Nat) + 4 * (if 4095 < arr then 4095 else arr : Nat) + x.bias.toInt
  (7 * x.pressure.toNat + (if d < 0 then 0 else if 65535 < d then 65535 else d.toNat) + 4) / 8

/-- A number saturated to the range of BIAS (R276). -/
def saturated (n : Int) : BitVec 13 := BitVec.ofInt 13 (if n < -4096 then -4096 else if 4095 < n then 4095 else n)

/-- It is the first router cycle of a tile's sub-period, the Deckle runs, and the tile has not decided in this period and is
not locked (R350, R351). -/
def decides (s : State) (y : Nat) : Prop :=
  y < 1024 ∧ s.deckle.getLsbD 63 = true ∧ (s.tile y).decided ≠ s.period + 1 ∧ s.locked y = false
    ∧ s.cyc = s.periodStart + (y % 32 % 3 + 3 * (y / 32 % 3)) * (s.deckle.toNat % 2048 * 2000 / 9)

/-- A tile belongs to a running job (R368). -/
def ofJob (s : State) (t j : Nat) (x : Job) : Prop := (s.tile t).owner = some j ∧ s.job j = some x ∧ x.phase = .running

/-- X, of job A, is the neighbour of Y in a direction, bids for Y and wins: every other neighbour's pressure is lower, or equal
and the neighbour comes later in the order N, E, S, W (R352, R353). -/
def winsBid (s : State) (y x dir a : Nat) (ja : Job) : Prop :=
  dir < 4 ∧ neighbour y dir = some x ∧ ofJob s x a ja ∧ ja.count < ja.ceiling ∧ s.locked x = false
    ∧ (s.tile y).pressure.toNat < (s.tile x).pressure.toNat
    ∧ s.deckle.toNat / 2 ^ 16 % 2 ^ 16 ≤ (s.tile x).pressure.toNat - (s.tile y).pressure.toNat
    ∧ ∀ e u, e < 4 → e ≠ dir → neighbour y e = some u →
        (s.tile u).pressure.toNat < (s.tile x).pressure.toNat
          ∨ ((s.tile u).pressure = (s.tile x).pressure ∧ dir < e)

/-- The grace window in router cycles (R350). -/
def grace (s : State) : Nat := s.deckle.toNat / 2 ^ 32 % 2 ^ 16 * 2000

/-- One more in a counter that saturates at 1,023 (R370). -/
def oneMore (n : BitVec 10) : BitVec 10 := if n = 1023 then 1023 else n + 1

/-- One refusal more of each of the causes that the counts know (R370). -/
def moreFloor (r : Refusals) : Refusals := { r with floor := oneMore r.floor }
/-- For connection. -/
def moreConn (r : Refusals) : Refusals := { r with conn := oneMore r.conn }
/-- For a recent change. -/
def moreRecent (r : Refusals) : Refusals := { r with recent := oneMore r.recent }
/-- For an abort. -/
def moreAbort (r : Refusals) : Refusals := { r with abort := oneMore r.abort }

/-- A tile that has decided in this period, with its refusals counted. -/
def turned (s : State) (y : Nat) (r : Refusals) : Tile := { s.tile y with decided := s.period + 1, refusals := r }

/-- Only tiles differ, and of those only one. -/
def onlyTile (s t : State) (y : Nat) : Prop := t = { s with tiles := t.tiles } ∧ ∀ u, u ≠ y → t.tile u = s.tile u

end Sys2Proof.Claims

/-- R275-R277, R36: `terr` gives the version, index, count and bounding box of the issuing thread's territory; `press` gives
the tile's pressure and sets its bias, saturated, unless a higher core has set it in the same core cycle, of which equal counts of
the cores' clocks are the model's reading (log 6); `pwr` gives pstat. -/
def Obligations.TerritoryInstructions : Prop :=
  (∀ (d : Reg) (j : Job) (s : State) (x0 y0 x1 y1 i : Nat), usable s [] [d] = true → isUserSlot s.focus = true →
    s.job (s.slot s.focus).job = some j →
    (let ts := s.territory (s.slot s.focus).job
     ts.length ≤ 1024 → (∀ t ∈ ts, t < 1024) → leastOf (· % 32) ts x0 → leastOf (· / 32) ts y0 →
     greatestOf (· % 32) ts x1 → greatestOf (· / 32) ts y1 → ts[i]? = some (s.focus / 256) →
     (∀ k, k < i → ts[k]? ≠ some (s.focus / 256)) →
     ∃ t, exec (.terr d) s = .next t
      ∧ gives s t [] [(d, BitVec.ofNat 16 j.version ++ BitVec.ofNat 10 i ++ 0#1 ++ BitVec.ofNat 11 ts.length ++ 0#1
          ++ BitVec.ofNat 5 x0 ++ BitVec.ofNat 5 y0 ++ BitVec.ofNat 5 x1 ++ BitVec.ofNat 5 y1 ++ 0#5)] (pcOf s + 4)))
  ∧ (∀ (d a : Reg) (la : Bool) (s : State), usable s [a] [d] = true →
    ∃ t, exec (.press d a la) s = .next t ∧ t = { s with slots := t.slots, tiles := t.tiles }
      ∧ (∀ n, n ≠ s.focus → t.slot n = s.slot n) ∧ (∀ u, u ≠ s.focus / 256 → t.tile u = s.tile u)
      ∧ (let tile := s.tile (s.focus / 256)
         let c := coreOfSlot s.focus
         let now := (s.core c).clock
         t.tile (s.focus / 256) = if tile.pressed.1 = now ∧ c < tile.pressed.2 then tile
          else { tile with bias := saturated (val s a).toInt, pressed := (now, c) })
      ∧ retired (s.slot s.focus) (t.slot s.focus) (pcOf s + 4)
      ∧ ∀ l, (t.slot s.focus).cell l
          = cellAfter (s.slot s.focus) [(a, la)] [(d, (s.tile (s.focus / 256)).pressure.setWidth 64)] l)
  ∧ (∀ (d : Reg) (s : State), usable s [] [d] = true →
    (let k := s.core (coreOfSlot s.focus)
     ∃ t, exec (.pwr d) s = .next t ∧ gives s t []
        [(d, BitVec.ofNat 64 (256 * k.outn) + (if 0 < k.skip then 2 else 0) + (if k.shape then 1 else 0))] (pcOf s + 4)))

/-- R349, R351-R356, R359, R360: at each multiple of 2,000 router cycles the pressure of an owned tile moves one eighth
towards its demand. In its sub-period a tile takes its winning bid: a free tile, or one of another job that may cede, begins
a cession, with cause 0x11 on the loser's threads there; a refusal is counted and changes nothing else; an idle tile
releases itself. Readings and choices of the model it rests on: log 28. -/
def Obligations.DeckleDecisions : Prop :=
  (∀ s : State, storeWf tileAt s.tiles = true → s.cyc % 2000 = 0 → s.lastSample < s.cyc / 2000 →
    ∃ t, exec .pressureSample s = .next t ∧ t = { s with tiles := t.tiles, lastSample := s.cyc / 2000 }
      ∧ ∀ n, ((s.tile n).owner = none → t.tile n = s.tile n)
        ∧ ((s.tile n).owner ≠ none → (t.tile n).pressure = BitVec.ofNat 16 (sampled s n)
          ∧ (t.tile n).owner = (s.tile n).owner ∧ (t.tile n).bias = (s.tile n).bias))
  ∧ (∀ (s : State) (y x dir a : Nat) (ja : Job), decides s y → winsBid s y x dir a ja →
    ((s.tile y).owner = none → s.stage ≠ .reduced → (s.tile y).changed + 7 < s.period →
      ∃ t z, exec (.deckleDecision y) s = .next t ∧ onlyTile s t y
        ∧ t.tile y = { s.tile y with decided := s.period + 1, cession := some z }
        ∧ z.gainer = some a ∧ z.loser = none ∧ z.bidder = x ∧ z.graceEnd = s.cyc + grace s)
    ∧ (∀ b jb, b ≠ a → ofJob s y b jb →
      (jb.count = jb.floor → ∃ t, exec (.deckleDecision y) s = .next t ∧ onlyTile s t y
        ∧ t.tile y = turned s y (moreFloor (s.tile y).refusals))
      ∧ (jb.count ≠ jb.floor → s.connected b y = false → ∃ t, exec (.deckleDecision y) s = .next t ∧ onlyTile s t y
        ∧ t.tile y = turned s y (moreConn (s.tile y).refusals))
      ∧ (jb.count ≠ jb.floor → s.connected b y = true → s.period ≤ (s.tile y).changed + 7 →
        ∃ t, exec (.deckleDecision y) s = .next t ∧ onlyTile s t y
        ∧ t.tile y = turned s y (moreRecent (s.tile y).refusals))
      ∧ (jb.count ≠ jb.floor → s.connected b y = true → (s.tile y).changed + 7 < s.period → s.heldTile jb y = false →
        s.pinnedTile y = false →
        ∃ t z, exec (.deckleDecision y) s = .next t ∧ (t.tile y).cession = some z ∧ (t.tile y).owner = some b
          ∧ z.gainer = some a ∧ z.loser = some b ∧ z.bidder = x ∧ z.graceEnd = s.cyc + grace s ∧ z.moved = false
          ∧ z.emptied = false ∧ (∀ n, s.heirFor b y = some n → z.heir = n) ∧ t.jobs = s.jobs ∧ t.hbm = s.hbm ∧ t.l2 = s.l2
          ∧ ∀ n, n / 256 = y → isUserSlot n = true → (s.slot n).state ≠ .free → (s.slot n).job = b →
              (t.slot n).pend = (s.slot n).pend ||| 2
                ∧ storeGet noVal (t.slot n).pendVal 1 = BitVec.ofNat 64 (s.cyc + grace s))))
  ∧ (∀ (s : State) (y b : Nat) (jb : Job), decides s y → ofJob s y b jb → s.bestBid y = none → 4 ≤ s.zrunOf y →
    jb.floor < jb.count → s.connected b y = true → (s.tile y).changed + 7 < s.period → s.heldTile jb y = false →
    s.pinnedTile y = false → (∃ d u, d < 4 ∧ neighbour y d = some u ∧ s.isFreeTile u = true) →
    ∃ t z, exec (.deckleDecision y) s = .next t ∧ (t.tile y).cession = some z ∧ (t.tile y).owner = some b
      ∧ z.gainer = none ∧ z.loser = some b)

/-- R360-R365, R370: at the end of G the threads of the losing job begin to move, each whole to a FREE slot of N; once its
tile is quiet it is emptied and scrubbed; the commit gives the tile its new owner with P and bias 0, raises and lowers the
counts and raises both versions, its links empty; past its time the cession aborts, counted, with every owner, count and home table
as it was.
Readings and choices of the model it rests on: log 28. -/
def Obligations.Cessions : Prop :=
  (∀ (s : State) (y b : Nat) (z : Cession), (s.tile y).cession = some z → z.loser = some b →
    (z.moved = false → z.graceEnd ≤ s.cyc → ∃ t, exec (.graceWindowEnd y) s = .next t ∧ onlyTile s t y
      ∧ t.tile y = { s.tile y with cession := some { z with moved := true } })
    ∧ (z.moved = true → z.emptied = false → s.quietTile b y = true → ∃ t, exec (.graceWindowEnd y) s = .next t
      ∧ (t.tile y).cession = some { z with emptied := true } ∧ (t.tile y).owner = (s.tile y).owner
      ∧ (∀ p, p / 2 ^ 20 = y → t.pool.byte p = 0)
      ∧ (∀ n, n / 256 = y → isUserSlot n = true → (t.slot n).state = .free)
      ∧ t.jobs = s.jobs)
    ∧ (∀ n c m base, z.moved = true → z.emptied = false → n / 256 = y → (s.movers b y).head? = some n →
      s.landingCore n z.heir = some c → s.readyToMove n c = true → (s.freeSlotsOf c).head? = some m →
      s.freeWindow c (s.slot n).winSize = some base → (inboxTakes (s.core c).inbox
        ((s.messagesFor n).map fun q => { q with w0 := retag m q.w0, openedBy := none })).isSome = true →
      (s.slot n).waiting = none → (s.slot n).lease = .none →
      ∃ t, exec (.threadMove n) s = .next t ∧ (t.slot n).state = .free
        ∧ (t.slot m).state = (s.slot n).state ∧ (t.slot m).pc = (s.slot n).pc ∧ (t.slot m).job = (s.slot n).job
        ∧ (t.slot m).winBase = base ∧ (t.slot m).winSize = (s.slot n).winSize ∧ (t.slot m).bindings = []
        ∧ (∀ l, (∀ r ∈ (s.slot n).bindings, l ≠ .win r.reg.toNat) → (t.slot m).cell l = (s.slot n).cell l)
        ∧ (∀ r ∈ (s.slot n).bindings, ((t.slot m).cell (.win r.reg.toNat)).pres = .dead)
        ∧ (∀ k, k ≠ n → k ≠ m → t.slot k = s.slot k) ∧ t.pool = s.pool))
  ∧ (∀ (s : State) (y : Nat) (z : Cession), (s.tile y).cession = some z →
    (∀ a b ja jb, z.gainer = some a → z.loser = some b → a ≠ b → s.job a = some ja → s.job b = some jb → z.emptied = true →
      s.cyc ≤ z.graceEnd + 2 * (s.deckle.toNat % 2048 * 2000) → ja.count < ja.ceiling → jb.floor < jb.count →
      ∃ t ja' jb', exec (.cessionCommit y) s = .next t
        ∧ t.tile y = { s.tile y with owner := some a, pressure := 0, bias := 0, changed := s.period, cession := none }
        ∧ (∀ c, c / 4 = y → (t.core c).linkIn = [] ∧ (t.core c).linkOut = [])
        ∧ t.job a = some ja' ∧ ja'.count = ja.count + 1 ∧ ja'.version = (ja.version + 1) % 65536
        ∧ t.job b = some jb' ∧ jb'.count = jb.count - 1 ∧ jb'.version = (jb.version + 1) % 65536
        ∧ t.pool = s.pool)
    ∧ (z.graceEnd + 2 * (s.deckle.toNat % 2048 * 2000) < s.cyc →
      ∃ t, exec (.cessionAbort y) s = .next t
        ∧ t.tile y = { s.tile y with cession := none, refusals := moreAbort (s.tile y).refusals }
        ∧ t.slots = s.slots ∧ (z.loser = none → t.jobs = s.jobs) ∧ (∀ u, (t.tile u).owner = (s.tile u).owner)
        ∧ ∀ j x, s.job j = some x → ∃ x', t.job j = some x' ∧ x'.count = x.count ∧ x'.homeTable = x.homeTable
            ∧ x'.version = x.version ∧ x'.phase = x.phase))

/-! ## Stops, errors and the end of a job (R186, R250, R376-R391, R424) -/

namespace Sys2Proof.Claims

/-- An event about a job that is raised now (R403). -/
def eventNow (s : State) (j code status : Nat) (value : Word) : HostEvent :=
  { job := j, code := BitVec.ofNat 8 code, status := BitVec.ofNat 8 status, value := value, double := false, outer := 0
    cyc := BitVec.ofNat 64 s.cyc }

/-- The event ring of a function takes some more entries: the physical function's always (log 60), another's where its base names a
ring and that has room (R399, R400). -/
def ringTakes (s : State) (v n : Nat) : Prop :=
  v = 64 ∨ ∃ k, 4 ≤ k ∧ k ≤ 12 ∧ (s.tenant v).evbase.toNat % 32 = k
    ∧ ((s.tenant v).evtail - (s.tenant v).evhead).toNat + n ≤ 2 ^ k

/-- The 32 bytes of an event's entry, with its number (R403). -/
def eventEntry (e : HostEvent) (eseq : Nat) : List Byte :=
  bytesOfNat 1 e.code.toNat ++ bytesOfNat 1 e.status.toNat ++ bytesOfNat 1 e.outer.toNat ++ bytesOfNat 3 (if e.double then 1 else 0)
    ++ bytesOfNat 2 e.job ++ bytesOfNat 8 e.value.toNat ++ bytesOfNat 8 e.cyc.toNat ++ bytesOfNat 8 eseq

/-- Some events are raised on a function, in order. With the function paused they stand behind those pending there (R392).
Else, with none pending and room in its ring, they enter the ring, each counted, with an MSI-X message of vector 0; and where
no sector or packet has gone to memory and no other ring has taken an entry, each entry holds its event (R399, R400, R403). -/
def tells (s t : State) (v : Nat) (es : List HostEvent) : Prop :=
  ((s.tenant v).paused = true → (t.tenant v).events = (s.tenant v).events ++ es)
  ∧ ((s.tenant v).paused = false → (s.tenant v).events = [] → ringTakes s v es.length →
      (t.tenant v).events = [] ∧ (t.tenant v).eventCount = (s.tenant v).eventCount + es.length
      ∧ (t.tenant v).evtail = (s.tenant v).evtail + BitVec.ofNat 64 es.length ∧ (es ≠ [] → 0 ∈ (t.tenant v).sentMsix)
      ∧ (t.l2 = s.l2 → (∀ p ∈ s.net, p ∈ t.net) → (∀ w, w ≠ v → (t.tenant w).evtail = (s.tenant w).evtail) →
          (∀ w, (t.tenant w).pgtail = (s.tenant w).pgtail) → (v = 64 → es.length = 1) →
          ∀ i e, es[i]? = some e →
            t.host.bytes (ringAt (s.eventBase v) ((s.tenant v).evtail + BitVec.ofNat 64 i)) 32
              = eventEntry e ((s.tenant v).eventCount + 1 + i)))

/-- A job stands in a phase. -/
def inPhase (s : State) (j : Nat) (p : JobPhase) : Prop := ∃ x, s.job j = some x ∧ x.phase = p

/-- A stop that begins an image (R376). -/
def saves (k : StopKind) : Prop := k = .watermark ∨ k = .preempt

/-- One more in a counter of 8 bits, and of 16, that saturates (R391). -/
def more8 (n : BitVec 8) : BitVec 8 := if n = 255 then 255 else n + 1
/-- Of 16 bits. -/
def more16 (n : BitVec 16) : BitVec 16 := if n = 65535 then 65535 else n + 1

/-- A tile with other error counts. -/
def withErrors (x : Tile) (e : Errors) : Tile := { x with errors := e }

end Sys2Proof.Claims

/-- R250, R348, R363, R403, R416: when nothing of a job is left to run the job ends; its tiles are free and scrubbed, and its
tenant's host receives event 3 with the instructions that its threads have retired. With the last job a stack that has failed
to train fails the bring-up. -/
def Obligations.JobsEnd : Prop :=
  ∀ (s : State) (j : Nat) (x : Job), s.job j = some x → x.phase = .running → s.jobDone j = true →
    ∃ t, exec (.jobEnd j) s = .next t ∧ t.job j = none
      ∧ tells s t x.tenant [eventNow s j 3 0 (BitVec.ofNat 64 x.retired)]
      ∧ (∀ u, (s.tile u).owner = some j → (t.tile u).owner = none ∧ (t.tile u).pressure = 0
          ∧ (t.tile u).changed = s.period ∧ ∀ a, a / 2 ^ 20 = u → t.pool.byte a = 0)
      ∧ (storeWf jobAt s.jobs = true → (∀ k, k ≠ j → s.job k = none) → s.stackFailed = true → t.stage = .failed ∧ t.fail = 4)

/-- R376-R386, R423: the interval requests a Watermark at T = cyc + 8,192; from T the job's slots issue nothing; the token of
a tile captures what finds no room, contexts in the order in which they reached their core; after the flush the image is
begun; when it is complete, of the kind that its stop has by then, a Watermark's job runs on and a pre-empted one gives up its
tiles; a restore puts the threads and the home table of the image in place. The first write of a granule after an image copies
it first; with the pre-image part full a Watermark is requested. Readings and choices of the model it rests on: log 29, 30. -/
def Obligations.StopsAndImages : Prop :=
  (∀ (s : State) (j : Nat) (x : Job), s.job j = some x →
    (x.phase = .running → x.interval ≠ 0 → s.stage = .full →
      x.lastStop + (if x.interval < 1000 then 1000 else x.interval) * 2000 ≤ s.cyc →
      ∃ t, exec (.watermarkTimer j) s = .next t ∧ inPhase t j (.stopping .watermark (s.cyc + 8192))
        ∧ t.slots = s.slots ∧ t.pool = s.pool)
    ∧ (∀ k T, x.phase = .stopping k T → T ≤ s.cyc →
      ∃ t, exec (.stopCycle j) s = .next t ∧ inPhase t j (.flushing k T)
        ∧ (∀ n, t.slot n = if n ∈ s.jobSlots j then { s.slot n with waiting := none } else s.slot n)
        ∧ (∀ n, isUserSlot n = true → (s.slot n).job = j → t.canIssue n = false)
        ∧ t.pool = s.pool ∧ t.hbm = s.hbm ∧ t.l2 = s.l2 ∧ t.tiles = s.tiles)
    ∧ (∀ k T u, x.phase = .flushing k T → (s.tile u).owner = some j →
      ∃ t, exec (.flushToken j u) s = .next t
        ∧ t.tile u = { s.tile u with token := true, captured := (s.tile u).captured
            ++ ((s.net.filter (s.findsNoRoom j u)).foldl (fun ps p => captureInto p ps) []).filterMap s.capture }
        ∧ t.net = s.net.filter (fun p => !s.findsNoRoom j u p) ∧ t.jobs = s.jobs ∧ t.pool = s.pool
        ∧ ∀ v, v ≠ u → t.tile v = s.tile v)
    ∧ (∀ k T, x.phase = .flushing k T → saves k → s.flushed j = true →
      ∃ t y i, exec (.flushComplete j) s = .next t ∧ t.job j = some y ∧ y.phase = .saving k T ∧ y.writing = some i
        ∧ y.image = x.image ∧ i.stop = T ∧ i.complete = false ∧ i.version = x.version ∧ i.homeTable = x.homeTable
        ∧ i.count = (s.territory j).length ∧ i.seq = (if k = .watermark then x.seq + 1 else x.seq)
        ∧ t.net = s.net ∧ t.pool = s.pool)
    ∧ (∀ k T i, x.phase = .saving k T → x.writing = some i → x.bytesOf i ≤ x.ckptSize → x.heldFaults = [] →
      (k = .watermark → ∃ t y, exec (.imageComplete j) s = .next t ∧ t.job j = some y ∧ y.phase = .running
        ∧ y.image = some { i with complete := true, seq := x.seq + 1, preempt := false } ∧ y.writing = none
        ∧ y.seq = x.seq + 1 ∧ y.lastStop = i.stop ∧ tells s t x.tenant [eventNow s j 5 0 (BitVec.ofNat 64 (x.seq + 1))])
      ∧ (k = .preempt → ∃ t y, exec (.imageComplete j) s = .next t ∧ t.job j = some y ∧ y.phase = .waiting
        ∧ y.image = some { i with complete := true, seq := x.seq, preempt := true } ∧ y.lastStop = i.stop
        ∧ y.oldTiles = s.territory j
        ∧ (∀ u, (s.tile u).owner = some j → (t.tile u).owner = none)
        ∧ tells s t x.tenant [eventNow s j 6 0 (BitVec.ofNat 64 i.stop)]))
    ∧ (∀ T byHost i, x.phase = .restoring T byHost → x.image = some i → x.heldFaults = [] →
      (∀ e ∈ i.slots, ∀ f ∈ i.slots, absolutePlace (s.territory j) e.1 = absolutePlace (s.territory j) f.1 → e = f) →
      ∃ t y, exec (.restore j) s = .next t ∧ t.job j = some y ∧ y.phase = .running ∧ y.homeTable = i.homeTable
        ∧ y.version = (i.version + 1) % 65536 ∧ y.count = (s.territory j).length ∧ y.reserve = i.reserve
        ∧ (∀ e ∈ i.slots, (t.slot (absolutePlace (s.territory j) e.1)).pc = e.2.pc
            ∧ (t.slot (absolutePlace (s.territory j) e.1)).regs = e.2.regs)
        ∧ tells s t x.tenant [eventNow s j 7 (if byHost then 1 else 0) (BitVec.ofNat 64 i.stop)]))
  ∧ (∀ (s : State) (j g : Nat) (x : Job) (i : Image), s.job j = some x → g ∈ x.armed → x.image = some i →
      (i.preImages.length + 1 < x.preImageRoom → ∀ at_ l, s.walk 0 (65536 * g) = .leaf at_ l →
        ∃ t, exec (.preImageCopy j g) s = .next t
          ∧ t.job j = some { x with armed := x.armed.filter (· != g), image := some { i with
              preImages := i.preImages ++ [(g, s.physBytes (l.frame + (65536 * g - l.page)) 65536)] } }
          ∧ t.hbm = s.hbm ∧ t.l2 = s.l2 ∧ t.slots = s.slots ∧ t.tiles = s.tiles)
      ∧ (x.preImageRoom ≤ i.preImages.length + 1 → x.phase = .running → s.stage = .full →
        ∃ t, exec (.preImageCopy j g) s = .next t ∧ inPhase t j (.stopping .watermark (s.cyc + 8192))))

/-- R388-R391, R399: a corrected error is counted. An uncorrectable error is counted, and a tile that fails its test or is struck
again within 1 s is retired: a free tile is scrubbed, a job with an image is contained and one without is terminated, with
event 9 to its host and to the physical function, whose vector 2 is sent. With 4,096 instructions retired or its log full a lockstep
pair keeps the state of its threads as its checkpoint and its log begins anew; a first mismatch begins the replay of what it has
retired since, counted; a second one before the next checkpoint is counted as escalated and contains the job. Readings and choices
of the model it rests on: log 35, 40, 60. -/
def Obligations.SoftErrors : Prop :=
  ((∀ (s : State) (u : Nat), u < 1024 → ∃ t, exec (.correctableError u) s = .next t ∧ onlyTile s t u
      ∧ t.tile u = withErrors (s.tile u) { (s.tile u).errors with corr := more8 (s.tile u).errors.corr })
    ∧ ∀ (s : State) (u : Nat) (fails retire : Bool), u < 1024 →
      (retire = true ↔ fails = true ∨ ∃ c, (s.tile u).errors.lastUncorr = some c ∧ s.cyc < c + 2000000000) →
      ((s.tile u).owner = none →
        ∃ t, exec (.uncorrectableError (.tile u fails)) s = .next t ∧ (t.tile u).owner = (if retire then some 0 else none)
          ∧ (t.tile u).errors = { (s.tile u).errors with
              uncorr := more8 (s.tile u).errors.uncorr, lastUncorr := some s.cyc
              retired := (s.tile u).errors.retired || retire }
          ∧ ∀ a, a / 2 ^ 20 = u → t.pool.byte a = 0)
      ∧ (∀ j x, (s.tile u).owner = some j → s.job j = some x →
        (let event := eventNow s j 9 (if retire then 1 else 0) (BitVec.ofNat 64 u)
         (x.image ≠ none → s.stage ≠ .reduced → x.phase = .running →
          ∃ t, exec (.uncorrectableError (.tile u fails)) s = .next t
            ∧ inPhase t j (.stopping (.contain [u]) (s.cyc + 8192)) ∧ t.slots = s.slots
                ∧ (t.tile u).withheld = ((s.tile u).withheld || retire)
            ∧ tells s t x.tenant (if x.tenant = 64 then [event, event] else [event]) ∧ (x.tenant ≠ 64 → tells s t 64 [event])
            ∧ 2 ∈ (t.tenant 64).sentMsix)
         ∧ (x.image = none → x.phase ≠ .waiting →
          ∃ t, exec (.uncorrectableError (.tile u fails)) s = .next t ∧ t.job j = none
            ∧ (t.tile u).owner = (if retire then some 0 else none)
            ∧ tells s t x.tenant ((if x.tenant = 64 then [event, event] else [event]) ++ [eventNow s j 4 0 (BitVec.ofNat 64 u)])
            ∧ (x.tenant ≠ 64 → tells s t 64 [event]) ∧ 2 ∈ (t.tenant 64).sentMsix))))
  ∧ (∀ (s : State) (c j : Nat) (x : Job), (s.tile (c / 4)).owner = some j → s.job j = some x → x.lockstep = true →
      (let p := c / 2 * 2
       ((4096 ≤ (s.core p).pairRetired ∨ 512 ≤ (s.core p).pairLog.length) → (s.core p).replay = none →
        ∃ t, exec (.lockstepCheckpoint c) s = .next t ∧ t = { s with cores := t.cores }
        ∧ (∀ k, k ≠ p → t.core k = s.core k)
        ∧ t.core p = { s.core p with
            checkpoint := (t.core p).checkpoint, mismatched := false, pairRetired := 0, pairLog := [] }
        ∧ ∀ n y, (n, y) ∈ (t.core p).checkpoint ↔ n / 64 = p ∧ isUserSlot n = true ∧ (s.slot n).state ≠ .free ∧ y = s.slot n)
       ∧ ((s.core p).mismatched = false →
        ∃ t, exec (.lockstepMismatch c) s = .next t ∧ t = { s with cores := t.cores, tiles := t.tiles }
          ∧ t.core p = { s.core p with
              mismatched := true, replay := if (s.core p).pairRetired = 0 then none else some (s.core p).pairRetired }
          ∧ (∀ k, k ≠ p → t.core k = s.core k)
          ∧ t.tile (c / 4) = withErrors (s.tile (c / 4))
              { (s.tile (c / 4)).errors with mismatch := more16 (s.tile (c / 4)).errors.mismatch })
       ∧ ((s.core p).mismatched = true → x.image ≠ none → s.stage ≠ .reduced → x.phase = .running →
        ∃ t, exec (.lockstepMismatch c) s = .next t ∧ inPhase t j (.stopping (.contain [c / 4]) (s.cyc + 8192))
          ∧ (t.core p).mismatched = false ∧ (t.tile (c / 4)).errors.escal = more16 (s.tile (c / 4)).errors.escal
          ∧ t.slots = s.slots)))

/-- R41, R43, R109, R185, R186: on a user slot each supervisor form, and each access to a control register numbered 0x400 or
above, enters the handler for 0x08 with uval the word. On a supervisor slot `sret` goes to sepc with ACTIVE clear, `halt`
stops the slot, `trap` takes cause 0x16 through sepc, sval, scause and sbase; a halted walker slot whose firmware is verified,
and that is restarted, runs at the pc it is given; `dflush` sends for the domain's entries of every core and d lands with 0
once they are gone; `ckpt` requests a Watermark and d is owed, or lands all ones at once where the job cannot be saved.
Readings and choices of the model it rests on: log 11, and log 50 for the uval of a misaligned sepc after `sret`. -/
def Obligations.PrivilegedForms : Prop :=
  (∀ (d a : Reg) (la : Bool) (csr : BitVec 11) (s : State), plainUser s s.focus = true →
      (∀ i ∈ supervisorForms d a la, ∃ t, exec i s = .next t ∧ entersHandler s t s.focus 0x08 (pcOf s) i.word)
      ∧ (0x400 ≤ csr.toNat → ∀ i ∈ [Instr.csrr d csr, .csrw d a csr, .csrs d a csr, .csrc d a csr],
        ∃ t, exec i s = .next t ∧ entersHandler s t s.focus 0x08 (pcOf s) i.word))
  ∧ ((∀ (s : State), isUserSlot s.focus = false →
      (∃ t, exec .sret s = .next t ∧ onlySlot s t s.focus
        ∧ t.slot s.focus = { s.slot s.focus with
            sactive := false, pc := (s.slot s.focus).sepc, brPc := 0, ist := (s.slot s.focus).ist + 1, state := .run })
      ∧ (∃ t, exec .halt s = .next t ∧ onlySlot s t s.focus ∧ (t.slot s.focus).state = .halted
        ∧ (t.slot s.focus).pc = pcOf s + 4)
      ∧ ((s.slot s.focus).sactive = false → (s.slot s.focus).sbase ≠ 0 → ∀ n : BitVec 7,
        ∃ t, exec (.trap n) s = .next t ∧ onlySlot s t s.focus
          ∧ t.slot s.focus = { s.slot s.focus with
              ist := (s.slot s.focus).ist + 1, sepc := pcOf s + 4, sval := (Instr.trap n).word, scode := 0x16,
              sactive := true, pc := (s.slot s.focus).sbase + 0x580, brPc := 0, state := .run, unchecked := none }))
    ∧ (∀ (s : State) (n : Nat) (pc : Word), n < 262144 → isWalkerSlot n = true → (s.slot n).state = .halted →
      (∃ w, w < 4 ∧ storeGet zeroMeas s.meas (4 * (if n ∈ [63, 4159, 131135, 135231] then 1 else 2) + w) ≠ 0) →
      ∃ t, exec (.haltedSlotRestart n (some pc)) s = .next t ∧ onlySlot s t n
        ∧ t.slot n = { s.slot n with state := .run, pc := pc, brPc := 0 }))
  ∧ ((∀ (d a : Reg) (la : Bool) (s : State), usable s [a] [d] = true → isUserSlot s.focus = false →
      ∃ t, exec (.dflush d a la) s = .next t ∧ keepsOthers s t
        ∧ t.net = s.net ++ [.plbFlush s.focus ((val s a).setWidth 16) (if d = 0 then [] else [(s.slot s.focus).loc d])]
        ∧ retired (s.slot s.focus) (t.slot s.focus) (pcOf s + 4)
        ∧ ∀ l, (t.slot s.focus).cell l = cellOwing (s.slot s.focus) [(a, la)] [d] l)
    ∧ (∀ (s : State) (n m : Nat) (dom : BitVec 16) (ls : List RegLoc), s.net[n]? = some (.plbFlush m dom ls) → ls.length ≤ 1 →
      (s.slot m).landable ls = true →
      ∃ t, exec (.plbFlushDone n) s = .next t ∧ t = { s with net := t.net, cores := t.cores, slots := t.slots }
        ∧ (∀ c e, e ∈ (t.core c).plb ↔ e ∈ (s.core c).plb ∧ e.domain ≠ dom.toNat)
        ∧ landed (s.slot m) (t.slot m) ls [0] 0 ∧ ∀ k, k ≠ m → t.slot k = s.slot k)
    ∧ (∀ (d a : Reg) (la : Bool) (s : State), usable s [a] [d] = true → isUserSlot s.focus = false →
      (let j := (val s a).toNat % 65536
       (s.job j = none ∨ s.stage = .reduced →
        ∃ t, exec (.ckpt d a la) s = .next t ∧ gives s t [(a, la)] [(d, BitVec.allOnes 64)] (pcOf s + 4))
       ∧ (∀ x, s.job j = some x → x.phase = .running → s.stage = .full →
        ∃ t, exec (.ckpt d a la) s = .next t ∧ inPhase t j (.stopping .watermark (s.cyc + 8192))
          ∧ retired (s.slot s.focus) (t.slot s.focus) (pcOf s + 4)
          ∧ (∀ l, (t.slot s.focus).cell l = cellOwing (s.slot s.focus) [(a, la)] [d] l)
          ∧ (d ≠ 0 → ∃ y, t.job j = some y ∧ ({ slot := s.focus, dst := (s.slot s.focus).loc d } : CkptWaiter) ∈ y.ckpts)))))

/-! ## Power, the host, the fabric and bring-up (R286, R287, R332-R336, R383, R388, R392, R398-R419) -/

namespace Sys2Proof.Claims

/-- Cause 0x14 is pending on the threads of a core, and of the slots nothing else differs (R180, R333). -/
def tellsPower (s t : State) (c : Nat) : Prop :=
  ∀ m, t.slot m = if m / 64 = c ∧ isUserSlot m = true ∧ (s.slot m).state ≠ .free then (s.slot m).pending 4 0
    else s.slot m

/-- Only cores and slots differ, and of the cores only one. -/
def onlyCore (s t : State) (c : Nat) : Prop := t = { s with cores := t.cores, slots := t.slots } ∧ ∀ k, k ≠ c → t.core k = s.core k

/-- The functions' registers are served (R400, R411, R414). -/
def serving (s : State) : Prop := s.tripped = false ∧ (s.stage = .reduced ∨ s.stage = .full)

/-- Only the registers of one function differ. -/
def onlyTenant (s t : State) (v : Nat) (x : Tenant) : Prop :=
  t = { s with tenants := t.tenants } ∧ t.tenant v = x ∧ ∀ w, w ≠ v → t.tenant w = s.tenant w

/-- A request of a function is refused: event 2 with its status and the register's offset (R402, R403). -/
def refuses (s : State) (i : Instr) (v j status offset : Nat) : Prop :=
  ∃ t, exec i s = .next t ∧ tells s t v [eventNow s j 2 status (BitVec.ofNat 64 offset)] ∧ t.jobs = s.jobs ∧ t.slots = s.slots
    ∧ t.tiles = s.tiles

/-- A job of a function that is running (R402). -/
def hosts (s : State) (v j : Nat) (x : Job) : Prop := s.job j = some x ∧ x.tenant = v ∧ x.phase = .running

/-- Words are stored in a job's memory by the device, in order (R407). -/
def storedWords (s : State) (j : Nat) (ws : List (Nat × Word)) : State := ws.foldl (fun u e => u.setDeviceWord j e.1 e.2) s

/-- The words of the sector that a slice holds for an address (R279, R280). -/
def sectorWords (s : State) (p : Place) (va : Nat) : PeerAnswer :=
  .words ((List.range (sectorLen va / 8)).map fun k =>
    BitVec.ofNat 64 (natOfBytes (s.homeBytes p (sectorStart va + 8 * k) 8)))

/-- The low 16 bits of a register write: a job. -/
def jobNamed (value : Word) : Nat := value.toNat % 65536

/-- A ring of 2^k entries has room for one (R400). -/
def roomFor (base head tail : Word) (k : Nat) : Prop :=
  base.toNat % 32 = k ∧ 4 ≤ k ∧ k ≤ 12 ∧ (tail - head).toNat < 2 ^ k

/-- The address of the entry of a ring that a tail names (R400). -/
def entryAt (base tail : Word) (k : Nat) : Nat := base.toNat / 4096 * 4096 + 32 * (tail.toNat % 2 ^ k)

/-- The registers of a function after a write of one of its registers (R400, R405). -/
def written (x : Tenant) (offset : Nat) (w : Word) : Tenant :=
  if offset = 0x018 then { x with rtiles := w }
  else if offset = 0x020 then { x with jobtab := w &&& 0xFF_FFFF_0000 }
  else if offset = 0x028 then { x with evbase := w &&& 0xFFFF_FFFF_FFFF_F01F }
  else if offset = 0x040 then { x with pgbase := w &&& 0xFFFF_FFFF_FFFF_F01F }
  else if offset = 0x078 then { x with dbgpc := w }
  else if offset = 0x140 then { x with rxbase := w &&& 0xFFFF_FFFF_FFFF_F000 }
  else if offset = 0x148 then { x with rxcfg := w &&& 0xFFFF_003F }
  else if 0x100 ≤ offset ∧ offset ≤ 0x138 ∧ offset % 8 = 0 then
    { x with nsqctx := storeSet noVal x.nsqctx ((offset - 0x100) / 8) (w &&& 0xC03F_FC00_0000_0001) }
  else x

end Sys2Proof.Claims

/-- R332-R336: the controller takes the highest user position of a core out of rotation and gives it back in the reverse order of
removal, steps the clock
skip, and clears SHAPE; a change of bit 0 or 1 of pstat makes cause 0x14 pending on the core's threads; a clock pause
touches no state. Readings and choices of the model it rests on: log 36. -/
def Obligations.PowerSteps : Prop :=
  (∀ (s : State) (c j : Nat) (x : Job), (s.tile (c / 4)).owner = some j → s.job j = some x → (s.core c).skip = 0 →
    (s.core c).outn < 62 → s.stepsNext c = true →
    (let n := 64 * c + (61 - (s.core c).outn)
     let y := s.slot n
     y.unchecked = none → y.state ≠ .free → y.lease ≠ .held → (s.core c).shape = true →
     ∃ t, exec (.slotRemoval c) s = .next t ∧ onlyCore s t c ∧ t.core c = { s.core c with outn := (s.core c).outn + 1 }
      ∧ (∀ m, m ≠ n → t.slot m = s.slot m) ∧ t.slot n = { y with leaves := (t.slot n).leaves, leafWait := none }
      ∧ ∀ l, storeGet fullLeaf (t.slot n).leaves l = if l < y.winSize / 8 ∧ storeGet fullLeaf y.leaves l ≠ .off then .retain
          else storeGet fullLeaf y.leaves l)
    ∧ (let n := 64 * c + (61 - (s.core c).outn)
     (s.slot n).unchecked = none → (s.slot n).state = .free → (s.core c).shape = false →
     ∃ t, exec (.slotRemoval c) s = .next t ∧ onlyCore s t c
      ∧ t.core c = { s.core c with outn := (s.core c).outn + 1, shape := true } ∧ tellsPower s t c))
  ∧ (∀ (s : State) (c : Nat), (s.core c).skip = 0 → (s.core c).outn ≠ 0 → s.returnsNext c = true →
    (let n := 64 * c + (62 - (s.core c).outn)
     let y := s.slot n
     y.state ≠ .free →
     ∃ t, exec (.slotReturn c) s = .next t ∧ onlyCore s t c ∧ t.core c = { s.core c with outn := (s.core c).outn - 1 }
      ∧ (∀ m, m ≠ n → t.slot m = s.slot m) ∧ t.slot n = { y with leaves := (t.slot n).leaves }
      ∧ ∀ l, storeGet fullLeaf (t.slot n).leaves l = if l < y.winSize / 8 ∧ storeGet fullLeaf y.leaves l = .retain then .waking
          else storeGet fullLeaf y.leaves l))
  ∧ (∀ (s : State) (c : Nat),
    ((s.core c).shape = true → (s.core c).skip < 2 → ∃ t, exec (.clockSkipStep c true) s = .next t ∧ onlyCore s t c
      ∧ t.core c = { s.core c with skip := (s.core c).skip + 1 }
      ∧ if (s.core c).skip = 0 then tellsPower s t c else t.slots = s.slots)
    ∧ (0 < (s.core c).skip → ∃ t, exec (.clockSkipStep c false) s = .next t ∧ onlyCore s t c
      ∧ t.core c = { s.core c with skip := (s.core c).skip - 1 }
      ∧ if (s.core c).skip = 1 then tellsPower s t c else t.slots = s.slots)
    ∧ ((s.core c).shape = true → (s.core c).outn = 0 → ∃ t, exec (.shapeClear c) s = .next t ∧ onlyCore s t c
      ∧ t.core c = { s.core c with shape := false } ∧ tellsPower s t c)
    ∧ exec (.clockPause c) s = .next s)

/-- R376, R383, R402, R403: a launch that passes every check gives the job its seed tile, with its entry record in a segment
there and event 1, if the supervisor lets the tenant into its domain (Config.tenantDomain, which the device's owner sets),
and is refused otherwise; DESCHED requests a pre-emption; RESUME gives a waiting job the listed tiles and begins its
restore. A request that fails a check is refused by event 2. Readings and choices of the model it rests on: log 7, 33. -/
def Obligations.JobRequests : Prop :=
  ∀ (s : State) (vf : BitVec 6) (value : Word), serving s →
    (let v := vf.toNat
     let n := jobNamed value
     let r := s.readRecord (s.recordOf v n)
     (¬(s.stage = .reduced ∧ s.trained = 0xFFFF) →
      (∀ status, s.launchFault v n r = some status → refuses s (.launch vf value) v n status 0x000)
      ∧ (∀ ws, n ≠ 0 → s.job n = none → r.zerosHold = true → boundsOk r.bounds = true → r.shapeOk = true →
        s.tileOpen r.seed = true → s.entryWords r.entry.toNat = some ws →
        (Config.tenantDomain v r.domain = false → refuses s (.launch vf value) v n 4 0x000)
        ∧ (let sl := popCount ((ws.getD 1 0).toNat % 2 ^ 32) % 2
         ∃ t, exec (.launch vf value) s = .next t ∧ (Config.tenantDomain v r.domain = true → ∃ y e, t.job n = some y
             ∧ y.phase = .running ∧ y.tenant = v ∧ y.seed = r.seed
          ∧ y.count = 1 ∧ y.version = 1 ∧ y.domain = r.domain ∧ y.handler = r.handler ∧ y.floor = r.floor
          ∧ y.ceiling = r.ceiling ∧ y.lastStop = s.cyc ∧ (t.tile r.seed).owner = some n ∧ (t.tile r.seed).pressure = 0
          ∧ (t.tile r.seed).changed = s.period ∧ (t.tile r.seed).segment sl = (s.tile r.seed).segment sl ++ [e]
          ∧ e.words = ws ∧ e.addr = r.entry ∧ e.job = n ∧ tells s t v [eventNow s n 1 0 (BitVec.ofNat 64 r.seed)]
          ∧ (∀ u, u ≠ r.seed → t.tile u = s.tile u) ∧ t.slots = s.slots))))
     ∧ (s.stage = .reduced ∧ s.trained = 0xFFFF →
      exec (.launch vf value) s = .next { s with heldLaunches := s.heldLaunches ++ [(v, value)] })
     ∧ (∀ x, hosts s v n x → ∃ t, exec (.desched vf value) s = .next t ∧ inPhase t n (.stopping .preempt (s.cyc + 8192))
        ∧ t.slots = s.slots)
     ∧ ((∀ x, s.job n = some x → x.tenant ≠ v) → refuses s (.desched vf value) v n 5 0x008
         ∧ refuses s (.resume vf value) v n 5 0x010)
     ∧ (∀ x, s.job n = some x → x.tenant = v → x.phase = .waiting →
        refuses s (.desched vf value) v n 6 0x008
        ∧ (let tiles := if (s.tenant v).rtiles = 0 then x.oldTiles else s.tileList (s.tenant v).rtiles.toNat
           (∀ status, s.resumeFault x (s.tenant v).rtiles tiles = some status → refuses s (.resume vf value) v n status 0x010)
           ∧ (∀ i, s.resumeFault x (s.tenant v).rtiles tiles = none → x.image = some i →
              ∃ t, exec (.resume vf value) s = .next t
                ∧ t.job n = some { x with phase := .restoring i.stop true, heldEvents := [] }
                ∧ (∀ u ∈ tiles, t.tile u = { s.tile u with owner := some n, pressure := 0, changed := s.period })
                ∧ (∀ u, u ∉ tiles → t.tile u = s.tile u) ∧ tells s t v x.heldEvents)))
     ∧ (∀ x, hosts s v n x → refuses s (.resume vf value) v n 6 0x010))

/-- R183, R299, R301, R399-R403, R410: FAULTDONE resolves its record and posts the notice; DEBUG attaches; DBGGO lets a
stopped slot go on; HRESERVE adds pages to a reserve; EVHEAD and PGHEAD move a ring's head, and an entry that waits enters
it with its MSI-X message; the other registers hold what is written. Readings and choices of the model it rests on: log 33.
-/
def Obligations.FunctionRegisters : Prop :=
  ∀ (s : State) (vf : BitVec 6) (value : Word), serving s →
    (let v := vf.toNat
     let n := jobNamed value
     let x := s.tenant v
     let other := x.events = [] ∧ x.pagerWaiting = []
     (∀ r m, x.faults.find? (·.seq == value.toNat % 2 ^ 63) = some r → r.who = [.slot m] →
        (∀ y, s.job r.job = some y → y.halted = false) →
        (s.holdsThread r.job m = true → (s.slot m).state ≠ .blocked →
          ∃ t p, exec (.faultdone vf value) s = .next t ∧ t.net = s.net ++ [.message p] ∧ p.core = m / 64 ∧ p.job = r.job
            ∧ p.w0 = messageWord 3 (if value.getLsbD 63 then 1 else 0) (m % 64) (r.seq % 2 ^ 32) ∧ p.w1 = BitVec.ofNat 64 r.va
            ∧ (t.tenant v).faults = x.faults.filter (·.seq != r.seq) ∧ t.slots = s.slots)
        ∧ ((s.slot m).state = .blocked → value.getLsbD 63 = false →
          ∃ t, exec (.faultdone vf value) s = .next t ∧ t.slot m = { s.slot m with state := .run } ∧ t.net = s.net
            ∧ (t.tenant v).faults = x.faults.filter (·.seq != r.seq) ∧ ∀ k, k ≠ m → t.slot k = s.slot k))
     ∧ (x.faults.find? (·.seq == value.toNat % 2 ^ 63) = none → refuses s (.faultdone vf value) v 0 7 0x058)
     ∧ (∀ y, s.job n = some y → y.tenant = v → ∃ t, exec (.debug vf value) s = .next t
        ∧ onlyTenant s t v { x with debug := value &&& 0x1FFFF })
     ∧ ((∀ y, s.job n = some y → y.tenant ≠ v) → refuses s (.debug vf value) v n 5 0x068
         ∧ refuses s (.hreserve vf value) v n 5 0x080)
     ∧ (∀ y, (let m := 256 * (value.toNat % 1024) + 64 * (value.toNat / 1024 % 4) + value.toNat / 4096 % 64
        (s.slot m).state = .debug → s.job (s.slot m).job = some y → y.tenant = v →
        ∃ t, exec (.dbggo vf value) s = .next t ∧ onlySlot s t m ∧ t.slot m = { s.slot m with
            state := .run, pc := if value.getLsbD 18 then x.dbgpc else (s.slot m).pc, brPc := 0
            ist := (s.slot m).ist + 1 }))
     ∧ (∀ y, s.job n = some y → y.tenant = v → value.toNat / 2 ^ 20 % 4096 ≠ 0 →
        (let die := value.toNat / 2 ^ 16 % 4
         ∃ t z fresh, exec (.hreserve vf value) s = .next t ∧ t.job n = some z
          ∧ z = { y with reserve := z.reserve } ∧ storeGet noPages z.reserve die = storeGet noPages y.reserve die ++ fresh
          ∧ fresh.length ≤ value.toNat / 2 ^ 20 % 4096 ∧ fresh.Nodup ∧ (∀ p ∈ fresh, s.reservable y die p = true)
          ∧ t.slots = s.slots ∧ t.pool = s.pool))
     ∧ (x.events = [] → ∃ t, exec (.evhead vf value) s = .next t ∧ onlyTenant s t v { x with evhead := value })
     ∧ (∀ e k, x.events = [e] → x.paused = false → roomFor x.evbase value x.evtail k →
        ∃ t, exec (.evhead vf value) s = .next t ∧ t = { s with host := t.host, tenants := t.tenants }
          ∧ t.tenant v = { x with
              evhead := value, events := [], eventCount := x.eventCount + 1, evtail := x.evtail + 1, sentMsix := 0 :: x.sentMsix }
          ∧ t.host.bytes (entryAt x.evbase x.evtail k) 32 = eventEntry e (x.eventCount + 1))
     ∧ (x.pagerWaiting = [] → ∃ t, exec (.pghead vf value) s = .next t ∧ onlyTenant s t v { x with pghead := value })
     ∧ (other → ∀ offset, ∃ t, exec (.hostRegisterWrite (some vf) offset value) s = .next t
        ∧ onlyTenant s t v (written x offset value))
     ∧ exec (.hostRegisterWrite none 0x2100 value) s = .next { s with ptroot := value &&& 0xF_FFFF_FFFF_E000 }
     ∧ exec (.hostRegisterWrite none 0x2110 value) s = .next { s with ddir := value &&& 0xF_FFFF_FFF0_0000 })

/-- R287, R388, R392, R398: a function reset discards and counts its pending events and resets its registers; a pause keeps
its events pending until it resumes; CXL.mem goes straight to HBM; a snoop writes the host's line back; a retired tile that is
released is free, its error counts as they were. Readings and choices of the model it rests on: log 33, 39. -/
def Obligations.FunctionsAndHostMemory : Prop :=
  (∀ (s : State) (vf : BitVec 6), storeWf jobAt s.jobs = true → (∀ e ∈ s.jobs, ∀ x, e.2 = some x → x.tenant = vf.toNat
      → x.heldEvents = []) →
    (let v := vf.toNat
     let x := s.tenant v
     ∃ t, exec (.functionReset vf) s = .next t ∧ (∀ j, t.job j = s.job j) ∧ t.slots = s.slots ∧ t.tiles = s.tiles
      ∧ t.tenant v = { tenantAt v with
          discard := x.discard + BitVec.ofNat 64 (x.events.length + x.pagerWaiting.length), eventCount := x.eventCount
          faultCount := x.faultCount, faults := x.faults, paused := x.paused, sentMsix := x.sentMsix }))
  ∧ (∀ (s : State) (vf : BitVec 6),
    (let v := vf.toNat
     let x := s.tenant v
     (∃ t, exec (.functionPause vf) s = .next t ∧ onlyTenant s t v { x with paused := true })
     ∧ (x.events = [] → x.pagerWaiting = [] →
      ∃ t, exec (.functionResume vf) s = .next t ∧ onlyTenant s t v { x with paused := false })))
  ∧ (∀ (s : State) (a n : Nat) (bs : List Byte), s.tripped = false → s.stage = .full →
    (a + n ≤ 2 ^ 40 → exec (.hostMemAccess none a n) s
      = .next { s with hostRead := (List.range n).map fun i => s.hbm.byte (s.hbmPlace (a + i)) })
    ∧ (a + bs.length ≤ 2 ^ 40 → ∃ t, exec (.hostMemAccess (some bs) a n) s = .next t ∧ t = { s with hbm := t.hbm }
        ∧ (apartInHbm s ((List.range bs.length).map (a + ·)) →
            ∀ i b, bs[i]? = some b → t.hbm.byte (s.hbmPlace (a + i)) = b)
        ∧ ∀ q, (∀ i, i < bs.length → s.hbmPlace (a + i) ≠ q) → t.hbm.byte q = s.hbm.byte q))
  ∧ (∀ (s : State) (a k : Nat) (x : Sector), storeWf noSector s.l2 = true →
    s.l2.filter (fun e => match e.2 with
      | some y => y.host && decide (y.pa < a / 64 * 64 + 64) && decide (a / 64 * 64 < y.pa + y.bytes.length)
      | none => false) = [(k, some x)] →
    ∃ t, exec (.hostSnoop a) s = .next t ∧ storeGet noSector t.l2 k = none
      ∧ (∀ i, i ≠ k → storeGet noSector t.l2 i = storeGet noSector s.l2 i) ∧ t.hbm = s.hbm ∧ t.slots = s.slots
      ∧ t.host = if x.dirty then s.host.setBytes x.pa x.bytes else s.host)
  ∧ (∀ (s : State) (u : Nat), (s.tile u).withheld = true →
    ∃ t, exec (.tileRelease u) s = .next t ∧ (t.tile u).owner = none ∧ (t.tile u).pressure = 0 ∧ (t.tile u).withheld = false
      ∧ (t.tile u).errors = (s.tile u).errors ∧ ∀ a, a / 2 ^ 20 = u → t.pool.byte a = 0)

/-- R286, R405-R409: the head message of a send queue leaves once it is complete; an arriving message that fits goes into its
tenant's ring; a request of another package is performed here at the slice that holds its line, and answered with the line's
sector: a store makes the core that sent it the owner of its words; a revoke takes a core's ownership, and a recall its words
too; a bridge link sheds half its lanes, and goes on once it has retrained. Readings and choices of the model it rests on:
log 32, 38, 61. -/
def Obligations.FabricTraffic : Prop :=
  (∀ (s : State) (c j : Nat) (q : BitVec 3) (x : Job) (sq : SendQueue) (ms rest : List SendWord) (w : SendWord),
    (s.tile (c / 4)).owner = some j → s.job j = some x → x.halted = false → storeGet noSend (s.core c).sendQueues q.toNat = sq →
    sq.words = ms ++ w :: rest → (∀ m ∈ ms, m.last = false) → w.last = true →
    (let context := storeGet noVal (s.tenant x.tenant).nsqctx q.toNat
     let ws := sq.leaving ++ ms ++ [w]
     context.getLsbD 0 = true → context.toNat / 2 ^ 62 ≠ 3 →
     ∃ t m, exec (.netSend c q) s = .next t ∧ t = { s with cores := t.cores, sent := m :: s.sent }
      ∧ m.package.toNat = context.toNat / 2 ^ 48 % 64 ∧ m.tenant.toNat = context.toNat / 2 ^ 42 % 64
      ∧ m.service.toNat = context.toNat / 2 ^ 62 ∧ m.source.toNat = x.tenant % 64
      ∧ (∀ h, ws.find? (·.header) = some h → m.tag.toNat = h.val.toNat / 2 ^ 16 % 2 ^ 32)
      ∧ m.payload = (ws.filter (!·.header)).flatMap (fun e => bytesOfNat e.bytes e.val.toNat)
      ∧ storeGet noSend (t.core c).sendQueues q.toNat = { sq with words := rest, leaving := [] }
      ∧ ∀ k, k ≠ c → t.core k = s.core k))
  ∧ (∀ (s : State) (vf : BitVec 6) (m : NetMessage) (x : Job) (size : Nat) (tail head : Word), serving s →
    (let v := vf.toNat
     let base := (s.tenant v).rxbase.toNat
     let j := (s.tenant v).rxcfg.toNat / 2 ^ 16 % 2 ^ 16
     let k := (s.tenant v).rxcfg.toNat % 64
     let ws : List Word := BitVec.ofNat 64 (m.package.toNat * 2 ^ 48 + m.source.toNat * 2 ^ 42 + m.tag.toNat)
      :: BitVec.ofNat 64 m.payload.length :: (List.range ((m.payload.length + 15) / 16 * 2)).map
          (fun i => BitVec.ofNat 64 (natOfBytes ((m.payload.drop (8 * i)).take 8)))
     let places := (List.range ws.length).map fun i => base + 16 + (tail.toNat + 8 * i) % (size - 16)
     hosts s v j x → (∀ r ∈ s.inbound, r.tenant ≠ v) → 12 ≤ k → k ≤ 30 → size = 2 ^ k → s.deviceWord base = some tail
         → s.deviceWord (base + 8) = some head →
     (tail - head).toNat + 8 * ws.length ≤ size - 16 → (base :: places).all (s.deviceWrites x ·) = true →
     exec (.netReceive vf m) s
      = .next (storedWords s j (places.zip ws ++ [(base, tail + BitVec.ofNat 64 (8 * ws.length))]))))
  ∧ (∀ (s : State) (r : RemoteAccess), serving s → s.stage = .full →
    (let va := r.address.toNat
     let answers (u t : State) (a : PeerAnswer) : Prop := t = { u with peerAnswers := (r.package, a) :: u.peerAnswers }
     (s.isOurs va = true → ∀ at_ l, s.walk 0 va = .leaf at_ l →
      (∀ p held u, s.exportHold va l = some (p, held, u) → s.armedAt at_ = [] →
       (r.kind = .load → l.r = true →
        (let v := u.setEntry at_ (u.physWord at_ ||| 0x10)
         ∃ t, exec (.remoteRequest r) s = .next t ∧ t.slots = s.slots
          ∧ answers (v.letGo p held) t (sectorWords v p held)))
       ∧ (∀ bs, r.kind = .store bs → l.w = true → s.armed va = false →
        (let w := u.setEntry at_ (u.physWord at_ ||| 0x30)
         let v := w.peerWrite p held bs (some { package := r.package, core := r.core })
         (∃ t, exec (.remoteRequest r) s = .next t ∧ t.slots = s.slots
          ∧ answers (v.letGo p held) t (sectorWords v p held))
         ∧ ∀ x, w.sectorAt p held = some x → x.host = false → ∃ y, v.sectorAt p held = some y
          ∧ y.bytes = patched x held bs ∧ y.dirty = true
          ∧ ∀ k, k ∈ wordsOf held bs.length →
              storeGet noOwner y.owners (k - sectorStart held / 8) = some { package := r.package, core := r.core })))
      ∧ (r.kind = .load → l.r = false → ∃ t, exec (.remoteRequest r) s = .next t ∧ answers s t (.fails 0x08)))
     ∧ (s.isOurs va = true → r.kind = .load →
      (s.walk 0 va = .invalid → ∃ t, exec (.remoteRequest r) s = .next t ∧ answers s t (.fails 0x09))
      ∧ ∀ at_, s.walk 0 va = .malformed at_ → ∃ t, exec (.remoteRequest r) s = .next t
        ∧ answers (s.reportMalformed at_) t (.fails 0x08))
     ∧ (s.isOurs va = false → r.kind = .revoke → ∃ t, exec (.remoteRequest r) s = .next t ∧ t = { s with cores := t.cores }
        ∧ (∀ c, c ≠ r.core → t.core c = s.core c)
        ∧ ∀ w, storeGet noL1 (t.core r.core).l1 w = if w ∈ wordsOf va r.size
            then (storeGet noL1 (s.core r.core).l1 w).map fun e => { e with owned := false }
            else storeGet noL1 (s.core r.core).l1 w)
     ∧ (s.isOurs va = false → r.kind = .recall → ∃ t, exec (.remoteRequest r) s = .next t ∧ t = { s with cores := t.cores }
        ∧ (∀ c, c ≠ r.core → t.core c = s.core c)
        ∧ ∀ w, storeGet noL1 (t.core r.core).l1 w = if w ∈ wordsOf va r.size then none else storeGet noL1 (s.core r.core).l1 w)))
  ∧ (∀ (s : State) (l : BitVec 6),
    (let tile := if l.toNat < 32 then 32 * l.toNat + 15 else 480 + (l.toNat - 32)
     ∃ t, exec (.laneShed l) s = .next t ∧ storeGet linkAt t.links l.toNat = { half := true, retraining := true }
      ∧ (∀ k, k ≠ l.toNat → storeGet linkAt t.links k = storeGet linkAt s.links k)
      ∧ tells s t 64 [eventNow s 0 9 0 (BitVec.ofNat 64 tile)] ∧ 2 ∈ (t.tenant 64).sentMsix)
    ∧ ∃ t, exec (.laneRetrainDone l) s = .next t ∧ t = { s with links := t.links }
      ∧ storeGet linkAt t.links l.toNat = { storeGet linkAt s.links l.toNat with retraining := false }
      ∧ ∀ k, k ≠ l.toNat → storeGet linkAt t.links k = storeGet linkAt s.links k)

/-- R411, R414-R419: a package reset leaves HBM and the host's memory; the boot ROM measures itself and the fuses, then an
image that passes its checks, which it loads and starts on the walker slots that run it, and stops in stage FAILED at one that
does not; a trained stack is counted and a failed one fails the bring-up once no job is left; with all sixteen trained and no
job the device enters full service, its interleave sets laid out (log 41), with the low 96 MiB zero; attestation answers with
the certificates and the signed measurements; a thermal trip stops the machine, and the host is told. Readings and choices of
the model it rests on: log 4, 20, 31, 39. -/
def Obligations.BringUp : Prop :=
  (∀ s : State, exec .packageReset s = .next { State.reset with moves := s.moves, agenda := s.agenda, hbm := s.hbm, host :=
      s.host })
  ∧ (∀ (s : State) (f : Firmware), s.stage = .rom → f.measures ≠ 0 → f.measures.toNat ≤ 5 →
    (let extended (i : Nat) (image : List Byte) (w : Nat) : Word := BitVec.ofNat 64
       (natOfBytes (((sha256 (s.measurement i ++ sha256 image)).drop (8 * w)).take 8))
     ∃ t, exec (.firmwareLoad f) s = .next t
      ∧ (∀ w, w < 4 → storeGet zeroMeas t.meas w
          = if (List.range 4).any (fun k => storeGet zeroMeas s.meas k != 0) then storeGet zeroMeas s.meas w else extended 0 Config.romAndFuses w)
      ∧ (∀ code, firmwareFault f = some code → t = { s with meas := t.meas, stage := .failed, fail := code }
          ∧ ∀ i, 4 ≤ i → storeGet zeroMeas t.meas i = storeGet zeroMeas s.meas i)
      ∧ (firmwareFault f = none → (t.stage = .rom ∨ t.stage = .reduced)
        ∧ (∀ w, w < 4 → storeGet zeroMeas t.meas (4 * f.measures.toNat + w) = extended f.measures.toNat f.body w)
        ∧ (∀ i, 4 ≤ i → i / 4 ≠ f.measures.toNat → storeGet zeroMeas t.meas i = storeGet zeroMeas s.meas i)
        ∧ (f.measures = 1 → (∀ k ∈ [63, 4159, 131135, 135231], t.slot k = { s.slot k with
            state := .run, pc := Config.firmwareEntry 1 }) ∧ t.hbm = (s.setPhysBytes (Config.firmwareEntry 1).toNat f.body).hbm)
        ∧ (3 ≤ f.measures.toNat → t.slots = s.slots ∧ t.hbm = s.hbm))))
  ∧ (∀ (s : State) (k : BitVec 4), s.stage = .reduced →
    exec (.hbmStackTrained k true) s = .next { s with trained := s.trained ||| BitVec.ofNat 16 (2 ^ k.toNat) }
    ∧ (s.jobs = [] → exec (.hbmStackTrained k false) s = .next { s with stackFailed := true, stage := .failed, fail := 4 })
    ∧ (s.jobs ≠ [] → exec (.hbmStackTrained k false) s = .next { s with stackFailed := true }))
  ∧ (∀ s : State, s.stage = .reduced → s.trained = 0xFFFF → s.jobs = [] → s.heldLaunches = [] → s.hbm.wf = true →
    ∃ t, exec .fullServiceEntry s = .next t ∧ t = { s with stage := .full, hbm := t.hbm, l2 := t.l2, sets := laidOutSets }
      ∧ (∀ a, a < 96 * 2 ^ 20 → t.hbm.byte (t.hbmPlace a) = 0)
      ∧ ∀ q, (∀ a, a < 96 * 2 ^ 20 → t.hbmPlace a ≠ q) → t.hbm.byte q = s.hbm.byte q)
  ∧ (∀ s : State, exec .spdmGetCertificate s = .next { s with spdm := Config.certificates (s.measurements 6) }
    ∧ exec .spdmGetMeasurements s = .next { s with
        spdm := s.measurements 7 ++ Config.bootSignature (s.measurements 6) (sha256 (s.measurements 7)) })
  ∧ (∀ (s : State) (die : BitVec 2), ∃ t, exec (.thermalTrip die) s = .next t
      ∧ t = { s with tripped := true, tenants := t.tenants } ∧ (t.tenant 64).sentMsix = 2 :: (s.tenant 64).sentMsix)

/-! ## The machine as a whole (R11, R71-R77, R101-R107, R278, R350, R411, R412, R414) -/

namespace Sys2Proof.Claims

/-- The machine as a turn begins that the agenda gives the core of a slot: the next turn of a slot of that core that can issue
(R11, R324). -/
def turnOf (s : State) (n : Nat) : State := s.beginMove.beginTurn n s.nextMove.rotations

/-- The slot takes its turn: it can issue, waits for no object, and no asynchronous cause is to be taken (R13, R42). -/
def taking (u : State) (n : Nat) : Prop :=
  u.canIssue n = true ∧ (u.slot n).waiting = none ∧ (u.slot n).deliverable = none

/-- A word in a slot's instruction stream is fetched and decoded as an instruction, which an acquire does not hold back
(R71-R73, R142). -/
def fetches (u t : State) (n : Nat) (w : Code) (i : Instr) : Prop :=
  u.fetch n = .word w t ∧ decodeWord w = .ok i ∧ ((isMemoryClass i || (t.slot n).readsPort i) && t.acquiring n) = false

end Sys2Proof.Claims

/-- R29, R278, R350, R412, R414: after package reset the device is in stage ROM with no failure, cyc and the period are 0,
deckle and pwrlim hold their reset values, every tile is free with P and bias 0, no job, thread or packet exists, the
scratchpads are zero, and the memories have their one form. Readings and choices of the model it rests on: log 3, 5. -/
def Obligations.ResetState : Prop :=
  (let r := State.reset
   Safety.memoriesOk r ∧ Safety.limitsOk r ∧ r.stage = .rom ∧ r.fail = 0 ∧ r.trained = 0 ∧ r.tripped = false ∧ r.cyc = 0
    ∧ r.period = 0 ∧ r.deckle = 0x8000_0014_0100_0040 ∧ r.pwrlim = 0x02EE_0BB8 ∧ r.net = [] ∧ (∀ j, r.job j = none)
    ∧ (∀ n, isUserSlot n = true → (r.slot n).state = .free)
    ∧ (∀ t, (r.tile t).owner = none ∧ (r.tile t).pressure = 0 ∧ (r.tile t).bias = 0) ∧ ∀ a, r.pool.byte a = 0)

/-- R11, R42, R71-R73, R324: a turn goes to the first slot in the core's rotation that can issue; when the word at that slot's pc
decodes to an instruction, the step is that instruction's, after the cycles that pass, and a lockstep pair counts what retires in
it (R390); the word is the one at the pc, in the L1 or
at its home, at a supervisor slot in memory; an event of the agenda is performed as it stands. Readings and choices of the
model it rests on: log 1, 2, 11. -/
def Obligations.AStepRunsTheDecodedInstruction : Prop :=
  (∀ (s t : State) (n : Nat) (w : Code) (i : Instr), s.nextMove.turn = .issue n → s.tripped = false →
    (let u := turnOf s n
     taking u u.focus → fetches u t u.focus w i →
     step s = (match exec i (t.settle u.focus i) with
        | .next v => .next (if (v.slot u.focus).ist = (u.slot u.focus).ist then v else v.countPair u.focus 1)
        | .fault f => .fault f
        | .refused r => .refused r)
      ∧ ((t.slot u.focus).acqHold = false → t.settle u.focus i = t)
      ∧ ∀ (v : State) (m : Nat), v.countPair m 1 = (if v.pairs (m / 64) = true then { v with cores :=
          (v.countPair m 1).cores } else v)
        ∧ ∀ k, (v.countPair m 1).core k = if k = m / 64 ∧ v.pairs k = true then
            { v.core k with pairRetired := (v.core k).pairRetired + 1 } else v.core k))
  ∧ (∀ (s : State) (n i : Nat),
    (let c := coreOfSlot n
     let next := 4 * (s.beginMove.core c).clock + (s.beginMove.core c).ring + 1 + i
     i < 64 → s.beginMove.canIssue (64 * c + next % 64) = true →
     (∀ k, k < i → s.beginMove.canIssue (64 * c + (next - i + k) % 64) = false) →
     (turnOf s n).focus = 64 * c + next % 64 ∧ ((turnOf s n).core c).clock = next / 4 ∧ ((turnOf s n).core c).ring = next % 4))
  ∧ (∀ (s : State) (n : Nat), (s.slot n).heldFault = none → (s.slot n).pc.toNat % 4 = 0 → (s.slot n).pc.toNat < 2 ^ 56 →
    (let va := (s.slot n).pc.toNat
     let j := (s.slot n).job
     (isUserSlot n = false → s.fetch n = .word (codeOf (s.physBytes (va / 8 * 8) 8) (va % 8)) s)
     ∧ (isUserSlot n = true → s.permits (n / 64) j .fetch va = true →
      (∀ bs, s.l1Read (n / 64) (va / 8) (va % 8) 4 = some bs →
        s.fetch n = .word (BitVec.ofNat 32 (natOfBytes bs)) ((s.keepProtection (n / 64) j va).fetched n))
      ∧ (s.l1Read (n / 64) (va / 8) (va % 8) 4 = none → s.isOurs va = true →
        s.proxiedAhead (dieOfTile (tileOfSlot n)) va none = false →
        s.homeCheck (s.homeOf j va) va .fetch none = .held →
        ∃ t, s.fetch n = .word (codeOf (s.homeBytes (s.homeOf j va) (va / 8 * 8) 8) (va % 8)) t
          ∧ t.slots = (s.fetched n).slots ∧ t.net = s.net))))
  ∧ (∀ (s : State) (e : Instr), s.nextMove.turn = .event e → e.isWord = false → s.tripped = false → step s = exec e s.beginMove)

/-- R71, R74-R77, R101-R105: words written out from the encodings decode to the instructions that they stand for. -/
def Obligations.WordsDecode : Prop :=
  decodeWord 0b00_00_0000010_0000001_0000011_0000001 = .ok (.add 3 1 2 false false)
  ∧ decodeWord 0b11111111111_0000101_0000101_0010000 = .ok (.addi 5 5 0x7FF)
  ∧ decodeWord 0b00000000010_0000100_0001000_0110110 = .ok (.ld64 8 4 2)
  ∧ decodeWord 0b1111_0000010_0000001_1111110_0100000 = .ok (.beq 1 2 0x7FE)
  ∧ decodeWord 0b10_01_0000111_0000110_0000101_1000001 = .ok (.amoAnd 5 6 7 .acq true false)
  ∧ decodeWord 0b00_10_0000000_0000000_0000000_1111111 = .ok (.brk 0)
  ∧ decodeWord 0 = .error .opcode ∧ decodeWord 0xFFFFFFFF = .error .unusedField

/-- R74-R78, R101-R109: a word decodes to an instruction exactly where that instruction is well formed and encodes to the word:
every well-formed instruction, with every operand, comes back from its word; no bit of a word is dropped; and every reserved
value, nonzero unused field and register limit is refused. -/
def Obligations.DecodeAndEncodeAgree : Prop :=
  ∀ (i : Instr) (w : Code), i.wellFormed = true ∧ encode i = some w ↔ decodeWord w = .ok i

/-- Every step keeps the one form of the memories: addresses strictly rising, and no byte equal to what an unlisted address
reads as (log 3, the model's choice). -/
def Obligations.StepsKeepTheMemories : Prop :=
  ∀ s t : State, Safety.memoriesOk s → step s = .next t → Safety.memoriesOk t

/-- R350, R412: every step keeps pwrlim and deckle, in force and to come, inside their ranges. -/
def Obligations.StepsKeepTheLimits : Prop :=
  ∀ s t : State, Safety.limitsOk s → step s = .next t → Safety.limitsOk t

/-- R411: a machine that has tripped issues nothing and moves no packet until it is reset: short of a package reset no step
changes a thread, a scratchpad, a job, a packet or a Tile Array's accumulators, and none ends the trip. -/
def Obligations.ATrippedMachineStands : Prop :=
  ∀ s t : State, s.tripped = true → s.nextMove.turn ≠ .event .packageReset → step s = .next t →
    t.tripped = true ∧ t.slots = s.slots ∧ t.pool = s.pool ∧ t.acc = s.acc ∧ t.jobs = s.jobs ∧ t.net = s.net
end

