-- ==== Sys2Proof/Laws/Store.lean ====
section
/-! SUPPORT. Laws of stores and memories: read after write, and the canonical form that every write keeps. -/

namespace Sys2Proof.Machine

variable {α : Type} [DecidableEq α]

omit [DecidableEq α] in
/-- Keys at or below `k` do not bear on a later key. -/
theorem storeGet_dropWhile (dflt : Nat → α) (m : Store α) (k j : Nat) (h : k < j) :
    storeGet dflt (m.dropWhile fun e => decide (e.1 ≤ k)) j = storeGet dflt m j := by
  induction m with
  | nil => rfl
  | cons e rest ih =>
    obtain ⟨i, v⟩ := e
    by_cases hi : i ≤ k
    · have h1 : j ≠ i := by omega
      have h2 : ¬ j < i := by omega
      simp [List.dropWhile, hi, storeGet, h1, h2, ih]
    · simp [List.dropWhile, hi]

omit [DecidableEq α] in
/-- What stays after the keys at or below `k` are dropped gives `k` and less their default. -/
theorem storeGet_dropWhile_le (dflt : Nat → α) (m : Store α) (k j : Nat) (h : j ≤ k) :
    storeGet dflt (m.dropWhile fun e => decide (e.1 ≤ k)) j = dflt j := by
  induction m with
  | nil => rfl
  | cons e rest ih =>
    obtain ⟨i, v⟩ := e
    by_cases hi : i ≤ k
    · simp [List.dropWhile, hi, ih]
    · have h1 : j ≠ i := by omega
      have h2 : j < i := by omega
      simp [List.dropWhile, hi, storeGet, h1, h2]

/-- A key that was written reads as the value written. -/
@[simp] theorem storeGet_storeSet_same (dflt : Nat → α) (m : Store α) (k : Nat) (v : α) :
    storeGet dflt (storeSet dflt m k v) k = v := by
  induction m with
  | nil => by_cases h : v = dflt k <;> simp [storeSet, storeGet, h]
  | cons e rest ih =>
    obtain ⟨j, w⟩ := e
    by_cases h1 : k = j
    · by_cases h2 : v = dflt k
      · simp only [storeSet, h1, if_true]
        subst h1
        simp only [h2, if_true]
        exact storeGet_dropWhile_le dflt rest k k (Nat.le_refl k)
      · simp [storeSet, h1]
        subst h1
        simp [h2, storeGet]
    · by_cases h2 : k < j
      · by_cases h3 : v = dflt k <;> simp [storeSet, storeGet, h1, h2, h3]
      · simp [storeSet, storeGet, h1, h2, ih]

/-- A write leaves every other key as it was. -/
theorem storeGet_storeSet_other (dflt : Nat → α) (m : Store α) (k j : Nat) (v : α) (h : j ≠ k) :
    storeGet dflt (storeSet dflt m k v) j = storeGet dflt m j := by
  induction m with
  | nil => by_cases hv : v = dflt k <;> simp [storeSet, storeGet, h, hv]
  | cons e rest ih =>
    obtain ⟨i, w⟩ := e
    by_cases h1 : k = i
    · subst h1
      by_cases h2 : v = dflt k
      · simp only [storeSet, h2, if_true]
        by_cases h3 : j < k
        · have : j ≤ k := by omega
          simp [storeGet, h, h3, storeGet_dropWhile_le dflt rest k j this]
        · have h4 : k < j := by omega
          simp [storeGet, h, h3, storeGet_dropWhile dflt rest k j h4]
      · simp [storeSet, h2, storeGet, h]
    · by_cases h2 : k < i
      · by_cases h3 : v = dflt k
        · simp [storeSet, h1, h2, h3]
        · by_cases h4 : j < k
          · have h5 : j ≠ i := by omega
            have h6 : j < i := by omega
            simp [storeSet, storeGet, h, h1, h2, h3, h4, h5, h6]
          · simp [storeSet, storeGet, h, h1, h2, h3, h4]
      · by_cases h3 : j = i
        · simp [storeSet, storeGet, h1, h2, h3]
        · by_cases h4 : j < i <;> simp [storeSet, storeGet, h1, h2, h3, h4, ih]

/-- A read after a write. -/
theorem storeGet_storeSet (dflt : Nat → α) (m : Store α) (k j : Nat) (v : α) :
    storeGet dflt (storeSet dflt m k v) j = if j = k then v else storeGet dflt m j := by
  by_cases h : j = k
  · subst h
    simp
  · simp [h, storeGet_storeSet_other dflt m k j v h]

/-- A store in canonical form above a bound is so above a lower bound. -/
theorem storeWfFrom_mono (dflt : Nat → α) (m : Store α) (lo hi : Nat) (h : lo ≤ hi)
    (hw : storeWfFrom dflt hi m = true) : storeWfFrom dflt lo m = true := by
  cases m with
  | nil => rfl
  | cons e rest =>
    obtain ⟨j, v⟩ := e
    simp only [storeWfFrom, Bool.and_eq_true, decide_eq_true_eq] at hw ⊢
    exact ⟨⟨Nat.le_trans h hw.1.1, hw.1.2⟩, hw.2⟩

/-- No key at or below `k` stands in a store whose keys begin above it. -/
theorem storeWfFrom_dropWhile (dflt : Nat → α) (m : Store α) (k : Nat) (hw : storeWfFrom dflt (k + 1) m = true) :
    m.dropWhile (fun e => decide (e.1 ≤ k)) = m := by
  cases m with
  | nil => rfl
  | cons e rest =>
    obtain ⟨j, v⟩ := e
    simp only [storeWfFrom, Bool.and_eq_true, decide_eq_true_eq] at hw
    have : ¬ j ≤ k := by omega
    simp [List.dropWhile, this]

/-- A write keeps the canonical form above a bound. -/
theorem storeWfFrom_storeSet (dflt : Nat → α) (m : Store α) (lo k : Nat) (v : α) (hk : lo ≤ k)
    (hw : storeWfFrom dflt lo m = true) : storeWfFrom dflt lo (storeSet dflt m k v) = true := by
  induction m generalizing lo with
  | nil => by_cases h : v = dflt k <;> simp [storeSet, storeWfFrom, h, hk]
  | cons e rest ih =>
    obtain ⟨j, w⟩ := e
    have hw' := hw
    simp only [storeWfFrom, Bool.and_eq_true, decide_eq_true_eq] at hw'
    obtain ⟨⟨hj, hne⟩, hrest⟩ := hw'
    by_cases h1 : k = j
    · subst h1
      by_cases h2 : v = dflt k
      · simp only [storeSet, h2, if_true]
        rw [storeWfFrom_dropWhile dflt rest k hrest]
        exact storeWfFrom_mono dflt rest lo (k + 1) (by omega) hrest
      · simp [storeSet, h2, storeWfFrom, hk, hrest]
    · by_cases h2 : k < j
      · by_cases h3 : v = dflt k
        · simp only [storeSet, h1, h2, h3, if_true, if_false]
          exact hw
        · simp only [storeSet, h1, h2, h3, if_true, if_false, storeWfFrom, Bool.and_eq_true, decide_eq_true_eq]
          exact ⟨⟨hk, h3⟩, ⟨⟨by omega, hne⟩, hrest⟩⟩
      · simp only [storeSet, h1, h2, if_false, storeWfFrom, Bool.and_eq_true, decide_eq_true_eq]
        exact ⟨⟨hj, hne⟩, ih (j + 1) (by omega) hrest⟩

/-- A write keeps the canonical form. -/
theorem storeWf_storeSet (dflt : Nat → α) (m : Store α) (k : Nat) (v : α) (hw : storeWf dflt m = true) :
    storeWf dflt (storeSet dflt m k v) = true := storeWfFrom_storeSet dflt m 0 k v (Nat.zero_le k) hw

/-- Dropping entries keeps the canonical form above a bound. -/
theorem storeWfFrom_filter (dflt : Nat → α) (m : Store α) (lo : Nat) (p : Nat × α → Bool)
    (hw : storeWfFrom dflt lo m = true) : storeWfFrom dflt lo (m.filter p) = true := by
  induction m generalizing lo with
  | nil => rfl
  | cons e rest ih =>
    obtain ⟨j, v⟩ := e
    simp only [storeWfFrom, Bool.and_eq_true, decide_eq_true_eq] at hw
    obtain ⟨⟨hj, hne⟩, hrest⟩ := hw
    by_cases h : p (j, v) = true
    · simp only [List.filter, h, storeWfFrom, Bool.and_eq_true, decide_eq_true_eq]
      exact ⟨⟨hj, hne⟩, ih (j + 1) hrest⟩
    · simp only [List.filter, h]
      exact storeWfFrom_mono dflt _ lo (j + 1) (by omega) (ih (j + 1) hrest)

/-- Dropping entries keeps the canonical form. -/
theorem storeWf_filter (dflt : Nat → α) (m : Store α) (p : Nat × α → Bool) (hw : storeWf dflt m = true) :
    storeWf dflt (m.filter p) = true := storeWfFrom_filter dflt m 0 p hw

/-- Two canonical stores that read alike at every key are the same list. -/
theorem storeWfFrom_ext (dflt : Nat → α) (m n : Store α) (lo : Nat) (hm : storeWfFrom dflt lo m = true)
    (hn : storeWfFrom dflt lo n = true) (h : ∀ k, storeGet dflt m k = storeGet dflt n k) : m = n := by
  induction m generalizing n lo with
  | nil =>
    cases n with
    | nil => rfl
    | cons e rest =>
      obtain ⟨j, v⟩ := e
      simp only [storeWfFrom, Bool.and_eq_true, decide_eq_true_eq] at hn
      have := h j
      simp [storeGet] at this
      exact absurd this.symm hn.1.2
  | cons e rest ih =>
    obtain ⟨j, v⟩ := e
    simp only [storeWfFrom, Bool.and_eq_true, decide_eq_true_eq] at hm
    obtain ⟨⟨hj, hne⟩, hrest⟩ := hm
    cases n with
    | nil =>
      have := h j
      simp [storeGet] at this
      exact absurd this hne
    | cons e' rest' =>
      obtain ⟨j', v'⟩ := e'
      simp only [storeWfFrom, Bool.and_eq_true, decide_eq_true_eq] at hn
      obtain ⟨⟨hj', hne'⟩, hrest'⟩ := hn
      have key : j = j' := by
        rcases Nat.lt_trichotomy j j' with hlt | heq | hgt
        · have := h j
          have h1 : j ≠ j' := by omega
          simp [storeGet, h1, hlt] at this
          exact absurd this hne
        · exact heq
        · have := h j'
          have h1 : j' ≠ j := by omega
          simp [storeGet, h1, hgt] at this
          exact absurd this.symm hne'
      subst key
      have val : v = v' := by
        have := h j
        simpa [storeGet] using this
      subst val
      have low (q : Store α) (k : Nat) (hk : k ≤ j) (hq : storeWfFrom dflt (j + 1) q = true) :
          storeGet dflt q k = dflt k := by
        cases q with
        | nil => rfl
        | cons f qs =>
          obtain ⟨i, u⟩ := f
          simp only [storeWfFrom, Bool.and_eq_true, decide_eq_true_eq] at hq
          have h1 : k ≠ i := by omega
          have h2 : k < i := by omega
          simp [storeGet, h1, h2]
      have tails : rest = rest' := by
        refine ih rest' (j + 1) hrest hrest' fun k => ?_
        by_cases hk : k ≤ j
        · rw [low rest k hk hrest, low rest' k hk hrest']
        · have := h k
          have h1 : k ≠ j := by omega
          have h2 : ¬ k < j := by omega
          simpa [storeGet, h1, h2] using this
      rw [tails]

/-! ## Memory -/

/-- A byte that was written reads as the byte written, and every other byte as before. -/
theorem Memory.byte_setByte (m : Memory) (a b : Nat) (v : Byte) :
    (m.setByte a v).byte b = if b = a then v else m.byte b := storeGet_storeSet unlistedByte m a b v

/-- Writing a byte keeps the canonical form. -/
theorem Memory.wf_setByte (m : Memory) (a : Nat) (v : Byte) (h : m.wf = true) : (m.setByte a v).wf = true :=
  storeWf_storeSet unlistedByte m a v h

/-- Writing bytes keeps the canonical form. -/
theorem Memory.wf_setBytes (m : Memory) (a : Nat) (bs : List Byte) (h : m.wf = true) : (m.setBytes a bs).wf = true := by
  induction bs generalizing m a with
  | nil => exact h
  | cons b bs ih => exact ih (m.setByte a b) (a + 1) (m.wf_setByte a b h)

/-- Writing a word keeps the canonical form. -/
theorem Memory.wf_setWord (m : Memory) (a : Nat) (w : Word) (h : m.wf = true) : (m.setWord a w).wf = true :=
  m.wf_setBytes a _ h

/-- Dropping a range keeps the canonical form. -/
theorem Memory.wf_filter (m : Memory) (p : Nat × Byte → Bool) (h : m.wf = true) : Memory.wf (m.filter p) = true :=
  storeWf_filter unlistedByte m p h

/-- Memory with nothing listed has the canonical form. -/
theorem Memory.wf_nil : Memory.wf [] = true := rfl

/-- Bytes outside the bytes written read as before. -/
theorem Memory.byte_setBytes_other (m : Memory) (a b : Nat) (bs : List Byte) (h : b < a ∨ a + bs.length ≤ b) :
    (m.setBytes a bs).byte b = m.byte b := by
  induction bs generalizing m a with
  | nil => rfl
  | cons c cs ih =>
    have h1 : b ≠ a := by
      simp only [List.length_cons] at h
      omega
    have h2 : b < a + 1 ∨ a + 1 + cs.length ≤ b := by
      simp only [List.length_cons] at h
      omega
    simp only [Memory.setBytes]
    rw [ih (m.setByte a c) (a + 1) h2, m.byte_setByte, if_neg h1]

/-- A byte inside the bytes written reads as the byte written there. -/
theorem Memory.byte_setBytes_inside (m : Memory) (a k : Nat) (bs : List Byte) (h : k < bs.length) :
    (m.setBytes a bs).byte (a + k) = bs[k] := by
  induction bs generalizing m a k with
  | nil => simp at h
  | cons c cs ih =>
    cases k with
    | zero =>
      simp only [Memory.setBytes, Nat.add_zero, List.getElem_cons_zero]
      rw [(m.setByte a c).byte_setBytes_other (a + 1) a cs (by omega), m.byte_setByte, if_pos rfl]
    | succ k =>
      simp only [List.length_cons] at h
      simp only [Memory.setBytes, List.getElem_cons_succ]
      have := ih (m.setByte a c) (a + 1) k (by omega)
      rw [← this]
      congr 1
      omega

/-- Bytes written and read back are the bytes written. -/
theorem Memory.bytes_setBytes (m : Memory) (a : Nat) (bs : List Byte) : (m.setBytes a bs).bytes a bs.length = bs := by
  induction bs generalizing m a with
  | nil => rfl
  | cons b bs ih =>
    have h : (m.setByte a b).setBytes (a + 1) bs = (m.setByte a b).setBytes (a + 1) bs := rfl
    simp only [Memory.setBytes, List.length_cons, Memory.bytes]
    rw [ih (m.setByte a b) (a + 1), (m.setByte a b).byte_setBytes_other (a + 1) a bs (by omega), m.byte_setByte, if_pos rfl]

end Sys2Proof.Machine
end

