-- ==== Sys2Proof/Laws/State.lean ====
section
/-! SUPPORT. One lemma for each field under each update of the state and of a slot, and the read-after-write laws of its
tables. -/

namespace Sys2Proof.Machine

/-! ## Tables -/

/-- A slot that was replaced. -/
@[simp] theorem State.slot_setSlot_same (s : State) (n : Nat) (x : Slot) : (s.setSlot n x).slot n = x :=
  storeGet_storeSet_same _ _ _ _
/-- Another slot. -/
theorem State.slot_setSlot_other (s : State) (n k : Nat) (x : Slot) (h : k ≠ n) : (s.setSlot n x).slot k = s.slot k :=
  storeGet_storeSet_other _ _ _ _ _ h
/-- Any slot after one was replaced. -/
theorem State.slot_setSlot (s : State) (n k : Nat) (x : Slot) : (s.setSlot n x).slot k = if k = n then x else s.slot k :=
  storeGet_storeSet _ _ _ _ _
/-- A slot that was changed. -/
@[simp] theorem State.slot_onSlot_same (s : State) (n : Nat) (f : Slot → Slot) : (s.onSlot n f).slot n = f (s.slot n) :=
  storeGet_storeSet_same _ _ _ _
/-- Another slot than the one changed. -/
theorem State.slot_onSlot_other (s : State) (n k : Nat) (f : Slot → Slot) (h : k ≠ n) : (s.onSlot n f).slot k = s.slot k :=
  storeGet_storeSet_other _ _ _ _ _ h
/-- Any slot after one was changed. -/
theorem State.slot_onSlot (s : State) (n k : Nat) (f : Slot → Slot) :
    (s.onSlot n f).slot k = if k = n then f (s.slot n) else s.slot k := storeGet_storeSet _ _ _ _ _

/-- A core that was replaced. -/
@[simp] theorem State.core_setCore_same (s : State) (c : Nat) (x : Core) : (s.setCore c x).core c = x :=
  storeGet_storeSet_same _ _ _ _
/-- Another core. -/
theorem State.core_setCore_other (s : State) (c k : Nat) (x : Core) (h : k ≠ c) : (s.setCore c x).core k = s.core k :=
  storeGet_storeSet_other _ _ _ _ _ h
/-- Any core after one was replaced. -/
theorem State.core_setCore (s : State) (c k : Nat) (x : Core) : (s.setCore c x).core k = if k = c then x else s.core k :=
  storeGet_storeSet _ _ _ _ _
/-- A core that was changed. -/
@[simp] theorem State.core_onCore_same (s : State) (c : Nat) (f : Core → Core) : (s.onCore c f).core c = f (s.core c) :=
  storeGet_storeSet_same _ _ _ _
/-- Another core than the one changed. -/
theorem State.core_onCore_other (s : State) (c k : Nat) (f : Core → Core) (h : k ≠ c) : (s.onCore c f).core k = s.core k :=
  storeGet_storeSet_other _ _ _ _ _ h
/-- Any core after one was changed. -/
theorem State.core_onCore (s : State) (c k : Nat) (f : Core → Core) :
    (s.onCore c f).core k = if k = c then f (s.core c) else s.core k := storeGet_storeSet _ _ _ _ _

/-- A tile that was replaced. -/
@[simp] theorem State.tile_setTile_same (s : State) (t : Nat) (x : Tile) : (s.setTile t x).tile t = x :=
  storeGet_storeSet_same _ _ _ _
/-- Another tile. -/
theorem State.tile_setTile_other (s : State) (t k : Nat) (x : Tile) (h : k ≠ t) : (s.setTile t x).tile k = s.tile k :=
  storeGet_storeSet_other _ _ _ _ _ h
/-- Any tile after one was replaced. -/
theorem State.tile_setTile (s : State) (t k : Nat) (x : Tile) : (s.setTile t x).tile k = if k = t then x else s.tile k :=
  storeGet_storeSet _ _ _ _ _
/-- A tile that was changed. -/
@[simp] theorem State.tile_onTile_same (s : State) (t : Nat) (f : Tile → Tile) : (s.onTile t f).tile t = f (s.tile t) :=
  storeGet_storeSet_same _ _ _ _
/-- Another tile than the one changed. -/
theorem State.tile_onTile_other (s : State) (t k : Nat) (f : Tile → Tile) (h : k ≠ t) : (s.onTile t f).tile k = s.tile k :=
  storeGet_storeSet_other _ _ _ _ _ h
/-- Any tile after one was changed. -/
theorem State.tile_onTile (s : State) (t k : Nat) (f : Tile → Tile) :
    (s.onTile t f).tile k = if k = t then f (s.tile t) else s.tile k := storeGet_storeSet _ _ _ _ _

/-- A function whose registers were changed. -/
@[simp] theorem State.tenant_onTenant_same (s : State) (v : Nat) (f : Tenant → Tenant) :
    (s.onTenant v f).tenant v = f (s.tenant v) := storeGet_storeSet_same _ _ _ _
/-- Another function. -/
theorem State.tenant_onTenant_other (s : State) (v k : Nat) (f : Tenant → Tenant) (h : k ≠ v) :
    (s.onTenant v f).tenant k = s.tenant k := storeGet_storeSet_other _ _ _ _ _ h
/-- A job that was replaced. -/
@[simp] theorem State.job_setJob_same (s : State) (j : Nat) (x : Job) : (s.setJob j x).job j = some x :=
  storeGet_storeSet_same _ _ _ _
/-- Another job. -/
theorem State.job_setJob_other (s : State) (j k : Nat) (x : Job) (h : k ≠ j) : (s.setJob j x).job k = s.job k :=
  storeGet_storeSet_other _ _ _ _ _ h
/-- A job that exists and was changed. -/
theorem State.onJob_some (s : State) (j : Nat) (x : Job) (f : Job → Job) (h : s.job j = some x) :
    s.onJob j f = s.setJob j (f x) := by simp [State.onJob, h]
/-- A job that does not exist is not changed. -/
theorem State.onJob_none (s : State) (j : Nat) (f : Job → Job) (h : s.job j = none) : s.onJob j f = s := by
  simp [State.onJob, h]
/-- A packet that was sent is the last one in flight. -/
@[simp] theorem State.net_post (s : State) (p : Packet) : (s.post p).net = s.net ++ [p] := rfl
/-- A packet that was taken is gone. -/
@[simp] theorem State.net_taken (s : State) (n : Nat) : (s.taken n).net = s.net.eraseIdx n := rfl

/-! ## Fields of the state under its updates -/

@[simp] theorem State.cyc_setSlot (s : State) (n : Nat) (x : Slot) : (s.setSlot n x).cyc = s.cyc := rfl
@[simp] theorem State.moves_setSlot (s : State) (n : Nat) (x : Slot) : (s.setSlot n x).moves = s.moves := rfl
@[simp] theorem State.agenda_setSlot (s : State) (n : Nat) (x : Slot) : (s.setSlot n x).agenda = s.agenda := rfl
@[simp] theorem State.focus_setSlot (s : State) (n : Nat) (x : Slot) : (s.setSlot n x).focus = s.focus := rfl
@[simp] theorem State.hbm_setSlot (s : State) (n : Nat) (x : Slot) : (s.setSlot n x).hbm = s.hbm := rfl
@[simp] theorem State.host_setSlot (s : State) (n : Nat) (x : Slot) : (s.setSlot n x).host = s.host := rfl
@[simp] theorem State.pool_setSlot (s : State) (n : Nat) (x : Slot) : (s.setSlot n x).pool = s.pool := rfl
@[simp] theorem State.acc_setSlot (s : State) (n : Nat) (x : Slot) : (s.setSlot n x).acc = s.acc := rfl
@[simp] theorem State.l2_setSlot (s : State) (n : Nat) (x : Slot) : (s.setSlot n x).l2 = s.l2 := rfl
@[simp] theorem State.pins_setSlot (s : State) (n : Nat) (x : Slot) : (s.setSlot n x).pins = s.pins := rfl
@[simp] theorem State.proxyCopies_setSlot (s : State) (n : Nat) (x : Slot) : (s.setSlot n x).proxyCopies = s.proxyCopies := rfl
@[simp] theorem State.net_setSlot (s : State) (n : Nat) (x : Slot) : (s.setSlot n x).net = s.net := rfl
@[simp] theorem State.cores_setSlot (s : State) (n : Nat) (x : Slot) : (s.setSlot n x).cores = s.cores := rfl
@[simp] theorem State.tiles_setSlot (s : State) (n : Nat) (x : Slot) : (s.setSlot n x).tiles = s.tiles := rfl
@[simp] theorem State.jobs_setSlot (s : State) (n : Nat) (x : Slot) : (s.setSlot n x).jobs = s.jobs := rfl
@[simp] theorem State.tenants_setSlot (s : State) (n : Nat) (x : Slot) : (s.setSlot n x).tenants = s.tenants := rfl
@[simp] theorem State.calenders_setSlot (s : State) (n : Nat) (x : Slot) : (s.setSlot n x).calenders = s.calenders := rfl
@[simp] theorem State.links_setSlot (s : State) (n : Nat) (x : Slot) : (s.setSlot n x).links = s.links := rfl
@[simp] theorem State.pkgid_setSlot (s : State) (n : Nat) (x : Slot) : (s.setSlot n x).pkgid = s.pkgid := rfl
@[simp] theorem State.ptroot_setSlot (s : State) (n : Nat) (x : Slot) : (s.setSlot n x).ptroot = s.ptroot := rfl
@[simp] theorem State.ddir_setSlot (s : State) (n : Nat) (x : Slot) : (s.setSlot n x).ddir = s.ddir := rfl
@[simp] theorem State.pwrlim_setSlot (s : State) (n : Nat) (x : Slot) : (s.setSlot n x).pwrlim = s.pwrlim := rfl
@[simp] theorem State.deckle_setSlot (s : State) (n : Nat) (x : Slot) : (s.setSlot n x).deckle = s.deckle := rfl
@[simp] theorem State.deckleNext_setSlot (s : State) (n : Nat) (x : Slot) : (s.setSlot n x).deckleNext = s.deckleNext := rfl
@[simp] theorem State.period_setSlot (s : State) (n : Nat) (x : Slot) : (s.setSlot n x).period = s.period := rfl
@[simp] theorem State.periodStart_setSlot (s : State) (n : Nat) (x : Slot) : (s.setSlot n x).periodStart = s.periodStart := rfl
@[simp] theorem State.lastSample_setSlot (s : State) (n : Nat) (x : Slot) : (s.setSlot n x).lastSample = s.lastSample := rfl
@[simp] theorem State.stage_setSlot (s : State) (n : Nat) (x : Slot) : (s.setSlot n x).stage = s.stage := rfl
@[simp] theorem State.fail_setSlot (s : State) (n : Nat) (x : Slot) : (s.setSlot n x).fail = s.fail := rfl
@[simp] theorem State.trained_setSlot (s : State) (n : Nat) (x : Slot) : (s.setSlot n x).trained = s.trained := rfl
@[simp] theorem State.meas_setSlot (s : State) (n : Nat) (x : Slot) : (s.setSlot n x).meas = s.meas := rfl
@[simp] theorem State.tripped_setSlot (s : State) (n : Nat) (x : Slot) : (s.setSlot n x).tripped = s.tripped := rfl
@[simp] theorem State.heldLaunches_setSlot (s : State) (n : Nat) (x : Slot) : (s.setSlot n x).heldLaunches = s.heldLaunches := rfl
@[simp] theorem State.spdm_setSlot (s : State) (n : Nat) (x : Slot) : (s.setSlot n x).spdm = s.spdm := rfl
@[simp] theorem State.peerRevokes_setSlot (s : State) (n : Nat) (x : Slot) : (s.setSlot n x).peerRevokes = s.peerRevokes := rfl
@[simp] theorem State.malformed_setSlot (s : State) (n : Nat) (x : Slot) : (s.setSlot n x).malformed = s.malformed := rfl
@[simp] theorem State.sets_setSlot (s : State) (n : Nat) (x : Slot) : (s.setSlot n x).sets = s.sets := rfl
@[simp] theorem State.sent_setSlot (s : State) (n : Nat) (x : Slot) : (s.setSlot n x).sent = s.sent := rfl
@[simp] theorem State.peerAnswers_setSlot (s : State) (n : Nat) (x : Slot) : (s.setSlot n x).peerAnswers = s.peerAnswers := rfl
@[simp] theorem State.hostRead_setSlot (s : State) (n : Nat) (x : Slot) : (s.setSlot n x).hostRead = s.hostRead := rfl
@[simp] theorem State.inbound_setSlot (s : State) (n : Nat) (x : Slot) : (s.setSlot n x).inbound = s.inbound := rfl
@[simp] theorem State.stackFailed_setSlot (s : State) (n : Nat) (x : Slot) : (s.setSlot n x).stackFailed = s.stackFailed := rfl
@[simp] theorem State.core_setSlot (s : State) (n : Nat) (x : Slot) (k : Nat) : (s.setSlot n x).core k = s.core k := rfl
@[simp] theorem State.tile_setSlot (s : State) (n : Nat) (x : Slot) (k : Nat) : (s.setSlot n x).tile k = s.tile k := rfl
@[simp] theorem State.job_setSlot (s : State) (n : Nat) (x : Slot) (k : Nat) : (s.setSlot n x).job k = s.job k := rfl
@[simp] theorem State.tenant_setSlot (s : State) (n : Nat) (x : Slot) (k : Nat) : (s.setSlot n x).tenant k = s.tenant k := rfl
@[simp] theorem State.cyc_onSlot (s : State) (n : Nat) (f : Slot → Slot) : (s.onSlot n f).cyc = s.cyc := rfl
@[simp] theorem State.moves_onSlot (s : State) (n : Nat) (f : Slot → Slot) : (s.onSlot n f).moves = s.moves := rfl
@[simp] theorem State.agenda_onSlot (s : State) (n : Nat) (f : Slot → Slot) : (s.onSlot n f).agenda = s.agenda := rfl
@[simp] theorem State.focus_onSlot (s : State) (n : Nat) (f : Slot → Slot) : (s.onSlot n f).focus = s.focus := rfl
@[simp] theorem State.hbm_onSlot (s : State) (n : Nat) (f : Slot → Slot) : (s.onSlot n f).hbm = s.hbm := rfl
@[simp] theorem State.host_onSlot (s : State) (n : Nat) (f : Slot → Slot) : (s.onSlot n f).host = s.host := rfl
@[simp] theorem State.pool_onSlot (s : State) (n : Nat) (f : Slot → Slot) : (s.onSlot n f).pool = s.pool := rfl
@[simp] theorem State.acc_onSlot (s : State) (n : Nat) (f : Slot → Slot) : (s.onSlot n f).acc = s.acc := rfl
@[simp] theorem State.l2_onSlot (s : State) (n : Nat) (f : Slot → Slot) : (s.onSlot n f).l2 = s.l2 := rfl
@[simp] theorem State.pins_onSlot (s : State) (n : Nat) (f : Slot → Slot) : (s.onSlot n f).pins = s.pins := rfl
@[simp] theorem State.proxyCopies_onSlot (s : State) (n : Nat) (f : Slot → Slot) : (s.onSlot n f).proxyCopies = s.proxyCopies := rfl
@[simp] theorem State.net_onSlot (s : State) (n : Nat) (f : Slot → Slot) : (s.onSlot n f).net = s.net := rfl
@[simp] theorem State.cores_onSlot (s : State) (n : Nat) (f : Slot → Slot) : (s.onSlot n f).cores = s.cores := rfl
@[simp] theorem State.tiles_onSlot (s : State) (n : Nat) (f : Slot → Slot) : (s.onSlot n f).tiles = s.tiles := rfl
@[simp] theorem State.jobs_onSlot (s : State) (n : Nat) (f : Slot → Slot) : (s.onSlot n f).jobs = s.jobs := rfl
@[simp] theorem State.tenants_onSlot (s : State) (n : Nat) (f : Slot → Slot) : (s.onSlot n f).tenants = s.tenants := rfl
@[simp] theorem State.calenders_onSlot (s : State) (n : Nat) (f : Slot → Slot) : (s.onSlot n f).calenders = s.calenders := rfl
@[simp] theorem State.links_onSlot (s : State) (n : Nat) (f : Slot → Slot) : (s.onSlot n f).links = s.links := rfl
@[simp] theorem State.pkgid_onSlot (s : State) (n : Nat) (f : Slot → Slot) : (s.onSlot n f).pkgid = s.pkgid := rfl
@[simp] theorem State.ptroot_onSlot (s : State) (n : Nat) (f : Slot → Slot) : (s.onSlot n f).ptroot = s.ptroot := rfl
@[simp] theorem State.ddir_onSlot (s : State) (n : Nat) (f : Slot → Slot) : (s.onSlot n f).ddir = s.ddir := rfl
@[simp] theorem State.pwrlim_onSlot (s : State) (n : Nat) (f : Slot → Slot) : (s.onSlot n f).pwrlim = s.pwrlim := rfl
@[simp] theorem State.deckle_onSlot (s : State) (n : Nat) (f : Slot → Slot) : (s.onSlot n f).deckle = s.deckle := rfl
@[simp] theorem State.deckleNext_onSlot (s : State) (n : Nat) (f : Slot → Slot) : (s.onSlot n f).deckleNext = s.deckleNext := rfl
@[simp] theorem State.period_onSlot (s : State) (n : Nat) (f : Slot → Slot) : (s.onSlot n f).period = s.period := rfl
@[simp] theorem State.periodStart_onSlot (s : State) (n : Nat) (f : Slot → Slot) : (s.onSlot n f).periodStart = s.periodStart := rfl
@[simp] theorem State.lastSample_onSlot (s : State) (n : Nat) (f : Slot → Slot) : (s.onSlot n f).lastSample = s.lastSample := rfl
@[simp] theorem State.stage_onSlot (s : State) (n : Nat) (f : Slot → Slot) : (s.onSlot n f).stage = s.stage := rfl
@[simp] theorem State.fail_onSlot (s : State) (n : Nat) (f : Slot → Slot) : (s.onSlot n f).fail = s.fail := rfl
@[simp] theorem State.trained_onSlot (s : State) (n : Nat) (f : Slot → Slot) : (s.onSlot n f).trained = s.trained := rfl
@[simp] theorem State.meas_onSlot (s : State) (n : Nat) (f : Slot → Slot) : (s.onSlot n f).meas = s.meas := rfl
@[simp] theorem State.tripped_onSlot (s : State) (n : Nat) (f : Slot → Slot) : (s.onSlot n f).tripped = s.tripped := rfl
@[simp] theorem State.heldLaunches_onSlot (s : State) (n : Nat) (f : Slot → Slot) : (s.onSlot n f).heldLaunches = s.heldLaunches := rfl
@[simp] theorem State.spdm_onSlot (s : State) (n : Nat) (f : Slot → Slot) : (s.onSlot n f).spdm = s.spdm := rfl
@[simp] theorem State.peerRevokes_onSlot (s : State) (n : Nat) (f : Slot → Slot) : (s.onSlot n f).peerRevokes = s.peerRevokes := rfl
@[simp] theorem State.malformed_onSlot (s : State) (n : Nat) (f : Slot → Slot) : (s.onSlot n f).malformed = s.malformed := rfl
@[simp] theorem State.sets_onSlot (s : State) (n : Nat) (f : Slot → Slot) : (s.onSlot n f).sets = s.sets := rfl
@[simp] theorem State.sent_onSlot (s : State) (n : Nat) (f : Slot → Slot) : (s.onSlot n f).sent = s.sent := rfl
@[simp] theorem State.peerAnswers_onSlot (s : State) (n : Nat) (f : Slot → Slot) : (s.onSlot n f).peerAnswers = s.peerAnswers := rfl
@[simp] theorem State.hostRead_onSlot (s : State) (n : Nat) (f : Slot → Slot) : (s.onSlot n f).hostRead = s.hostRead := rfl
@[simp] theorem State.inbound_onSlot (s : State) (n : Nat) (f : Slot → Slot) : (s.onSlot n f).inbound = s.inbound := rfl
@[simp] theorem State.stackFailed_onSlot (s : State) (n : Nat) (f : Slot → Slot) : (s.onSlot n f).stackFailed = s.stackFailed := rfl
@[simp] theorem State.core_onSlot (s : State) (n : Nat) (f : Slot → Slot) (k : Nat) : (s.onSlot n f).core k = s.core k := rfl
@[simp] theorem State.tile_onSlot (s : State) (n : Nat) (f : Slot → Slot) (k : Nat) : (s.onSlot n f).tile k = s.tile k := rfl
@[simp] theorem State.job_onSlot (s : State) (n : Nat) (f : Slot → Slot) (k : Nat) : (s.onSlot n f).job k = s.job k := rfl
@[simp] theorem State.tenant_onSlot (s : State) (n : Nat) (f : Slot → Slot) (k : Nat) : (s.onSlot n f).tenant k = s.tenant k := rfl
@[simp] theorem State.cyc_setCore (s : State) (c : Nat) (x : Core) : (s.setCore c x).cyc = s.cyc := rfl
@[simp] theorem State.moves_setCore (s : State) (c : Nat) (x : Core) : (s.setCore c x).moves = s.moves := rfl
@[simp] theorem State.agenda_setCore (s : State) (c : Nat) (x : Core) : (s.setCore c x).agenda = s.agenda := rfl
@[simp] theorem State.focus_setCore (s : State) (c : Nat) (x : Core) : (s.setCore c x).focus = s.focus := rfl
@[simp] theorem State.hbm_setCore (s : State) (c : Nat) (x : Core) : (s.setCore c x).hbm = s.hbm := rfl
@[simp] theorem State.host_setCore (s : State) (c : Nat) (x : Core) : (s.setCore c x).host = s.host := rfl
@[simp] theorem State.pool_setCore (s : State) (c : Nat) (x : Core) : (s.setCore c x).pool = s.pool := rfl
@[simp] theorem State.acc_setCore (s : State) (c : Nat) (x : Core) : (s.setCore c x).acc = s.acc := rfl
@[simp] theorem State.l2_setCore (s : State) (c : Nat) (x : Core) : (s.setCore c x).l2 = s.l2 := rfl
@[simp] theorem State.pins_setCore (s : State) (c : Nat) (x : Core) : (s.setCore c x).pins = s.pins := rfl
@[simp] theorem State.proxyCopies_setCore (s : State) (c : Nat) (x : Core) : (s.setCore c x).proxyCopies = s.proxyCopies := rfl
@[simp] theorem State.net_setCore (s : State) (c : Nat) (x : Core) : (s.setCore c x).net = s.net := rfl
@[simp] theorem State.slots_setCore (s : State) (c : Nat) (x : Core) : (s.setCore c x).slots = s.slots := rfl
@[simp] theorem State.tiles_setCore (s : State) (c : Nat) (x : Core) : (s.setCore c x).tiles = s.tiles := rfl
@[simp] theorem State.jobs_setCore (s : State) (c : Nat) (x : Core) : (s.setCore c x).jobs = s.jobs := rfl
@[simp] theorem State.tenants_setCore (s : State) (c : Nat) (x : Core) : (s.setCore c x).tenants = s.tenants := rfl
@[simp] theorem State.calenders_setCore (s : State) (c : Nat) (x : Core) : (s.setCore c x).calenders = s.calenders := rfl
@[simp] theorem State.links_setCore (s : State) (c : Nat) (x : Core) : (s.setCore c x).links = s.links := rfl
@[simp] theorem State.pkgid_setCore (s : State) (c : Nat) (x : Core) : (s.setCore c x).pkgid = s.pkgid := rfl
@[simp] theorem State.ptroot_setCore (s : State) (c : Nat) (x : Core) : (s.setCore c x).ptroot = s.ptroot := rfl
@[simp] theorem State.ddir_setCore (s : State) (c : Nat) (x : Core) : (s.setCore c x).ddir = s.ddir := rfl
@[simp] theorem State.pwrlim_setCore (s : State) (c : Nat) (x : Core) : (s.setCore c x).pwrlim = s.pwrlim := rfl
@[simp] theorem State.deckle_setCore (s : State) (c : Nat) (x : Core) : (s.setCore c x).deckle = s.deckle := rfl
@[simp] theorem State.deckleNext_setCore (s : State) (c : Nat) (x : Core) : (s.setCore c x).deckleNext = s.deckleNext := rfl
@[simp] theorem State.period_setCore (s : State) (c : Nat) (x : Core) : (s.setCore c x).period = s.period := rfl
@[simp] theorem State.periodStart_setCore (s : State) (c : Nat) (x : Core) : (s.setCore c x).periodStart = s.periodStart := rfl
@[simp] theorem State.lastSample_setCore (s : State) (c : Nat) (x : Core) : (s.setCore c x).lastSample = s.lastSample := rfl
@[simp] theorem State.stage_setCore (s : State) (c : Nat) (x : Core) : (s.setCore c x).stage = s.stage := rfl
@[simp] theorem State.fail_setCore (s : State) (c : Nat) (x : Core) : (s.setCore c x).fail = s.fail := rfl
@[simp] theorem State.trained_setCore (s : State) (c : Nat) (x : Core) : (s.setCore c x).trained = s.trained := rfl
@[simp] theorem State.meas_setCore (s : State) (c : Nat) (x : Core) : (s.setCore c x).meas = s.meas := rfl
@[simp] theorem State.tripped_setCore (s : State) (c : Nat) (x : Core) : (s.setCore c x).tripped = s.tripped := rfl
@[simp] theorem State.heldLaunches_setCore (s : State) (c : Nat) (x : Core) : (s.setCore c x).heldLaunches = s.heldLaunches := rfl
@[simp] theorem State.spdm_setCore (s : State) (c : Nat) (x : Core) : (s.setCore c x).spdm = s.spdm := rfl
@[simp] theorem State.peerRevokes_setCore (s : State) (c : Nat) (x : Core) : (s.setCore c x).peerRevokes = s.peerRevokes := rfl
@[simp] theorem State.malformed_setCore (s : State) (c : Nat) (x : Core) : (s.setCore c x).malformed = s.malformed := rfl
@[simp] theorem State.sets_setCore (s : State) (c : Nat) (x : Core) : (s.setCore c x).sets = s.sets := rfl
@[simp] theorem State.sent_setCore (s : State) (c : Nat) (x : Core) : (s.setCore c x).sent = s.sent := rfl
@[simp] theorem State.peerAnswers_setCore (s : State) (c : Nat) (x : Core) : (s.setCore c x).peerAnswers = s.peerAnswers := rfl
@[simp] theorem State.hostRead_setCore (s : State) (c : Nat) (x : Core) : (s.setCore c x).hostRead = s.hostRead := rfl
@[simp] theorem State.inbound_setCore (s : State) (c : Nat) (x : Core) : (s.setCore c x).inbound = s.inbound := rfl
@[simp] theorem State.stackFailed_setCore (s : State) (c : Nat) (x : Core) : (s.setCore c x).stackFailed = s.stackFailed := rfl
@[simp] theorem State.slot_setCore (s : State) (c : Nat) (x : Core) (k : Nat) : (s.setCore c x).slot k = s.slot k := rfl
@[simp] theorem State.tile_setCore (s : State) (c : Nat) (x : Core) (k : Nat) : (s.setCore c x).tile k = s.tile k := rfl
@[simp] theorem State.job_setCore (s : State) (c : Nat) (x : Core) (k : Nat) : (s.setCore c x).job k = s.job k := rfl
@[simp] theorem State.tenant_setCore (s : State) (c : Nat) (x : Core) (k : Nat) : (s.setCore c x).tenant k = s.tenant k := rfl
@[simp] theorem State.cyc_onCore (s : State) (c : Nat) (f : Core → Core) : (s.onCore c f).cyc = s.cyc := rfl
@[simp] theorem State.moves_onCore (s : State) (c : Nat) (f : Core → Core) : (s.onCore c f).moves = s.moves := rfl
@[simp] theorem State.agenda_onCore (s : State) (c : Nat) (f : Core → Core) : (s.onCore c f).agenda = s.agenda := rfl
@[simp] theorem State.focus_onCore (s : State) (c : Nat) (f : Core → Core) : (s.onCore c f).focus = s.focus := rfl
@[simp] theorem State.hbm_onCore (s : State) (c : Nat) (f : Core → Core) : (s.onCore c f).hbm = s.hbm := rfl
@[simp] theorem State.host_onCore (s : State) (c : Nat) (f : Core → Core) : (s.onCore c f).host = s.host := rfl
@[simp] theorem State.pool_onCore (s : State) (c : Nat) (f : Core → Core) : (s.onCore c f).pool = s.pool := rfl
@[simp] theorem State.acc_onCore (s : State) (c : Nat) (f : Core → Core) : (s.onCore c f).acc = s.acc := rfl
@[simp] theorem State.l2_onCore (s : State) (c : Nat) (f : Core → Core) : (s.onCore c f).l2 = s.l2 := rfl
@[simp] theorem State.pins_onCore (s : State) (c : Nat) (f : Core → Core) : (s.onCore c f).pins = s.pins := rfl
@[simp] theorem State.proxyCopies_onCore (s : State) (c : Nat) (f : Core → Core) : (s.onCore c f).proxyCopies = s.proxyCopies := rfl
@[simp] theorem State.net_onCore (s : State) (c : Nat) (f : Core → Core) : (s.onCore c f).net = s.net := rfl
@[simp] theorem State.slots_onCore (s : State) (c : Nat) (f : Core → Core) : (s.onCore c f).slots = s.slots := rfl
@[simp] theorem State.tiles_onCore (s : State) (c : Nat) (f : Core → Core) : (s.onCore c f).tiles = s.tiles := rfl
@[simp] theorem State.jobs_onCore (s : State) (c : Nat) (f : Core → Core) : (s.onCore c f).jobs = s.jobs := rfl
@[simp] theorem State.tenants_onCore (s : State) (c : Nat) (f : Core → Core) : (s.onCore c f).tenants = s.tenants := rfl
@[simp] theorem State.calenders_onCore (s : State) (c : Nat) (f : Core → Core) : (s.onCore c f).calenders = s.calenders := rfl
@[simp] theorem State.links_onCore (s : State) (c : Nat) (f : Core → Core) : (s.onCore c f).links = s.links := rfl
@[simp] theorem State.pkgid_onCore (s : State) (c : Nat) (f : Core → Core) : (s.onCore c f).pkgid = s.pkgid := rfl
@[simp] theorem State.ptroot_onCore (s : State) (c : Nat) (f : Core → Core) : (s.onCore c f).ptroot = s.ptroot := rfl
@[simp] theorem State.ddir_onCore (s : State) (c : Nat) (f : Core → Core) : (s.onCore c f).ddir = s.ddir := rfl
@[simp] theorem State.pwrlim_onCore (s : State) (c : Nat) (f : Core → Core) : (s.onCore c f).pwrlim = s.pwrlim := rfl
@[simp] theorem State.deckle_onCore (s : State) (c : Nat) (f : Core → Core) : (s.onCore c f).deckle = s.deckle := rfl
@[simp] theorem State.deckleNext_onCore (s : State) (c : Nat) (f : Core → Core) : (s.onCore c f).deckleNext = s.deckleNext := rfl
@[simp] theorem State.period_onCore (s : State) (c : Nat) (f : Core → Core) : (s.onCore c f).period = s.period := rfl
@[simp] theorem State.periodStart_onCore (s : State) (c : Nat) (f : Core → Core) : (s.onCore c f).periodStart = s.periodStart := rfl
@[simp] theorem State.lastSample_onCore (s : State) (c : Nat) (f : Core → Core) : (s.onCore c f).lastSample = s.lastSample := rfl
@[simp] theorem State.stage_onCore (s : State) (c : Nat) (f : Core → Core) : (s.onCore c f).stage = s.stage := rfl
@[simp] theorem State.fail_onCore (s : State) (c : Nat) (f : Core → Core) : (s.onCore c f).fail = s.fail := rfl
@[simp] theorem State.trained_onCore (s : State) (c : Nat) (f : Core → Core) : (s.onCore c f).trained = s.trained := rfl
@[simp] theorem State.meas_onCore (s : State) (c : Nat) (f : Core → Core) : (s.onCore c f).meas = s.meas := rfl
@[simp] theorem State.tripped_onCore (s : State) (c : Nat) (f : Core → Core) : (s.onCore c f).tripped = s.tripped := rfl
@[simp] theorem State.heldLaunches_onCore (s : State) (c : Nat) (f : Core → Core) : (s.onCore c f).heldLaunches = s.heldLaunches := rfl
@[simp] theorem State.spdm_onCore (s : State) (c : Nat) (f : Core → Core) : (s.onCore c f).spdm = s.spdm := rfl
@[simp] theorem State.peerRevokes_onCore (s : State) (c : Nat) (f : Core → Core) : (s.onCore c f).peerRevokes = s.peerRevokes := rfl
@[simp] theorem State.malformed_onCore (s : State) (c : Nat) (f : Core → Core) : (s.onCore c f).malformed = s.malformed := rfl
@[simp] theorem State.sets_onCore (s : State) (c : Nat) (f : Core → Core) : (s.onCore c f).sets = s.sets := rfl
@[simp] theorem State.sent_onCore (s : State) (c : Nat) (f : Core → Core) : (s.onCore c f).sent = s.sent := rfl
@[simp] theorem State.peerAnswers_onCore (s : State) (c : Nat) (f : Core → Core) : (s.onCore c f).peerAnswers = s.peerAnswers := rfl
@[simp] theorem State.hostRead_onCore (s : State) (c : Nat) (f : Core → Core) : (s.onCore c f).hostRead = s.hostRead := rfl
@[simp] theorem State.inbound_onCore (s : State) (c : Nat) (f : Core → Core) : (s.onCore c f).inbound = s.inbound := rfl
@[simp] theorem State.stackFailed_onCore (s : State) (c : Nat) (f : Core → Core) : (s.onCore c f).stackFailed = s.stackFailed := rfl
@[simp] theorem State.slot_onCore (s : State) (c : Nat) (f : Core → Core) (k : Nat) : (s.onCore c f).slot k = s.slot k := rfl
@[simp] theorem State.tile_onCore (s : State) (c : Nat) (f : Core → Core) (k : Nat) : (s.onCore c f).tile k = s.tile k := rfl
@[simp] theorem State.job_onCore (s : State) (c : Nat) (f : Core → Core) (k : Nat) : (s.onCore c f).job k = s.job k := rfl
@[simp] theorem State.tenant_onCore (s : State) (c : Nat) (f : Core → Core) (k : Nat) : (s.onCore c f).tenant k = s.tenant k := rfl
@[simp] theorem State.cyc_setTile (s : State) (t : Nat) (x : Tile) : (s.setTile t x).cyc = s.cyc := rfl
@[simp] theorem State.moves_setTile (s : State) (t : Nat) (x : Tile) : (s.setTile t x).moves = s.moves := rfl
@[simp] theorem State.agenda_setTile (s : State) (t : Nat) (x : Tile) : (s.setTile t x).agenda = s.agenda := rfl
@[simp] theorem State.focus_setTile (s : State) (t : Nat) (x : Tile) : (s.setTile t x).focus = s.focus := rfl
@[simp] theorem State.hbm_setTile (s : State) (t : Nat) (x : Tile) : (s.setTile t x).hbm = s.hbm := rfl
@[simp] theorem State.host_setTile (s : State) (t : Nat) (x : Tile) : (s.setTile t x).host = s.host := rfl
@[simp] theorem State.pool_setTile (s : State) (t : Nat) (x : Tile) : (s.setTile t x).pool = s.pool := rfl
@[simp] theorem State.acc_setTile (s : State) (t : Nat) (x : Tile) : (s.setTile t x).acc = s.acc := rfl
@[simp] theorem State.l2_setTile (s : State) (t : Nat) (x : Tile) : (s.setTile t x).l2 = s.l2 := rfl
@[simp] theorem State.pins_setTile (s : State) (t : Nat) (x : Tile) : (s.setTile t x).pins = s.pins := rfl
@[simp] theorem State.proxyCopies_setTile (s : State) (t : Nat) (x : Tile) : (s.setTile t x).proxyCopies = s.proxyCopies := rfl
@[simp] theorem State.net_setTile (s : State) (t : Nat) (x : Tile) : (s.setTile t x).net = s.net := rfl
@[simp] theorem State.slots_setTile (s : State) (t : Nat) (x : Tile) : (s.setTile t x).slots = s.slots := rfl
@[simp] theorem State.cores_setTile (s : State) (t : Nat) (x : Tile) : (s.setTile t x).cores = s.cores := rfl
@[simp] theorem State.jobs_setTile (s : State) (t : Nat) (x : Tile) : (s.setTile t x).jobs = s.jobs := rfl
@[simp] theorem State.tenants_setTile (s : State) (t : Nat) (x : Tile) : (s.setTile t x).tenants = s.tenants := rfl
@[simp] theorem State.calenders_setTile (s : State) (t : Nat) (x : Tile) : (s.setTile t x).calenders = s.calenders := rfl
@[simp] theorem State.links_setTile (s : State) (t : Nat) (x : Tile) : (s.setTile t x).links = s.links := rfl
@[simp] theorem State.pkgid_setTile (s : State) (t : Nat) (x : Tile) : (s.setTile t x).pkgid = s.pkgid := rfl
@[simp] theorem State.ptroot_setTile (s : State) (t : Nat) (x : Tile) : (s.setTile t x).ptroot = s.ptroot := rfl
@[simp] theorem State.ddir_setTile (s : State) (t : Nat) (x : Tile) : (s.setTile t x).ddir = s.ddir := rfl
@[simp] theorem State.pwrlim_setTile (s : State) (t : Nat) (x : Tile) : (s.setTile t x).pwrlim = s.pwrlim := rfl
@[simp] theorem State.deckle_setTile (s : State) (t : Nat) (x : Tile) : (s.setTile t x).deckle = s.deckle := rfl
@[simp] theorem State.deckleNext_setTile (s : State) (t : Nat) (x : Tile) : (s.setTile t x).deckleNext = s.deckleNext := rfl
@[simp] theorem State.period_setTile (s : State) (t : Nat) (x : Tile) : (s.setTile t x).period = s.period := rfl
@[simp] theorem State.periodStart_setTile (s : State) (t : Nat) (x : Tile) : (s.setTile t x).periodStart = s.periodStart := rfl
@[simp] theorem State.lastSample_setTile (s : State) (t : Nat) (x : Tile) : (s.setTile t x).lastSample = s.lastSample := rfl
@[simp] theorem State.stage_setTile (s : State) (t : Nat) (x : Tile) : (s.setTile t x).stage = s.stage := rfl
@[simp] theorem State.fail_setTile (s : State) (t : Nat) (x : Tile) : (s.setTile t x).fail = s.fail := rfl
@[simp] theorem State.trained_setTile (s : State) (t : Nat) (x : Tile) : (s.setTile t x).trained = s.trained := rfl
@[simp] theorem State.meas_setTile (s : State) (t : Nat) (x : Tile) : (s.setTile t x).meas = s.meas := rfl
@[simp] theorem State.tripped_setTile (s : State) (t : Nat) (x : Tile) : (s.setTile t x).tripped = s.tripped := rfl
@[simp] theorem State.heldLaunches_setTile (s : State) (t : Nat) (x : Tile) : (s.setTile t x).heldLaunches = s.heldLaunches := rfl
@[simp] theorem State.spdm_setTile (s : State) (t : Nat) (x : Tile) : (s.setTile t x).spdm = s.spdm := rfl
@[simp] theorem State.peerRevokes_setTile (s : State) (t : Nat) (x : Tile) : (s.setTile t x).peerRevokes = s.peerRevokes := rfl
@[simp] theorem State.malformed_setTile (s : State) (t : Nat) (x : Tile) : (s.setTile t x).malformed = s.malformed := rfl
@[simp] theorem State.sets_setTile (s : State) (t : Nat) (x : Tile) : (s.setTile t x).sets = s.sets := rfl
@[simp] theorem State.sent_setTile (s : State) (t : Nat) (x : Tile) : (s.setTile t x).sent = s.sent := rfl
@[simp] theorem State.peerAnswers_setTile (s : State) (t : Nat) (x : Tile) : (s.setTile t x).peerAnswers = s.peerAnswers := rfl
@[simp] theorem State.hostRead_setTile (s : State) (t : Nat) (x : Tile) : (s.setTile t x).hostRead = s.hostRead := rfl
@[simp] theorem State.inbound_setTile (s : State) (t : Nat) (x : Tile) : (s.setTile t x).inbound = s.inbound := rfl
@[simp] theorem State.stackFailed_setTile (s : State) (t : Nat) (x : Tile) : (s.setTile t x).stackFailed = s.stackFailed := rfl
@[simp] theorem State.slot_setTile (s : State) (t : Nat) (x : Tile) (k : Nat) : (s.setTile t x).slot k = s.slot k := rfl
@[simp] theorem State.core_setTile (s : State) (t : Nat) (x : Tile) (k : Nat) : (s.setTile t x).core k = s.core k := rfl
@[simp] theorem State.job_setTile (s : State) (t : Nat) (x : Tile) (k : Nat) : (s.setTile t x).job k = s.job k := rfl
@[simp] theorem State.tenant_setTile (s : State) (t : Nat) (x : Tile) (k : Nat) : (s.setTile t x).tenant k = s.tenant k := rfl
@[simp] theorem State.cyc_onTile (s : State) (t : Nat) (f : Tile → Tile) : (s.onTile t f).cyc = s.cyc := rfl
@[simp] theorem State.moves_onTile (s : State) (t : Nat) (f : Tile → Tile) : (s.onTile t f).moves = s.moves := rfl
@[simp] theorem State.agenda_onTile (s : State) (t : Nat) (f : Tile → Tile) : (s.onTile t f).agenda = s.agenda := rfl
@[simp] theorem State.focus_onTile (s : State) (t : Nat) (f : Tile → Tile) : (s.onTile t f).focus = s.focus := rfl
@[simp] theorem State.hbm_onTile (s : State) (t : Nat) (f : Tile → Tile) : (s.onTile t f).hbm = s.hbm := rfl
@[simp] theorem State.host_onTile (s : State) (t : Nat) (f : Tile → Tile) : (s.onTile t f).host = s.host := rfl
@[simp] theorem State.pool_onTile (s : State) (t : Nat) (f : Tile → Tile) : (s.onTile t f).pool = s.pool := rfl
@[simp] theorem State.acc_onTile (s : State) (t : Nat) (f : Tile → Tile) : (s.onTile t f).acc = s.acc := rfl
@[simp] theorem State.l2_onTile (s : State) (t : Nat) (f : Tile → Tile) : (s.onTile t f).l2 = s.l2 := rfl
@[simp] theorem State.pins_onTile (s : State) (t : Nat) (f : Tile → Tile) : (s.onTile t f).pins = s.pins := rfl
@[simp] theorem State.proxyCopies_onTile (s : State) (t : Nat) (f : Tile → Tile) : (s.onTile t f).proxyCopies = s.proxyCopies := rfl
@[simp] theorem State.net_onTile (s : State) (t : Nat) (f : Tile → Tile) : (s.onTile t f).net = s.net := rfl
@[simp] theorem State.slots_onTile (s : State) (t : Nat) (f : Tile → Tile) : (s.onTile t f).slots = s.slots := rfl
@[simp] theorem State.cores_onTile (s : State) (t : Nat) (f : Tile → Tile) : (s.onTile t f).cores = s.cores := rfl
@[simp] theorem State.jobs_onTile (s : State) (t : Nat) (f : Tile → Tile) : (s.onTile t f).jobs = s.jobs := rfl
@[simp] theorem State.tenants_onTile (s : State) (t : Nat) (f : Tile → Tile) : (s.onTile t f).tenants = s.tenants := rfl
@[simp] theorem State.calenders_onTile (s : State) (t : Nat) (f : Tile → Tile) : (s.onTile t f).calenders = s.calenders := rfl
@[simp] theorem State.links_onTile (s : State) (t : Nat) (f : Tile → Tile) : (s.onTile t f).links = s.links := rfl
@[simp] theorem State.pkgid_onTile (s : State) (t : Nat) (f : Tile → Tile) : (s.onTile t f).pkgid = s.pkgid := rfl
@[simp] theorem State.ptroot_onTile (s : State) (t : Nat) (f : Tile → Tile) : (s.onTile t f).ptroot = s.ptroot := rfl
@[simp] theorem State.ddir_onTile (s : State) (t : Nat) (f : Tile → Tile) : (s.onTile t f).ddir = s.ddir := rfl
@[simp] theorem State.pwrlim_onTile (s : State) (t : Nat) (f : Tile → Tile) : (s.onTile t f).pwrlim = s.pwrlim := rfl
@[simp] theorem State.deckle_onTile (s : State) (t : Nat) (f : Tile → Tile) : (s.onTile t f).deckle = s.deckle := rfl
@[simp] theorem State.deckleNext_onTile (s : State) (t : Nat) (f : Tile → Tile) : (s.onTile t f).deckleNext = s.deckleNext := rfl
@[simp] theorem State.period_onTile (s : State) (t : Nat) (f : Tile → Tile) : (s.onTile t f).period = s.period := rfl
@[simp] theorem State.periodStart_onTile (s : State) (t : Nat) (f : Tile → Tile) : (s.onTile t f).periodStart = s.periodStart := rfl
@[simp] theorem State.lastSample_onTile (s : State) (t : Nat) (f : Tile → Tile) : (s.onTile t f).lastSample = s.lastSample := rfl
@[simp] theorem State.stage_onTile (s : State) (t : Nat) (f : Tile → Tile) : (s.onTile t f).stage = s.stage := rfl
@[simp] theorem State.fail_onTile (s : State) (t : Nat) (f : Tile → Tile) : (s.onTile t f).fail = s.fail := rfl
@[simp] theorem State.trained_onTile (s : State) (t : Nat) (f : Tile → Tile) : (s.onTile t f).trained = s.trained := rfl
@[simp] theorem State.meas_onTile (s : State) (t : Nat) (f : Tile → Tile) : (s.onTile t f).meas = s.meas := rfl
@[simp] theorem State.tripped_onTile (s : State) (t : Nat) (f : Tile → Tile) : (s.onTile t f).tripped = s.tripped := rfl
@[simp] theorem State.heldLaunches_onTile (s : State) (t : Nat) (f : Tile → Tile) : (s.onTile t f).heldLaunches = s.heldLaunches := rfl
@[simp] theorem State.spdm_onTile (s : State) (t : Nat) (f : Tile → Tile) : (s.onTile t f).spdm = s.spdm := rfl
@[simp] theorem State.peerRevokes_onTile (s : State) (t : Nat) (f : Tile → Tile) : (s.onTile t f).peerRevokes = s.peerRevokes := rfl
@[simp] theorem State.malformed_onTile (s : State) (t : Nat) (f : Tile → Tile) : (s.onTile t f).malformed = s.malformed := rfl
@[simp] theorem State.sets_onTile (s : State) (t : Nat) (f : Tile → Tile) : (s.onTile t f).sets = s.sets := rfl
@[simp] theorem State.sent_onTile (s : State) (t : Nat) (f : Tile → Tile) : (s.onTile t f).sent = s.sent := rfl
@[simp] theorem State.peerAnswers_onTile (s : State) (t : Nat) (f : Tile → Tile) : (s.onTile t f).peerAnswers = s.peerAnswers := rfl
@[simp] theorem State.hostRead_onTile (s : State) (t : Nat) (f : Tile → Tile) : (s.onTile t f).hostRead = s.hostRead := rfl
@[simp] theorem State.inbound_onTile (s : State) (t : Nat) (f : Tile → Tile) : (s.onTile t f).inbound = s.inbound := rfl
@[simp] theorem State.stackFailed_onTile (s : State) (t : Nat) (f : Tile → Tile) : (s.onTile t f).stackFailed = s.stackFailed := rfl
@[simp] theorem State.slot_onTile (s : State) (t : Nat) (f : Tile → Tile) (k : Nat) : (s.onTile t f).slot k = s.slot k := rfl
@[simp] theorem State.core_onTile (s : State) (t : Nat) (f : Tile → Tile) (k : Nat) : (s.onTile t f).core k = s.core k := rfl
@[simp] theorem State.job_onTile (s : State) (t : Nat) (f : Tile → Tile) (k : Nat) : (s.onTile t f).job k = s.job k := rfl
@[simp] theorem State.tenant_onTile (s : State) (t : Nat) (f : Tile → Tile) (k : Nat) : (s.onTile t f).tenant k = s.tenant k := rfl
@[simp] theorem State.cyc_setJob (s : State) (j : Nat) (x : Job) : (s.setJob j x).cyc = s.cyc := rfl
@[simp] theorem State.moves_setJob (s : State) (j : Nat) (x : Job) : (s.setJob j x).moves = s.moves := rfl
@[simp] theorem State.agenda_setJob (s : State) (j : Nat) (x : Job) : (s.setJob j x).agenda = s.agenda := rfl
@[simp] theorem State.focus_setJob (s : State) (j : Nat) (x : Job) : (s.setJob j x).focus = s.focus := rfl
@[simp] theorem State.hbm_setJob (s : State) (j : Nat) (x : Job) : (s.setJob j x).hbm = s.hbm := rfl
@[simp] theorem State.host_setJob (s : State) (j : Nat) (x : Job) : (s.setJob j x).host = s.host := rfl
@[simp] theorem State.pool_setJob (s : State) (j : Nat) (x : Job) : (s.setJob j x).pool = s.pool := rfl
@[simp] theorem State.acc_setJob (s : State) (j : Nat) (x : Job) : (s.setJob j x).acc = s.acc := rfl
@[simp] theorem State.l2_setJob (s : State) (j : Nat) (x : Job) : (s.setJob j x).l2 = s.l2 := rfl
@[simp] theorem State.pins_setJob (s : State) (j : Nat) (x : Job) : (s.setJob j x).pins = s.pins := rfl
@[simp] theorem State.proxyCopies_setJob (s : State) (j : Nat) (x : Job) : (s.setJob j x).proxyCopies = s.proxyCopies := rfl
@[simp] theorem State.net_setJob (s : State) (j : Nat) (x : Job) : (s.setJob j x).net = s.net := rfl
@[simp] theorem State.slots_setJob (s : State) (j : Nat) (x : Job) : (s.setJob j x).slots = s.slots := rfl
@[simp] theorem State.cores_setJob (s : State) (j : Nat) (x : Job) : (s.setJob j x).cores = s.cores := rfl
@[simp] theorem State.tiles_setJob (s : State) (j : Nat) (x : Job) : (s.setJob j x).tiles = s.tiles := rfl
@[simp] theorem State.tenants_setJob (s : State) (j : Nat) (x : Job) : (s.setJob j x).tenants = s.tenants := rfl
@[simp] theorem State.calenders_setJob (s : State) (j : Nat) (x : Job) : (s.setJob j x).calenders = s.calenders := rfl
@[simp] theorem State.links_setJob (s : State) (j : Nat) (x : Job) : (s.setJob j x).links = s.links := rfl
@[simp] theorem State.pkgid_setJob (s : State) (j : Nat) (x : Job) : (s.setJob j x).pkgid = s.pkgid := rfl
@[simp] theorem State.ptroot_setJob (s : State) (j : Nat) (x : Job) : (s.setJob j x).ptroot = s.ptroot := rfl
@[simp] theorem State.ddir_setJob (s : State) (j : Nat) (x : Job) : (s.setJob j x).ddir = s.ddir := rfl
@[simp] theorem State.pwrlim_setJob (s : State) (j : Nat) (x : Job) : (s.setJob j x).pwrlim = s.pwrlim := rfl
@[simp] theorem State.deckle_setJob (s : State) (j : Nat) (x : Job) : (s.setJob j x).deckle = s.deckle := rfl
@[simp] theorem State.deckleNext_setJob (s : State) (j : Nat) (x : Job) : (s.setJob j x).deckleNext = s.deckleNext := rfl
@[simp] theorem State.period_setJob (s : State) (j : Nat) (x : Job) : (s.setJob j x).period = s.period := rfl
@[simp] theorem State.periodStart_setJob (s : State) (j : Nat) (x : Job) : (s.setJob j x).periodStart = s.periodStart := rfl
@[simp] theorem State.lastSample_setJob (s : State) (j : Nat) (x : Job) : (s.setJob j x).lastSample = s.lastSample := rfl
@[simp] theorem State.stage_setJob (s : State) (j : Nat) (x : Job) : (s.setJob j x).stage = s.stage := rfl
@[simp] theorem State.fail_setJob (s : State) (j : Nat) (x : Job) : (s.setJob j x).fail = s.fail := rfl
@[simp] theorem State.trained_setJob (s : State) (j : Nat) (x : Job) : (s.setJob j x).trained = s.trained := rfl
@[simp] theorem State.meas_setJob (s : State) (j : Nat) (x : Job) : (s.setJob j x).meas = s.meas := rfl
@[simp] theorem State.tripped_setJob (s : State) (j : Nat) (x : Job) : (s.setJob j x).tripped = s.tripped := rfl
@[simp] theorem State.heldLaunches_setJob (s : State) (j : Nat) (x : Job) : (s.setJob j x).heldLaunches = s.heldLaunches := rfl
@[simp] theorem State.spdm_setJob (s : State) (j : Nat) (x : Job) : (s.setJob j x).spdm = s.spdm := rfl
@[simp] theorem State.peerRevokes_setJob (s : State) (j : Nat) (x : Job) : (s.setJob j x).peerRevokes = s.peerRevokes := rfl
@[simp] theorem State.malformed_setJob (s : State) (j : Nat) (x : Job) : (s.setJob j x).malformed = s.malformed := rfl
@[simp] theorem State.sets_setJob (s : State) (j : Nat) (x : Job) : (s.setJob j x).sets = s.sets := rfl
@[simp] theorem State.sent_setJob (s : State) (j : Nat) (x : Job) : (s.setJob j x).sent = s.sent := rfl
@[simp] theorem State.peerAnswers_setJob (s : State) (j : Nat) (x : Job) : (s.setJob j x).peerAnswers = s.peerAnswers := rfl
@[simp] theorem State.hostRead_setJob (s : State) (j : Nat) (x : Job) : (s.setJob j x).hostRead = s.hostRead := rfl
@[simp] theorem State.inbound_setJob (s : State) (j : Nat) (x : Job) : (s.setJob j x).inbound = s.inbound := rfl
@[simp] theorem State.stackFailed_setJob (s : State) (j : Nat) (x : Job) : (s.setJob j x).stackFailed = s.stackFailed := rfl
@[simp] theorem State.slot_setJob (s : State) (j : Nat) (x : Job) (k : Nat) : (s.setJob j x).slot k = s.slot k := rfl
@[simp] theorem State.core_setJob (s : State) (j : Nat) (x : Job) (k : Nat) : (s.setJob j x).core k = s.core k := rfl
@[simp] theorem State.tile_setJob (s : State) (j : Nat) (x : Job) (k : Nat) : (s.setJob j x).tile k = s.tile k := rfl
@[simp] theorem State.tenant_setJob (s : State) (j : Nat) (x : Job) (k : Nat) : (s.setJob j x).tenant k = s.tenant k := rfl
@[simp] theorem State.cyc_onTenant (s : State) (v : Nat) (f : Tenant → Tenant) : (s.onTenant v f).cyc = s.cyc := rfl
@[simp] theorem State.moves_onTenant (s : State) (v : Nat) (f : Tenant → Tenant) : (s.onTenant v f).moves = s.moves := rfl
@[simp] theorem State.agenda_onTenant (s : State) (v : Nat) (f : Tenant → Tenant) : (s.onTenant v f).agenda = s.agenda := rfl
@[simp] theorem State.focus_onTenant (s : State) (v : Nat) (f : Tenant → Tenant) : (s.onTenant v f).focus = s.focus := rfl
@[simp] theorem State.hbm_onTenant (s : State) (v : Nat) (f : Tenant → Tenant) : (s.onTenant v f).hbm = s.hbm := rfl
@[simp] theorem State.host_onTenant (s : State) (v : Nat) (f : Tenant → Tenant) : (s.onTenant v f).host = s.host := rfl
@[simp] theorem State.pool_onTenant (s : State) (v : Nat) (f : Tenant → Tenant) : (s.onTenant v f).pool = s.pool := rfl
@[simp] theorem State.acc_onTenant (s : State) (v : Nat) (f : Tenant → Tenant) : (s.onTenant v f).acc = s.acc := rfl
@[simp] theorem State.l2_onTenant (s : State) (v : Nat) (f : Tenant → Tenant) : (s.onTenant v f).l2 = s.l2 := rfl
@[simp] theorem State.pins_onTenant (s : State) (v : Nat) (f : Tenant → Tenant) : (s.onTenant v f).pins = s.pins := rfl
@[simp] theorem State.proxyCopies_onTenant (s : State) (v : Nat) (f : Tenant → Tenant) : (s.onTenant v f).proxyCopies = s.proxyCopies := rfl
@[simp] theorem State.net_onTenant (s : State) (v : Nat) (f : Tenant → Tenant) : (s.onTenant v f).net = s.net := rfl
@[simp] theorem State.slots_onTenant (s : State) (v : Nat) (f : Tenant → Tenant) : (s.onTenant v f).slots = s.slots := rfl
@[simp] theorem State.cores_onTenant (s : State) (v : Nat) (f : Tenant → Tenant) : (s.onTenant v f).cores = s.cores := rfl
@[simp] theorem State.tiles_onTenant (s : State) (v : Nat) (f : Tenant → Tenant) : (s.onTenant v f).tiles = s.tiles := rfl
@[simp] theorem State.jobs_onTenant (s : State) (v : Nat) (f : Tenant → Tenant) : (s.onTenant v f).jobs = s.jobs := rfl
@[simp] theorem State.calenders_onTenant (s : State) (v : Nat) (f : Tenant → Tenant) : (s.onTenant v f).calenders = s.calenders := rfl
@[simp] theorem State.links_onTenant (s : State) (v : Nat) (f : Tenant → Tenant) : (s.onTenant v f).links = s.links := rfl
@[simp] theorem State.pkgid_onTenant (s : State) (v : Nat) (f : Tenant → Tenant) : (s.onTenant v f).pkgid = s.pkgid := rfl
@[simp] theorem State.ptroot_onTenant (s : State) (v : Nat) (f : Tenant → Tenant) : (s.onTenant v f).ptroot = s.ptroot := rfl
@[simp] theorem State.ddir_onTenant (s : State) (v : Nat) (f : Tenant → Tenant) : (s.onTenant v f).ddir = s.ddir := rfl
@[simp] theorem State.pwrlim_onTenant (s : State) (v : Nat) (f : Tenant → Tenant) : (s.onTenant v f).pwrlim = s.pwrlim := rfl
@[simp] theorem State.deckle_onTenant (s : State) (v : Nat) (f : Tenant → Tenant) : (s.onTenant v f).deckle = s.deckle := rfl
@[simp] theorem State.deckleNext_onTenant (s : State) (v : Nat) (f : Tenant → Tenant) : (s.onTenant v f).deckleNext = s.deckleNext := rfl
@[simp] theorem State.period_onTenant (s : State) (v : Nat) (f : Tenant → Tenant) : (s.onTenant v f).period = s.period := rfl
@[simp] theorem State.periodStart_onTenant (s : State) (v : Nat) (f : Tenant → Tenant) : (s.onTenant v f).periodStart = s.periodStart := rfl
@[simp] theorem State.lastSample_onTenant (s : State) (v : Nat) (f : Tenant → Tenant) : (s.onTenant v f).lastSample = s.lastSample := rfl
@[simp] theorem State.stage_onTenant (s : State) (v : Nat) (f : Tenant → Tenant) : (s.onTenant v f).stage = s.stage := rfl
@[simp] theorem State.fail_onTenant (s : State) (v : Nat) (f : Tenant → Tenant) : (s.onTenant v f).fail = s.fail := rfl
@[simp] theorem State.trained_onTenant (s : State) (v : Nat) (f : Tenant → Tenant) : (s.onTenant v f).trained = s.trained := rfl
@[simp] theorem State.meas_onTenant (s : State) (v : Nat) (f : Tenant → Tenant) : (s.onTenant v f).meas = s.meas := rfl
@[simp] theorem State.tripped_onTenant (s : State) (v : Nat) (f : Tenant → Tenant) : (s.onTenant v f).tripped = s.tripped := rfl
@[simp] theorem State.heldLaunches_onTenant (s : State) (v : Nat) (f : Tenant → Tenant) : (s.onTenant v f).heldLaunches = s.heldLaunches := rfl
@[simp] theorem State.spdm_onTenant (s : State) (v : Nat) (f : Tenant → Tenant) : (s.onTenant v f).spdm = s.spdm := rfl
@[simp] theorem State.peerRevokes_onTenant (s : State) (v : Nat) (f : Tenant → Tenant) : (s.onTenant v f).peerRevokes = s.peerRevokes := rfl
@[simp] theorem State.malformed_onTenant (s : State) (v : Nat) (f : Tenant → Tenant) : (s.onTenant v f).malformed = s.malformed := rfl
@[simp] theorem State.sets_onTenant (s : State) (v : Nat) (f : Tenant → Tenant) : (s.onTenant v f).sets = s.sets := rfl
@[simp] theorem State.sent_onTenant (s : State) (v : Nat) (f : Tenant → Tenant) : (s.onTenant v f).sent = s.sent := rfl
@[simp] theorem State.peerAnswers_onTenant (s : State) (v : Nat) (f : Tenant → Tenant) : (s.onTenant v f).peerAnswers = s.peerAnswers := rfl
@[simp] theorem State.hostRead_onTenant (s : State) (v : Nat) (f : Tenant → Tenant) : (s.onTenant v f).hostRead = s.hostRead := rfl
@[simp] theorem State.inbound_onTenant (s : State) (v : Nat) (f : Tenant → Tenant) : (s.onTenant v f).inbound = s.inbound := rfl
@[simp] theorem State.stackFailed_onTenant (s : State) (v : Nat) (f : Tenant → Tenant) : (s.onTenant v f).stackFailed = s.stackFailed := rfl
@[simp] theorem State.slot_onTenant (s : State) (v : Nat) (f : Tenant → Tenant) (k : Nat) : (s.onTenant v f).slot k = s.slot k := rfl
@[simp] theorem State.core_onTenant (s : State) (v : Nat) (f : Tenant → Tenant) (k : Nat) : (s.onTenant v f).core k = s.core k := rfl
@[simp] theorem State.tile_onTenant (s : State) (v : Nat) (f : Tenant → Tenant) (k : Nat) : (s.onTenant v f).tile k = s.tile k := rfl
@[simp] theorem State.job_onTenant (s : State) (v : Nat) (f : Tenant → Tenant) (k : Nat) : (s.onTenant v f).job k = s.job k := rfl
@[simp] theorem State.cyc_post (s : State) (p : Packet) : (s.post p).cyc = s.cyc := rfl
@[simp] theorem State.moves_post (s : State) (p : Packet) : (s.post p).moves = s.moves := rfl
@[simp] theorem State.agenda_post (s : State) (p : Packet) : (s.post p).agenda = s.agenda := rfl
@[simp] theorem State.focus_post (s : State) (p : Packet) : (s.post p).focus = s.focus := rfl
@[simp] theorem State.hbm_post (s : State) (p : Packet) : (s.post p).hbm = s.hbm := rfl
@[simp] theorem State.host_post (s : State) (p : Packet) : (s.post p).host = s.host := rfl
@[simp] theorem State.pool_post (s : State) (p : Packet) : (s.post p).pool = s.pool := rfl
@[simp] theorem State.acc_post (s : State) (p : Packet) : (s.post p).acc = s.acc := rfl
@[simp] theorem State.l2_post (s : State) (p : Packet) : (s.post p).l2 = s.l2 := rfl
@[simp] theorem State.pins_post (s : State) (p : Packet) : (s.post p).pins = s.pins := rfl
@[simp] theorem State.proxyCopies_post (s : State) (p : Packet) : (s.post p).proxyCopies = s.proxyCopies := rfl
@[simp] theorem State.slots_post (s : State) (p : Packet) : (s.post p).slots = s.slots := rfl
@[simp] theorem State.cores_post (s : State) (p : Packet) : (s.post p).cores = s.cores := rfl
@[simp] theorem State.tiles_post (s : State) (p : Packet) : (s.post p).tiles = s.tiles := rfl
@[simp] theorem State.jobs_post (s : State) (p : Packet) : (s.post p).jobs = s.jobs := rfl
@[simp] theorem State.tenants_post (s : State) (p : Packet) : (s.post p).tenants = s.tenants := rfl
@[simp] theorem State.calenders_post (s : State) (p : Packet) : (s.post p).calenders = s.calenders := rfl
@[simp] theorem State.links_post (s : State) (p : Packet) : (s.post p).links = s.links := rfl
@[simp] theorem State.pkgid_post (s : State) (p : Packet) : (s.post p).pkgid = s.pkgid := rfl
@[simp] theorem State.ptroot_post (s : State) (p : Packet) : (s.post p).ptroot = s.ptroot := rfl
@[simp] theorem State.ddir_post (s : State) (p : Packet) : (s.post p).ddir = s.ddir := rfl
@[simp] theorem State.pwrlim_post (s : State) (p : Packet) : (s.post p).pwrlim = s.pwrlim := rfl
@[simp] theorem State.deckle_post (s : State) (p : Packet) : (s.post p).deckle = s.deckle := rfl
@[simp] theorem State.deckleNext_post (s : State) (p : Packet) : (s.post p).deckleNext = s.deckleNext := rfl
@[simp] theorem State.period_post (s : State) (p : Packet) : (s.post p).period = s.period := rfl
@[simp] theorem State.periodStart_post (s : State) (p : Packet) : (s.post p).periodStart = s.periodStart := rfl
@[simp] theorem State.lastSample_post (s : State) (p : Packet) : (s.post p).lastSample = s.lastSample := rfl
@[simp] theorem State.stage_post (s : State) (p : Packet) : (s.post p).stage = s.stage := rfl
@[simp] theorem State.fail_post (s : State) (p : Packet) : (s.post p).fail = s.fail := rfl
@[simp] theorem State.trained_post (s : State) (p : Packet) : (s.post p).trained = s.trained := rfl
@[simp] theorem State.meas_post (s : State) (p : Packet) : (s.post p).meas = s.meas := rfl
@[simp] theorem State.tripped_post (s : State) (p : Packet) : (s.post p).tripped = s.tripped := rfl
@[simp] theorem State.heldLaunches_post (s : State) (p : Packet) : (s.post p).heldLaunches = s.heldLaunches := rfl
@[simp] theorem State.spdm_post (s : State) (p : Packet) : (s.post p).spdm = s.spdm := rfl
@[simp] theorem State.peerRevokes_post (s : State) (p : Packet) : (s.post p).peerRevokes = s.peerRevokes := rfl
@[simp] theorem State.malformed_post (s : State) (p : Packet) : (s.post p).malformed = s.malformed := rfl
@[simp] theorem State.sets_post (s : State) (p : Packet) : (s.post p).sets = s.sets := rfl
@[simp] theorem State.sent_post (s : State) (p : Packet) : (s.post p).sent = s.sent := rfl
@[simp] theorem State.peerAnswers_post (s : State) (p : Packet) : (s.post p).peerAnswers = s.peerAnswers := rfl
@[simp] theorem State.hostRead_post (s : State) (p : Packet) : (s.post p).hostRead = s.hostRead := rfl
@[simp] theorem State.inbound_post (s : State) (p : Packet) : (s.post p).inbound = s.inbound := rfl
@[simp] theorem State.stackFailed_post (s : State) (p : Packet) : (s.post p).stackFailed = s.stackFailed := rfl
@[simp] theorem State.slot_post (s : State) (p : Packet) (k : Nat) : (s.post p).slot k = s.slot k := rfl
@[simp] theorem State.core_post (s : State) (p : Packet) (k : Nat) : (s.post p).core k = s.core k := rfl
@[simp] theorem State.tile_post (s : State) (p : Packet) (k : Nat) : (s.post p).tile k = s.tile k := rfl
@[simp] theorem State.job_post (s : State) (p : Packet) (k : Nat) : (s.post p).job k = s.job k := rfl
@[simp] theorem State.tenant_post (s : State) (p : Packet) (k : Nat) : (s.post p).tenant k = s.tenant k := rfl
@[simp] theorem State.cyc_taken (s : State) (n : Nat) : (s.taken n).cyc = s.cyc := rfl
@[simp] theorem State.moves_taken (s : State) (n : Nat) : (s.taken n).moves = s.moves := rfl
@[simp] theorem State.agenda_taken (s : State) (n : Nat) : (s.taken n).agenda = s.agenda := rfl
@[simp] theorem State.focus_taken (s : State) (n : Nat) : (s.taken n).focus = s.focus := rfl
@[simp] theorem State.hbm_taken (s : State) (n : Nat) : (s.taken n).hbm = s.hbm := rfl
@[simp] theorem State.host_taken (s : State) (n : Nat) : (s.taken n).host = s.host := rfl
@[simp] theorem State.pool_taken (s : State) (n : Nat) : (s.taken n).pool = s.pool := rfl
@[simp] theorem State.acc_taken (s : State) (n : Nat) : (s.taken n).acc = s.acc := rfl
@[simp] theorem State.l2_taken (s : State) (n : Nat) : (s.taken n).l2 = s.l2 := rfl
@[simp] theorem State.pins_taken (s : State) (n : Nat) : (s.taken n).pins = s.pins := rfl
@[simp] theorem State.proxyCopies_taken (s : State) (n : Nat) : (s.taken n).proxyCopies = s.proxyCopies := rfl
@[simp] theorem State.slots_taken (s : State) (n : Nat) : (s.taken n).slots = s.slots := rfl
@[simp] theorem State.cores_taken (s : State) (n : Nat) : (s.taken n).cores = s.cores := rfl
@[simp] theorem State.tiles_taken (s : State) (n : Nat) : (s.taken n).tiles = s.tiles := rfl
@[simp] theorem State.jobs_taken (s : State) (n : Nat) : (s.taken n).jobs = s.jobs := rfl
@[simp] theorem State.tenants_taken (s : State) (n : Nat) : (s.taken n).tenants = s.tenants := rfl
@[simp] theorem State.calenders_taken (s : State) (n : Nat) : (s.taken n).calenders = s.calenders := rfl
@[simp] theorem State.links_taken (s : State) (n : Nat) : (s.taken n).links = s.links := rfl
@[simp] theorem State.pkgid_taken (s : State) (n : Nat) : (s.taken n).pkgid = s.pkgid := rfl
@[simp] theorem State.ptroot_taken (s : State) (n : Nat) : (s.taken n).ptroot = s.ptroot := rfl
@[simp] theorem State.ddir_taken (s : State) (n : Nat) : (s.taken n).ddir = s.ddir := rfl
@[simp] theorem State.pwrlim_taken (s : State) (n : Nat) : (s.taken n).pwrlim = s.pwrlim := rfl
@[simp] theorem State.deckle_taken (s : State) (n : Nat) : (s.taken n).deckle = s.deckle := rfl
@[simp] theorem State.deckleNext_taken (s : State) (n : Nat) : (s.taken n).deckleNext = s.deckleNext := rfl
@[simp] theorem State.period_taken (s : State) (n : Nat) : (s.taken n).period = s.period := rfl
@[simp] theorem State.periodStart_taken (s : State) (n : Nat) : (s.taken n).periodStart = s.periodStart := rfl
@[simp] theorem State.lastSample_taken (s : State) (n : Nat) : (s.taken n).lastSample = s.lastSample := rfl
@[simp] theorem State.stage_taken (s : State) (n : Nat) : (s.taken n).stage = s.stage := rfl
@[simp] theorem State.fail_taken (s : State) (n : Nat) : (s.taken n).fail = s.fail := rfl
@[simp] theorem State.trained_taken (s : State) (n : Nat) : (s.taken n).trained = s.trained := rfl
@[simp] theorem State.meas_taken (s : State) (n : Nat) : (s.taken n).meas = s.meas := rfl
@[simp] theorem State.tripped_taken (s : State) (n : Nat) : (s.taken n).tripped = s.tripped := rfl
@[simp] theorem State.heldLaunches_taken (s : State) (n : Nat) : (s.taken n).heldLaunches = s.heldLaunches := rfl
@[simp] theorem State.spdm_taken (s : State) (n : Nat) : (s.taken n).spdm = s.spdm := rfl
@[simp] theorem State.peerRevokes_taken (s : State) (n : Nat) : (s.taken n).peerRevokes = s.peerRevokes := rfl
@[simp] theorem State.malformed_taken (s : State) (n : Nat) : (s.taken n).malformed = s.malformed := rfl
@[simp] theorem State.sets_taken (s : State) (n : Nat) : (s.taken n).sets = s.sets := rfl
@[simp] theorem State.sent_taken (s : State) (n : Nat) : (s.taken n).sent = s.sent := rfl
@[simp] theorem State.peerAnswers_taken (s : State) (n : Nat) : (s.taken n).peerAnswers = s.peerAnswers := rfl
@[simp] theorem State.hostRead_taken (s : State) (n : Nat) : (s.taken n).hostRead = s.hostRead := rfl
@[simp] theorem State.inbound_taken (s : State) (n : Nat) : (s.taken n).inbound = s.inbound := rfl
@[simp] theorem State.stackFailed_taken (s : State) (n : Nat) : (s.taken n).stackFailed = s.stackFailed := rfl
@[simp] theorem State.slot_taken (s : State) (n : Nat) (k : Nat) : (s.taken n).slot k = s.slot k := rfl
@[simp] theorem State.core_taken (s : State) (n : Nat) (k : Nat) : (s.taken n).core k = s.core k := rfl
@[simp] theorem State.tile_taken (s : State) (n : Nat) (k : Nat) : (s.taken n).tile k = s.tile k := rfl
@[simp] theorem State.job_taken (s : State) (n : Nat) (k : Nat) : (s.taken n).job k = s.job k := rfl
@[simp] theorem State.tenant_taken (s : State) (n : Nat) (k : Nat) : (s.taken n).tenant k = s.tenant k := rfl
@[simp] theorem State.cyc_onJob (s : State) (j : Nat) (f : Job → Job) : (s.onJob j f).cyc = s.cyc := by
  unfold State.onJob; split <;> rfl
@[simp] theorem State.moves_onJob (s : State) (j : Nat) (f : Job → Job) : (s.onJob j f).moves = s.moves := by
  unfold State.onJob; split <;> rfl
@[simp] theorem State.agenda_onJob (s : State) (j : Nat) (f : Job → Job) : (s.onJob j f).agenda = s.agenda := by
  unfold State.onJob; split <;> rfl
@[simp] theorem State.focus_onJob (s : State) (j : Nat) (f : Job → Job) : (s.onJob j f).focus = s.focus := by
  unfold State.onJob; split <;> rfl
@[simp] theorem State.hbm_onJob (s : State) (j : Nat) (f : Job → Job) : (s.onJob j f).hbm = s.hbm := by
  unfold State.onJob; split <;> rfl
@[simp] theorem State.host_onJob (s : State) (j : Nat) (f : Job → Job) : (s.onJob j f).host = s.host := by
  unfold State.onJob; split <;> rfl
@[simp] theorem State.pool_onJob (s : State) (j : Nat) (f : Job → Job) : (s.onJob j f).pool = s.pool := by
  unfold State.onJob; split <;> rfl
@[simp] theorem State.acc_onJob (s : State) (j : Nat) (f : Job → Job) : (s.onJob j f).acc = s.acc := by
  unfold State.onJob; split <;> rfl
@[simp] theorem State.l2_onJob (s : State) (j : Nat) (f : Job → Job) : (s.onJob j f).l2 = s.l2 := by
  unfold State.onJob; split <;> rfl
@[simp] theorem State.pins_onJob (s : State) (j : Nat) (f : Job → Job) : (s.onJob j f).pins = s.pins := by
  unfold State.onJob; split <;> rfl
@[simp] theorem State.proxyCopies_onJob (s : State) (j : Nat) (f : Job → Job) : (s.onJob j f).proxyCopies = s.proxyCopies := by
  unfold State.onJob; split <;> rfl
@[simp] theorem State.net_onJob (s : State) (j : Nat) (f : Job → Job) : (s.onJob j f).net = s.net := by
  unfold State.onJob; split <;> rfl
@[simp] theorem State.slots_onJob (s : State) (j : Nat) (f : Job → Job) : (s.onJob j f).slots = s.slots := by
  unfold State.onJob; split <;> rfl
@[simp] theorem State.cores_onJob (s : State) (j : Nat) (f : Job → Job) : (s.onJob j f).cores = s.cores := by
  unfold State.onJob; split <;> rfl
@[simp] theorem State.tiles_onJob (s : State) (j : Nat) (f : Job → Job) : (s.onJob j f).tiles = s.tiles := by
  unfold State.onJob; split <;> rfl
@[simp] theorem State.tenants_onJob (s : State) (j : Nat) (f : Job → Job) : (s.onJob j f).tenants = s.tenants := by
  unfold State.onJob; split <;> rfl
@[simp] theorem State.calenders_onJob (s : State) (j : Nat) (f : Job → Job) : (s.onJob j f).calenders = s.calenders := by
  unfold State.onJob; split <;> rfl
@[simp] theorem State.links_onJob (s : State) (j : Nat) (f : Job → Job) : (s.onJob j f).links = s.links := by
  unfold State.onJob; split <;> rfl
@[simp] theorem State.pkgid_onJob (s : State) (j : Nat) (f : Job → Job) : (s.onJob j f).pkgid = s.pkgid := by
  unfold State.onJob; split <;> rfl
@[simp] theorem State.ptroot_onJob (s : State) (j : Nat) (f : Job → Job) : (s.onJob j f).ptroot = s.ptroot := by
  unfold State.onJob; split <;> rfl
@[simp] theorem State.ddir_onJob (s : State) (j : Nat) (f : Job → Job) : (s.onJob j f).ddir = s.ddir := by
  unfold State.onJob; split <;> rfl
@[simp] theorem State.pwrlim_onJob (s : State) (j : Nat) (f : Job → Job) : (s.onJob j f).pwrlim = s.pwrlim := by
  unfold State.onJob; split <;> rfl
@[simp] theorem State.deckle_onJob (s : State) (j : Nat) (f : Job → Job) : (s.onJob j f).deckle = s.deckle := by
  unfold State.onJob; split <;> rfl
@[simp] theorem State.deckleNext_onJob (s : State) (j : Nat) (f : Job → Job) : (s.onJob j f).deckleNext = s.deckleNext := by
  unfold State.onJob; split <;> rfl
@[simp] theorem State.period_onJob (s : State) (j : Nat) (f : Job → Job) : (s.onJob j f).period = s.period := by
  unfold State.onJob; split <;> rfl
@[simp] theorem State.periodStart_onJob (s : State) (j : Nat) (f : Job → Job) : (s.onJob j f).periodStart = s.periodStart := by
  unfold State.onJob; split <;> rfl
@[simp] theorem State.lastSample_onJob (s : State) (j : Nat) (f : Job → Job) : (s.onJob j f).lastSample = s.lastSample := by
  unfold State.onJob; split <;> rfl
@[simp] theorem State.stage_onJob (s : State) (j : Nat) (f : Job → Job) : (s.onJob j f).stage = s.stage := by
  unfold State.onJob; split <;> rfl
@[simp] theorem State.fail_onJob (s : State) (j : Nat) (f : Job → Job) : (s.onJob j f).fail = s.fail := by
  unfold State.onJob; split <;> rfl
@[simp] theorem State.trained_onJob (s : State) (j : Nat) (f : Job → Job) : (s.onJob j f).trained = s.trained := by
  unfold State.onJob; split <;> rfl
@[simp] theorem State.meas_onJob (s : State) (j : Nat) (f : Job → Job) : (s.onJob j f).meas = s.meas := by
  unfold State.onJob; split <;> rfl
@[simp] theorem State.tripped_onJob (s : State) (j : Nat) (f : Job → Job) : (s.onJob j f).tripped = s.tripped := by
  unfold State.onJob; split <;> rfl
@[simp] theorem State.heldLaunches_onJob (s : State) (j : Nat) (f : Job → Job) : (s.onJob j f).heldLaunches = s.heldLaunches := by
  unfold State.onJob; split <;> rfl
@[simp] theorem State.spdm_onJob (s : State) (j : Nat) (f : Job → Job) : (s.onJob j f).spdm = s.spdm := by
  unfold State.onJob; split <;> rfl
@[simp] theorem State.peerRevokes_onJob (s : State) (j : Nat) (f : Job → Job) : (s.onJob j f).peerRevokes = s.peerRevokes := by
  unfold State.onJob; split <;> rfl
@[simp] theorem State.malformed_onJob (s : State) (j : Nat) (f : Job → Job) : (s.onJob j f).malformed = s.malformed := by
  unfold State.onJob; split <;> rfl
@[simp] theorem State.sets_onJob (s : State) (j : Nat) (f : Job → Job) : (s.onJob j f).sets = s.sets := by
  unfold State.onJob; split <;> rfl
@[simp] theorem State.sent_onJob (s : State) (j : Nat) (f : Job → Job) : (s.onJob j f).sent = s.sent := by
  unfold State.onJob; split <;> rfl
@[simp] theorem State.peerAnswers_onJob (s : State) (j : Nat) (f : Job → Job) : (s.onJob j f).peerAnswers = s.peerAnswers := by
  unfold State.onJob; split <;> rfl
@[simp] theorem State.hostRead_onJob (s : State) (j : Nat) (f : Job → Job) : (s.onJob j f).hostRead = s.hostRead := by
  unfold State.onJob; split <;> rfl
@[simp] theorem State.inbound_onJob (s : State) (j : Nat) (f : Job → Job) : (s.onJob j f).inbound = s.inbound := by
  unfold State.onJob; split <;> rfl
@[simp] theorem State.stackFailed_onJob (s : State) (j : Nat) (f : Job → Job) : (s.onJob j f).stackFailed = s.stackFailed := by
  unfold State.onJob; split <;> rfl

/-! ## Fields of a slot under its updates -/

@[simp] theorem Slot.state_setCell (x : Slot) (l : RegLoc) (c : RegCell) : (x.setCell l c).state = x.state := by cases l <;> rfl
@[simp] theorem Slot.state_land (x : Slot) (l : RegLoc) (v : Word) : (x.land l v).state = x.state := by
  unfold Slot.land; split <;> simp
@[simp] theorem Slot.state_owe (x : Slot) (l : RegLoc) : (x.owe l).state = x.state := Slot.state_setCell x l _
@[simp] theorem Slot.state_setPres (x : Slot) (l : RegLoc) (p : Presence) : (x.setPres l p).state = x.state := Slot.state_setCell x l _
@[simp] theorem Slot.state_put (x : Slot) (r : Reg) (v : Word) : (x.put r v).state = x.state := by
  unfold Slot.put; split <;> simp
@[simp] theorem Slot.job_setCell (x : Slot) (l : RegLoc) (c : RegCell) : (x.setCell l c).job = x.job := by cases l <;> rfl
@[simp] theorem Slot.job_land (x : Slot) (l : RegLoc) (v : Word) : (x.land l v).job = x.job := by
  unfold Slot.land; split <;> simp
@[simp] theorem Slot.job_owe (x : Slot) (l : RegLoc) : (x.owe l).job = x.job := Slot.job_setCell x l _
@[simp] theorem Slot.job_setPres (x : Slot) (l : RegLoc) (p : Presence) : (x.setPres l p).job = x.job := Slot.job_setCell x l _
@[simp] theorem Slot.job_put (x : Slot) (r : Reg) (v : Word) : (x.put r v).job = x.job := by
  unfold Slot.put; split <;> simp
@[simp] theorem Slot.pc_setCell (x : Slot) (l : RegLoc) (c : RegCell) : (x.setCell l c).pc = x.pc := by cases l <;> rfl
@[simp] theorem Slot.pc_land (x : Slot) (l : RegLoc) (v : Word) : (x.land l v).pc = x.pc := by
  unfold Slot.land; split <;> simp
@[simp] theorem Slot.pc_owe (x : Slot) (l : RegLoc) : (x.owe l).pc = x.pc := Slot.pc_setCell x l _
@[simp] theorem Slot.pc_setPres (x : Slot) (l : RegLoc) (p : Presence) : (x.setPres l p).pc = x.pc := Slot.pc_setCell x l _
@[simp] theorem Slot.pc_put (x : Slot) (r : Reg) (v : Word) : (x.put r v).pc = x.pc := by
  unfold Slot.put; split <;> simp
@[simp] theorem Slot.brPc_setCell (x : Slot) (l : RegLoc) (c : RegCell) : (x.setCell l c).brPc = x.brPc := by cases l <;> rfl
@[simp] theorem Slot.brPc_land (x : Slot) (l : RegLoc) (v : Word) : (x.land l v).brPc = x.brPc := by
  unfold Slot.land; split <;> simp
@[simp] theorem Slot.brPc_owe (x : Slot) (l : RegLoc) : (x.owe l).brPc = x.brPc := Slot.brPc_setCell x l _
@[simp] theorem Slot.brPc_setPres (x : Slot) (l : RegLoc) (p : Presence) : (x.setPres l p).brPc = x.brPc := Slot.brPc_setCell x l _
@[simp] theorem Slot.brPc_put (x : Slot) (r : Reg) (v : Word) : (x.put r v).brPc = x.brPc := by
  unfold Slot.put; split <;> simp
@[simp] theorem Slot.winBase_setCell (x : Slot) (l : RegLoc) (c : RegCell) : (x.setCell l c).winBase = x.winBase := by cases l <;> rfl
@[simp] theorem Slot.winBase_land (x : Slot) (l : RegLoc) (v : Word) : (x.land l v).winBase = x.winBase := by
  unfold Slot.land; split <;> simp
@[simp] theorem Slot.winBase_owe (x : Slot) (l : RegLoc) : (x.owe l).winBase = x.winBase := Slot.winBase_setCell x l _
@[simp] theorem Slot.winBase_setPres (x : Slot) (l : RegLoc) (p : Presence) : (x.setPres l p).winBase = x.winBase := Slot.winBase_setCell x l _
@[simp] theorem Slot.winBase_put (x : Slot) (r : Reg) (v : Word) : (x.put r v).winBase = x.winBase := by
  unfold Slot.put; split <;> simp
@[simp] theorem Slot.winSize_setCell (x : Slot) (l : RegLoc) (c : RegCell) : (x.setCell l c).winSize = x.winSize := by cases l <;> rfl
@[simp] theorem Slot.winSize_land (x : Slot) (l : RegLoc) (v : Word) : (x.land l v).winSize = x.winSize := by
  unfold Slot.land; split <;> simp
@[simp] theorem Slot.winSize_owe (x : Slot) (l : RegLoc) : (x.owe l).winSize = x.winSize := Slot.winSize_setCell x l _
@[simp] theorem Slot.winSize_setPres (x : Slot) (l : RegLoc) (p : Presence) : (x.setPres l p).winSize = x.winSize := Slot.winSize_setCell x l _
@[simp] theorem Slot.winSize_put (x : Slot) (r : Reg) (v : Word) : (x.put r v).winSize = x.winSize := by
  unfold Slot.put; split <;> simp
@[simp] theorem Slot.leaves_setCell (x : Slot) (l : RegLoc) (c : RegCell) : (x.setCell l c).leaves = x.leaves := by cases l <;> rfl
@[simp] theorem Slot.leaves_land (x : Slot) (l : RegLoc) (v : Word) : (x.land l v).leaves = x.leaves := by
  unfold Slot.land; split <;> simp
@[simp] theorem Slot.leaves_owe (x : Slot) (l : RegLoc) : (x.owe l).leaves = x.leaves := Slot.leaves_setCell x l _
@[simp] theorem Slot.leaves_setPres (x : Slot) (l : RegLoc) (p : Presence) : (x.setPres l p).leaves = x.leaves := Slot.leaves_setCell x l _
@[simp] theorem Slot.leaves_put (x : Slot) (r : Reg) (v : Word) : (x.put r v).leaves = x.leaves := by
  unfold Slot.put; split <;> simp
@[simp] theorem Slot.bindings_setCell (x : Slot) (l : RegLoc) (c : RegCell) : (x.setCell l c).bindings = x.bindings := by cases l <;> rfl
@[simp] theorem Slot.bindings_land (x : Slot) (l : RegLoc) (v : Word) : (x.land l v).bindings = x.bindings := by
  unfold Slot.land; split <;> simp
@[simp] theorem Slot.bindings_owe (x : Slot) (l : RegLoc) : (x.owe l).bindings = x.bindings := Slot.bindings_setCell x l _
@[simp] theorem Slot.bindings_setPres (x : Slot) (l : RegLoc) (p : Presence) : (x.setPres l p).bindings = x.bindings := Slot.bindings_setCell x l _
@[simp] theorem Slot.bindings_put (x : Slot) (r : Reg) (v : Word) : (x.put r v).bindings = x.bindings := by
  unfold Slot.put; split <;> simp
@[simp] theorem Slot.fsr_setCell (x : Slot) (l : RegLoc) (c : RegCell) : (x.setCell l c).fsr = x.fsr := by cases l <;> rfl
@[simp] theorem Slot.fsr_land (x : Slot) (l : RegLoc) (v : Word) : (x.land l v).fsr = x.fsr := by
  unfold Slot.land; split <;> simp
@[simp] theorem Slot.fsr_owe (x : Slot) (l : RegLoc) : (x.owe l).fsr = x.fsr := Slot.fsr_setCell x l _
@[simp] theorem Slot.fsr_setPres (x : Slot) (l : RegLoc) (p : Presence) : (x.setPres l p).fsr = x.fsr := Slot.fsr_setCell x l _
@[simp] theorem Slot.fsr_put (x : Slot) (r : Reg) (v : Word) : (x.put r v).fsr = x.fsr := by
  unfold Slot.put; split <;> simp
@[simp] theorem Slot.frm_setCell (x : Slot) (l : RegLoc) (c : RegCell) : (x.setCell l c).frm = x.frm := by cases l <;> rfl
@[simp] theorem Slot.frm_land (x : Slot) (l : RegLoc) (v : Word) : (x.land l v).frm = x.frm := by
  unfold Slot.land; split <;> simp
@[simp] theorem Slot.frm_owe (x : Slot) (l : RegLoc) : (x.owe l).frm = x.frm := Slot.frm_setCell x l _
@[simp] theorem Slot.frm_setPres (x : Slot) (l : RegLoc) (p : Presence) : (x.setPres l p).frm = x.frm := Slot.frm_setCell x l _
@[simp] theorem Slot.frm_put (x : Slot) (r : Reg) (v : Word) : (x.put r v).frm = x.frm := by
  unfold Slot.put; split <;> simp
@[simp] theorem Slot.xmode_setCell (x : Slot) (l : RegLoc) (c : RegCell) : (x.setCell l c).xmode = x.xmode := by cases l <;> rfl
@[simp] theorem Slot.xmode_land (x : Slot) (l : RegLoc) (v : Word) : (x.land l v).xmode = x.xmode := by
  unfold Slot.land; split <;> simp
@[simp] theorem Slot.xmode_owe (x : Slot) (l : RegLoc) : (x.owe l).xmode = x.xmode := Slot.xmode_setCell x l _
@[simp] theorem Slot.xmode_setPres (x : Slot) (l : RegLoc) (p : Presence) : (x.setPres l p).xmode = x.xmode := Slot.xmode_setCell x l _
@[simp] theorem Slot.xmode_put (x : Slot) (r : Reg) (v : Word) : (x.put r v).xmode = x.xmode := by
  unfold Slot.put; split <;> simp
@[simp] theorem Slot.ubase_setCell (x : Slot) (l : RegLoc) (c : RegCell) : (x.setCell l c).ubase = x.ubase := by cases l <;> rfl
@[simp] theorem Slot.ubase_land (x : Slot) (l : RegLoc) (v : Word) : (x.land l v).ubase = x.ubase := by
  unfold Slot.land; split <;> simp
@[simp] theorem Slot.ubase_owe (x : Slot) (l : RegLoc) : (x.owe l).ubase = x.ubase := Slot.ubase_setCell x l _
@[simp] theorem Slot.ubase_setPres (x : Slot) (l : RegLoc) (p : Presence) : (x.setPres l p).ubase = x.ubase := Slot.ubase_setCell x l _
@[simp] theorem Slot.ubase_put (x : Slot) (r : Reg) (v : Word) : (x.put r v).ubase = x.ubase := by
  unfold Slot.put; split <;> simp
@[simp] theorem Slot.uepc_setCell (x : Slot) (l : RegLoc) (c : RegCell) : (x.setCell l c).uepc = x.uepc := by cases l <;> rfl
@[simp] theorem Slot.uepc_land (x : Slot) (l : RegLoc) (v : Word) : (x.land l v).uepc = x.uepc := by
  unfold Slot.land; split <;> simp
@[simp] theorem Slot.uepc_owe (x : Slot) (l : RegLoc) : (x.owe l).uepc = x.uepc := Slot.uepc_setCell x l _
@[simp] theorem Slot.uepc_setPres (x : Slot) (l : RegLoc) (p : Presence) : (x.setPres l p).uepc = x.uepc := Slot.uepc_setCell x l _
@[simp] theorem Slot.uepc_put (x : Slot) (r : Reg) (v : Word) : (x.put r v).uepc = x.uepc := by
  unfold Slot.put; split <;> simp
@[simp] theorem Slot.uval_setCell (x : Slot) (l : RegLoc) (c : RegCell) : (x.setCell l c).uval = x.uval := by cases l <;> rfl
@[simp] theorem Slot.uval_land (x : Slot) (l : RegLoc) (v : Word) : (x.land l v).uval = x.uval := by
  unfold Slot.land; split <;> simp
@[simp] theorem Slot.uval_owe (x : Slot) (l : RegLoc) : (x.owe l).uval = x.uval := Slot.uval_setCell x l _
@[simp] theorem Slot.uval_setPres (x : Slot) (l : RegLoc) (p : Presence) : (x.setPres l p).uval = x.uval := Slot.uval_setCell x l _
@[simp] theorem Slot.uval_put (x : Slot) (r : Reg) (v : Word) : (x.put r v).uval = x.uval := by
  unfold Slot.put; split <;> simp
@[simp] theorem Slot.code_setCell (x : Slot) (l : RegLoc) (c : RegCell) : (x.setCell l c).code = x.code := by cases l <;> rfl
@[simp] theorem Slot.code_land (x : Slot) (l : RegLoc) (v : Word) : (x.land l v).code = x.code := by
  unfold Slot.land; split <;> simp
@[simp] theorem Slot.code_owe (x : Slot) (l : RegLoc) : (x.owe l).code = x.code := Slot.code_setCell x l _
@[simp] theorem Slot.code_setPres (x : Slot) (l : RegLoc) (p : Presence) : (x.setPres l p).code = x.code := Slot.code_setCell x l _
@[simp] theorem Slot.code_put (x : Slot) (r : Reg) (v : Word) : (x.put r v).code = x.code := by
  unfold Slot.put; split <;> simp
@[simp] theorem Slot.active_setCell (x : Slot) (l : RegLoc) (c : RegCell) : (x.setCell l c).active = x.active := by cases l <;> rfl
@[simp] theorem Slot.active_land (x : Slot) (l : RegLoc) (v : Word) : (x.land l v).active = x.active := by
  unfold Slot.land; split <;> simp
@[simp] theorem Slot.active_owe (x : Slot) (l : RegLoc) : (x.owe l).active = x.active := Slot.active_setCell x l _
@[simp] theorem Slot.active_setPres (x : Slot) (l : RegLoc) (p : Presence) : (x.setPres l p).active = x.active := Slot.active_setCell x l _
@[simp] theorem Slot.active_put (x : Slot) (r : Reg) (v : Word) : (x.put r v).active = x.active := by
  unfold Slot.put; split <;> simp
@[simp] theorem Slot.pend_setCell (x : Slot) (l : RegLoc) (c : RegCell) : (x.setCell l c).pend = x.pend := by cases l <;> rfl
@[simp] theorem Slot.pend_land (x : Slot) (l : RegLoc) (v : Word) : (x.land l v).pend = x.pend := by
  unfold Slot.land; split <;> simp
@[simp] theorem Slot.pend_owe (x : Slot) (l : RegLoc) : (x.owe l).pend = x.pend := Slot.pend_setCell x l _
@[simp] theorem Slot.pend_setPres (x : Slot) (l : RegLoc) (p : Presence) : (x.setPres l p).pend = x.pend := Slot.pend_setCell x l _
@[simp] theorem Slot.pend_put (x : Slot) (r : Reg) (v : Word) : (x.put r v).pend = x.pend := by
  unfold Slot.put; split <;> simp
@[simp] theorem Slot.pendVal_setCell (x : Slot) (l : RegLoc) (c : RegCell) : (x.setCell l c).pendVal = x.pendVal := by cases l <;> rfl
@[simp] theorem Slot.pendVal_land (x : Slot) (l : RegLoc) (v : Word) : (x.land l v).pendVal = x.pendVal := by
  unfold Slot.land; split <;> simp
@[simp] theorem Slot.pendVal_owe (x : Slot) (l : RegLoc) : (x.owe l).pendVal = x.pendVal := Slot.pendVal_setCell x l _
@[simp] theorem Slot.pendVal_setPres (x : Slot) (l : RegLoc) (p : Presence) : (x.setPres l p).pendVal = x.pendVal := Slot.pendVal_setCell x l _
@[simp] theorem Slot.pendVal_put (x : Slot) (r : Reg) (v : Word) : (x.put r v).pendVal = x.pendVal := by
  unfold Slot.put; split <;> simp
@[simp] theorem Slot.umask_setCell (x : Slot) (l : RegLoc) (c : RegCell) : (x.setCell l c).umask = x.umask := by cases l <;> rfl
@[simp] theorem Slot.umask_land (x : Slot) (l : RegLoc) (v : Word) : (x.land l v).umask = x.umask := by
  unfold Slot.land; split <;> simp
@[simp] theorem Slot.umask_owe (x : Slot) (l : RegLoc) : (x.owe l).umask = x.umask := Slot.umask_setCell x l _
@[simp] theorem Slot.umask_setPres (x : Slot) (l : RegLoc) (p : Presence) : (x.setPres l p).umask = x.umask := Slot.umask_setCell x l _
@[simp] theorem Slot.umask_put (x : Slot) (r : Reg) (v : Word) : (x.put r v).umask = x.umask := by
  unfold Slot.put; split <;> simp
@[simp] theorem Slot.fmt0_setCell (x : Slot) (l : RegLoc) (c : RegCell) : (x.setCell l c).fmt0 = x.fmt0 := by cases l <;> rfl
@[simp] theorem Slot.fmt0_land (x : Slot) (l : RegLoc) (v : Word) : (x.land l v).fmt0 = x.fmt0 := by
  unfold Slot.land; split <;> simp
@[simp] theorem Slot.fmt0_owe (x : Slot) (l : RegLoc) : (x.owe l).fmt0 = x.fmt0 := Slot.fmt0_setCell x l _
@[simp] theorem Slot.fmt0_setPres (x : Slot) (l : RegLoc) (p : Presence) : (x.setPres l p).fmt0 = x.fmt0 := Slot.fmt0_setCell x l _
@[simp] theorem Slot.fmt0_put (x : Slot) (r : Reg) (v : Word) : (x.put r v).fmt0 = x.fmt0 := by
  unfold Slot.put; split <;> simp
@[simp] theorem Slot.fmt1_setCell (x : Slot) (l : RegLoc) (c : RegCell) : (x.setCell l c).fmt1 = x.fmt1 := by cases l <;> rfl
@[simp] theorem Slot.fmt1_land (x : Slot) (l : RegLoc) (v : Word) : (x.land l v).fmt1 = x.fmt1 := by
  unfold Slot.land; split <;> simp
@[simp] theorem Slot.fmt1_owe (x : Slot) (l : RegLoc) : (x.owe l).fmt1 = x.fmt1 := Slot.fmt1_setCell x l _
@[simp] theorem Slot.fmt1_setPres (x : Slot) (l : RegLoc) (p : Presence) : (x.setPres l p).fmt1 = x.fmt1 := Slot.fmt1_setCell x l _
@[simp] theorem Slot.fmt1_put (x : Slot) (r : Reg) (v : Word) : (x.put r v).fmt1 = x.fmt1 := by
  unfold Slot.put; split <;> simp
@[simp] theorem Slot.scl0_setCell (x : Slot) (l : RegLoc) (c : RegCell) : (x.setCell l c).scl0 = x.scl0 := by cases l <;> rfl
@[simp] theorem Slot.scl0_land (x : Slot) (l : RegLoc) (v : Word) : (x.land l v).scl0 = x.scl0 := by
  unfold Slot.land; split <;> simp
@[simp] theorem Slot.scl0_owe (x : Slot) (l : RegLoc) : (x.owe l).scl0 = x.scl0 := Slot.scl0_setCell x l _
@[simp] theorem Slot.scl0_setPres (x : Slot) (l : RegLoc) (p : Presence) : (x.setPres l p).scl0 = x.scl0 := Slot.scl0_setCell x l _
@[simp] theorem Slot.scl0_put (x : Slot) (r : Reg) (v : Word) : (x.put r v).scl0 = x.scl0 := by
  unfold Slot.put; split <;> simp
@[simp] theorem Slot.scl1_setCell (x : Slot) (l : RegLoc) (c : RegCell) : (x.setCell l c).scl1 = x.scl1 := by cases l <;> rfl
@[simp] theorem Slot.scl1_land (x : Slot) (l : RegLoc) (v : Word) : (x.land l v).scl1 = x.scl1 := by
  unfold Slot.land; split <;> simp
@[simp] theorem Slot.scl1_owe (x : Slot) (l : RegLoc) : (x.owe l).scl1 = x.scl1 := Slot.scl1_setCell x l _
@[simp] theorem Slot.scl1_setPres (x : Slot) (l : RegLoc) (p : Presence) : (x.setPres l p).scl1 = x.scl1 := Slot.scl1_setCell x l _
@[simp] theorem Slot.scl1_put (x : Slot) (r : Reg) (v : Word) : (x.put r v).scl1 = x.scl1 := by
  unfold Slot.put; split <;> simp
@[simp] theorem Slot.vmask_setCell (x : Slot) (l : RegLoc) (c : RegCell) : (x.setCell l c).vmask = x.vmask := by cases l <;> rfl
@[simp] theorem Slot.vmask_land (x : Slot) (l : RegLoc) (v : Word) : (x.land l v).vmask = x.vmask := by
  unfold Slot.land; split <;> simp
@[simp] theorem Slot.vmask_owe (x : Slot) (l : RegLoc) : (x.owe l).vmask = x.vmask := Slot.vmask_setCell x l _
@[simp] theorem Slot.vmask_setPres (x : Slot) (l : RegLoc) (p : Presence) : (x.setPres l p).vmask = x.vmask := Slot.vmask_setCell x l _
@[simp] theorem Slot.vmask_put (x : Slot) (r : Reg) (v : Word) : (x.put r v).vmask = x.vmask := by
  unfold Slot.put; split <;> simp
@[simp] theorem Slot.stb_setCell (x : Slot) (l : RegLoc) (c : RegCell) : (x.setCell l c).stb = x.stb := by cases l <;> rfl
@[simp] theorem Slot.stb_land (x : Slot) (l : RegLoc) (v : Word) : (x.land l v).stb = x.stb := by
  unfold Slot.land; split <;> simp
@[simp] theorem Slot.stb_owe (x : Slot) (l : RegLoc) : (x.owe l).stb = x.stb := Slot.stb_setCell x l _
@[simp] theorem Slot.stb_setPres (x : Slot) (l : RegLoc) (p : Presence) : (x.setPres l p).stb = x.stb := Slot.stb_setCell x l _
@[simp] theorem Slot.stb_put (x : Slot) (r : Reg) (v : Word) : (x.put r v).stb = x.stb := by
  unfold Slot.put; split <;> simp
@[simp] theorem Slot.ist_setCell (x : Slot) (l : RegLoc) (c : RegCell) : (x.setCell l c).ist = x.ist := by cases l <;> rfl
@[simp] theorem Slot.ist_land (x : Slot) (l : RegLoc) (v : Word) : (x.land l v).ist = x.ist := by
  unfold Slot.land; split <;> simp
@[simp] theorem Slot.ist_owe (x : Slot) (l : RegLoc) : (x.owe l).ist = x.ist := Slot.ist_setCell x l _
@[simp] theorem Slot.ist_setPres (x : Slot) (l : RegLoc) (p : Presence) : (x.setPres l p).ist = x.ist := Slot.ist_setCell x l _
@[simp] theorem Slot.ist_put (x : Slot) (r : Reg) (v : Word) : (x.put r v).ist = x.ist := by
  unfold Slot.put; split <;> simp
@[simp] theorem Slot.hbump_setCell (x : Slot) (l : RegLoc) (c : RegCell) : (x.setCell l c).hbump = x.hbump := by cases l <;> rfl
@[simp] theorem Slot.hbump_land (x : Slot) (l : RegLoc) (v : Word) : (x.land l v).hbump = x.hbump := by
  unfold Slot.land; split <;> simp
@[simp] theorem Slot.hbump_owe (x : Slot) (l : RegLoc) : (x.owe l).hbump = x.hbump := Slot.hbump_setCell x l _
@[simp] theorem Slot.hbump_setPres (x : Slot) (l : RegLoc) (p : Presence) : (x.setPres l p).hbump = x.hbump := Slot.hbump_setCell x l _
@[simp] theorem Slot.hbump_put (x : Slot) (r : Reg) (v : Word) : (x.put r v).hbump = x.hbump := by
  unfold Slot.put; split <;> simp
@[simp] theorem Slot.hlim_setCell (x : Slot) (l : RegLoc) (c : RegCell) : (x.setCell l c).hlim = x.hlim := by cases l <;> rfl
@[simp] theorem Slot.hlim_land (x : Slot) (l : RegLoc) (v : Word) : (x.land l v).hlim = x.hlim := by
  unfold Slot.land; split <;> simp
@[simp] theorem Slot.hlim_owe (x : Slot) (l : RegLoc) : (x.owe l).hlim = x.hlim := Slot.hlim_setCell x l _
@[simp] theorem Slot.hlim_setPres (x : Slot) (l : RegLoc) (p : Presence) : (x.setPres l p).hlim = x.hlim := Slot.hlim_setCell x l _
@[simp] theorem Slot.hlim_put (x : Slot) (r : Reg) (v : Word) : (x.put r v).hlim = x.hlim := by
  unfold Slot.put; split <;> simp
@[simp] theorem Slot.handlers_setCell (x : Slot) (l : RegLoc) (c : RegCell) : (x.setCell l c).handlers = x.handlers := by cases l <;> rfl
@[simp] theorem Slot.handlers_land (x : Slot) (l : RegLoc) (v : Word) : (x.land l v).handlers = x.handlers := by
  unfold Slot.land; split <;> simp
@[simp] theorem Slot.handlers_owe (x : Slot) (l : RegLoc) : (x.owe l).handlers = x.handlers := Slot.handlers_setCell x l _
@[simp] theorem Slot.handlers_setPres (x : Slot) (l : RegLoc) (p : Presence) : (x.setPres l p).handlers = x.handlers := Slot.handlers_setCell x l _
@[simp] theorem Slot.handlers_put (x : Slot) (r : Reg) (v : Word) : (x.put r v).handlers = x.handlers := by
  unfold Slot.put; split <;> simp
@[simp] theorem Slot.opc_setCell (x : Slot) (l : RegLoc) (c : RegCell) : (x.setCell l c).opc = x.opc := by cases l <;> rfl
@[simp] theorem Slot.opc_land (x : Slot) (l : RegLoc) (v : Word) : (x.land l v).opc = x.opc := by
  unfold Slot.land; split <;> simp
@[simp] theorem Slot.opc_owe (x : Slot) (l : RegLoc) : (x.owe l).opc = x.opc := Slot.opc_setCell x l _
@[simp] theorem Slot.opc_setPres (x : Slot) (l : RegLoc) (p : Presence) : (x.setPres l p).opc = x.opc := Slot.opc_setCell x l _
@[simp] theorem Slot.opc_put (x : Slot) (r : Reg) (v : Word) : (x.put r v).opc = x.opc := by
  unfold Slot.put; split <;> simp
@[simp] theorem Slot.odc_setCell (x : Slot) (l : RegLoc) (c : RegCell) : (x.setCell l c).odc = x.odc := by cases l <;> rfl
@[simp] theorem Slot.odc_land (x : Slot) (l : RegLoc) (v : Word) : (x.land l v).odc = x.odc := by
  unfold Slot.land; split <;> simp
@[simp] theorem Slot.odc_owe (x : Slot) (l : RegLoc) : (x.owe l).odc = x.odc := Slot.odc_setCell x l _
@[simp] theorem Slot.odc_setPres (x : Slot) (l : RegLoc) (p : Presence) : (x.setPres l p).odc = x.odc := Slot.odc_setCell x l _
@[simp] theorem Slot.odc_put (x : Slot) (r : Reg) (v : Word) : (x.put r v).odc = x.odc := by
  unfold Slot.put; split <;> simp
@[simp] theorem Slot.unchecked_setCell (x : Slot) (l : RegLoc) (c : RegCell) : (x.setCell l c).unchecked = x.unchecked := by cases l <;> rfl
@[simp] theorem Slot.unchecked_land (x : Slot) (l : RegLoc) (v : Word) : (x.land l v).unchecked = x.unchecked := by
  unfold Slot.land; split <;> simp
@[simp] theorem Slot.unchecked_owe (x : Slot) (l : RegLoc) : (x.owe l).unchecked = x.unchecked := Slot.unchecked_setCell x l _
@[simp] theorem Slot.unchecked_setPres (x : Slot) (l : RegLoc) (p : Presence) : (x.setPres l p).unchecked = x.unchecked := Slot.unchecked_setCell x l _
@[simp] theorem Slot.unchecked_put (x : Slot) (r : Reg) (v : Word) : (x.put r v).unchecked = x.unchecked := by
  unfold Slot.put; split <;> simp
@[simp] theorem Slot.acqHold_setCell (x : Slot) (l : RegLoc) (c : RegCell) : (x.setCell l c).acqHold = x.acqHold := by cases l <;> rfl
@[simp] theorem Slot.acqHold_land (x : Slot) (l : RegLoc) (v : Word) : (x.land l v).acqHold = x.acqHold := by
  unfold Slot.land; split <;> simp
@[simp] theorem Slot.acqHold_owe (x : Slot) (l : RegLoc) : (x.owe l).acqHold = x.acqHold := Slot.acqHold_setCell x l _
@[simp] theorem Slot.acqHold_setPres (x : Slot) (l : RegLoc) (p : Presence) : (x.setPres l p).acqHold = x.acqHold := Slot.acqHold_setCell x l _
@[simp] theorem Slot.acqHold_put (x : Slot) (r : Reg) (v : Word) : (x.put r v).acqHold = x.acqHold := by
  unfold Slot.put; split <;> simp
@[simp] theorem Slot.waiting_setCell (x : Slot) (l : RegLoc) (c : RegCell) : (x.setCell l c).waiting = x.waiting := by cases l <;> rfl
@[simp] theorem Slot.waiting_land (x : Slot) (l : RegLoc) (v : Word) : (x.land l v).waiting = x.waiting := by
  unfold Slot.land; split <;> simp
@[simp] theorem Slot.waiting_owe (x : Slot) (l : RegLoc) : (x.owe l).waiting = x.waiting := Slot.waiting_setCell x l _
@[simp] theorem Slot.waiting_setPres (x : Slot) (l : RegLoc) (p : Presence) : (x.setPres l p).waiting = x.waiting := Slot.waiting_setCell x l _
@[simp] theorem Slot.waiting_put (x : Slot) (r : Reg) (v : Word) : (x.put r v).waiting = x.waiting := by
  unfold Slot.put; split <;> simp
@[simp] theorem Slot.sends_setCell (x : Slot) (l : RegLoc) (c : RegCell) : (x.setCell l c).sends = x.sends := by cases l <;> rfl
@[simp] theorem Slot.sends_land (x : Slot) (l : RegLoc) (v : Word) : (x.land l v).sends = x.sends := by
  unfold Slot.land; split <;> simp
@[simp] theorem Slot.sends_owe (x : Slot) (l : RegLoc) : (x.owe l).sends = x.sends := Slot.sends_setCell x l _
@[simp] theorem Slot.sends_setPres (x : Slot) (l : RegLoc) (p : Presence) : (x.setPres l p).sends = x.sends := Slot.sends_setCell x l _
@[simp] theorem Slot.sends_put (x : Slot) (r : Reg) (v : Word) : (x.put r v).sends = x.sends := by
  unfold Slot.put; split <;> simp
@[simp] theorem Slot.divs_setCell (x : Slot) (l : RegLoc) (c : RegCell) : (x.setCell l c).divs = x.divs := by cases l <;> rfl
@[simp] theorem Slot.divs_land (x : Slot) (l : RegLoc) (v : Word) : (x.land l v).divs = x.divs := by
  unfold Slot.land; split <;> simp
@[simp] theorem Slot.divs_owe (x : Slot) (l : RegLoc) : (x.owe l).divs = x.divs := Slot.divs_setCell x l _
@[simp] theorem Slot.divs_setPres (x : Slot) (l : RegLoc) (p : Presence) : (x.setPres l p).divs = x.divs := Slot.divs_setCell x l _
@[simp] theorem Slot.divs_put (x : Slot) (r : Reg) (v : Word) : (x.put r v).divs = x.divs := by
  unfold Slot.put; split <;> simp
@[simp] theorem Slot.sqrts_setCell (x : Slot) (l : RegLoc) (c : RegCell) : (x.setCell l c).sqrts = x.sqrts := by cases l <;> rfl
@[simp] theorem Slot.sqrts_land (x : Slot) (l : RegLoc) (v : Word) : (x.land l v).sqrts = x.sqrts := by
  unfold Slot.land; split <;> simp
@[simp] theorem Slot.sqrts_owe (x : Slot) (l : RegLoc) : (x.owe l).sqrts = x.sqrts := Slot.sqrts_setCell x l _
@[simp] theorem Slot.sqrts_setPres (x : Slot) (l : RegLoc) (p : Presence) : (x.setPres l p).sqrts = x.sqrts := Slot.sqrts_setCell x l _
@[simp] theorem Slot.sqrts_put (x : Slot) (r : Reg) (v : Word) : (x.put r v).sqrts = x.sqrts := by
  unfold Slot.put; split <;> simp
@[simp] theorem Slot.lease_setCell (x : Slot) (l : RegLoc) (c : RegCell) : (x.setCell l c).lease = x.lease := by cases l <;> rfl
@[simp] theorem Slot.lease_land (x : Slot) (l : RegLoc) (v : Word) : (x.land l v).lease = x.lease := by
  unfold Slot.land; split <;> simp
@[simp] theorem Slot.lease_owe (x : Slot) (l : RegLoc) : (x.owe l).lease = x.lease := Slot.lease_setCell x l _
@[simp] theorem Slot.lease_setPres (x : Slot) (l : RegLoc) (p : Presence) : (x.setPres l p).lease = x.lease := Slot.lease_setCell x l _
@[simp] theorem Slot.lease_put (x : Slot) (r : Reg) (v : Word) : (x.put r v).lease = x.lease := by
  unfold Slot.put; split <;> simp
@[simp] theorem Slot.budget_setCell (x : Slot) (l : RegLoc) (c : RegCell) : (x.setCell l c).budget = x.budget := by cases l <;> rfl
@[simp] theorem Slot.budget_land (x : Slot) (l : RegLoc) (v : Word) : (x.land l v).budget = x.budget := by
  unfold Slot.land; split <;> simp
@[simp] theorem Slot.budget_owe (x : Slot) (l : RegLoc) : (x.owe l).budget = x.budget := Slot.budget_setCell x l _
@[simp] theorem Slot.budget_setPres (x : Slot) (l : RegLoc) (p : Presence) : (x.setPres l p).budget = x.budget := Slot.budget_setCell x l _
@[simp] theorem Slot.budget_put (x : Slot) (r : Reg) (v : Word) : (x.put r v).budget = x.budget := by
  unfold Slot.put; split <;> simp
@[simp] theorem Slot.remain_setCell (x : Slot) (l : RegLoc) (c : RegCell) : (x.setCell l c).remain = x.remain := by cases l <;> rfl
@[simp] theorem Slot.remain_land (x : Slot) (l : RegLoc) (v : Word) : (x.land l v).remain = x.remain := by
  unfold Slot.land; split <;> simp
@[simp] theorem Slot.remain_owe (x : Slot) (l : RegLoc) : (x.owe l).remain = x.remain := Slot.remain_setCell x l _
@[simp] theorem Slot.remain_setPres (x : Slot) (l : RegLoc) (p : Presence) : (x.setPres l p).remain = x.remain := Slot.remain_setCell x l _
@[simp] theorem Slot.remain_put (x : Slot) (r : Reg) (v : Word) : (x.put r v).remain = x.remain := by
  unfold Slot.put; split <;> simp
@[simp] theorem Slot.leaseDst_setCell (x : Slot) (l : RegLoc) (c : RegCell) : (x.setCell l c).leaseDst = x.leaseDst := by cases l <;> rfl
@[simp] theorem Slot.leaseDst_land (x : Slot) (l : RegLoc) (v : Word) : (x.land l v).leaseDst = x.leaseDst := by
  unfold Slot.land; split <;> simp
@[simp] theorem Slot.leaseDst_owe (x : Slot) (l : RegLoc) : (x.owe l).leaseDst = x.leaseDst := Slot.leaseDst_setCell x l _
@[simp] theorem Slot.leaseDst_setPres (x : Slot) (l : RegLoc) (p : Presence) : (x.setPres l p).leaseDst = x.leaseDst := Slot.leaseDst_setCell x l _
@[simp] theorem Slot.leaseDst_put (x : Slot) (r : Reg) (v : Word) : (x.put r v).leaseDst = x.leaseDst := by
  unfold Slot.put; split <;> simp
@[simp] theorem Slot.sbase_setCell (x : Slot) (l : RegLoc) (c : RegCell) : (x.setCell l c).sbase = x.sbase := by cases l <;> rfl
@[simp] theorem Slot.sbase_land (x : Slot) (l : RegLoc) (v : Word) : (x.land l v).sbase = x.sbase := by
  unfold Slot.land; split <;> simp
@[simp] theorem Slot.sbase_owe (x : Slot) (l : RegLoc) : (x.owe l).sbase = x.sbase := Slot.sbase_setCell x l _
@[simp] theorem Slot.sbase_setPres (x : Slot) (l : RegLoc) (p : Presence) : (x.setPres l p).sbase = x.sbase := Slot.sbase_setCell x l _
@[simp] theorem Slot.sbase_put (x : Slot) (r : Reg) (v : Word) : (x.put r v).sbase = x.sbase := by
  unfold Slot.put; split <;> simp
@[simp] theorem Slot.sepc_setCell (x : Slot) (l : RegLoc) (c : RegCell) : (x.setCell l c).sepc = x.sepc := by cases l <;> rfl
@[simp] theorem Slot.sepc_land (x : Slot) (l : RegLoc) (v : Word) : (x.land l v).sepc = x.sepc := by
  unfold Slot.land; split <;> simp
@[simp] theorem Slot.sepc_owe (x : Slot) (l : RegLoc) : (x.owe l).sepc = x.sepc := Slot.sepc_setCell x l _
@[simp] theorem Slot.sepc_setPres (x : Slot) (l : RegLoc) (p : Presence) : (x.setPres l p).sepc = x.sepc := Slot.sepc_setCell x l _
@[simp] theorem Slot.sepc_put (x : Slot) (r : Reg) (v : Word) : (x.put r v).sepc = x.sepc := by
  unfold Slot.put; split <;> simp
@[simp] theorem Slot.scode_setCell (x : Slot) (l : RegLoc) (c : RegCell) : (x.setCell l c).scode = x.scode := by cases l <;> rfl
@[simp] theorem Slot.scode_land (x : Slot) (l : RegLoc) (v : Word) : (x.land l v).scode = x.scode := by
  unfold Slot.land; split <;> simp
@[simp] theorem Slot.scode_owe (x : Slot) (l : RegLoc) : (x.owe l).scode = x.scode := Slot.scode_setCell x l _
@[simp] theorem Slot.scode_setPres (x : Slot) (l : RegLoc) (p : Presence) : (x.setPres l p).scode = x.scode := Slot.scode_setCell x l _
@[simp] theorem Slot.scode_put (x : Slot) (r : Reg) (v : Word) : (x.put r v).scode = x.scode := by
  unfold Slot.put; split <;> simp
@[simp] theorem Slot.sactive_setCell (x : Slot) (l : RegLoc) (c : RegCell) : (x.setCell l c).sactive = x.sactive := by cases l <;> rfl
@[simp] theorem Slot.sactive_land (x : Slot) (l : RegLoc) (v : Word) : (x.land l v).sactive = x.sactive := by
  unfold Slot.land; split <;> simp
@[simp] theorem Slot.sactive_owe (x : Slot) (l : RegLoc) : (x.owe l).sactive = x.sactive := Slot.sactive_setCell x l _
@[simp] theorem Slot.sactive_setPres (x : Slot) (l : RegLoc) (p : Presence) : (x.setPres l p).sactive = x.sactive := Slot.sactive_setCell x l _
@[simp] theorem Slot.sactive_put (x : Slot) (r : Reg) (v : Word) : (x.put r v).sactive = x.sactive := by
  unfold Slot.put; split <;> simp
@[simp] theorem Slot.sval_setCell (x : Slot) (l : RegLoc) (c : RegCell) : (x.setCell l c).sval = x.sval := by cases l <;> rfl
@[simp] theorem Slot.sval_land (x : Slot) (l : RegLoc) (v : Word) : (x.land l v).sval = x.sval := by
  unfold Slot.land; split <;> simp
@[simp] theorem Slot.sval_owe (x : Slot) (l : RegLoc) : (x.owe l).sval = x.sval := Slot.sval_setCell x l _
@[simp] theorem Slot.sval_setPres (x : Slot) (l : RegLoc) (p : Presence) : (x.setPres l p).sval = x.sval := Slot.sval_setCell x l _
@[simp] theorem Slot.sval_put (x : Slot) (r : Reg) (v : Word) : (x.put r v).sval = x.sval := by
  unfold Slot.put; split <;> simp
@[simp] theorem Slot.heldFault_setCell (x : Slot) (l : RegLoc) (c : RegCell) : (x.setCell l c).heldFault = x.heldFault := by cases l <;> rfl
@[simp] theorem Slot.heldFault_land (x : Slot) (l : RegLoc) (v : Word) : (x.land l v).heldFault = x.heldFault := by
  unfold Slot.land; split <;> simp
@[simp] theorem Slot.heldFault_owe (x : Slot) (l : RegLoc) : (x.owe l).heldFault = x.heldFault := Slot.heldFault_setCell x l _
@[simp] theorem Slot.heldFault_setPres (x : Slot) (l : RegLoc) (p : Presence) : (x.setPres l p).heldFault = x.heldFault := Slot.heldFault_setCell x l _
@[simp] theorem Slot.heldFault_put (x : Slot) (r : Reg) (v : Word) : (x.put r v).heldFault = x.heldFault := by
  unfold Slot.put; split <;> simp

@[simp] theorem Slot.firstFetch_setCell (x : Slot) (l : RegLoc) (c : RegCell) : (x.setCell l c).firstFetch = x.firstFetch := by cases l <;> rfl
@[simp] theorem Slot.firstFetch_land (x : Slot) (l : RegLoc) (v : Word) : (x.land l v).firstFetch = x.firstFetch := by
  unfold Slot.land; split <;> simp
@[simp] theorem Slot.firstFetch_owe (x : Slot) (l : RegLoc) : (x.owe l).firstFetch = x.firstFetch := Slot.firstFetch_setCell x l _
@[simp] theorem Slot.firstFetch_setPres (x : Slot) (l : RegLoc) (p : Presence) : (x.setPres l p).firstFetch = x.firstFetch := Slot.firstFetch_setCell x l _
@[simp] theorem Slot.firstFetch_put (x : Slot) (r : Reg) (v : Word) : (x.put r v).firstFetch = x.firstFetch := by
  unfold Slot.put; split <;> simp
@[simp] theorem Slot.leafWait_setCell (x : Slot) (l : RegLoc) (c : RegCell) : (x.setCell l c).leafWait = x.leafWait := by cases l <;> rfl
@[simp] theorem Slot.leafSince_setCell (x : Slot) (l : RegLoc) (c : RegCell) : (x.setCell l c).leafSince = x.leafSince := by cases l <;> rfl
@[simp] theorem Slot.leafWait_land (x : Slot) (l : RegLoc) (v : Word) : (x.land l v).leafWait = x.leafWait := by
  unfold Slot.land; split <;> simp
@[simp] theorem Slot.leafSince_land (x : Slot) (l : RegLoc) (v : Word) : (x.land l v).leafSince = x.leafSince := by
  unfold Slot.land; split <;> simp
@[simp] theorem Slot.leafWait_owe (x : Slot) (l : RegLoc) : (x.owe l).leafWait = x.leafWait := Slot.leafWait_setCell x l _
@[simp] theorem Slot.leafSince_owe (x : Slot) (l : RegLoc) : (x.owe l).leafSince = x.leafSince := Slot.leafSince_setCell x l _
@[simp] theorem Slot.leafWait_setPres (x : Slot) (l : RegLoc) (p : Presence) : (x.setPres l p).leafWait = x.leafWait := Slot.leafWait_setCell x l _
@[simp] theorem Slot.leafSince_setPres (x : Slot) (l : RegLoc) (p : Presence) : (x.setPres l p).leafSince = x.leafSince := Slot.leafSince_setCell x l _
@[simp] theorem Slot.leafWait_put (x : Slot) (r : Reg) (v : Word) : (x.put r v).leafWait = x.leafWait := by
  unfold Slot.put; split <;> simp
@[simp] theorem Slot.leafSince_put (x : Slot) (r : Reg) (v : Word) : (x.put r v).leafSince = x.leafSince := by
  unfold Slot.put; split <;> simp
@[simp] theorem Slot.alloc_setCell (x : Slot) (l : RegLoc) (c : RegCell) : (x.setCell l c).alloc = x.alloc := by cases l <;> rfl
@[simp] theorem Slot.alloc_land (x : Slot) (l : RegLoc) (v : Word) : (x.land l v).alloc = x.alloc := by
  unfold Slot.land; split <;> simp
@[simp] theorem Slot.alloc_owe (x : Slot) (l : RegLoc) : (x.owe l).alloc = x.alloc := Slot.alloc_setCell x l _
@[simp] theorem Slot.alloc_setPres (x : Slot) (l : RegLoc) (p : Presence) : (x.setPres l p).alloc = x.alloc := Slot.alloc_setCell x l _
@[simp] theorem Slot.alloc_put (x : Slot) (r : Reg) (v : Word) : (x.put r v).alloc = x.alloc := by
  unfold Slot.put; split <;> simp
@[simp] theorem Slot.warnings_setCell (x : Slot) (l : RegLoc) (c : RegCell) : (x.setCell l c).warnings = x.warnings := by cases l <;> rfl
@[simp] theorem Slot.warnings_land (x : Slot) (l : RegLoc) (v : Word) : (x.land l v).warnings = x.warnings := by
  unfold Slot.land; split <;> simp
@[simp] theorem Slot.warnings_owe (x : Slot) (l : RegLoc) : (x.owe l).warnings = x.warnings := Slot.warnings_setCell x l _
@[simp] theorem Slot.warnings_setPres (x : Slot) (l : RegLoc) (p : Presence) : (x.setPres l p).warnings = x.warnings := Slot.warnings_setCell x l _
@[simp] theorem Slot.warnings_put (x : Slot) (r : Reg) (v : Word) : (x.put r v).warnings = x.warnings := by
  unfold Slot.put; split <;> simp
@[simp] theorem Slot.held_setCell (x : Slot) (l : RegLoc) (c : RegCell) : (x.setCell l c).held = x.held := by cases l <;> rfl
@[simp] theorem Slot.held_owe (x : Slot) (l : RegLoc) : (x.owe l).held = x.held := Slot.held_setCell x l _
@[simp] theorem Slot.held_setPres (x : Slot) (l : RegLoc) (p : Presence) : (x.setPres l p).held = x.held := Slot.held_setCell x l _
@[simp] theorem Slot.held_put (x : Slot) (r : Reg) (v : Word) : (x.put r v).held = x.held := by
  unfold Slot.put; split <;> simp

/-- A register that was replaced. -/
@[simp] theorem Slot.cell_setCell_same (x : Slot) (l : RegLoc) (c : RegCell) : (x.setCell l c).cell l = c := by
  cases l <;> exact storeGet_storeSet_same _ _ _ _
/-- Another register. -/
theorem Slot.cell_setCell_other (x : Slot) (l k : RegLoc) (c : RegCell) (h : k ≠ l) : (x.setCell l c).cell k = x.cell k := by
  cases l <;> cases k <;> first
    | rfl
    | exact storeGet_storeSet_other _ _ _ _ _ (fun e => h (by rw [e]))
/-- Any register after one was replaced. -/
theorem Slot.cell_setCell (x : Slot) (l k : RegLoc) (c : RegCell) :
    (x.setCell l c).cell k = if k = l then c else x.cell k := by
  by_cases h : k = l
  · subst h
    simp
  · simp [h, Slot.cell_setCell_other x l k c h]
/-- A value lands where the leaf of its register is FULL (R23). -/
theorem Slot.land_full (x : Slot) (l : RegLoc) (v : Word) (hf : x.leafOf l = .full) :
    x.land l v = x.setCell l { val := v, pres := .full, owed := false } := by
  simp [Slot.land, hf]
/-- A value for a leaf that is not FULL is held (R112, R332). -/
theorem Slot.land_held (x : Slot) (l : RegLoc) (v : Word) (hf : x.leafOf l ≠ .full) :
    x.land l v = { x with held := x.held ++ [(l, v)] } := by
  simp [Slot.land, hf]
/-- A register that a value landed in. -/
@[simp] theorem Slot.cell_land_same (x : Slot) (l : RegLoc) (v : Word) (hf : x.leafOf l = .full) :
    (x.land l v).cell l = { val := v, pres := .full, owed := false } := by
  rw [x.land_full l v hf]
  exact Slot.cell_setCell_same x l _
/-- Another register than the one a value landed in. -/
theorem Slot.cell_land_other (x : Slot) (l k : RegLoc) (v : Word) (h : k ≠ l) : (x.land l v).cell k = x.cell k := by
  unfold Slot.land
  split
  · exact Slot.cell_setCell_other x l k _ h
  · cases k <;> rfl
/-- Another register than the one whose presence was set. -/
theorem Slot.cell_setPres_other (x : Slot) (l k : RegLoc) (p : Presence) (h : k ≠ l) : (x.setPres l p).cell k = x.cell k :=
  Slot.cell_setCell_other x l k _ h
/-- A register whose presence was set keeps its value. -/
@[simp] theorem Slot.cell_setPres_same (x : Slot) (l : RegLoc) (p : Presence) :
    (x.setPres l p).cell l = { x.cell l with pres := p } := Slot.cell_setCell_same x l _
/-- A register that is owed a result. -/
@[simp] theorem Slot.cell_owe_same (x : Slot) (l : RegLoc) :
    (x.owe l).cell l = { x.cell l with pres := .empty, owed := true } := Slot.cell_setCell_same x l _
/-- Another register than the one owed. -/
theorem Slot.cell_owe_other (x : Slot) (l k : RegLoc) (h : k ≠ l) : (x.owe l).cell k = x.cell k :=
  Slot.cell_setCell_other x l k _ h
/-- The supply state of a place does not change with a register. -/
@[simp] theorem Slot.leafOf_setCell (x : Slot) (l k : RegLoc) (c : RegCell) : (x.setCell l c).leafOf k = x.leafOf k := by
  cases k <;> simp [Slot.leafOf]
/-- Nor when a value lands. -/
@[simp] theorem Slot.leafOf_land (x : Slot) (l k : RegLoc) (v : Word) : (x.land l v).leafOf k = x.leafOf k := by
  cases k <;> simp [Slot.leafOf]
/-- The place a name reaches depends on ACTIVE alone. -/
theorem Slot.loc_congr (x y : Slot) (r : Reg) (h : x.active = y.active) : x.loc r = y.loc r := by
  simp [Slot.loc, h]

end Sys2Proof.Machine
end

