-- ==== Sys2Proof/Laws/Exceptions.lean ====
section
/-! SUPPORT. What taking an exception and returning from one do, case by case, and the memories that a fetch of the reset
machine sees. -/

namespace Sys2Proof.Machine

/-- A user slot outside a handler, with upcalls on, enters its handler (R44). -/
theorem State.raiseAt_enters (s : State) (n cause : Nat) (epc v : Word) (hu : isUserSlot n = true)
    (ha : (s.slot n).active = false) (hb : (s.slot n).ubase ≠ 0) :
    s.raiseAt n cause epc v = s.onSlot n fun y => y.enter cause epc v (y.ubase + wordOf (64 * cause)) := by
  have h0 : ((s.slot n).ubase == 0) = false := beq_eq_false_iff_ne.mpr hb
  simp only [State.raiseAt, hu, ha, h0, Bool.not_true, Bool.false_eq_true, if_false]

/-- The same at the slot's own pc (R45). -/
theorem State.raise_enters (s : State) (n cause : Nat) (v : Word) (hu : isUserSlot n = true)
    (ha : (s.slot n).active = false) (hb : (s.slot n).ubase ≠ 0) :
    s.raise n cause v = s.onSlot n fun y => y.enter cause (s.slot n).pc v (y.ubase + wordOf (64 * cause)) :=
  s.raiseAt_enters n cause _ v hu ha hb

/-- With upcalls off a page fault blocks the slot, unless it is met at the first fetch of a new thread (R44, R72). -/
theorem State.raiseAt_blocks (s : State) (n : Nat) (epc v : Word) (hu : isUserSlot n = true)
    (ha : (s.slot n).active = false) (hb : (s.slot n).ubase = 0) (hf : (s.slot n).firstFetch = false) :
    s.raiseAt n 0x09 epc v = s.onSlot n fun y => { y with state := .blocked, unchecked := none } := by
  simp [State.raiseAt, hu, ha, hb, hf]

/-- Inside a handler any cause is a double fault (R44). -/
theorem State.raiseAt_double (s : State) (n cause : Nat) (epc v : Word) (hu : isUserSlot n = true)
    (ha : (s.slot n).active = true) : s.raiseAt n cause epc v = s.terminate (s.slot n).job cause v true (s.slot n).code := by
  simp [State.raiseAt, hu, ha]

/-- A supervisor slot takes the fault through sbase (R185). -/
theorem State.raiseAt_supervisor (s : State) (n cause : Nat) (epc v : Word) (hu : isUserSlot n = false)
    (ha : (s.slot n).sactive = false) (hb : (s.slot n).sbase ≠ 0) :
    s.raiseAt n cause epc v = s.onSlot n fun y =>
      { y with sepc := epc, sval := v, scode := BitVec.ofNat 8 cause, sactive := true, pc := y.sbase + wordOf (64 * cause)
               brPc := 0, state := .run, unchecked := none } := by
  have h0 : ((s.slot n).sbase == 0) = false := beq_eq_false_iff_ne.mpr hb
  simp only [State.raiseAt, State.raiseSupervisor, hu, ha, h0, Bool.or_self, Bool.not_false, Bool.false_eq_true, if_true,
    if_false]

/-- A return from a handler whose shadows are owed nothing goes to uepc (R44). -/
theorem State.upcallReturn_returns (s : State) (n : Nat) (w : Word) (ha : (s.slot n).active = true)
    (hs : (s.slot n).shadowOwed = false) :
    s.upcallReturn n w
      = s.onSlot n fun y => { y with active := false, pc := y.uepc, brPc := 0, ist := y.ist + 1, state := .run } := by
  simp [State.upcallReturn, ha, hs]

/-- The memories of the reset machine have their one form. -/
theorem reset_memories_wf : State.reset.hbm.wf = true ∧ State.reset.host.wf = true ∧ State.reset.pool.wf = true := by decide

end Sys2Proof.Machine
end

