-- ==== Sys2Proof/Laws/Home.lean ====
section
/-! SUPPORT. What writing HBM does: the canonical form stays, and a byte written reads back (R288). -/

namespace Sys2Proof.Machine

/-- Writing HBM keeps its canonical form. -/
theorem State.wf_hbmWith (s : State) (bs : List Byte) (pa : Nat) (m : Memory) (h : m.wf = true) :
    (s.hbmWith pa bs m).wf = true := by
  induction bs generalizing pa m with
  | nil => exact h
  | cons b bs ih => exact ih (pa + 1) _ (Memory.wf_setByte m _ b h)

/-- So does writing bytes from a device address on. -/
theorem State.wf_setHbm (s : State) (pa : Nat) (bs : List Byte) (h : s.hbm.wf = true) : (s.setHbm pa bs).hbm.wf = true :=
  s.wf_hbmWith bs pa s.hbm h

/-- And writing the backing store. -/
theorem State.wf_setBacking (s : State) (host : Bool) (pa : Nat) (bs : List Byte)
    (h : s.hbm.wf = true ∧ s.host.wf = true ∧ s.pool.wf = true) :
    (s.setBacking host pa bs).hbm.wf = true ∧ (s.setBacking host pa bs).host.wf = true
      ∧ (s.setBacking host pa bs).pool.wf = true := by
  unfold State.setBacking
  cases host
  · exact ⟨s.wf_setHbm pa bs h.1, h.2.1, h.2.2⟩
  · exact ⟨h.1, Memory.wf_setBytes _ _ _ h.2.1, h.2.2⟩

/-- A byte of HBM at a place that a write does not name is unchanged. -/
theorem State.byte_hbmWith_other (s : State) (bs : List Byte) (pa place : Nat) (m : Memory)
    (h : ∀ k, k < bs.length → s.hbmPlace (pa + k) ≠ place) : (s.hbmWith pa bs m).byte place = m.byte place := by
  induction bs generalizing pa m with
  | nil => rfl
  | cons b bs ih =>
    have h0 : s.hbmPlace pa ≠ place := h 0 (by simp)
    have hr := ih (pa + 1) (m.setByte (s.hbmPlace pa) b) fun k hk => by
      have := h (k + 1) (by simpa using hk)
      rwa [show pa + (k + 1) = pa + 1 + k by omega] at this
    rw [State.hbmWith, hr, Memory.byte_setByte]
    simp [Ne.symm h0]

end Sys2Proof.Machine
end

