-- ==== Sys2Proof/Laws/Operands.lean ====
section
/-! SUPPORT. What the operand forms do: when the register checks let an instruction go on, and what a single-pass form, a
transfer and a long form then do to the machine. -/

namespace Sys2Proof.Machine

/-- A name that is read at once: g0, or an unbound FULL register on a FULL leaf. -/
def Slot.readsAt (x : Slot) (r : Reg) : Prop :=
  r.toNat < x.winSize ∧ (r = 0 ∨ (x.bound r = none ∧ x.leafOf (x.loc r) = .full ∧ (x.cell (x.loc r)).pres = .full))

/-- A name that is written at once: g0, or an unbound register on a FULL leaf that is owed nothing. -/
def Slot.writesAt (x : Slot) (r : Reg) : Prop :=
  r.toNat < x.winSize ∧ (r = 0 ∨ (x.bound r = none ∧ x.leafOf (x.loc r) = .full ∧ (x.cell (x.loc r)).owed = false))

/-- The names of an instruction are plain: each source can be read and each destination written at once. -/
def Named.plain (u : Named) (x : Slot) : Prop :=
  (∀ e ∈ u.reads, x.readsAt e.1) ∧ (∀ r ∈ u.dests, x.writesAt r) ∧ u.also = []

/-- A name that is read at once raises no presence fault. -/
theorem State.fieldFault_none (s : State) (n : Nat) (single : Bool) (r : Reg) (h : (s.slot n).readsAt r) :
    s.fieldFault n single r = none := by
  unfold State.fieldFault
  by_cases h0 : r = 0
  · simp [h0]
  · rcases h.2 with h1 | ⟨h1, h2, h3⟩
    · exact absurd h1 h0
    · simp [h1, h2, h3]

/-- A name that is read at once does not wait. -/
theorem Slot.readWaits_false (x : Slot) (r : Reg) (h : x.readsAt r) : x.readWaits r = false := by
  unfold Slot.readWaits
  rcases h.2 with h1 | ⟨h1, h2, h3⟩
  · simp [h1]
  · simp [h2, h3]

/-- A name that is written at once does not wait. -/
theorem Slot.writeWaits_false (x : Slot) (r : Reg) (h : x.writesAt r) : x.writeWaits r = false := by
  unfold Slot.writeWaits
  rcases h.2 with h1 | ⟨h1, h2, h3⟩
  · simp [h1]
  · simp [h2, h3]

/-- The register checks let an instruction with plain names go on. -/
theorem State.gate_go (s : State) (n : Nat) (single : Bool) (u : Named) (word : Word) (h : u.plain (s.slot n)) :
    s.gate n single u word = .go := by
  obtain ⟨hr, hd, ha⟩ := h
  have h1 : (u.all.any fun r => decide ((s.slot n).winSize ≤ r.toNat)) = false := by
    rw [List.any_eq_false]
    intro r hm
    simp only [Named.all, ha, List.append_nil, List.mem_append, List.mem_map] at hm
    rcases hm with ⟨e, he, rfl⟩ | hm
    · simpa using (hr e he).1
    · simpa using (hd r hm).1
  have h2 : (u.reads.findSome? fun e => s.fieldFault n single e.1) = none := by
    rw [List.findSome?_eq_none_iff]
    exact fun e he => s.fieldFault_none n single e.1 (hr e he)
  have h3 : (u.reads.any fun e => (s.slot n).readWaits e.1) = false := by
    rw [List.any_eq_false]
    exact fun e he => by simp [Slot.readWaits_false _ _ (hr e he)]
  have h4 : u.dests.any (s.slot n).writeWaits = false := by
    rw [List.any_eq_false]
    exact fun r he => by simp [Slot.writeWaits_false _ _ (hd r he)]
  unfold State.gate
  simp only [h1, h2, h3, h4, Bool.or_self, Bool.false_eq_true, if_false]

/-- No port is taken from where every source is plain. -/
theorem takeAll_plain (n : Nat) (s0 : State) (reads : List (Reg × Bool)) (got : List (Reg × Word)) (s : State)
    (h : ∀ e ∈ reads, (s.slot n).readsAt e.1) : takeAll n s0 reads got s = (.took 0 s, got) := by
  induction reads with
  | nil => rfl
  | cons e rest ih =>
    obtain ⟨r, la⟩ := e
    have hr := h (r, la) (by simp)
    have ih' := ih fun e he => h e (by simp [he])
    simp only [takeAll]
    rcases hr.2 with h0 | ⟨h1, -, -⟩
    · cases hb : (s.slot n).bound r with
      | none => exact ih'
      | some b =>
        simp only at h0
        simp only [h0]
        exact ih'
    · simp only at h1
      simp only [h1]
      exact ih'

/-- The operands of a form with plain names are its registers' values. -/
theorem State.operands_plain (s : State) (n : Nat) (u : Named) (word : Word) (h : u.plain (s.slot n)) :
    s.operands n u word = .go (u.reads.map fun e => (s.slot n).val e.1) s := by
  unfold State.operands
  rw [s.gate_go n true u word h]
  simp [takeAll_plain n s u.reads [] s h.1, Slot.fieldVal, State.logTaken]

/-- No port is given to where every result goes to an unbound register. -/
theorem giveAll_plain (n : Nat) (results : List (Reg × Word)) (s : State) (h : ∀ e ∈ results, (s.slot n).writesAt e.1) :
    giveAll n results s = .gave s := by
  induction results with
  | nil => rfl
  | cons e rest ih =>
    obtain ⟨r, v⟩ := e
    have hr := h (r, v) (by simp)
    have ih' := ih fun e he => h e (by simp [he])
    simp only [giveAll]
    rcases hr.2 with h0 | ⟨h1, -, -⟩
    · cases hb : (s.slot n).bound r with
      | none => exact ih'
      | some b =>
        simp only at h0
        simp only [h0, if_true]
        exact ih'
    · simp only at h1
      simp only [h1]
      exact ih'

/-- A single-pass form with plain names retires: last use, its result in d, its flags in fsr, the next pc. -/
theorem State.compute_plain (s : State) (i : Instr) (u : Named) (d : Reg) (f : Slot → List Word → Word × FlagSet)
    (h : u.plain (s.slot s.focus)) (hd : (s.slot s.focus).writesAt d) :
    s.compute i u d f =
      let x := s.slot s.focus
      let r := f x (u.reads.map fun e => x.val e.1)
      s.onSlot s.focus fun x =>
        let y := x.retire { dead := x.lastUses u.reads, owe := [], puts := [], pc := x.pc + 4, stores := 0, count := 1 }
        let z := if (y.bound d).isSome then y else y.put d r.1
        { z with fsr := z.fsr ||| r.2 } := by
  unfold State.compute
  simp only [s.operands_plain s.focus u i.word h, State.deliver]
  rw [giveAll_plain]
  · rfl
  · intro e he
    simp only [List.mem_singleton] at he
    subst he
    exact hd

/-- A transfer with plain names retires: its link in d, if it has one, and the new pc. -/
theorem State.branch_plain (s : State) (i : Instr) (u : Named) (f : Slot → List Word → List (Reg × Word) × Word)
    (h : u.plain (s.slot s.focus))
    (hd : ∀ e ∈ (f (s.slot s.focus) (u.reads.map fun e => (s.slot s.focus).val e.1)).1, (s.slot s.focus).writesAt e.1) :
    s.branch i u f =
      let x := s.slot s.focus
      let r := f x (u.reads.map fun e => x.val e.1)
      s.onSlot s.focus fun x =>
        let y := x.retire { dead := x.lastUses u.reads, owe := [], puts := [], pc := r.2, stores := 0, count := 1 }
        let z := r.1.foldl (fun z e => if (z.bound e.1).isSome then z else z.put e.1 e.2) y
        { z with fsr := z.fsr ||| noFlags } := by
  unfold State.branch
  simp only [s.operands_plain s.focus u i.word h, State.deliver]
  rw [giveAll_plain _ _ _ hd]

/-- A long form with plain, unbound names goes on to what it does with its operands. -/
theorem State.longForm_plain (s : State) (i : Instr) (u : Named) (addresses : List Reg)
    (f : Slot → List Word → Bool → State) (h : u.plain (s.slot s.focus))
    (hb : (s.slot s.focus).anyBound addresses = false) :
    s.longForm i u addresses f =
      f (s.slot s.focus) (u.reads.map fun e => (s.slot s.focus).val e.1) ((s.slot s.focus).anyBound u.all) := by
  unfold State.longForm
  simp only [s.gate_go s.focus false u i.word h, hb, Bool.false_eq_true, if_false]

/-! ## Retiring -/

/-- Any register after some places became DEAD. -/
theorem Slot.cell_deadAll (ls : List RegLoc) (x : Slot) (l : RegLoc) :
    (ls.foldl (fun z k => z.setPres k .dead) x).cell l
      = if l ∈ ls then { x.cell l with pres := .dead } else x.cell l := by
  induction ls generalizing x with
  | nil => rfl
  | cons k ks ih =>
    rw [List.foldl_cons, ih]
    by_cases h1 : l = k
    · subst h1
      by_cases h2 : l ∈ ks <;> simp [h2]
    · rw [Slot.cell_setPres_other _ _ _ _ h1]
      by_cases h2 : l ∈ ks <;> simp [h1, h2]

/-- Any register after some places became owed. -/
theorem Slot.cell_oweAll (ls : List RegLoc) (x : Slot) (l : RegLoc) :
    (ls.foldl Slot.owe x).cell l
      = if l ∈ ls then { x.cell l with pres := .empty, owed := true } else x.cell l := by
  induction ls generalizing x with
  | nil => rfl
  | cons k ks ih =>
    rw [List.foldl_cons, ih]
    by_cases h1 : l = k
    · subst h1
      by_cases h2 : l ∈ ks <;> simp [h2]
    · rw [Slot.cell_owe_other _ _ _ h1]
      by_cases h2 : l ∈ ks <;> simp [h1, h2]

/-- Two slots that differ in registers and held results alone. -/
def Slot.sameButRegs (x y : Slot) : Prop := y = { x with regs := y.regs, shadow := y.shadow, href := y.href, held := y.held }

/-- A register write changes registers alone. -/
theorem Slot.sameButRegs_setCell (x : Slot) (l : RegLoc) (c : RegCell) : x.sameButRegs (x.setCell l c) := by
  cases l <;> rfl

/-- A value that lands changes registers and held results alone. -/
theorem Slot.sameButRegs_land (x : Slot) (l : RegLoc) (v : Word) : x.sameButRegs (x.land l v) := by
  unfold Slot.land
  split
  · exact Slot.sameButRegs_setCell x l _
  · rfl

/-- Register writes in turn change registers alone. -/
theorem Slot.sameButRegs_trans (x y z : Slot) (h1 : x.sameButRegs y) (h2 : y.sameButRegs z) : x.sameButRegs z := by
  unfold Slot.sameButRegs at *
  rw [h2, h1]

/-- A fold of register writes changes registers alone. -/
theorem Slot.sameButRegs_fold {α : Type} (f : Slot → α → Slot)
    (hf : ∀ (x : Slot) (a : α), x.sameButRegs (f x a)) (ls : List α) (x : Slot) :
    x.sameButRegs (ls.foldl f x) := by
  induction ls generalizing x with
  | nil => rfl
  | cons a as ih => exact Slot.sameButRegs_trans x _ _ (hf x a) (ih (f x a))

/-- The registers of a slot after it retires an instruction that lands nothing in its pass. -/
theorem Slot.cell_retire (x : Slot) (r : Retire) (l : RegLoc) (h : r.puts = []) :
    (x.retire r).cell l =
      if l ∈ r.owe then { x.cell l with pres := .empty, owed := true }
      else if l ∈ r.dead then { x.cell l with pres := .dead } else x.cell l := by
  have hc : (x.retire r).cell l = (r.owe.foldl Slot.owe (r.dead.foldl (fun z k => z.setPres k .dead) x)).cell l := by
    cases l <;> simp [Slot.retire, h, Slot.cell]
  rw [hc, Slot.cell_oweAll, Slot.cell_deadAll]
  by_cases h1 : l ∈ r.owe <;> by_cases h2 : l ∈ r.dead <;> simp [h1, h2]

/-- What else of a slot retiring changes. -/
theorem Slot.retire_fields (x : Slot) (r : Retire) :
    x.retire r = { x with
      regs := (x.retire r).regs, shadow := (x.retire r).shadow, href := (x.retire r).href, held := (x.retire r).held, pc := r.pc, brPc := x.pc,
      ist := x.ist + wordOf r.count, opc := x.opc + r.stores, odc := x.odc + r.stores, unchecked := none, leafWait := none, waiting := none,
      alloc := none, state := .run } := by
  have h : x.sameButRegs (r.puts.foldl (fun (z : Slot) e => z.land e.1 e.2)
      (r.owe.foldl Slot.owe (r.dead.foldl (fun z l => z.setPres l .dead) x))) :=
    Slot.sameButRegs_trans x _ _
      (Slot.sameButRegs_trans x _ _
        (Slot.sameButRegs_fold _ (fun y l => Slot.sameButRegs_setCell y l _) r.dead x)
        (Slot.sameButRegs_fold _ (fun y l => Slot.sameButRegs_setCell y l _) r.owe _))
      (Slot.sameButRegs_fold _ (fun y (e : RegLoc × Word) => Slot.sameButRegs_land y e.1 e.2) r.puts _)
  unfold Slot.sameButRegs at h
  unfold Slot.retire
  rw [h]

/-- The reference registers of a slot that retires an instruction of general registers. -/
theorem Slot.loc_not_href (x : Slot) (r : Reg) (i : Nat) : x.loc r ≠ .href i := by
  unfold Slot.loc
  split <;> simp

end Sys2Proof.Machine
end

