-- ==== Sys2Proof/Tests/Slice0.lean ====
section
/-! SUPPORT. Tests: words written out from the encoding tables of the spec decode to their instructions, ill-formed words and
terms are refused, a few results stand as the spec's worked examples give them, and for each statement with premises one
theorem shows concrete states and operands that meet all of them. -/

namespace Sys2Proof.Tests

open Sys2Proof Sys2Proof.Machine Sys2Proof.Claims

/-! ## States of the tests -/

/-- Registers that are FULL. -/
def regsOf (l : List (Nat × Word)) : Store RegCell := l.map fun e => (e.1, { val := e.2, pres := .full, owed := false })

/-- A thread of job 1 that runs at 0x1000 in a window of 128 registers. -/
def thread (l : List (Nat × Word)) : Slot :=
  { Slot.free with state := .run, job := 1, pc := 0x1000, winSize := 128, ubase := 0x8000, umask := 0x1FF, regs := regsOf l }

/-- A machine in full service in which slot 0 of tile 0 runs job 1. -/
def machine (x : Slot) : State :=
  { State.reset with
    stage := .full, jobs := [(1, some newJob)], tiles := [(0, { tileAt 0 with owner := some 1 })], slots := [(0, x)],
          focus := 0 }

/-! ## Words and their instructions (R74-R110) -/

/-- Every word of a list decodes to its instruction. -/
def reads (l : List (Nat × Instr)) : Bool := l.all fun e => decodeTableWord 32 e.1 == some e.2

/-- R113-R118: each instruction's word, its fields set in the pattern of R74-R77 and R101-R109, with distinct operands. -/
theorem test_decode_integer : reads [
    (0x01C30501, .add 10 12 14 false false), (0x91C30501, .sub 10 12 14 true false), (0x61C30501, .and 10 12 14 false true),
    (0xB1C30501, .or 10 12 14 true false), (0x01C30502, .xor 10 12 14 false false), (0xD1C30502, .andn 10 12 14 true true),
    (0x21C30502, .orn 10 12 14 false false), (0xB1C30502, .xnor 10 12 14 true false), (0x41C30503, .shl 10 12 14 false true),
    (0x91C30503, .shr 10 12 14 true false), (0x21C30503, .sra 10 12 14 false false), (0xF1C30503, .rol 10 12 14 true true),
    (0x01C30504, .mul 10 12 14 false false), (0x91C30504, .mulh 10 12 14 true false),
    (0x61C30504, .mulhz 10 12 14 false true), (0xB1C30504, .mulhsz 10 12 14 true false),
    (0x01C30505, .div 10 12 14 false false), (0xD1C30505, .divz 10 12 14 true true), (0x21C30505, .rem 10 12 14 false false),
    (0xB1C30505, .remz 10 12 14 true false), (0x41C30506, .min 10 12 14 false true), (0x91C30506, .max 10 12 14 true false),
    (0x21C30506, .minz 10 12 14 false false), (0xF1C30506, .maxz 10 12 14 true true),
    (0x01C30507, .slt 10 12 14 false false), (0x91C30507, .sltz 10 12 14 true false), (0x61C30507, .seq 10 12 14 false true),
    (0xB1C30507, .sne 10 12 14 true false), (0x00030508, .clz 10 12 false), (0x90030508, .ctz 10 12 true),
    (0x20030508, .popc 10 12 false), (0xB0030508, .brev 10 12 true), (0x41C30509, .bfx 10 12 14 false true),
    (0x91C30509, .bfxz 10 12 14 true false), (0x21C30509, .bfi 10 12 14 false false),
    (0xB0030509, .cnz 10 12 true)] = true := by decide

/-- R127, R184, R186: each instruction's word, its fields set in the pattern of R74-R77 and R101-R109, with distinct operands. -/
theorem test_decode_special_registers : reads [
    (0x20A0050A, .csrr 10 0x105), (0x20A3050B, .csrw 10 12 0x105), (0x20A3050C, .csrs 10 12 0x105),
    (0x20A3050D, .csrc 10 12 0x105), (0x0003050E, .sleep 10 12 false), (0x1000000E, .sret),
    (0x2003050E, .dflush 10 12 false), (0xB003050E, .ckpt 10 12 true)] = true := by decide

/-- R119-R121: each instruction's word, its fields set in the pattern of R74-R77 and R101-R109, with distinct operands. -/
theorem test_decode_immediates : reads [
    (0xA6630510, .addi 10 12 0x533), (0xA6630511, .andi 10 12 0x533), (0xA6630512, .ori 10 12 0x533),
    (0xA6630513, .xori 10 12 0x533), (0x05630514, .shli 10 12 0x2b), (0x0D630514, .shri 10 12 0x2b),
    (0x15630514, .srai 10 12 0x2b), (0x1D630514, .roli 10 12 0x2b), (0xA6630515, .slti 10 12 0x533),
    (0xA6630516, .sltzi 10 12 0x533), (0xA6630517, .muli 10 12 0x533), (0xA6714518, .lil 10 0x299c5),
    (0xA6714519, .lis 10 0x299c5), (0xA671451A, .apc 10 0x299c5)] = true := by decide

/-- R122-R124: each instruction's word, its fields set in the pattern of R74-R77 and R101-R109, with distinct operands. -/
theorem test_decode_branches : reads [
    (0xA1C319A0, .beq 12 14 0x533), (0xA1C319A1, .bne 12 14 0x533), (0xA1C319A2, .blt 12 14 0x533),
    (0xA1C319A3, .bge 12 14 0x533), (0xA1C319A4, .bltz 12 14 0x533), (0xA1C319A5, .bgez 12 14 0x533),
    (0xA6714526, .jal 10 0x299c5), (0xA6630527, .jalr 10 12 0x533), (0xA00319A8, .dbnz 12 0x533)] = true := by decide

/-- R140-R146: each instruction's word, its fields set in the pattern of R74-R77 and R101-R109, with distinct operands. -/
theorem test_decode_memory : reads [
    (0xA6630530, .ldS8 10 12 0x533), (0xA6630531, .ldZ8 10 12 0x533), (0xA6630532, .ldS16 10 12 0x533),
    (0xA6630533, .ldZ16 10 12 0x533), (0xA6630534, .ldS32 10 12 0x533), (0xA6630535, .ldZ32 10 12 0x533),
    (0xA6630536, .ld64 10 12 0x533), (0x00030537, .ldAcq 10 12 false), (0x90030537, .ldAcqD 10 12 true),
    (0xA1C319B8, .st8 12 14 0x533), (0xA1C319B9, .st16 12 14 0x533), (0xA1C319BA, .st32 12 14 0x533),
    (0xA1C319BB, .st64 12 14 0x533), (0x41C3003C, .stRel 12 14 false true), (0x91C3003C, .stRelD 12 14 true false),
    (0x0000003D, .fenceAcq), (0x1000003D, .fenceRel), (0x2000003D, .fenceFull), (0x3000003D, .fenceD),
    (0x0003053E, .ldPair 10 12 false), (0x91C3003E, .stPair 12 14 true false)] = true := by decide

/-- R148-R153: each instruction's word, its fields set in the pattern of R74-R77 and R101-R109, with distinct operands. -/
theorem test_decode_atomics_and_blocks : reads [
    (0x11C30540, .amoAdd 10 12 14 .acq false false), (0xE1C30541, .amoAnd 10 12 14 .rel true true),
    (0x31C30542, .amoOr 10 12 14 .ar false false), (0x81C30543, .amoXor 10 12 14 .relaxed true false),
    (0x51C30544, .amoMin 10 12 14 .acq false true), (0xA1C30545, .amoMax 10 12 14 .rel true false),
    (0x31C30546, .amoMinz 10 12 14 .ar false false), (0xC1C30547, .amoMaxz 10 12 14 .relaxed true true),
    (0x11C30548, .amoSwap 10 12 14 .acq false false), (0xA1C30549, .cas 10 12 14 .rel true false),
    (0x71C3054A, .cas2 10 12 14 .ar false true), (0x81C3054B, .amoFadd 10 12 14 .relaxed true false),
    (0x01C3054C, .mvblk 10 12 14), (0x11C0054C, .repZero 10 14), (0x21C3054C, .repFill 10 12 14),
    (0x31C3054C, .repCmp 10 12 14)] = true := by decide

/-- R157-R179: each instruction's word, its fields set in the pattern of R74-R77 and R101-R109, with distinct operands. -/
theorem test_decode_presence_ports_messages : reads [
    (0x41C30050, .wait 12 14 false true), (0x10000550, .mkempty 10), (0x20000550, .mkemptyTrap 10), (0x30000550, .mkfull 10),
    (0x01C30551, .drop 10 12 14), (0x10000551, .wake 10 0 false), (0x20030051, .lfoff 12 false),
    (0xB0030051, .lfret 12 true), (0x06600552, .bind 10 .wr 19), (0x00000553, .unbind 10),
    (0x01C30054, .barInit 12 14 false false), (0x91C30554, .barArr 10 12 14 true false),
    (0x61C30554, .barWait 10 12 14 false true), (0xB0030554, .barTst 10 12 true), (0x01C00555, .ipop 10 14 false),
    (0x51C00555, .ipeek 10 14 true), (0x21C30055, .send 12 14 false false),
    (0xB1C30555, .sendw 10 12 14 true false)] = true := by decide

/-- R188-R193: each instruction's word, its fields set in the pattern of R74-R77 and R101-R109, with distinct operands. -/
theorem test_decode_floats : reads [
    (0x41C30558, .fadd 10 12 14 .s false true), (0x91C30559, .fsub 10 12 14 .h true false),
    (0x21C3055A, .fmul 10 12 14 .b false false), (0xC1C3055B, .fmin 10 12 14 .s true true),
    (0x11C3055C, .fmax 10 12 14 .h false false), (0xA1C3055D, .fma 10 12 14 .b true false),
    (0x41C3055E, .flt 10 12 14 .s false true), (0x91C3055F, .fle 10 12 14 .h true false),
    (0x21C30560, .feq 10 12 14 .b false false), (0x80030561, .fcvtSH 10 12 true), (0x10030561, .fcvtHS 10 12 false),
    (0xA0030561, .fcvtSB 10 12 true), (0x30030561, .fcvtBS 10 12 false), (0x80030562, .fcvtSI 10 12 true),
    (0x10030562, .fcvtIS 10 12 false), (0xA0030562, .fclass 10 12 true), (0x30030562, .fsqrtS 10 12 false),
    (0x80030563, .fneg 10 12 true), (0x10030563, .fabs 10 12 false), (0xA1C30563, .fsgn 10 12 14 true false),
    (0x30030563, .fsqrtH 10 12 false)] = true := by decide

/-- R203-R212: each instruction's word, its fields set in the pattern of R74-R77 and R101-R109, with distinct operands. -/
theorem test_decode_vectors : reads [
    (0xC1C30568, .vadd 10 12 14 true true), (0x11C30568, .vsub 10 12 14 false false),
    (0xA1C30568, .vmul 10 12 14 true false), (0x71C30568, .vfma 10 12 14 false true),
    (0x81C30569, .vmin 10 12 14 true false), (0x11C30569, .vmax 10 12 14 false false), (0xA0030569, .vabs 10 12 true),
    (0x30030569, .vneg 10 12 false), (0x81C3056A, .vlt 10 12 14 true false), (0x51C3056A, .vle 10 12 14 false true),
    (0xA1C3056A, .veq 10 12 14 true false), (0x31C3056A, .vsel 10 12 14 false false), (0x8003056B, .vexp2 10 12 true),
    (0x1003056B, .vlog2 10 12 false), (0xA003056B, .vrcp 10 12 true), (0x3003056B, .vrsqrt 10 12 false),
    (0x8003056C, .vsum 10 12 true), (0x1003056C, .vmaxr 10 12 false), (0xA003056C, .vminr 10 12 true),
    (0x31C3056C, .vdot 10 12 14 false false), (0x8003056D, .vcvt 10 12 true), (0x1003056D, .vq 10 12 false),
    (0xA003056D, .vdq 10 12 true), (0x31C3056D, .vscale 10 12 14 false false), (0x8003056E, .vcopy 10 12 true),
    (0x1003056E, .vtr 10 12 false), (0xA003056E, .vfill 10 12 true), (0x3003056E, .viota 10 12 false),
    (0x81C3056F, .vand 10 12 14 true false), (0x11C3056F, .vor 10 12 14 false false), (0xE1C3056F, .vxor 10 12 14 true true),
    (0x31C3056F, .vshl 10 12 14 false false)] = true := by decide

/-- R215-R243: each instruction's word, its fields set in the pattern of R74-R77 and R101-R109, with distinct operands. -/
theorem test_decode_array_and_copies : reads [
    (0x80030570, .lease 10 12 true), (0x10000070, .lrel), (0x20000570, .lstat 10), (0x01C30571, .mm 10 12 14 false false),
    (0xD1C30571, .mmZ 10 12 14 true true), (0x21C30571, .mmW 10 12 14 false false), (0xB1C30571, .mmWz 10 12 14 true false),
    (0x00030572, .accRd 10 12 false), (0x90030572, .accRdq 10 12 true), (0x20030572, .accLd 10 12 false),
    (0x30000572, .accClr 10), (0x01C30573, .accSv 10 12 14 false false), (0x91C30573, .accRs 10 12 14 true false),
    (0x61C30573, .accSt 10 12 14 false true), (0x80030574, .cp 10 12 true), (0x10030574, .cpNet 10 12 false),
    (0xA0030574, .cpStat 10 12 true), (0x30030574, .cpCancel 10 12 false)] = true := by decide

/-- R247-R264: each instruction's word, its fields set in the pattern of R74-R77 and R101-R109, with distinct operands. -/
theorem test_decode_tasks : reads [
    (0x80030076, .enq 12 true), (0x51C30076, .depInit 12 14 false true), (0xA0030576, .depDec 10 12 true),
    (0x31C30076, .depAdd 12 14 false false), (0xC1C30577, .spawn 10 12 14 true true),
    (0x11C30577, .take 10 12 14 false false), (0xA1C30577, .steal 10 12 14 true false), (0x30030577, .join 10 12 false),
    (0x00000078, .yield), (0x10000078, .exit), (0xA0030078, .migrate 12 true), (0x31C30578, .spawnm 10 12 14 false false),
    (0x81C30079, .splice 12 14 true false), (0x10030579, .stage 10 12 false), (0xA0030079, .sinh 12 true)] = true :=
          by decide

/-- R270-R277: each instruction's word, its fields set in the pattern of R74-R77 and R101-R109, with distinct operands. -/
theorem test_decode_heap : reads [
    (0x01C0C2FA, .ldref 5 3 14 false), (0x90C302FA, .stref 5 12 6 true), (0x200302FA, .mvref 5 12 false),
    (0x30C0C57A, .refeq 10 3 6), (0xA660C57B, .ldh 10 3 0x533), (0xA1C0D9FC, .sth 3 14 0x533),
    (0x01C302FD, .newobj 5 12 14 false false), (0x1000C57D, .pin 10 3), (0x2000C07D, .unpin 3),
    (0xB1C3057D, .hcmp 10 12 14 true false), (0x0000057E, .terr 10), (0x9003057E, .press 10 12 true),
    (0x2000057E, .pwr 10)] = true := by decide

/-- R44, R181-R186: each instruction's word, its fields set in the pattern of R74-R77 and R101-R109, with distinct operands. -/
theorem test_decode_system : reads [
    (0x000015FF, .trap 0x2b), (0x1000007F, .uret), (0x200015FF, .brk 0x2b), (0x3000007F, .halt)] = true := by decide

/-! ## Refused words and terms, and worked examples -/

/-- An R-format word of its fields (R74). -/
def wordR (op fn b a d : Nat) (la lb : Bool := false) : Code :=
  BitVec.ofNat 32 (op + d * 2 ^ 7 + a * 2 ^ 14 + b * 2 ^ 21 + fn * 2 ^ 28 + la.toNat * 2 ^ 31 + lb.toNat * 2 ^ 30)

/-- Every word of a list is refused for the reason given with it. -/
def refusesAll (l : List (Code × NotInstr)) : Bool := l.all fun e =>
  match decodeWord e.1 with
  | .error why => why == e.2
  | .ok _ => false

/-- R107 items 1 and 2: opcode 0x00 and every opcode that R102 leaves unassigned. -/
theorem test_refused_opcodes :
    refusesAll ([0x00, 0x0F, 0x1B, 0x1C, 0x1D, 0x1E, 0x1F, 0x29, 0x2A, 0x2B, 0x2C, 0x2D, 0x2E, 0x2F, 0x3F, 0x4D, 0x4E,
      0x4F, 0x56, 0x57, 0x64, 0x65, 0x66, 0x67, 0x75].map fun op => (wordR op 0 0 0 0, .opcode)) = true := by decide

/-- R107 item 3: an fn value that R103 leaves unassigned. -/
theorem test_refused_functions : refusesAll [
    (wordR 0x37 2 0 2 4, .function), (wordR 0x37 3 0 2 4, .function), (wordR 0x3C 2 3 2 0, .function),
    (wordR 0x3E 2 0 2 4, .function)] = true := by decide

/-- R107 items 4, 5 and 7: a field the form does not use, a bit that must be zero, a last-use bit that R79 forbids. -/
theorem test_refused_fields : refusesAll [
    (wordR 0x08 0 5 2 4, .unusedField), (wordR 0x0E 1 0 0 1, .unusedField), (wordR 0x08 0 0 2 4 false true, .unusedField),
    (wordR 0x3C 0 3 2 5, .unusedField), (wordR 0x50 1 0 2 4, .unusedField),
    (wordR 0x7A 0 3 1 2 true false, .unusedField), (wordR 0x7A 0 3 9 2, .unusedField), (0xFFFFFFFF, .unusedField)] =
          true := by decide

/-- R107 items 6 and 8: DIR 3 and port 23 of `bind`, odd pairs, block and vector forms that name g0 or one register twice. -/
theorem test_refused_limits : refusesAll [
    (wordR 0x52 0 23 0 4, .limits), (wordR 0x3E 0 0 2 5, .limits), (wordR 0x4A 0 4 2 7, .limits), (wordR 0x4C 0 3 2 3,
          .limits),
    (wordR 0x68 0 3 0 4, .limits), (wordR 0x71 0 3 2 0, .limits)] = true := by decide

/-- The limits refuse an ill-formed term of every constructor that has one (R107 items 6 and 8, R156). -/
theorem test_ill_formed_terms :
    ([.ldPair 5 2 false, .stPair 2 0 false false, .cas2 4 2 7 .relaxed false false, .ipop 0 2 false, .ipeek 3 2 false,
      .depInit 2 9 false false, .mvblk 4 2 4, .mvblk 4 0 3, .repCmp 4 0 3, .repZero 0 3, .repFill 4 3 3, .repCmp 3 3 4,
            .wake 4 2 false, .bind 0 .rd 3,
      .bind 4 .rw 23, .vadd 0 1 2 false false, .vsub 3 0 2 false false, .vmul 3 1 0 false false, .vfma 0 1 2 false false,
      .vmin 3 0 2 false false, .vmax 3 1 0 false false, .vabs 0 1 false, .vneg 3 0 false, .vlt 0 1 2 false false,
      .vle 3 0 2 false false, .veq 3 1 0 false false, .vsel 0 1 2 false false, .vexp2 3 0 false, .vlog2 0 1 false,
      .vrcp 3 0 false, .vrsqrt 0 1 false, .vsum 3 0 false, .vmaxr 0 1 false, .vminr 3 0 false, .vdot 3 1 0 false false,
      .vcvt 0 1 false, .vq 3 0 false, .vdq 0 1 false, .vscale 3 1 0 false false, .vcopy 0 1 false, .vtr 3 0 false,
      .vfill 0 1 false, .viota 0 1 false, .vand 3 0 2 false false, .vor 3 1 0 false false, .vxor 0 1 2 false false,
      .vshl 3 0 2 false false, .mm 0 1 2 false false, .mmZ 0 1 2 false false, .mmW 0 1 2 false false,
      .mmWz 0 1 2 false false, .accRd 0 1 false, .accRdq 0 1 false, .accLd 0 1 false, .accClr 0, .accSv 0 1 2 false false,
      .accRs 0 1 2 false false, .accSt 0 1 2 false false] : List Instr).all (fun i => !i.wellFormed) = true := by decide

/-- Terms at the edge of the limits are well formed. -/
theorem test_well_formed_terms :
    ([.ldPair 126 2 false, .cas2 2 3 4 .ar true true, .repFill 4 0 3, .wake 0 2 true, .wake 4 0 false, .bind 1 .rw 31,
      .vfill 3 0 false, .mm 3 0 0 false false] : List Instr).all (·.wellFormed) = true := by decide
/-- What an instruction on g1 and g2 leaves in g3. -/
def result (i : Instr) (a b d : Word) : Option Word :=
  match exec i (machine (thread [(1, a), (2, b), (3, d)])) with
  | .next t => some (t.slot 0 |>.cell (.win 3)).val
  | _ => none

/-- R115: the table of products with a = b = 0xFFFF_FFFF_FFFF_FFFF. -/
theorem test_products :
    result (.mul 3 1 2 false false) (-1) (-1) 0 = some 1
      ∧ result (.mulh 3 1 2 false false) (-1) (-1) 0 = some 0
      ∧ result (.mulhz 3 1 2 false false) (-1) (-1) 0 = some 0xFFFF_FFFF_FFFF_FFFE
      ∧ result (.mulhsz 3 1 2 false false) (-1) (-1) 0 = some 0xFFFF_FFFF_FFFF_FFFF := by decide

/-- R118: the two worked examples of the bit fields. -/
theorem test_bit_fields :
    result (.bfxz 3 1 2 false false) 0xABCDE123 0x0B14 0 = some 0xABC
      ∧ result (.bfx 3 1 2 false false) 0xABCDE123 0x0B14 0 = some 0xFFFF_FFFF_FFFF_FABC
      ∧ result (.bfi 3 1 2 false false) 5 0x0304 0xFFFF_FFFF_FFFF_FFFF = some 0xFFFF_FFFF_FFFF_FF5F := by decide

/-- R114: a count of 64 or more acts modulo 64, and `sra` brings copies of bit 63 in. -/
theorem test_shifts :
    result (.shl 3 1 2 false false) 3 65 0 = some 6
      ∧ result (.sra 3 1 2 false false) 0x8000_0000_0000_0000 4 0 = some 0xF800_0000_0000_0000
      ∧ result (.rol 3 1 2 false false) 0x8000_0000_0000_0001 64 0 = some 0x8000_0000_0000_0001 := by decide

/-- R113: signed and unsigned compares differ at bit 63, and a sum wraps. -/
theorem test_compares :
    result (.add 3 1 2 false false) (-1) 2 0 = some 1
      ∧ result (.slt 3 1 2 false false) (-1) 1 0 = some 1 ∧ result (.sltz 3 1 2 false false) (-1) 1 0 = some 0
      ∧ result (.min 3 1 2 false false) (-1) 1 0 = some (-1) ∧ result (.minz 3 1 2 false false) (-1) 1 0 = some 1 := by
  decide

set_option maxRecDepth 4000 in
/-- R117: the counts of zero and of 0x0F00. -/
theorem test_counts :
    result (.clz 3 1 false) 0 0 0 = some 64 ∧ result (.ctz 3 1 false) 0x0F00 0 0 = some 8
      ∧ result (.popc 3 1 false) 0x0F00 0 0 = some 4 ∧ result (.brev 3 1 false) 1 0 0 = some 0x8000_0000_0000_0000
      ∧ result (.cnz 3 1 false) 0x0F00_0001 0 0 = some 2 := by decide

/-- R119: `sltzi d, a, -1` gives 1 for every a but 0xFFFF_FFFF_FFFF_FFFF. -/
theorem test_sltzi :
    result (.sltzi 3 1 0x7FF) 5 0 0 = some 1 ∧ result (.sltzi 3 1 0x7FF) (-1) 0 0 = some 0 := by decide

/-- R116: g5 = -7 and g6 = 2: `div` leaves its register EMPTY, and the result that lands is -3. -/
theorem test_div_leaves_empty :
    (match exec (.div 3 1 2 false false) (machine (thread [(1, -7), (2, 2)])) with
      | .next t => (t.slot 0 |>.cell (.win 3)).pres == .empty
      | _ => false) = true := by decide

/-- R206: the worked example of a row sum in FP32: 2^24 and thirty-three ones give 0x4B80_0010 with NX. -/
theorem test_row_sum :
    reduceRow 0 ((0x4B80_0000 :: List.replicate 33 0x3F80_0000).map fun x => (x, none)) = { bits := 0x4B80_0010, flags :=
          flagNX } := by
  decide

/-- R288: the worked example of an interleave set: channels 128-135 from base 0. -/
theorem test_interleave_set :
    let t : InterleaveSet := { base := 0, size := 2 ^ 34, channels := [128, 129, 130, 131, 132, 133, 134, 135] }
    t.channel 0x5001_2345 = 130 ∧ t.offset 0x5001_2345 = 0x0A00_2345 := by decide

/-- The memory keeps one form: writing what an unlisted byte reads as removes the entry. -/
theorem test_memory_form :
    (((State.reset.hbm.setWord 0x1000 0x1122).setByte 0x1001 0).setByte 0x1000 0) = []
      ∧ (State.reset.hbm.setWord 0x1000 0x1122_3344_5566_7788).byte 0x1001 = 0x77 := by decide

/-! ## The premises of the statements can be met -/

namespace Part1

def s1 := machine (thread [(1, 5), (2, 7)])
def s2 := machine (thread [(1, 0), (2, 7), (3, 0xAAAA)])
def f1 := machine (thread [(1, 0x3F800000), (2, 0x7F7FFFFF), (3, 0x00000001)])

theorem witness_IntegerResults :
    (usable s1 [1, 2] [3] = true) ∧
    (usable (machine (thread [(127, 7)])) [0, 127] [0] = true) ∧
    (usable s2 [1] [3] = true) ∧
    (usable s1 [1] [127] = true) := by
  and_intros <;> first | decide | rfl | simp

theorem witness_ConstantsAndImmediates :
    (usable s1 [1] [3] = true) ∧
    (usable (machine (thread [(1, 5), (2, 16191), (3, 9)])) [1, 2, 3] [3] = true) ∧
    (usable (machine (thread [(3, 9)])) [3] [3] = true) ∧
    (usable (machine (thread [])) [] [3] = true) := by
  and_intros <;> first | decide | rfl | simp

theorem witness_BranchesAndJumps :
    (usable s1 [1, 2] [] = true) ∧
    (usable (machine (thread [(1, 1)])) [1] [1] = true) ∧
    (usable s1 [0] [0] = true) ∧
    (usable s1 [] [5] = true) ∧
    (usable s1 [1] [1] = true) := by
  and_intros <;> first | decide | rfl | simp

theorem witness_FloatArithmetic :
    (usable f1 [1, 2] [3] = true) ∧
    (usable f1 [1, 2, 3] [3] = true) := by
  and_intros <;> first | decide | rfl | simp

theorem witness_FloatTestsAndSigns :
    (usable f1 [1, 2] [3] = true) ∧
    (usable f1 [1] [3] = true) ∧
    ((floatOf fp32 (val f1 1)).isNan = false) ∧
    (usable (machine (thread [(1, 4290772992)])) [1] [3] = true) ∧
    ((floatOf fp32 (val (machine (thread [(1, 4290772992)])) 1)).isNan = true) ∧
    (usable (machine (thread [(1, 2139095041)])) [1] [3] = true) ∧
    ((floatOf fp32 (val (machine (thread [(1, 2139095041)])) 1)).isNan = true) := by
  and_intros <;> first | decide | rfl | simp

theorem witness_LongScalarResults :
    (usable s1 [1, 2] [3] = true) ∧
    ((s1.slot s1.focus).divs = []) ∧
    (usable s1 [1, 2] [0] = true) ∧
    (usable f1 [1] [3] = true) ∧
    ((f1.slot f1.focus).sqrts = []) ∧
    (usable f1 [1] [0] = true) := by
  and_intros <;> first | decide | rfl | simp

end Part1

namespace Part2

def cellIs (p : Presence) (x : Slot) : Slot :=
  { x with regs := [(1, { val := 5, pres := p, owed := false }), (2, { val := 7, pres := .full, owed := false })] }
def p1 := machine (cellIs .dead (thread []))
def p2 := machine (cellIs .trap (thread []))
def p3 := machine { cellIs .empty (thread []) with xmode := true }
def p4 := machine (cellIs .empty (thread []))
def x1  := (machine { thread [(1, 5)] with winSize := 8 })
def u0 := machine (thread [])
def dbg := { u0 with tenants := [(0, { tenantAt 0 with debug := 0x10001 })] }
def inHandler := machine { thread [] with active := true, uepc := 0x1234 }
def placed (s : State) (w : Code) : State :=
  { (s.onCore 0 fun k => { k with plb := [{ domain := 0, generation := 0, region := 0, rights := 7 }], l1 := [(0x200, some { val := w.setWidth 64, owned := false })] }) with focus := 0 }
def pend1 := placed (machine { thread [] with state := .wait, pend := 0x21 }) 0x00404181
def pendN : State := match pend1.fetch 0 with | .word _ u => u | .stop u => u
def sl1 := machine { thread [(1, 0)] with pend := 0x4 }
def sl2 := machine (thread [])
def supc (x : Slot) : State := { machine (thread []) with slots := [(63, { x with job := 0 })], focus := 63 }
def tr : Translation :=
  { slice := 0, page := 0x10000, size := 0x10000, frame := 0x20000, host := false, r := true, w := true, x := true, dirty := true, heap := false, hstate := 0, epoch := 0, av := false, adie := 0 }
def m1 :=
  { machine (thread []) with tiles := [(0, { tileAt 0 with owner := some 1, translations := [tr, { tr with page := 0x40000 }] })] }
def m2 := { m1 with jobs := [] }
def m3 :=
  { m1 with net := [.store { slot := 0, va := 0x10008, bytes := [1], proxied := none, array := false, frame := none, retire := none }] }
def mg (v : Word) : State :=
  { machine (thread []) with slots := [(63, { thread [(1, v)] with job := 0 })], focus := 63, jobs := [], tiles := [] }
def sup (x : Slot) : State := { machine (thread []) with slots := [(63, { x with job := 0 })], focus := 63 }
def su1 := sup (thread [(1, 5)])
def su2 := sup { thread [(1, 5)] with sbase := 0x9000, sepc := 0x40 }
def halted1 := { sup { thread [] with state := .halted } with meas := [(4, 5)] }
def dfl :=
  { su1.onCore 0 (fun k => { k with plb := [{ domain := 5, generation := 0, region := 0, rights := 7 }, { domain := 6, generation := 0, region := 0, rights := 7 }] }) with net := [.plbFlush 63 5 [.win 3]] }
def ck1 := sup (thread [(1, 1)])

theorem witness_PresenceFaults :
    (usable p1 [2] [3] = true) ∧
    ((1 : Reg).toNat < (p1.slot p1.focus).winSize) ∧
    ((p1.slot p1.focus).bound 1 = none) ∧
    ((p1.slot p1.focus).leafOf ((p1.slot p1.focus).loc 1) = LeafState.full) ∧
    (plainUser p1 p1.focus = true) ∧
    (((p1.slot p1.focus).cell ((p1.slot p1.focus).loc 1)).pres = Presence.dead) ∧
    (usable p2 [2] [3] = true) ∧
    ((1 : Reg).toNat < (p2.slot p2.focus).winSize) ∧
    ((p2.slot p2.focus).bound 1 = none) ∧
    ((p2.slot p2.focus).leafOf ((p2.slot p2.focus).loc 1) = LeafState.full) ∧
    (plainUser p2 p2.focus = true) ∧
    (((p2.slot p2.focus).cell ((p2.slot p2.focus).loc 1)).pres = Presence.trap) ∧
    (usable p3 [2] [3] = true) ∧
    ((1 : Reg).toNat < (p3.slot p3.focus).winSize) ∧
    ((p3.slot p3.focus).bound 1 = none) ∧
    ((p3.slot p3.focus).leafOf ((p3.slot p3.focus).loc 1) = LeafState.full) ∧
    (plainUser p3 p3.focus = true) ∧
    (((p3.slot p3.focus).cell ((p3.slot p3.focus).loc 1)).pres = Presence.empty) ∧
    ((p3.slot p3.focus).xmode = true) ∧
    (usable p4 [2] [3] = true) ∧
    ((1 : Reg).toNat < (p4.slot p4.focus).winSize) ∧
    ((p4.slot p4.focus).bound 1 = none) ∧
    ((p4.slot p4.focus).leafOf ((p4.slot p4.focus).loc 1) = LeafState.full) ∧
    (plainUser p4 p4.focus = true) ∧
    (((p4.slot p4.focus).cell ((p4.slot p4.focus).loc 1)).pres = Presence.empty) ∧
    ((p4.slot p4.focus).xmode = false) ∧
    (plainUser x1 x1.focus = true) ∧
    ((x1.slot x1.focus).winSize ≤ max ((3 : Reg).toNat) (max ((1 : Reg).toNat) ((8 : Reg).toNat))) := by
  and_intros <;> first | decide | rfl | simp

theorem witness_TrapsAndReturns :
    (plainUser u0 u0.focus = true) ∧
    (noDebugger u0) ∧
    (plainUser dbg dbg.focus = true) ∧
    (dbg.debugged (dbg.slot dbg.focus).job = true) ∧
    ((inHandler.slot inHandler.focus).active = true) ∧
    ((inHandler.slot inHandler.focus).shadowOwed = false) := by
  and_intros <;> first | decide | rfl | (simp only [noDebugger]; decide) | (intro x hx; cases hx; decide)

theorem witness_PendingCausesAndSleep :
    (isUserSlot 0 = true) ∧
    (pend1.canIssue 0 = true) ∧
    ((pend1.slot 0).state = SlotState.wait) ∧
    ((pend1.slot 0).waiting = none) ∧
    ((pend1.slot 0).deliverable = some 0) ∧
    (pend1.fetch 0 = Fetched.word 4211073 pendN) ∧
    (decodeWord 4211073 = Except.ok (Instr.add 3 1 2 false false)) ∧
    (isSleep (Instr.add 3 1 2 false false) = false) ∧
    (usable sl1 [1] [3] = true) ∧
    ((decide (1 ≠ 0) && decide (BitVec.toNat (val sl1 1) ≤ sl1.cyc % 2 ^ 64) || sl1.messagesFor sl1.focus != [] ||
      !(sl1.slot sl1.focus).active && (sl1.slot sl1.focus).pendWord &&& (sl1.slot sl1.focus).umask != 0) = true) ∧
    (usable sl2 [0] [3] = true) ∧
    ((decide (0 ≠ 0) && decide (BitVec.toNat (val sl2 0) ≤ sl2.cyc % 2 ^ 64) || sl2.messagesFor sl2.focus != [] ||
      !(sl2.slot sl2.focus).active && (sl2.slot sl2.focus).pendWord &&& (sl2.slot sl2.focus).umask != 0) = false) := by
  and_intros <;> first | decide | rfl | simp

theorem witness_ControlRegisters :
    (usable u0 [] [3] = true) ∧
    (csrKind ((1 : BitVec 11).toNat) ≠ CsrKind.unassigned) ∧
    (isUserSlot u0.focus = true → (1 : BitVec 11).toNat < 1024) ∧
    (csrKind ((37 : BitVec 11).toNat) ≠ CsrKind.unassigned) ∧
    (isUserSlot u0.focus = true → (37 : BitVec 11).toNat < 1024) ∧
    (usable (machine (thread [(1, -1)])) [1] [3] = true) ∧
    (true = true ∨ (1 : Reg) ≠ 0) ∧
    (usable (supc (thread [(1, -1)])) [1] [3] = true) ∧
    (isUserSlot (supc (thread [(1, -1)])).focus = false) ∧
    (plainUser u0 u0.focus = true) ∧
    ((1023 : BitVec 11).toNat < 1024) ∧
    (csrKind ((1023 : BitVec 11).toNat) = CsrKind.unassigned) ∧
    ((64 : BitVec 11).toNat < 1024) ∧
    (csrKind ((64 : BitVec 11).toNat) = CsrKind.readOnly) ∧
    (false = true ∨ (1 : Reg) ≠ 0) ∧
    (1024 ≤ (1024 : BitVec 11).toNat) := by
  and_intros <;> first | decide | rfl | simp

theorem witness_ManagementRegisters :
    (1 ≤ bitsOf ((9223376336116974592 : Word).toNat) 32 16) ∧
    (bitsOf ((9223376336116974592 : Word).toNat) 32 16 ≤ 1000) ∧
    (1 ≤ bitsOf ((9223376336116974592 : Word).toNat) 16 16) ∧
    (16 ≤ bitsOf ((9223376336116974592 : Word).toNat) 0 11) ∧
    (bitsOf ((9223376336116974592 : Word).toNat) 0 11 ≤ 1024) ∧
    (125 ≤ bitsOf ((49155000 : Word).toNat) 16 12) ∧
    (bitsOf ((49155000 : Word).toNat) 16 12 ≤ 750) ∧
    (500 ≤ bitsOf ((49155000 : Word).toNat) 0 12) ∧
    (bitsOf ((49155000 : Word).toNat) 0 12 ≤ 3000) ∧
    (m2.jobs = []) ∧
    (m2.heldLaunches = []) ∧
    (m1.tcinvWaits 65536 = false) ∧
    (m3.tcinvWaits 65536 = true) ∧
    (usable (mg 9223376336116974592) [1] [3] = true) ∧
    (isUserSlot (mg 9223376336116974592).focus = false) ∧
    (val (mg 9223376336116974592) 1 = 9223376336116974592) ∧
    (usable (mg 49155000) [1] [3] = true) ∧
    (isUserSlot (mg 49155000).focus = false) ∧
    (val (mg 49155000) 1 = 49155000) ∧
    (usable (mg 63) [1] [3] = true) ∧
    (isUserSlot (mg 63).focus = false) ∧
    (val (mg 63) 1 = 63) ∧
    ((mg 63).jobs = []) ∧
    ((mg 63).heldLaunches = []) := by
  and_intros <;> first | decide | rfl | simp

theorem witness_PrivilegedForms :
    (plainUser u0 u0.focus = true) ∧
    (1024 ≤ (1024 : BitVec 11).toNat) ∧
    (isUserSlot su2.focus = false) ∧
    ((su2.slot su2.focus).sactive = false) ∧
    ((su2.slot su2.focus).sbase ≠ 0) ∧
    (isWalkerSlot 63 = true) ∧
    ((halted1.slot 63).state = SlotState.halted) ∧
    (∃ w, w < 4 ∧ storeGet zeroMeas halted1.meas ((4 * if 63 ∈ [63, 4159, 131135, 135231] then 1 else 2) + w) ≠ 0) ∧
    (usable su1 [1] [3] = true) ∧
    (isUserSlot su1.focus = false) ∧
    (dfl.net[0]? = some (Packet.plbFlush 63 5 [RegLoc.win 3])) ∧
    ([RegLoc.win 3].length ≤ 1) ∧
    ((dfl.slot 63).landable [RegLoc.win 3] = true) ∧
    (su1.job (BitVec.toNat (val su1 1) % 65536) = none ∨ su1.stage = BootStage.reduced) ∧
    (usable ck1 [1] [3] = true) ∧
    (isUserSlot ck1.focus = false) ∧
    (ck1.job (BitVec.toNat (val ck1 1) % 65536) = some newJob) ∧
    (newJob.phase = JobPhase.running) ∧
    (ck1.stage = BootStage.full) := by
  and_intros <;> first | decide | rfl | simp

end Part2

namespace Part3

def s1 := machine (thread [(1, 5), (2, 7)])
def w1 := machine { thread [(1, 5)] with leaves := [(15, .retain)] }
def scr (x : Slot) : State := { machine x with jobs := [(1, some { newJob with pb1 := 16384 })] }
def w2 := scr (thread [(1, 0xF000000000002000)])
def x1  := (w2.onCore 0 fun k => { k with scratchLeaves := [(2, .off)] })
def w3 := machine { thread [(1, 5)] with leaves := [(15, .waking)] }
def w5 := machine { thread [(1, 5)] with leaves := [(15, .waking)], held := [(.win 121, 9)] }
def w4 := s1.onCore 0 fun k => { k with scratchLeaves := [(2, .waking)] }
def b1 :=
  (machine { thread [(2, 7)] with bindings := [{ reg := 1, dir := .rd, port := 3 }, { reg := 4, dir := .wr, port := 3 }] }).onCore 0 fun k => { k with queues := [(3, [{ val := 9, marker := false }, { val := 10, marker := true }])] }
def x2 : List QEntry := [{ val := 10, marker := true }]
def x3 : Binding := { reg := 1, dir := .rd, port := 3 }
def x4 : Binding := { reg := 4, dir := .wr, port := 3 }
def lk : State :=
  { s1 with tiles := [(0, { tileAt 0 with owner := some 1 }), (1, { tileAt 0 with owner := some 1 })], cores := [(2, { coreAt 0 with linkOut := [(1, [7, 8])] })] }

theorem witness_PresenceForms :
    (usable s1 [1, 2] [] = true) ∧
    (named s1 [1] = true) ∧
    ((s1.slot s1.focus).leafOf ((s1.slot s1.focus).loc 1) = LeafState.full) ∧
    (named s1 [0] = true) ∧
    ((s1.slot s1.focus).leafOf ((s1.slot s1.focus).loc 0) = LeafState.full) ∧
    (named s1 [1, 2, 3] = true) ∧
    (∀ (r : Reg), r ∈ [1, 2, 3] → r ≠ 0 → ((s1.slot s1.focus).cell ((s1.slot s1.focus).loc r)).owed = false) ∧
    (named s1 [0, 127, 127] = true) ∧
    (∀ (r : Reg), r ∈ [0, 127, 127] → r ≠ 0 → ((s1.slot s1.focus).cell ((s1.slot s1.focus).loc r)).owed = false) := by
  and_intros <;> first | decide | rfl | simp

theorem witness_LeafPower :
    (named w1 [127] = true) ∧
    ((w1.slot w1.focus).active = false) ∧
    (usable w2 [1] [] = true) ∧
    (namesLeaf w2 (val w2 1) 8192 = true) ∧
    (w2.leafInUse w2.focus (coreOfSlot w2.focus) 8192 = false) ∧
    (usable x1 [1] [] = true) ∧
    (namesLeaf x1 (val x1 1) 8192 = true) ∧
    (x1.leafInUse x1.focus (coreOfSlot x1.focus) 8192 = false) ∧
    (8 * 15 + 8 ≤ (s1.slot 0).winSize) ∧
    (∀ (k : Nat), k < 8 → ((s1.slot 0).cell (RegLoc.win (8 * 15 + k))).pres = Presence.dead ∧ ((s1.slot 0).cell (RegLoc.win
      (8 * 15 + k))).owed = false) ∧
    (storeGet fullLeaf (w3.slot 0).leaves 15 = LeafState.waking) ∧
    (storeGet fullLeaf (w5.slot 0).leaves 15 = LeafState.waking) ∧
    (storeGet fullLeaf (w4.core 0).scratchLeaves 2 = LeafState.waking) := by
  and_intros <;> first | decide | rfl | simp

theorem witness_PortsQueuesAndLinks :
    ((127 : Reg).toNat < (s1.slot s1.focus).winSize) ∧
    ((15 : Reg).toNat < 16) ∧
    ((s1.slot s1.focus).active = false) ∧
    ((s1.slot s1.focus).bindingOf 127 = none) ∧
    ((s1.slot s1.focus).bindings.length < 8) ∧
    (s1.endsTaken s1.focus ((15 : Reg).toNat) BindDir.rw = false) ∧
    (((s1.slot s1.focus).cell (RegLoc.win ((127 : Reg).toNat))).owed = false) ∧
    ((1 : Reg).toNat < (b1.slot b1.focus).winSize) ∧
    (((b1.slot b1.focus).bound 1).isSome = true) ∧
    (∀ (m : Message), m ∈ (b1.core (coreOfSlot b1.focus)).inbox → m.openedBy = none) ∧
    (usable b1 [] [3] = true) ∧
    ((b1.slot b1.focus).bound 1 = some x3) ∧
    (x3.isRead = true) ∧
    (x3.port.toNat < 16) ∧
    (b1.queue (coreOfSlot b1.focus) x3.port.toNat = { val := 9, marker := false } :: x2) ∧
    (usable b1 [2] [] = true) ∧
    ((4 : Reg).toNat < (b1.slot b1.focus).winSize) ∧
    ((b1.slot b1.focus).bound 4 = some x4) ∧
    (x4.isWrite = true) ∧
    (x4.port.toNat < 16) ∧
    ((b1.slot b1.focus).leafOf ((b1.slot b1.focus).loc 4) = LeafState.full) ∧
    ((b1.queue (coreOfSlot b1.focus) x4.port.toNat).length < 32) ∧
    ((b1.core (coreOfSlot b1.focus)).moves = []) ∧
    (neighbour (2 / 4) ((1 : Reg).toNat) = some 1) ∧
    (storeGet noWords (lk.core 2).linkOut ((1 : Reg).toNat) = [7, 8]) ∧
    (lk.linkEnabled 2 ((1 : Reg).toNat) = true) ∧
    (bridgeOf (2 / 4) ((1 : Reg).toNat) = none) ∧
    (lk.linesMoving 1 = false) ∧
    (lk.linesMoving (2 / 4) = false) ∧
    ((storeGet noWords (lk.core (4 * 1 + 2 % 4)).linkIn (opposite ((1 : Reg).toNat))).length < 4) := by
  and_intros <;> first | decide | rfl | simp

end Part3

namespace Part4

def scr (x : Slot) : State :=
  { machine x with jobs := [(1, some { newJob with pb1 := 16384 })], pool := [(0x2FF8, 1), (0x2FFF, 0xF0)] }
def a1 := scr (thread [(1, 0xF000000000002FF0), (2, 0x8877665544332211), (3, 0x1122334455667788)])
def a2 :=
  a1.onCore 0 fun k => { k with l1 := [(3, some { val := 1, owned := true }), (4, some { val := 2, owned := false })] }
def a3 := a2.onSlot 0 fun x => { x with opc := 1, odc := 1 }
def at1 := scr (thread [(1, 0xF000000000002FF8), (2, 9), (3, 0xF000000000000001)])
def at2 := scr (thread [(1, 0xF000000000002FF0), (2, 9), (3, 10), (4, 0), (5, 0xF000000000000001)])
def at3 := scr (thread [(1, 0xF000000000002FFC), (2, 0x3F800000)])
def b0 := scr (thread [(1, 0xF000000000002000), (2, 0), (3, 0xF000000000002800)])
def b1 := scr (thread [(1, 0xF000000000002FF8), (2, 3), (3, 0xF000000000002800)])
def b9 := scr (thread [(1, 0xF000000000002FF8), (2, 9), (3, 0xF000000000002800)])
def b2 := scr (thread [(1, 0xF000000000002000), (2, 3), (3, 0xF000000000002800)])
def ad (w : Word) : State := scr (thread [(1, w), (2, 9)])
def g0 := machine (thread [(1, 0x2000), (2, 9)])
def allowed (s : State) : State :=
  s.onCore 0 fun k => { k with plb := [{ domain := 0, generation := 0, region := 0, rights := 7 }] }
def g1 := (allowed g0).onCore 0 fun k => { k with l1 := [(0x401, some { val := 0x8877665544332211, owned := false })] }
def g2 :=
  { g1 with net := [.forwarded { slot := 0, va := 0x2008, dst := [], size := 8, signed := false, acquire := false, fetch := false, reach := .package, retire := none, frame := none, left := 0, misuse := none } 9] }

theorem witness_ScratchpadAccesses :
    (usable a1 [1] [3] = true) ∧
    (ownScratch a1 (val a1 1) ((8 : BitVec 11).toInt) (Instr.ld64, 8, false).snd.fst 12280) ∧
    (served a1 12280 (Instr.ld64, 8, false).snd.fst true) ∧
    (ownScratch a1 (val a1 1) ((15 : BitVec 11).toInt) (Instr.ldS8, 1, true).snd.fst 12287) ∧
    (served a1 12287 (Instr.ldS8, 1, true).snd.fst true) ∧
    ((Instr.ldPair 126 1 true).wellFormed = true) ∧
    (usable a1 [1] [126, 126 + 1] = true) ∧
    (ownScratch a1 (val a1 1) 0 16 12272) ∧
    (served a1 12272 16 true) ∧
    (usable a1 [1, 2] [] = true) ∧
    (ownScratch a1 (val a1 1) ((14 : BitVec 11).toInt) (Instr.st16, 2).snd 12286) ∧
    (served a1 12286 (Instr.st16, 2).snd false) ∧
    (ownScratch a1 (val a1 1) 0 8 12272) ∧
    (served a1 12272 8 false) ∧
    (a1.loadsLanded a1.focus = true) ∧
    (mayRelease a1) ∧
    ((a1.slot a1.focus).odc = 0) ∧
    ((Instr.stPair 1 2 true false).wellFormed = true) ∧
    (usable a1 [1, 2, 2 + 1] [] = true) ∧
    (served a1 12272 16 false) := by
  and_intros <;> first | decide | rfl | (simp only [ownScratch, served, mayRelease]; decide) | simp

theorem witness_AcquiresAndFences :
    (usable a2 [1] [3] = true) ∧
    (ownScratch a2 (val a2 1) 0 8 12272) ∧
    (served a2 12272 8 true) ∧
    (a2.loadsLanded a2.focus = true) ∧
    (mayRelease a2) ∧
    ((a2.slot a2.focus).odc = 0) ∧
    (¬mayRelease a3) := by
  and_intros <;> first | decide | rfl | (simp only [mayRelease]; decide) | simp

theorem witness_ScratchpadAtomics :
    (releases (scr (thread [(1, 17293822569102716920), (2, 9)])) Order.ar) ∧
    (usable (scr (thread [(1, 17293822569102716920), (2, 9)])) [1, 2] [3] = true) ∧
    (ownScratch (scr (thread [(1, 17293822569102716920), (2, 9)])) (val (scr (thread [(1, 17293822569102716920), (2, 9)]))
      1) 0 8 12280) ∧
    (served (scr (thread [(1, 17293822569102716920), (2, 9)])) 12280 8 true) ∧
    (releases at1 Order.relaxed) ∧
    (usable at1 [1, 2, 3] [3] = true) ∧
    (ownScratch at1 (val at1 1) 0 8 12280) ∧
    (served at1 12280 8 true) ∧
    (releases at2 Order.rel) ∧
    ((Instr.cas2 4 1 2 Order.rel true false).wellFormed = true) ∧
    (usable at2 [1, 2, 2 + 1, 4, 4 + 1] [4, 4 + 1] = true) ∧
    (ownScratch at2 (val at2 1) 0 16 12272) ∧
    (served at2 12272 16 true) ∧
    (releases at3 Order.acq) ∧
    (usable at3 [1, 2] [3] = true) ∧
    (ownScratch at3 (val at3 1) 0 4 12284) ∧
    (served at3 12284 4 true) := by
  and_intros <;> first | decide | rfl | (simp only [releases, mayRelease]; decide) | simp

theorem witness_BlockPasses :
    (usable b0 [2, 3] [3, 2] = true) ∧
    ((Instr.repZero 3 2).wellFormed = true) ∧
    (val b0 2 = 0) ∧
    (usable b1 [2, 3] [3, 2] = true) ∧
    (val b1 2 ≠ 0) ∧
    (ownScratch b1 (val b1 3) 0 8 10240) ∧
    (served b1 10240 8 false) ∧
    (usable b0 [1, 2, 3] [3, 2] = true) ∧
    ((Instr.repFill 3 1 2).wellFormed = true) ∧
    (usable b9 [1, 2, 3] [3, 2] = true) ∧
    (val b9 2 ≠ 0) ∧
    (ownScratch b9 (val b9 3) 0 8 10240) ∧
    (served b9 10240 8 false) ∧
    (usable b0 [1, 2, 3] [3, 1, 2] = true) ∧
    ((Instr.mvblk 3 1 2).wellFormed = true) ∧
    (usable b1 [1, 2, 3] [3, 1, 2] = true) ∧
    (ownScratch b1 (val b1 1) 0 8 12280) ∧
    (served b1 12280 8 true) ∧
    (served b1 10240 8 true) ∧
    (usable b2 [1, 2, 3] [3, 1, 2] = true) ∧
    (val b2 2 ≠ 0) ∧
    (ownScratch b2 (val b2 3) 0 8 10240) ∧
    (ownScratch b2 (val b2 1) 0 8 8192) ∧
    (served b2 8192 8 true) ∧
    (served b2 10240 8 true) := by
  and_intros <;> first | decide | rfl | (simp only [ownScratch, served]; decide) | simp

theorem witness_AddressesAndRights :
    (plainUser (ad 17293822569102704640) (ad 17293822569102704640).focus = true) ∧
    (usable (ad 17293822569102704640) [1] [2] = true) ∧
    (↑(BitVec.toNat (val (ad 17293822569102704640) 1)) + (2047 : BitVec 11).toInt < 0 ∨ 2 ^ 64 ≤ ↑(BitVec.toNat (val (ad
      17293822569102704640) 1)) + (2047 : BitVec 11).toInt ∨ region (BitVec.ofInt 64 (↑(BitVec.toNat (val (ad
      17293822569102704640) 1)) + (2047 : BitVec 11).toInt)) ≠ region (val (ad 17293822569102704640) 1)) ∧
    (plainUser (ad 1) (ad 1).focus = true) ∧
    (usable (ad 1) [1] [2] = true) ∧
    (0 ≤ ↑(BitVec.toNat (val (ad 1) 1)) + (0 : BitVec 11).toInt) ∧
    (↑(BitVec.toNat (val (ad 1) 1)) + (0 : BitVec 11).toInt < 2 ^ 64) ∧
    (region (BitVec.ofInt 64 (↑(BitVec.toNat (val (ad 1) 1)) + (0 : BitVec 11).toInt)) = region (val (ad 1) 1)) ∧
    (region (BitVec.ofInt 64 (↑(BitVec.toNat (val (ad 1) 1)) + (0 : BitVec 11).toInt)) = 0) ∧
    ((BitVec.ofInt 64 (↑(BitVec.toNat (val (ad 1) 1)) + (0 : BitVec 11).toInt)).toNat % 2 ^ 56 + (Instr.ld64, 8,
      false).snd.fst ≤ 2 ^ 56) ∧
    ((BitVec.ofInt 64 (↑(BitVec.toNat (val (ad 1) 1)) + (0 : BitVec 11).toInt)).toNat % (Instr.ld64, 8, false).snd.fst ≠ 0) ∧
    (plainUser (ad 72057594037927921) (ad 72057594037927921).focus = true) ∧
    (usable (ad 72057594037927921) [1] [2] = true) ∧
    (0 ≤ ↑(BitVec.toNat (val (ad 72057594037927921) 1)) + (0 : BitVec 11).toInt) ∧
    (↑(BitVec.toNat (val (ad 72057594037927921) 1)) + (0 : BitVec 11).toInt < 2 ^ 64) ∧
    (region (BitVec.ofInt 64 (↑(BitVec.toNat (val (ad 72057594037927921) 1)) + (0 : BitVec 11).toInt)) = region (val (ad
      72057594037927921) 1)) ∧
    (region (BitVec.ofInt 64 (↑(BitVec.toNat (val (ad 72057594037927921) 1)) + (0 : BitVec 11).toInt)) = 0) ∧
    ((BitVec.ofInt 64 (↑(BitVec.toNat (val (ad 72057594037927921) 1)) + (0 : BitVec 11).toInt)).toNat % 2 ^ 56 +
      (Instr.ldZ16, 2, false).snd.fst ≤ 2 ^ 56) ∧
    ((BitVec.ofInt 64 (↑(BitVec.toNat (val (ad 72057594037927921) 1)) + (0 : BitVec 11).toInt)).toNat % (Instr.ldZ16, 2,
      false).snd.fst ≠ 0) ∧
    (plainUser (ad 17293822569102716921) (ad 17293822569102716921).focus = true) ∧
    (usable (ad 17293822569102716921) [1] [2] = true) ∧
    (0 ≤ ↑(BitVec.toNat (val (ad 17293822569102716921) 1)) + (0 : BitVec 11).toInt) ∧
    (↑(BitVec.toNat (val (ad 17293822569102716921) 1)) + (0 : BitVec 11).toInt < 2 ^ 64) ∧
    (region (BitVec.ofInt 64 (↑(BitVec.toNat (val (ad 17293822569102716921) 1)) + (0 : BitVec 11).toInt)) = region (val (ad
      17293822569102716921) 1)) ∧
    (region (BitVec.ofInt 64 (↑(BitVec.toNat (val (ad 17293822569102716921) 1)) + (0 : BitVec 11).toInt)) = 240) ∧
    ((ad 17293822569102716921).scratchSize ((ad 17293822569102716921).slot (ad 17293822569102716921).focus).job <
      (BitVec.ofInt 64 (↑(BitVec.toNat (val (ad 17293822569102716921) 1)) + (0 : BitVec 11).toInt)).toNat % 2 ^ 56 +
      (Instr.ld64, 8, false).snd.fst) ∧
    (plainUser (ad 17293822569102716916) (ad 17293822569102716916).focus = true) ∧
    (usable (ad 17293822569102716916) [1] [2] = true) ∧
    (0 ≤ ↑(BitVec.toNat (val (ad 17293822569102716916) 1)) + (0 : BitVec 11).toInt) ∧
    (↑(BitVec.toNat (val (ad 17293822569102716916) 1)) + (0 : BitVec 11).toInt < 2 ^ 64) ∧
    (region (BitVec.ofInt 64 (↑(BitVec.toNat (val (ad 17293822569102716916) 1)) + (0 : BitVec 11).toInt)) = region (val (ad
      17293822569102716916) 1)) ∧
    (region (BitVec.ofInt 64 (↑(BitVec.toNat (val (ad 17293822569102716916) 1)) + (0 : BitVec 11).toInt)) = 240) ∧
    ((ad 17293822569102716916).scratchSize ((ad 17293822569102716916).slot (ad 17293822569102716916).focus).job ≤ 2 ^ 18) ∧
    ((BitVec.ofInt 64 (↑(BitVec.toNat (val (ad 17293822569102716916) 1)) + (0 : BitVec 11).toInt)).toNat % 2 ^ 56 +
      (Instr.ld64, 8, false).snd.fst ≤ (ad 17293822569102716916).scratchSize ((ad 17293822569102716916).slot (ad
      17293822569102716916).focus).job) ∧
    ((BitVec.ofInt 64 (↑(BitVec.toNat (val (ad 17293822569102716916) 1)) + (0 : BitVec 11).toInt)).toNat % (Instr.ld64, 8,
      false).snd.fst ≠ 0) ∧
    (plainUser (ad 17437937757178572788) (ad 17437937757178572788).focus = true) ∧
    (usable (ad 17437937757178572788) [1] [2] = true) ∧
    (0 ≤ ↑(BitVec.toNat (val (ad 17437937757178572788) 1)) + (0 : BitVec 11).toInt) ∧
    (↑(BitVec.toNat (val (ad 17437937757178572788) 1)) + (0 : BitVec 11).toInt < 2 ^ 64) ∧
    (region (BitVec.ofInt 64 (↑(BitVec.toNat (val (ad 17437937757178572788) 1)) + (0 : BitVec 11).toInt)) = region (val (ad
      17437937757178572788) 1)) ∧
    (region (BitVec.ofInt 64 (↑(BitVec.toNat (val (ad 17437937757178572788) 1)) + (0 : BitVec 11).toInt)) = 242) ∧
    (plainUser (ad 17509995351216816124) (ad 17509995351216816124).focus = true) ∧
    (usable (ad 17509995351216816124) [1] [2] = true) ∧
    (0 ≤ ↑(BitVec.toNat (val (ad 17509995351216816124) 1)) + (0 : BitVec 11).toInt) ∧
    (↑(BitVec.toNat (val (ad 17509995351216816124) 1)) + (0 : BitVec 11).toInt < 2 ^ 64) ∧
    (region (BitVec.ofInt 64 (↑(BitVec.toNat (val (ad 17509995351216816124) 1)) + (0 : BitVec 11).toInt)) = region (val (ad
      17509995351216816124) 1)) ∧
    (region (BitVec.ofInt 64 (↑(BitVec.toNat (val (ad 17509995351216816124) 1)) + (0 : BitVec 11).toInt)) = 243) ∧
    (327680 < (BitVec.ofInt 64 (↑(BitVec.toNat (val (ad 17509995351216816124) 1)) + (0 : BitVec 11).toInt)).toNat % 2 ^ 56 +
      (Instr.ld64, 8, false).snd.fst) ∧
    (plainUser (ad 17509995351216500724) (ad 17509995351216500724).focus = true) ∧
    (usable (ad 17509995351216500724) [1] [2] = true) ∧
    (0 ≤ ↑(BitVec.toNat (val (ad 17509995351216500724) 1)) + (0 : BitVec 11).toInt) ∧
    (↑(BitVec.toNat (val (ad 17509995351216500724) 1)) + (0 : BitVec 11).toInt < 2 ^ 64) ∧
    (region (BitVec.ofInt 64 (↑(BitVec.toNat (val (ad 17509995351216500724) 1)) + (0 : BitVec 11).toInt)) = region (val (ad
      17509995351216500724) 1)) ∧
    (region (BitVec.ofInt 64 (↑(BitVec.toNat (val (ad 17509995351216500724) 1)) + (0 : BitVec 11).toInt)) = 243) ∧
    ((BitVec.ofInt 64 (↑(BitVec.toNat (val (ad 17509995351216500724) 1)) + (0 : BitVec 11).toInt)).toNat % 2 ^ 56 +
      (Instr.ld64, 8, false).snd.fst ≤ 327680) ∧
    ((BitVec.ofInt 64 (↑(BitVec.toNat (val (ad 17509995351216500724) 1)) + (0 : BitVec 11).toInt)).toNat % (Instr.ld64, 8,
      false).snd.fst ≠ 0) ∧
    (plainUser (ad 17509995351216816120) (ad 17509995351216816120).focus = true) ∧
    (usable (ad 17509995351216816120) [1, 2] [] = true) ∧
    (0 ≤ ↑(BitVec.toNat (val (ad 17509995351216816120) 1)) + (0 : BitVec 11).toInt) ∧
    (↑(BitVec.toNat (val (ad 17509995351216816120) 1)) + (0 : BitVec 11).toInt < 2 ^ 64) ∧
    (region (BitVec.ofInt 64 (↑(BitVec.toNat (val (ad 17509995351216816120) 1)) + (0 : BitVec 11).toInt)) = region (val (ad
      17509995351216816120) 1)) ∧
    (region (BitVec.ofInt 64 (↑(BitVec.toNat (val (ad 17509995351216816120) 1)) + (0 : BitVec 11).toInt)) = 243) ∧
    ((BitVec.ofInt 64 (↑(BitVec.toNat (val (ad 17509995351216816120) 1)) + (0 : BitVec 11).toInt)).toNat % 2 ^ 56 +
      (Instr.st64, 8).snd ≤ 327680) ∧
    ((BitVec.ofInt 64 (↑(BitVec.toNat (val (ad 17509995351216816120) 1)) + (0 : BitVec 11).toInt)).toNat % (Instr.st64,
      8).snd = 0) ∧
    (plainUser (ad 72057594037940216) (ad 72057594037940216).focus = true) ∧
    (usable (ad 72057594037940216) [1] [2] = true) ∧
    (0 ≤ ↑(BitVec.toNat (val (ad 72057594037940216) 1)) + (0 : BitVec 11).toInt) ∧
    (↑(BitVec.toNat (val (ad 72057594037940216) 1)) + (0 : BitVec 11).toInt < 2 ^ 64) ∧
    (region (BitVec.ofInt 64 (↑(BitVec.toNat (val (ad 72057594037940216) 1)) + (0 : BitVec 11).toInt)) = region (val (ad
      72057594037940216) 1)) ∧
    (region (BitVec.ofInt 64 (↑(BitVec.toNat (val (ad 72057594037940216) 1)) + (0 : BitVec 11).toInt)) ≠ 0) ∧
    (region (BitVec.ofInt 64 (↑(BitVec.toNat (val (ad 72057594037940216) 1)) + (0 : BitVec 11).toInt)) ≠ 240) ∧
    (region (BitVec.ofInt 64 (↑(BitVec.toNat (val (ad 72057594037940216) 1)) + (0 : BitVec 11).toInt)) ≠ 241) ∧
    (region (BitVec.ofInt 64 (↑(BitVec.toNat (val (ad 72057594037940216) 1)) + (0 : BitVec 11).toInt)) ≠ 242) ∧
    (region (BitVec.ofInt 64 (↑(BitVec.toNat (val (ad 72057594037940216) 1)) + (0 : BitVec 11).toInt)) ≠ 243) ∧
    (isUserSlot g0.focus = true) ∧
    (usable g0 [1] [3] = true) ∧
    (g0.targetOf g0.focus (val g0 1) ((8 : BitVec 11).toInt) (Instr.ld64, 8, false).snd.fst (Instr.ld64, 8, false).snd.fst =
      Target.global 8200) ∧
    (plainUser g0 g0.focus = true) ∧
    (g0.permits (coreOfSlot g0.focus) (g0.slot g0.focus).job AccKind.read 8200 = false) ∧
    (g0.targetOf g0.focus (val g0 1) ((8 : BitVec 11).toInt) (Instr.ldS16, 2, true).snd.fst (Instr.ldS16, 2, true).snd.fst =
      Target.global 8200) ∧
    (isUserSlot g1.focus = true) ∧
    (usable g1 [1] [3] = true) ∧
    (g1.targetOf g1.focus (val g1 1) ((15 : BitVec 11).toInt) (Instr.ldS8, 1, true).snd.fst (Instr.ldS8, 1, true).snd.fst =
      Target.global 8207) ∧
    (g1.permits (coreOfSlot g1.focus) (g1.slot g1.focus).job AccKind.read 8207 = true) ∧
    (g1.l1Read (coreOfSlot g1.focus) (8207 / 8) (8207 % 8) (Instr.ldS8, 1, true).snd.fst = some [136]) ∧
    (∀ (p : StorePacket), Packet.store p ∈ g1.net → p.slot / 64 = g1.focus / 64 → wordsMeet 8207 (Instr.ldS8, 1,
      true).snd.fst p.va p.bytes.length = false) ∧
    (∀ (p : LoadPacket) (o : Nat), Packet.forwarded p o ∈ g1.net → p.slot ≠ g1.focus) ∧
    (isUserSlot (allowed g0).focus = true) ∧
    (usable (allowed g0) [1] [3] = true) ∧
    ((allowed g0).targetOf (allowed g0).focus (val (allowed g0) 1) ((8 : BitVec 11).toInt) (Instr.ld64, 8, false).snd.fst
      (Instr.ld64, 8, false).snd.fst = Target.global 8200) ∧
    ((allowed g0).permits (coreOfSlot (allowed g0).focus) ((allowed g0).slot (allowed g0).focus).job AccKind.read 8200 =
      true) ∧
    ((allowed g0).l1Hit (allowed g0).focus 8200 (Instr.ld64, 8, false).snd.fst = none) ∧
    (isUserSlot g2.focus = true) ∧
    (usable g2 [1] [3] = true) ∧
    (g2.targetOf g2.focus (val g2 1) ((8 : BitVec 11).toInt) (Instr.ld64, 8, false).snd.fst (Instr.ld64, 8, false).snd.fst =
      Target.global 8200) ∧
    (g2.permits (coreOfSlot g2.focus) (g2.slot g2.focus).job AccKind.read 8200 = true) ∧
    (g2.l1Hit g2.focus 8200 (Instr.ld64, 8, false).snd.fst = none) ∧
    (usable g0 [1, 2] [] = true) ∧
    (g0.targetOf g0.focus (val g0 1) ((8 : BitVec 11).toInt) (Instr.st32, 4).snd (Instr.st32, 4).snd = Target.global 8200) ∧
    (g0.permits (coreOfSlot g0.focus) (g0.slot g0.focus).job AccKind.write 8200 = false) ∧
    (usable (allowed g0) [1, 2] [] = true) ∧
    ((allowed g0).targetOf (allowed g0).focus (val (allowed g0) 1) ((8 : BitVec 11).toInt) (Instr.st64, 8).snd (Instr.st64,
      8).snd = Target.global 8200) ∧
    ((allowed g0).permits (coreOfSlot (allowed g0).focus) ((allowed g0).slot (allowed g0).focus).job AccKind.write 8200 =
      true) ∧
    (((allowed g0).slot (allowed g0).focus).opc < 32) ∧
    (usable g1 [1, 2] [] = true) ∧
    (g1.targetOf g1.focus (val g1 1) ((8 : BitVec 11).toInt) (Instr.st64, 8).snd (Instr.st64, 8).snd = Target.global 8200) ∧
    (g1.permits (coreOfSlot g1.focus) (g1.slot g1.focus).job AccKind.write 8200 = true) ∧
    ((g1.slot g1.focus).opc < 32) := by
  and_intros <;> first | decide | rfl | (rw [show g1.net = [] from rfl]; simp)

end Part4

namespace Part5

def base := machine { thread [(1, 5)] with regs := (3, { val := 0, pres := .empty, owed := true }) :: regsOf [(1, 5)] }
def net (s : State) (ps : List Packet) : State := { s with net := ps }
def rp : ReplyPacket := { slot := 0, va := 0x2008, dst := [.win 3], vals := [77], acquire := false }
def r1 :=
  (net base [.reply { rp with acquire := true }]).onCore 0 fun k => { k with l1 := [(3, some { val := 1, owned := true }), (4, some { val := 2, owned := false })] }
def x1  := { rp with acquire := true }
def rleaf : State :=
  (net (machine { thread [(1, 5)] with regs := [(3, { val := 0, pres := .empty, owed := true })], leaves := [(0, .retain)] }) [.reply rp, .atomicReply 0 [.win 3] [77] 4 true])
def r2 :=
  (net base [.atomicReply 0 [.win 3] [77] 4 true]).onCore 0 fun k => { k with l1 := [(3, some { val := 1, owned := true }), (4, some { val := 2, owned := false })] }
def sec : Sector :=
  { bytes := (List.range 48).map (BitVec.ofNat 8), dirty := false, owners := [], version := 0, pa := 0x20000, host := false }
def held (s : State) (x : Sector) : State := { s with l2 := [(2 ^ 56 + 8160, some x)] }
def sp : StorePacket :=
  { slot := 0, va := 0x2008, bytes := [1,2,3,4,5,6,7,8], proxied := none, array := false, frame := none, retire := none }
def st1 := net (held base sec) [.store sp]
def sec2 := { sec with owners := [(5, some { package := 0, core := 2 })] }
def st2 :=
  net (held base sec2) [.store { sp with retire := some { dead := [.win 1], owe := [], puts := [], pc := 0x1004, stores := 1, count := 1 } }]
def x2  := { sp with retire := some { dead := [.win 1], owe := [], puts := [], pc := 0x1004, stores := 1, count := 1 } }
def two (s : State) : State :=
  { s with tiles := [(0, { tileAt 0 with owner := some 1 }), (16, { tileAt 0 with owner := some 1 })], jobs := [(1, some { newJob with homeTable := [(bucketOf 0x2008, 1)], proxyTable := [(bucketOf 0x2008 % 1024, 1)] })] }
def st3 := two (net { base with proxyCopies := [(2 ^ 56 + 8160, some sec.bytes)] } [.store sp])
def x3 : Place := { tile := 0, slice := 1 }
def st4 :=
  (net base [.ack 0 true true [0x401] false]).onCore 0 fun k => { k with l1 := [(0x401, some { val := 9, owned := false })] }
def x4  := (st4.onSlot 0 fun x => { x with opc := 2, odc := 1 })
def st5 := (net base [.revoke 0 0x401]).onCore 0 fun k => { k with l1 := [(0x401, some { val := 9, owned := true })] }
def lp : LoadPacket :=
  { slot := 0, va := 0x2008, size := 4, signed := true, dst := [.win 3], reach := .plain, acquire := false, fetch := false, left := 0, frame := none, retire := none }
def ld1 := net (held base sec) [.load lp]
def lpr : LoadPacket :=
  { lp with retire := some { dead := [.win 1], owe := [.win 3], puts := [], pc := 0x1004, stores := 0, count := 1 } }
def ld2 := net (held base { sec with owners := [(5, some { package := 0, core := 2 })] }) [.load lpr]
def x5  := { sec with owners := [(5, some { package := 0, core := 2 })] }
def far : LoadPacket := { lp with va := 2 ^ 50 + 0x2008 }
def tr (r w x : Bool) : Translation :=
  { slice := 1, page := 0, size := 0x10000, frame := 0x50000, host := false, r := r, w := w, x := x, dirty := true, heap := false, hstate := 0, epoch := 0, av := false, adie := 0 }
def mapped (s : State) (leaf : Word) : State :=
  { s with ptroot := 0x10000, hbm := ((((s.hbm.setWord 0x10000 0x8000000000020000).setWord 0x20000 0x8000000000030000).setWord 0x30000 0x8000000000040000).setWord 0x40000 leaf) }
def noR (s : State) : State :=
  mapped (s.onTile 0 fun t => { t with translations := [tr false true false] }) 0xC000000000050024
def ld3 := noR (net base [.load { lpr with dst := [.win 3] }])
def x6  := (ld3.onSlot 0 fun x => { x with unchecked := some { va := 0x2008, kind := .read, retry := false } })
def fw :=
  ((net base [.forwarded lpr 2]).onCore 2 fun k => { k with l1 := [(0x401, some { val := 0x80000000F0000001, owned := true })] })

theorem witness_RepliesLand :
    (r1.net[0]? = some (Packet.reply x1)) ∧
    ((r1.slot x1.slot).landable x1.dst = true) ∧
    (r1.pairHolds x1.slot = false) ∧
    ((r1.slot x1.slot).unchecked = none) ∧
    ((net base [Packet.reply rp]).net[0]? = some (Packet.reply rp)) ∧
    (((net base [Packet.reply rp]).slot rp.slot).landable rp.dst = true) ∧
    ((net base [Packet.reply rp]).pairHolds rp.slot = false) ∧
    (((net base [Packet.reply rp]).slot rp.slot).unchecked = none) ∧
    (rleaf.net[0]? = some (Packet.reply rp)) ∧
    (rleaf.canLand rp.slot rp.dst = false ∨ rleaf.pairHolds rp.slot = true) ∧
    (rleaf.net[1]? = some (Packet.atomicReply 0 [RegLoc.win 3] [77] 4 true)) ∧
    (rleaf.canLand 0 [RegLoc.win 3] = false ∨ rleaf.pairHolds 0 = true) ∧
    (r2.net[0]? = some (Packet.atomicReply 0 [RegLoc.win 3] [77] 4 true)) ∧
    ((r2.slot 0).landable [RegLoc.win 3] = true) ∧
    (r2.pairHolds 0 = false) := by
  and_intros <;> first | decide | rfl | simp

theorem witness_StoresRegister :
    (st1.net[0]? = some (Packet.store sp)) ∧
    (st1.arrivesNext 0 = true) ∧
    (st1.ownReadAhead 0 sp.slot sp.va sp.bytes.length = false) ∧
    (st1.isOurs sp.va = true) ∧
    (sp.proxied.isSome = true ∨ st1.proxyFor (st1.slot sp.slot).job (tileOfSlot sp.slot) sp.va = none) ∧
    (st1.proxiedBefore (st1.slot sp.slot).job sp = false) ∧
    (st1.armed sp.va = false) ∧
    (heldAt st1 (st1.homeOf (st1.slot sp.slot).job sp.va) sp.va AccKind.write none sec) ∧
    (st2.net[0]? = some (Packet.store x2)) ∧
    (st2.arrivesNext 0 = true) ∧
    (st2.ownReadAhead 0 x2.slot x2.va x2.bytes.length = false) ∧
    (st2.isOurs x2.va = true) ∧
    (x2.proxied.isSome = true ∨ st2.proxyFor (st2.slot x2.slot).job (tileOfSlot x2.slot) x2.va = none) ∧
    (st2.proxiedBefore (st2.slot x2.slot).job x2 = false) ∧
    (st2.armed x2.va = false) ∧
    (heldAt st2 (st2.homeOf (st2.slot x2.slot).job x2.va) x2.va AccKind.write none sec2) ∧
    (st3.net[0]? = some (Packet.store sp)) ∧
    (sp.proxied = none) ∧
    (st3.arrivesNext 0 = true) ∧
    (st3.isOurs sp.va = true) ∧
    (st3.proxyFor (st3.slot sp.slot).job (tileOfSlot sp.slot) sp.va = some x3) ∧
    (sp.retire = none ∨ st3.homeCheck (st3.homeOf (st3.slot sp.slot).job sp.va) sp.va AccKind.write none = HomeCheck.held) ∧
    (x4.net[0]? = some (Packet.ack 0 true true [1025] false)) ∧
    (∀ (c w : Nat), Packet.revoke c w ∈ List.take 0 x4.net → ¬w ∈ [1025]) ∧
    (true = true ∨ ∀ (d : Bool) (ws : List Nat) (a : Bool), ¬Packet.ack 0 false d ws a ∈ List.take 0 x4.net) ∧
    (st5.net[0]? = some (Packet.revoke 0 1025)) := by
  and_intros <;> first | decide | rfl | exact .inl rfl | (rw [show x4.net = [.ack 0 true true [0x401] false] from rfl]; simp)

theorem witness_LoadsAtTheirHome :
    (ld1.net[0]? = some (Packet.load lp)) ∧
    (ld1.arrivesNext 0 = true) ∧
    (ld1.ownStoreAhead 0 lp.slot lp.va lp.size = false) ∧
    (ld1.ownReadAhead 0 lp.slot lp.va lp.size = false) ∧
    (ld1.isOurs lp.va = true) ∧
    (ld1.proxiedAhead (dieOfTile (tileOfSlot lp.slot)) lp.va (some lp.left) = false) ∧
    (lp.reach ≠ Reach.die) ∧
    (heldAt ld1 (ld1.homeOf (ld1.slot lp.slot).job lp.va) lp.va AccKind.read none sec) ∧
    (ld1.ownerAt (ld1.homeOf (ld1.slot lp.slot).job lp.va) lp.va (coreOfSlot lp.slot) = none) ∧
    (ld2.net[0]? = some (Packet.load lpr)) ∧
    (ld2.arrivesNext 0 = true) ∧
    (ld2.ownStoreAhead 0 lpr.slot lpr.va lpr.size = false) ∧
    (ld2.ownReadAhead 0 lpr.slot lpr.va lpr.size = false) ∧
    (ld2.isOurs lpr.va = true) ∧
    (ld2.proxiedAhead (dieOfTile (tileOfSlot lpr.slot)) lpr.va (some lpr.left) = false) ∧
    (lpr.reach ≠ Reach.die) ∧
    (heldAt ld2 (ld2.homeOf (ld2.slot lpr.slot).job lpr.va) lpr.va AccKind.read none x5) ∧
    (ld2.ownerAt (ld2.homeOf (ld2.slot lpr.slot).job lpr.va) lpr.va (coreOfSlot lpr.slot) = some 2) ∧
    ((net base [Packet.load far]).net[0]? = some (Packet.load far)) ∧
    ((net base [Packet.load far]).arrivesNext 0 = true) ∧
    ((net base [Packet.load far]).ownStoreAhead 0 far.slot far.va far.size = false) ∧
    ((net base [Packet.load far]).ownReadAhead 0 far.slot far.va far.size = false) ∧
    ((net base [Packet.load far]).isOurs far.va = false) ∧
    (PeerAnswer.words [1, 2] = PeerAnswer.words [1, 2]) ∧
    (far.misuse = none) ∧
    (ld3.net[0]? = some (Packet.load lpr)) ∧
    (ld3.arrivesNext 0 = true) ∧
    (ld3.ownStoreAhead 0 lpr.slot lpr.va lpr.size = false) ∧
    (ld3.ownReadAhead 0 lpr.slot lpr.va lpr.size = false) ∧
    (ld3.isOurs lpr.va = true) ∧
    (ld3.proxiedAhead (dieOfTile (tileOfSlot lpr.slot)) lpr.va (some lpr.left) = false) ∧
    (ld3.homeCheck (ld3.homeOf (ld3.slot lpr.slot).job lpr.va) lpr.va AccKind.read none = HomeCheck.fails 8) ∧
    (lpr.retire ≠ none) ∧
    (plainUser ld3 lpr.slot = true) ∧
    (ld3.job (ld3.slot lpr.slot).job = some newJob) ∧
    (newJob.halted = false) ∧
    (x6.net[0]? = some (Packet.load lpr)) ∧
    (x6.arrivesNext 0 = true) ∧
    (x6.ownStoreAhead 0 lpr.slot lpr.va lpr.size = false) ∧
    (x6.ownReadAhead 0 lpr.slot lpr.va lpr.size = false) ∧
    (x6.isOurs lpr.va = true) ∧
    (x6.proxiedAhead (dieOfTile (tileOfSlot lpr.slot)) lpr.va (some lpr.left) = false) ∧
    (x6.homeCheck (x6.homeOf (x6.slot lpr.slot).job lpr.va) lpr.va AccKind.read none = HomeCheck.fails 8) ∧
    (plainUser x6 lpr.slot = true) ∧
    (x6.job (x6.slot lpr.slot).job = some newJob) ∧
    (fw.net[0]? = some (Packet.forwarded lpr 2)) ∧
    (∀ (q : StorePacket), Packet.store q ∈ fw.net → q.slot / 64 ≠ 2) ∧
    (fw.l1Owns 2 (lpr.va / 8) lpr.size = true) ∧
    (fw.l1Read 2 (lpr.va / 8) (lpr.va % 8) lpr.size = some [1, 0, 0, 240]) := by
  and_intros <;> first | decide | rfl | (simp only [heldAt]; decide) | (rw [show fw.net = [.forwarded lpr 2] from rfl]; simp)

end Part5

namespace Part6

def base := machine { thread [(1, 5)] with regs := (3, { val := 0, pres := .empty, owed := true }) :: regsOf [(1, 5)] }
def net (s : State) (ps : List Packet) : State := { s with net := ps }
def sec : Sector :=
  { bytes := (List.range 48).map (BitVec.ofNat 8), dirty := false, owners := [], version := 0, pa := 0x20000, host := false }
def held (s : State) (x : Sector) : State := { s with l2 := [(2 ^ 56 + 8160, some x)] }
def mapped (s : State) (leaf : Word) : State :=
  { s with ptroot := 0x10000, hbm := ((((s.hbm.setWord 0x10000 0x8000000000020000).setWord 0x20000 0x8000000000030000).setWord 0x30000 0x8000000000040000).setWord 0x40000 leaf) }
def rt : Retire := { dead := [.win 1], owe := [], puts := [], pc := 0x1004, stores := 0, count := 1 }
def sc (s : State) : State :=
  { s with jobs := [(1, some { newJob with pb1 := 16384 })], pool := [(poolAt 1 0x2FF8, 1), (poolAt 1 0x2FFF, 0xF0)] }
def np (k : NearKind) : NearPacket :=
  { slot := 0, core := 1, offset := 0x2FF8, size := 8, ea := 0xF000000000102FF8, dst := [.win 3], kind := k, retire := some rt }
def n1 := net (sc base) [.near (np (.load true true))]
def n2 := net (sc base) [.near (np (.store [1,2,3,4,5,6,7,8]))]
def ap (c : Option Nat) (a : Nat) : AtomicPacket :=
  { slot := 0, op := 0x50, core := c, addr := a, ea := 0, operands := [9], frm := 0, acquire := true, departed := false, dst := [.win 3], retire := some rt }
def n3 := net (sc base) [.atomic (ap (some 1) 0x2FF8)]
def n4 := net (held base { sec with owners := [(5, some { package := 0, core := 2 })] }) [.atomic (ap none 0x2008)]
def x1  := { sec with owners := [(5, some { package := 0, core := 2 })] }
def wr (k : AccKind) : WalkRequest := { va := 0x2008, kind := k, job := 1, tile := 0, slice := 1, who := .slot 0 }
def w0 (k : AccKind) (leaf : Word) :=
  mapped ((base.onTile 0 fun t => { t with mailboxes := [(1, [wr k])] }).onSlot 0 fun x => { x with unchecked := some { va := 0x2010, kind := k, retry := true } }) leaf
def lf : Translation := leafTranslation 0xC000000000050006 0 1 0x2008
def lf2 : Translation := leafTranslation 0xC00FFFFFFFF50006 0 1 0x2008
def wsec : Sector := { sec with pa := 0x40000, bytes := bytesOfNat 8 0xC000000000050006 ++ List.replicate 40 0 }
def wcached : State := { w0 .read 0xC000000000050006 with l2 := [(2 ^ 56 + 8160, some wsec)] }
def ba (l : List (Nat × Word)) : State := sc (machine (thread l))
def b1 :=
  (ba [(1, 0xF000000000002000), (2, 0xFFFFFFFFFFFFFFFF)]).onCore 0 fun k => { k with waiters := [{ slot := 1, offset := 0x2000, seen := some 2 }, { slot := 2, offset := 0x2000, seen := none }] }
def b2 : State :=
  { ba [(1, 0xF000000000002000), (2, 0x10)] with pool := ((State.reset.pool.setWord 0x2000 0x00070001FFFFFFF0).setWord 0x2008 0x000000057FFFFFFF) }
def bp (k : BarrierKind) (r : Option Retire) : BarrierPacket :=
  { slot := 0, core := 0, offset := 0x2000, ea := 0xF000000000002000, kind := k, dst := [.win 3], retire := r }
def b3 := net b2 [.barrier (bp (.count 0x20) (some rt))]
def b3b :=
  net { b2 with pool := ((State.reset.pool.setWord 0x2000 0x0007000000000010).setWord 0x2008 0x000000057FFFFFFF) } [.barrier (bp (.count (-16)) (some rt))]
def b4 (k : BarrierKind) := net b2 [.barrier (bp k none)]
def b5 := net { b2 with pool := (State.reset.pool.setWord 0x2000 (-3)) } [.barrier (bp .join none)]
def b6 (p : Packet) :=
  net (b2.onSlot 0 fun x => { x with state := .wait, waiting := some { dst := [.win 3], dead := [.win 1] } }) [p]
def x2 : WaitRequest := { dst := [.win 3], dead := [.win 1] }
def lock1 (s : State) : State :=
  { s with jobs := [(1, some { newJob with pb0 := 2048, pb1 := 2048 + 16384, lockstep := true })] }.onCore 0 fun k => { k with replay := some 5 }
def inb (b : Word) (l : List Message) := (ba [(2, b)]).onCore 0 fun k => { k with inbox := l }
def m1 : Message := { w0 := 0x111100000000AB06, w1 := 99, openedBy := none }
def m2 : Message := { w0 := 0x2222000000010006, w1 := 98, openedBy := none }
def ms := ba [(1, 0x1234567800000041), (2, 55)]
def mp : MessagePacket :=
  { job := 1, core := 0, w0 := 0x12345678000000006, w1 := 55, poster := .slot 64, sender := some 64, lands := [.win 3], follows := none }
def mm :=
  net (base.onSlot 64 fun _ => { thread [] with regs := [(3, { val := 5, pres := .empty, owed := true })], sends := 1 }) [.message mp]
def x3  := { newJob with }

theorem witness_NearAccessesAndAtomics :
    (n1.net[0]? = some (Packet.near (np (NearKind.load true true)))) ∧
    (n1.arrivesNext 0 = true) ∧
    (n1.lostTile (n1.slot (np (NearKind.load true true)).slot).job (np (NearKind.load true true)).core = false) ∧
    ((np (NearKind.load true true)).kind = NearKind.load true true) ∧
    ((n1.slot (np (NearKind.load true true)).slot).landable (np (NearKind.load true true)).dst = true) ∧
    (n1.leafCheckAt (np (NearKind.load true true)).core (np (NearKind.load true true)).offset (np (NearKind.load true
      true)).size true (np (NearKind.load true true)).accepted none = LeafCheck.ready) ∧
    (n2.net[0]? = some (Packet.near (np (NearKind.store [1, 2, 3, 4, 5, 6, 7, 8])))) ∧
    (n2.arrivesNext 0 = true) ∧
    (n2.lostTile (n2.slot (np (NearKind.store [1, 2, 3, 4, 5, 6, 7, 8])).slot).job (np (NearKind.store [1, 2, 3, 4, 5, 6, 7,
      8])).core = false) ∧
    ((np (NearKind.store [1, 2, 3, 4, 5, 6, 7, 8])).kind = NearKind.store [1, 2, 3, 4, 5, 6, 7, 8]) ∧
    (n2.leafCheckAt (np (NearKind.store [1, 2, 3, 4, 5, 6, 7, 8])).core (np (NearKind.store [1, 2, 3, 4, 5, 6, 7,
      8])).offset (np (NearKind.store [1, 2, 3, 4, 5, 6, 7, 8])).size false (np (NearKind.store [1, 2, 3, 4, 5, 6, 7,
      8])).accepted none = LeafCheck.ready) ∧
    (n3.net[0]? = some (Packet.atomic (ap (some 1) 12280))) ∧
    (n3.arrivesNext 0 = true) ∧
    ((ap (some 1) 12280).departed = false) ∧
    ((ap (some 1) 12280).core = some 1) ∧
    (n3.lostTile ((n3.tile (tileOfSlot (ap (some 1) 12280).slot)).owner.getD 0) 1 = false) ∧
    (n3.leafCheckAt 1 (ap (some 1) 12280).addr (atomicSize (ap (some 1) 12280).op) true (ap (some 1) 12280).accepted none =
      LeafCheck.ready) ∧
    (n4.net[0]? = some (Packet.atomic (ap none 8200))) ∧
    (n4.arrivesNext 0 = true) ∧
    ((ap none 8200).departed = false) ∧
    ((ap none 8200).core = none) ∧
    (n4.ownStoreAhead 0 (ap none 8200).slot (ap none 8200).addr (atomicSize (ap none 8200).op) = false) ∧
    (n4.ownReadAhead 0 (ap none 8200).slot (ap none 8200).addr (atomicSize (ap none 8200).op) = false) ∧
    (n4.isOurs (ap none 8200).addr = true) ∧
    (n4.proxiedAhead (dieOfTile (tileOfSlot (ap none 8200).slot)) (ap none 8200).addr none = false) ∧
    (n4.armed (ap none 8200).addr = false) ∧
    (heldAt n4 (n4.homeOf ((n4.tile (tileOfSlot (ap none 8200).slot)).owner.getD 0) (ap none 8200).addr) (ap none 8200).addr
      AccKind.atomic (atomicOpOf (ap none 8200).op) x1) := by
  and_intros <;> first | decide | rfl | (simp only [heldAt]; decide) | simp

theorem witness_WalkersTranslate :
    (storeGet noWalks ((w0 AccKind.write 13835058055282491398).tile (1 / 4)).mailboxes (1 % 4) = [wr AccKind.write]) ∧
    (((w0 AccKind.write 13835058055282491398).tile (1 / 4)).walkWaiting = []) ∧
    ((w0 AccKind.write 13835058055282491398).walk (wr AccKind.write).slice (wr AccKind.write).va = Walk.leaf 262144 lf) ∧
    ((wr AccKind.write).who = Requester.slot 0) ∧
    (lf.allows (wr AccKind.write).kind = true) ∧
    ((w0 AccKind.write 13835058055282491398).armedAt 262144 = []) ∧
    (storeGet noWalks ((w0 AccKind.write 13839561654908813318).tile (1 / 4)).mailboxes (1 % 4) = [wr AccKind.write]) ∧
    (((w0 AccKind.write 13839561654908813318).tile (1 / 4)).walkWaiting = []) ∧
    ((w0 AccKind.write 13839561654908813318).walk (wr AccKind.write).slice (wr AccKind.write).va = Walk.leaf 262144 lf2) ∧
    (lf2.allows (wr AccKind.write).kind = true) ∧
    ((w0 AccKind.write 13839561654908813318).armedAt 262144 = []) ∧
    (storeGet noWalks (wcached.tile (1 / 4)).mailboxes (1 % 4) = [wr AccKind.read]) ∧
    ((wcached.tile (1 / 4)).walkWaiting = []) ∧
    (wcached.walk (wr AccKind.read).slice (wr AccKind.read).va = Walk.leaf 262144 lf) ∧
    ((wr AccKind.read).who = Requester.slot 0) ∧
    (lf.allows (wr AccKind.read).kind = true) ∧
    (wcached.armedAt 262144 = []) := by
  and_intros <;> first | decide | rfl | simp

theorem witness_BarriersAndWaits :
    (ownObject b1 (val b1 1) 16 8192) ∧
    (usable b1 [1, 2] [] = true) ∧
    (served b1 8192 16 false) ∧
    (ownObject b2 (val b2 1) 16 8192) ∧
    (usable b2 [1, 2] [5] = true) ∧
    (served b2 8192 16 true) ∧
    (mayRelease b2) ∧
    (usable b2 [1] [5] = true) ∧
    (b3.net[0]? = some (Packet.barrier (bp (BarrierKind.count 32) (some rt)))) ∧
    ((bp (BarrierKind.count 32) (some rt)).kind = BarrierKind.count 32) ∧
    (b3.arrivesNext 0 = true) ∧
    (b3.lostTile (b3.slot (bp (BarrierKind.count 32) (some rt)).slot).job (bp (BarrierKind.count 32) (some rt)).core =
      false) ∧
    (b3.leafCheckAt (bp (BarrierKind.count 32) (some rt)).core (bp (BarrierKind.count 32) (some rt)).offset 16 true (bp
      (BarrierKind.count 32) (some rt)).accepted none = LeafCheck.ready) ∧
    (b3b.net[0]? = some (Packet.barrier (bp (BarrierKind.count (-16)) (some rt)))) ∧
    ((bp (BarrierKind.count (-16)) (some rt)).kind = BarrierKind.count (-16)) ∧
    (b3b.arrivesNext 0 = true) ∧
    (b3b.lostTile (b3b.slot (bp (BarrierKind.count (-16)) (some rt)).slot).job (bp (BarrierKind.count (-16)) (some rt)).core
      = false) ∧
    (b3b.leafCheckAt (bp (BarrierKind.count (-16)) (some rt)).core (bp (BarrierKind.count (-16)) (some rt)).offset 16 true
      (bp (BarrierKind.count (-16)) (some rt)).accepted none = LeafCheck.ready) ∧
    (ownObject b2 (val b2 1) 8 8192) ∧
    ((b4 (BarrierKind.wait 6)).net[0]? = some (Packet.barrier (bp (BarrierKind.wait 6) none))) ∧
    ((b4 (BarrierKind.wait 6)).arrivesNext 0 = true) ∧
    ((b4 (BarrierKind.wait 6)).lostTile ((b4 (BarrierKind.wait 6)).slot (bp (BarrierKind.wait 6) none).slot).job (bp
      (BarrierKind.wait 6) none).core = false) ∧
    ((bp (BarrierKind.wait 6) none).retire = none) ∧
    ((bp (BarrierKind.wait 6) none).kind = BarrierKind.wait 6) ∧
    ((b4 (BarrierKind.wait 6)).leafCheckAt (bp (BarrierKind.wait 6) none).core (bp (BarrierKind.wait 6) none).offset 16 true
      (bp (BarrierKind.wait 6) none).accepted none = LeafCheck.ready) ∧
    (6 ≠ phase ((b4 (BarrierKind.wait 6)).pool.word (poolAt (bp (BarrierKind.wait 6) none).core (bp (BarrierKind.wait 6)
      none).offset))) ∧
    ((b4 (BarrierKind.wait 7)).net[0]? = some (Packet.barrier (bp (BarrierKind.wait 7) none))) ∧
    ((b4 (BarrierKind.wait 7)).arrivesNext 0 = true) ∧
    ((b4 (BarrierKind.wait 7)).lostTile ((b4 (BarrierKind.wait 7)).slot (bp (BarrierKind.wait 7) none).slot).job (bp
      (BarrierKind.wait 7) none).core = false) ∧
    ((bp (BarrierKind.wait 7) none).retire = none) ∧
    ((bp (BarrierKind.wait 7) none).kind = BarrierKind.wait 7) ∧
    ((b4 (BarrierKind.wait 7)).leafCheckAt (bp (BarrierKind.wait 7) none).core (bp (BarrierKind.wait 7) none).offset 16 true
      (bp (BarrierKind.wait 7) none).accepted none = LeafCheck.ready) ∧
    (7 = phase ((b4 (BarrierKind.wait 7)).pool.word (poolAt (bp (BarrierKind.wait 7) none).core (bp (BarrierKind.wait 7)
      none).offset))) ∧
    (((b4 (BarrierKind.wait 7)).core (bp (BarrierKind.wait 7) none).core).waiters.length < 64) ∧
    (b5.net[0]? = some (Packet.barrier (bp BarrierKind.join none))) ∧
    (b5.arrivesNext 0 = true) ∧
    (b5.lostTile (b5.slot (bp BarrierKind.join none).slot).job (bp BarrierKind.join none).core = false) ∧
    ((bp BarrierKind.join none).retire = none) ∧
    ((bp BarrierKind.join none).kind = BarrierKind.join) ∧
    (b5.leafCheckAt (bp BarrierKind.join none).core (bp BarrierKind.join none).offset 8 true (bp BarrierKind.join
      none).accepted none = LeafCheck.ready) ∧
    (BitVec.toInt (b5.pool.word (poolAt (bp BarrierKind.join none).core (bp BarrierKind.join none).offset)) ≤ 0) ∧
    (((b6 (Packet.barReply 0 7)).slot 0).waiting = some x2) ∧
    ((b6 (Packet.barReply 0 7)).net[0]? = some ((Instr.barWaitReply, Packet.barReply).snd 0 7)) ∧
    ((b6 (Packet.barReply 0 7)).pairHolds 0 = false) ∧
    (((b6 (Packet.barReply 0 7)).slot 0).landable x2.dst = true) ∧
    (((b6 (Packet.joinReply 0 7)).slot 0).waiting = some x2) ∧
    ((b6 (Packet.joinReply 0 7)).net[0]? = some ((Instr.joinReply, Packet.joinReply).snd 0 7)) ∧
    ((b6 (Packet.joinReply 0 7)).pairHolds 0 = false) ∧
    (((b6 (Packet.joinReply 0 7)).slot 0).landable x2.dst = true) ∧
    (((lock1 (b6 (Packet.joinReply 0 7))).slot 0).waiting = some x2) ∧
    ((lock1 (b6 (Packet.joinReply 0 7))).net[0]? = some ((Instr.joinReply, Packet.joinReply).snd 0 7)) ∧
    ((lock1 (b6 (Packet.joinReply 0 7))).pairHolds 0 = true) := by
  and_intros <;> first | decide | rfl | (simp only [served, ownObject]; decide) | simp

theorem witness_Messages :
    ((Instr.ipop 4 2 true).wellFormed = true) ∧
    (usable (inb 6 [m2, m1]) [2] [4, 4 + 1] = true) ∧
    (List.filter (fun m ↦ BitVec.extractLsb' 16 6 m.w0 == BitVec.ofNat 6 ((inb 6 [m2, m1]).focus % 64) && m.openedBy.isNone
      && (BitVec.setWidth 8 (val (inb 6 [m2, m1]) 2) == 0#8 || BitVec.setWidth 8 m.w0 == BitVec.setWidth 8 (val (inb 6 [m2,
      m1]) 2))) ((inb 6 [m2, m1]).core (coreOfSlot (inb 6 [m2, m1]).focus)).inbox = [m1]) ∧
    (usable (inb 0 [m2, m1]) [2] [4, 4 + 1] = true) ∧
    (List.filter (fun m ↦ BitVec.extractLsb' 16 6 m.w0 == BitVec.ofNat 6 ((inb 0 [m2, m1]).focus % 64) && m.openedBy.isNone
      && (BitVec.setWidth 8 (val (inb 0 [m2, m1]) 2) == 0#8 || BitVec.setWidth 8 m.w0 == BitVec.setWidth 8 (val (inb 0 [m2,
      m1]) 2))) ((inb 0 [m2, m1]).core (coreOfSlot (inb 0 [m2, m1]).focus)).inbox = [m1]) ∧
    (usable (inb 7 [m2, m1]) [2] [4, 4 + 1] = true) ∧
    (List.filter (fun m ↦ BitVec.extractLsb' 16 6 m.w0 == BitVec.ofNat 6 ((inb 7 [m2, m1]).focus % 64) && m.openedBy.isNone
      && (BitVec.setWidth 8 (val (inb 7 [m2, m1]) 2) == 0#8 || BitVec.setWidth 8 m.w0 == BitVec.setWidth 8 (val (inb 7 [m2,
      m1]) 2))) ((inb 7 [m2, m1]).core (coreOfSlot (inb 7 [m2, m1]).focus)).inbox = []) ∧
    (mayRelease ms) ∧
    ((ms.slot ms.focus).sends < 8) ∧
    (ms.tileAtIndex (ms.slot ms.focus).job (BitVec.extractLsb' 8 10 (val ms 1)).toNat = some 0) ∧
    (BitVec.extractLsb' 18 14 (val ms 1) = 0#14) ∧
    (BitVec.toNat (val ms 1) % 64 < 62) ∧
    (usable ms [1, 2] [] = true) ∧
    (usable ms [1, 2] [3] = true) ∧
    (mm.net[0]? = some (Packet.message mp)) ∧
    (mm.arrivesNext 0 = true) ∧
    (mp.follows = none) ∧
    (mm.job mp.job = some x3) ∧
    (x3.phase = JobPhase.running) ∧
    (mm.forwardOf mp.core mp.w0 = none) ∧
    ((mm.tile (mp.core / 4)).owner = some mp.job) ∧
    (mm.lostTile mp.job mp.core = false) ∧
    ((mm.core mp.core).inbox.length < 56) := by
  and_intros <;> first | decide | rfl | simp

end Part6

namespace Part7

def base := machine { thread [(1, 5)] with regs := (3, { val := 0, pres := .empty, owed := true }) :: regsOf [(1, 5)] }
def net (s : State) (ps : List Packet) : State := { s with net := ps }
def sec : Sector :=
  { bytes := (List.range 48).map (BitVec.ofNat 8), dirty := false, owners := [], version := 0, pa := 0x20000, host := false }
def rt : Retire := { dead := [.win 1], owe := [], puts := [], pc := 0x1004, stores := 0, count := 1 }
def sc (s : State) : State := { s with jobs := [(1, some { newJob with pb0 := 2048, pb1 := 2048 + 16384 })] }
def ba (l : List (Nat × Word)) (m : Memory) : State := { sc (machine { thread l with winSize := 8 }) with pool := m }
def m0 : Memory := State.reset.pool
def d1 := ba [(1, 0xF000000000002000), (2, 5), (3, 0x4000)] m0
def d1z := ba [(1, 0xF000000000002000), (2, 5), (3, 0)] m0
def d2 (c : Word) := ba [(1, 0xF000000000002000), (2, 5)] ((m0.setWord 0x2000 c).setWord 0x2008 0x4000)
def dp (k : DepKind) : DepPacket :=
  { slot := 0, core := 0, offset := 0x2000, ea := 0xF000000000002000, kind := k, dst := [], retire := some rt }
def d3 := net (d2 3) [.dep (dp (.add 7))]
def dq (top bot : Nat) :=
  ba [(1, 0xF000000000002000), (2, 0xF000000000003000)] ((((m0.setWord 0x2000 (BitVec.ofNat 64 top)).setWord 0x2008 (BitVec.ofNat 64 (bot * 2^32 + 0x10002800))).setWord 0x3008 0x1111).setWord 0x2840 0x2222)
def qp (k : DequeKind) : DequePacket :=
  { slot := 64, core := 0, offset := 0x2000, ea := 0xF000000000002000, frame := 0x3000, kind := k, dst := [.win 3], retire := some rt }
def q1 (k : DequeKind) := net ((dq 0 2).onSlot 64 fun _ => (base.slot 0)) [.deque (qp k)]
def allowed (s : State) : State :=
  s.onCore 0 fun k => { k with plb := [{ domain := 0, generation := 0, region := 0, rights := 7 }] }
def secB : Sector := { sec with bytes := (List.range 48).map (fun n => BitVec.ofNat 8 (100 + n)), pa := 0x20030 }
def v1 : State := { allowed (ba [(1, 0x2000)] m0) with l2 := [(2 ^ 56 + 8160, some sec), (2 ^ 56 + 8208, some secB)] }
def rc : VatRecord :=
  { words := [0x1000, 0, 0, 0, 0, 11, 12, 13], addr := 0x4000, job := 1, source := none, poster := .device }
def v2 := net v1 [.record 0 0 rc]
def v3 := v1.setSegment 0 0 [rc] true
def v4 : State := { v3 with cyc := 500 }
def v5 : State := { v4 with tiles := [(0, v4.tile 0), (1, { tileAt 0 with owner := some 1 })] }
def t1 := ba [(1, 0xF000000000000100), (2, 0xF000000000002000), (3, 7)] (m0.setWord 0x2000 0xFE00000000004000)
def t1b := ba [(1, 0x0000000000000100), (2, 0xF000000000002000), (3, 7)] m0
def t1y :=
  t1.onCore 0 fun k => { k with arrivals := [{ words := [], pendVal := [], job := 1, origin := none, left := 0, creator := none, warnings := [], poster := .device }] }
def cx : Context :=
  { words := [0x0700000000004000, 1, 2, 3], pendVal := [], job := 1, origin := none, left := 0, creator := none, warnings := [], poster := .slot 64 }
def t3 := t1.onCore 1 fun k => { k with arrivals := [cx] }
def x1  := (t1.onCore 1 fun k => { k with spill := [cx, cx] })
/-- `dequeServed` as a test of one state. -/
def dequeRuns (s : State) (k : DequeKind) (slot core off frame size : Nat) (accepted : Option Nat) : Bool :=
  let own := coreOfSlot slot
  let serves (d at_ n : Nat) (reads : Bool) : Bool :=
    (if core = own then s.slotCheck slot d at_ n reads else s.leafCheckAt d at_ n reads accepted none) == .ready
  serves core off 16 true && match dequeEnds s.pool (poolAt core off) size with
    | none => true
    | some (top, bottom, cap, base) => match dequeMove k top bottom cap with
      | none => true
      | some (i, _) => serves core (base + 64 * (i.toNat % 2 ^ cap)) 64 (k != .spawn) && serves own frame 64 (k == .spawn)

theorem leaves_of_runs {s : State} {k : DequeKind} {slot core off frame size : Nat} {accepted : Option Nat}
    (h : dequeRuns s k slot core off frame size accepted = true) (top bottom : BitVec 32) (cap base : Nat) (i : BitVec 32)
    (ends : BitVec 32 × BitVec 32) (h1 : dequeEnds s.pool (poolAt core off) size = some (top, bottom, cap, base))
    (h2 : dequeMove k top bottom cap = some (i, ends)) :
    (if core = coreOfSlot slot then s.slotCheck slot core (base + 64 * (i.toNat % 2 ^ cap)) 64 (k != .spawn)
        else s.leafCheckAt core (base + 64 * (i.toNat % 2 ^ cap)) 64 (k != .spawn) accepted none) = .ready
      ∧ (if core = coreOfSlot slot then s.slotCheck slot (coreOfSlot slot) frame 64 (k == .spawn)
        else s.leafCheckAt (coreOfSlot slot) frame 64 (k == .spawn) accepted none) = .ready := by
  simp only [dequeRuns, h1, h2, Bool.and_eq_true, beq_iff_eq] at h
  exact h.2

theorem witness_DependenceCounters :
    (ownObject d1 (val d1 1) 16 8192) ∧
    ((Instr.depInit 1 2 true false).wellFormed = true) ∧
    (usable d1 [1, 2, 2 + 1] [] = true) ∧
    (served d1 8192 16 false) ∧
    (val d1 (2 + 1) = 0 ∨ region (val d1 (2 + 1)) = 0 ∧ BitVec.toNat (val d1 (2 + 1)) + 64 ≤ 2 ^ 56 ∧ BitVec.toNat (val d1
      (2 + 1)) % 64 = 0) ∧
    (ownObject d1z (val d1z 1) 16 8192) ∧
    ((Instr.depInit 1 2 true true).wellFormed = true) ∧
    (usable d1z [1, 2, 2 + 1] [] = true) ∧
    (served d1z 8192 16 false) ∧
    (val d1z (2 + 1) = 0 ∨ region (val d1z (2 + 1)) = 0 ∧ BitVec.toNat (val d1z (2 + 1)) + 64 ≤ 2 ^ 56 ∧ BitVec.toNat (val
      d1z (2 + 1)) % 64 = 0) ∧
    (ownObject (d2 3) (val (d2 3) 1) 16 8192) ∧
    (mayRelease (d2 3)) ∧
    (served (d2 3) 8192 16 true) ∧
    (usable (d2 3) [1, 2] [] = true) ∧
    (ownObject (d2 1) (val (d2 1) 1) 16 8192) ∧
    (mayRelease (d2 1)) ∧
    (served (d2 1) 8192 16 true) ∧
    (usable (d2 1) [1] [5] = true) ∧
    (0 < BitVec.toInt ((d2 1).pool.word (own (d2 1) 8192))) ∧
    (ownObject (d2 2) (val (d2 2) 1) 16 8192) ∧
    (mayRelease (d2 2)) ∧
    (served (d2 2) 8192 16 true) ∧
    (usable (d2 2) [1] [1] = true) ∧
    (0 < BitVec.toInt ((d2 2).pool.word (own (d2 2) 8192))) ∧
    (ownObject (d2 0) (val (d2 0) 1) 16 8192) ∧
    (mayRelease (d2 0)) ∧
    (served (d2 0) 8192 16 true) ∧
    (usable (d2 0) [1] [5] = true) ∧
    (BitVec.toInt ((d2 0).pool.word (own (d2 0) 8192)) ≤ 0) ∧
    (ownObject (d2 (-4)) (val (d2 (-4)) 1) 16 8192) ∧
    (mayRelease (d2 (-4))) ∧
    (served (d2 (-4)) 8192 16 true) ∧
    (usable (d2 (-4)) [1] [0] = true) ∧
    (BitVec.toInt ((d2 (-4)).pool.word (own (d2 (-4)) 8192)) ≤ 0) ∧
    (d3.net[0]? = some (Packet.dep (dp (DepKind.add 7)))) ∧
    ((dp (DepKind.add 7)).kind = DepKind.add 7) ∧
    (d3.arrivesNext 0 = true) ∧
    (d3.lostTile (d3.slot (dp (DepKind.add 7)).slot).job (dp (DepKind.add 7)).core = false) ∧
    (d3.leafCheckAt (dp (DepKind.add 7)).core (dp (DepKind.add 7)).offset 16 true (dp (DepKind.add 7)).accepted none =
      LeafCheck.ready) := by
  and_intros <;> first | decide | rfl | (simp only [served, ownObject]; decide) | simp

theorem witness_Deques :
    (usable (dq 0 2) [1, 2] [3] = true) ∧
    (ownObject (dq 0 2) (val (dq 0 2) 1) 16 8192) ∧
    (ownObject (dq 0 2) (val (dq 0 2) 2) 64 12288) ∧
    (DequeKind.spawn = DequeKind.spawn → mayRelease (dq 0 2)) ∧
    (dequeServed (dq 0 2) DequeKind.spawn (dq 0 2).focus (coreOfSlot (dq 0 2).focus) 8192 12288 ((dq 0
      2).scratchSize (((dq 0 2).coreJob (coreOfSlot (dq 0 2).focus)).getD 0)) none) ∧
    (usable (dq 0 1) [1, 2] [3] = true) ∧
    (ownObject (dq 0 1) (val (dq 0 1) 1) 16 8192) ∧
    (ownObject (dq 0 1) (val (dq 0 1) 2) 64 12288) ∧
    (DequeKind.spawn = DequeKind.spawn → mayRelease (dq 0 1)) ∧
    (dequeServed (dq 0 1) DequeKind.spawn (dq 0 1).focus (coreOfSlot (dq 0 1).focus) 8192 12288 ((dq 0
      1).scratchSize (((dq 0 1).coreJob (coreOfSlot (dq 0 1).focus)).getD 0)) none) ∧
    (DequeKind.take = DequeKind.spawn → mayRelease (dq 0 2)) ∧
    (dequeServed (dq 0 2) DequeKind.take (dq 0 2).focus (coreOfSlot (dq 0 2).focus) 8192 12288 ((dq 0
      2).scratchSize (((dq 0 2).coreJob (coreOfSlot (dq 0 2).focus)).getD 0)) none) ∧
    (usable (dq 1 2) [1, 2] [3] = true) ∧
    (ownObject (dq 1 2) (val (dq 1 2) 1) 16 8192) ∧
    (ownObject (dq 1 2) (val (dq 1 2) 2) 64 12288) ∧
    (DequeKind.take = DequeKind.spawn → mayRelease (dq 1 2)) ∧
    (dequeServed (dq 1 2) DequeKind.take (dq 1 2).focus (coreOfSlot (dq 1 2).focus) 8192 12288 ((dq 1
      2).scratchSize (((dq 1 2).coreJob (coreOfSlot (dq 1 2).focus)).getD 0)) none) ∧
    (usable (dq 4294967295 1) [1, 2] [3] = true) ∧
    (ownObject (dq 4294967295 1) (val (dq 4294967295 1) 1) 16 8192) ∧
    (ownObject (dq 4294967295 1) (val (dq 4294967295 1) 2) 64 12288) ∧
    (DequeKind.steal = DequeKind.spawn → mayRelease (dq 4294967295 1)) ∧
    (dequeServed (dq 4294967295 1) DequeKind.steal (dq 4294967295 1).focus (coreOfSlot (dq 4294967295
      1).focus) 8192 12288 ((dq 4294967295 1).scratchSize (((dq 4294967295 1).coreJob (coreOfSlot (dq 4294967295
      1).focus)).getD 0)) none) ∧
    (usable (dq 1 1) [1, 2] [3] = true) ∧
    (ownObject (dq 1 1) (val (dq 1 1) 1) 16 8192) ∧
    (ownObject (dq 1 1) (val (dq 1 1) 2) 64 12288) ∧
    (DequeKind.steal = DequeKind.spawn → mayRelease (dq 1 1)) ∧
    (dequeServed (dq 1 1) DequeKind.steal (dq 1 1).focus (coreOfSlot (dq 1 1).focus) 8192 12288 ((dq 1
      1).scratchSize (((dq 1 1).coreJob (coreOfSlot (dq 1 1).focus)).getD 0)) none) ∧
    (usable (ba [(1, 17293822569102712832), (2, 17293822569102716928)] (m0.setWord 8200 4026531840)) [1, 2] [3] = true) ∧
    (ownObject (ba [(1, 17293822569102712832), (2, 17293822569102716928)] (m0.setWord 8200 4026531840)) (val (ba [(1,
      17293822569102712832), (2, 17293822569102716928)] (m0.setWord 8200 4026531840)) 1) 16 8192) ∧
    (ownObject (ba [(1, 17293822569102712832), (2, 17293822569102716928)] (m0.setWord 8200 4026531840)) (val (ba [(1,
      17293822569102712832), (2, 17293822569102716928)] (m0.setWord 8200 4026531840)) 2) 64 12288) ∧
    (DequeKind.steal = DequeKind.spawn → mayRelease (ba [(1, 17293822569102712832), (2,
      17293822569102716928)] (m0.setWord 8200 4026531840))) ∧
    (dequeServed (ba [(1, 17293822569102712832), (2,
          17293822569102716928)] (m0.setWord 8200 4026531840)) DequeKind.steal (ba [(1, 17293822569102712832), (2,
          17293822569102716928)] (m0.setWord 8200 4026531840)).focus
      (coreOfSlot (ba [(1, 17293822569102712832), (2, 17293822569102716928)] (m0.setWord 8200 4026531840)).focus) 8192 12288
      ((ba [(1, 17293822569102712832), (2, 17293822569102716928)] (m0.setWord 8200 4026531840)).scratchSize (((ba [(1,
      17293822569102712832), (2, 17293822569102716928)] (m0.setWord 8200 4026531840)).coreJob (coreOfSlot (ba [(1,
      17293822569102712832), (2, 17293822569102716928)] (m0.setWord 8200 4026531840)).focus)).getD 0)) none) ∧
    ((q1 DequeKind.take).net[0]? = some (Packet.deque (qp DequeKind.take))) ∧
    ((q1 DequeKind.take).arrivesNext 0 = true) ∧
    ((q1 DequeKind.take).lostTile ((q1 DequeKind.take).slot (qp DequeKind.take).slot).job (qp DequeKind.take).core = false) ∧
    (((q1 DequeKind.take).slot (qp DequeKind.take).slot).landable (qp DequeKind.take).dst = true) ∧
    (dequeServed (q1 DequeKind.take) (qp DequeKind.take).kind (qp DequeKind.take).slot (qp DequeKind.take).core (qp
      DequeKind.take).offset (qp DequeKind.take).frame ((q1 DequeKind.take).scratchSize (((q1 DequeKind.take).coreJob (qp
      DequeKind.take).core).getD 0)) (qp DequeKind.take).accepted) ∧
    ((q1 DequeKind.steal).net[0]? = some (Packet.deque (qp DequeKind.steal))) ∧
    ((q1 DequeKind.steal).arrivesNext 0 = true) ∧
    ((q1 DequeKind.steal).lostTile ((q1 DequeKind.steal).slot (qp DequeKind.steal).slot).job (qp DequeKind.steal).core =
      false) ∧
    (((q1 DequeKind.steal).slot (qp DequeKind.steal).slot).landable (qp DequeKind.steal).dst = true) ∧
    (dequeServed (q1 DequeKind.steal) (qp DequeKind.steal).kind (qp DequeKind.steal).slot (qp DequeKind.steal).core (qp
      DequeKind.steal).offset (qp DequeKind.steal).frame ((q1 DequeKind.steal).scratchSize (((q1 DequeKind.steal).coreJob
      (qp DequeKind.steal).core).getD 0)) (qp DequeKind.steal).accepted) ∧
    ((q1 DequeKind.spawn).net[0]? = some (Packet.deque (qp DequeKind.spawn))) ∧
    ((q1 DequeKind.spawn).arrivesNext 0 = true) ∧
    ((q1 DequeKind.spawn).lostTile ((q1 DequeKind.spawn).slot (qp DequeKind.spawn).slot).job (qp DequeKind.spawn).core =
      false) ∧
    (((q1 DequeKind.spawn).slot (qp DequeKind.spawn).slot).landable (qp DequeKind.spawn).dst = true) ∧
    (dequeServed (q1 DequeKind.spawn) (qp DequeKind.spawn).kind (qp DequeKind.spawn).slot (qp DequeKind.spawn).core (qp
      DequeKind.spawn).offset (qp DequeKind.spawn).frame ((q1 DequeKind.spawn).scratchSize (((q1 DequeKind.spawn).coreJob
      (qp DequeKind.spawn).core).getD 0)) (qp DequeKind.spawn).accepted) := by
  and_intros <;> first | decide | rfl | exact fun _ => by simp only [mayRelease]; decide | (refine leaves_of_runs ?_; decide)

theorem witness_VatRecords :
    (usable v1 [1] [] = true) ∧
    (region (val v1 1) = 0) ∧
    (v1.target v1.focus (val v1 1) 64 64 = Target.global 8192) ∧
    (v1.isOurs 8192 = true) ∧
    (v1.permits (coreOfSlot v1.focus) (v1.slot v1.focus).job AccKind.read 8192 = true) ∧
    (∀ (k : Nat), k < 8 → heldAt v1 (v1.homeOf (v1.slot v1.focus).job (8192 + 8 * k)) (8192 + 8 * k) AccKind.read none (if k
      < 2 then sec else secB)) ∧
    (mayRelease v1) ∧
    (v1.segmentLoad (v1.segmentOf (v1.slot v1.focus).job ((List.map (fun k ↦ BitVec.ofNat 64 (natOfBytes (bytesIn (if k < 2
      then sec else secB) (8192 + 8 * k) 8))) (List.range 8)).getD 1 0)).fst (v1.segmentOf (v1.slot v1.focus).job ((List.map
      (fun k ↦ BitVec.ofNat 64 (natOfBytes (bytesIn (if k < 2 then sec else secB) (8192 + 8 * k) 8))) (List.range 8)).getD 1
      0)).snd < 256) ∧
    (v2.net[0]? = some (Packet.record 0 0 rc)) ∧
    (v2.arrivesNext 0 = true) ∧
    ((v2.tile 0).cession = none) ∧
    (v2.segmentOf rc.job (rc.words.getD 1 0) = (0, 0)) ∧
    (((v2.tile 0).segment 0).length < 256) ∧
    ((v3.tile 0).segment ((0 : Reg).toNat) = [rc]) ∧
    ((v3.tile 0).segment (1 - (0 : Reg).toNat) = []) ∧
    (v3.jobHalted rc.job = false) ∧
    (v3.takerOf 0 true rc = some 1) ∧
    ((v4.tile 0).seg0 = [rc]) ∧
    (BitVec.getLsbD (rc.words.getD 1 0) 36 = false) ∧
    ((v4.tile 0).headSince0 + 400 ≤ v4.cyc) ∧
    (v4.jobHalted rc.job = false) ∧
    (v4.nearestTaker 0 rc = none) ∧
    ((v5.tile 0).seg0 = [rc]) ∧
    ((v5.tile 0).headSince0 + 400 ≤ v5.cyc) ∧
    (v5.jobHalted rc.job = false) ∧
    (v5.nearestTaker 0 rc = some 1) ∧
    (v5.takerOf 1 false rc = some 4) := by
  and_intros <;> first | decide | rfl | (simp only [heldAt]; decide) | simp

theorem witness_ThreadsMove :
    (isUserSlot t1.focus = true) ∧
    ((t1.slot t1.focus).lease = LeaseState.none) ∧
    ((t1.slot t1.focus).anyOwed [] = false) ∧
    (t1.vectorPending t1.focus = false) ∧
    ((t1.tile (tileOfSlot t1.focus)).arrayOps = []) ∧
    (mayRelease t1) ∧
    (usable t1b [1] [] = true) ∧
    (t1b.movable t1b.focus = true) ∧
    (t1b.mustStay t1b.focus = false) ∧
    (t1b.moveTarget t1b.focus (val t1b 1) = Except.ok 1) ∧
    (t1b.seesAhead t1b.focus 1 = false) ∧
    (¬((t1.core (coreOfSlot t1.focus)).arrivals ≠ [] ∨ t1.recordOffered (coreOfSlot t1.focus) = true ∧ t1.freeSlotsOf
      (coreOfSlot t1.focus) = []) ∨ t1.movable t1.focus = false ∨ t1.mustStay t1.focus = true) ∧
    ((t1y.core (coreOfSlot t1y.focus)).arrivals ≠ [] ∨ t1y.recordOffered (coreOfSlot t1y.focus) = true ∧ t1y.freeSlotsOf
      (coreOfSlot t1y.focus) = []) ∧
    (t1y.movable t1y.focus = true) ∧
    (t1y.mustStay t1y.focus = false) ∧
    (usable (ba [(1, 256), (2, 17293822569102712832), (3, 7)] (m0.setWord 8192 18302628885633712128)) [1, 2] [4] = true) ∧
    ((ba [(1, 256), (2, 17293822569102712832), (3, 7)] (m0.setWord 8192 18302628885633712128)).moveTarget (ba [(1, 256), (2,
      17293822569102712832), (3, 7)] (m0.setWord 8192 18302628885633712128)).focus (val (ba [(1, 256), (2,
      17293822569102712832), (3, 7)] (m0.setWord 8192 18302628885633712128)) 1) = Except.ok 1) ∧
    (region (val (ba [(1, 256), (2, 17293822569102712832), (3, 7)] (m0.setWord 8192 18302628885633712128)) 2) = 240) ∧
    (ownObject (ba [(1, 256), (2, 17293822569102712832), (3, 7)] (m0.setWord 8192 18302628885633712128)) (val (ba [(1, 256),
      (2, 17293822569102712832), (3, 7)] (m0.setWord 8192 18302628885633712128)) 2) 64 8192) ∧
    (served (ba [(1, 256), (2, 17293822569102712832), (3, 7)] (m0.setWord 8192 18302628885633712128)) 8192 64 true) ∧
    (((ba [(1, 256), (2, 17293822569102712832), (3, 7)] (m0.setWord 8192 18302628885633712128)).slot (ba [(1, 256), (2,
      17293822569102712832), (3, 7)] (m0.setWord 8192 18302628885633712128)).focus).lease = LeaseState.none) ∧
    (mayRelease (ba [(1, 256), (2, 17293822569102712832), (3, 7)] (m0.setWord 8192 18302628885633712128))) ∧
    (((ba [(1, 256), (2, 17293822569102712832), (3, 7)] (m0.setWord 8192 18302628885633712128)).core (coreOfSlot (ba [(1,
      256), (2, 17293822569102712832), (3, 7)] (m0.setWord 8192 18302628885633712128)).focus)).created < 256) ∧
    ((net t1 [Packet.context 1 cx none []]).net[0]? = some (Packet.context 1 cx none [])) ∧
    ((net t1 [Packet.context 1 cx none []]).arrivesNext 0 = true) ∧
    (((net t1 [Packet.context 1 cx none []]).tile (1 / 4)).cession = none) ∧
    ((net t1 [Packet.context 1 cx none []]).contextAhead 1 cx = false) ∧
    (((net t1 [Packet.context 1 cx none []]).core 1).spill = []) ∧
    (((net t1 [Packet.context 1 cx none []]).core 1).arrivals.length < 16) ∧
    ((t3.core 1).arrivals = [cx]) ∧
    (t3.jobHalted cx.job = false) ∧
    ((t3.tile (1 / 4)).cession = none) ∧
    (t3.recordOffered 1 = false) ∧
    (cx.origin = none) ∧
    (cx.creator = none) ∧
    ((t3.freeSlotsOf 1).head? = some 64) ∧
    (t3.freeWindow 1 8 = some 0) ∧
    ((x1.core 1).arrivals.length ≤ 8) ∧
    ((x1.core 1).spill ≠ []) := by
  and_intros <;> first | decide | rfl | (simp only [served, ownObject]; decide) | simp

end Part7

namespace Part8

def base := machine { thread [(1, 5)] with regs := (3, { val := 0, pres := .empty, owed := true }) :: regsOf [(1, 5)] }
def sec : Sector :=
  { bytes := (List.range 48).map (BitVec.ofNat 8), dirty := false, owners := [], version := 0, pa := 0x20000, host := false }
def mapped (s : State) (leaf : Word) : State :=
  { s with ptroot := 0x10000, hbm := ((((s.hbm.setWord 0x10000 0x8000000000020000).setWord 0x20000 0x8000000000030000).setWord 0x30000 0x8000000000040000).setWord 0x40000 leaf) }
def sc (s : State) : State := { s with jobs := [(1, some { newJob with pb0 := 2048, pb1 := 2048 + 16384 })] }
def ba (l : List (Nat × Word)) (m : Memory) : State := { sc (machine { thread l with winSize := 8 }) with pool := m }
def m0 : Memory := State.reset.pool
def tt (s : State) (i : Instr) : State := match exec i s with | .next t => t | _ => s
def tf (s : State) : State := match execTileFetchLine 0 s with | .next t => t | _ => s
def ds (fmt rows cols st addr : Nat) : Word :=
  BitVec.ofNat 64 (fmt * 2^34 + (rows-1) * 2^18 + (cols-1) * 2^26 + st * 2^38 + addr)
def v1 :=
  ba [(1, ds 0 2 3 1 0x1000), (2, ds 0 2 3 1 0x1100), (3, ds 0 2 3 1 0x1200)] ((m0.setWord 0x1000 0x3F80000040000000).setWord 0x1100 0x3F80000040000000)
def v2 := ba [(1, ds 0 2 3 1 0x1000), (2, ds 0 2 3 1 0x1100), (3, ds 0 2 4 1 0x1200)] m0
def vo : VectorOp :=
  { slot := 0, instr := .vadd 3 1 2 true false, a := ds 0 2 3 1 0x1000, b := ds 0 2 3 1 0x1100, d := ds 0 2 3 1 0x1200, mask := 0, frm := 0, dst := [.win 3], spans := [(0x1000, 12)], copies := [], done := false, flags := 5 }
def v3 := ({ base with pool := v1.pool }).onCore 0 fun k => { k with vector := [{ vo with done := true }] }
def x1  := { vo with done := true }
def v4 := ({ v1 with pool := v1.pool }).onCore 0 fun k => { k with vector := [vo] }
def vi : VectorOp :=
  { vo with instr := .vmul 3 1 2 true false, a := ds 5 2 3 1 0x1000, b := ds 5 2 3 1 0x1100, d := ds 5 2 3 1 0x1200 }
def v5 :=
  ({ v1 with pool := (v1.pool.setWord 0x1040 0xFFFEFD).setWord 0x1140 0x7F8081 }).onCore 0 fun k => { k with vector := [vi] }
def vt : VectorOp := { vo with instr := .vtr 3 1 true, d := ds 0 3 2 1 0x1200 }
def unit (o : VectorOp) : State := ({ v1 with pool := v1.pool }).onCore 0 fun k => { k with vector := [o] }
def vcq : VectorOp := { vo with instr := .vcopy 3 1 true, a := ds 9 2 16 1 0x1000, d := ds 9 2 16 1 0x1200 }
def vsm : VectorOp := { vo with instr := .vsum 3 1 true, a := ds 0 2 3 1 0x1000, d := ds 0 2 1 1 0x1200 }
def vqo (f g : Nat) : VectorOp := { vo with instr := .vq 3 1 true, a := ds f 2 32 3 0x1000, d := ds g 2 32 1 0x1200 }
def vdo (f g : Nat) : VectorOp := { vo with instr := .vdq 3 1 true, a := ds g 2 32 1 0x1000, d := ds f 2 32 3 0x1200 }
def unit2 (o : VectorOp) : State :=
  ({ v1 with pool := (v1.pool.setBytes 0x1000 ((List.range 130).map fun i => BitVec.ofNat 8 (i * i * 37 + i / 3))).setBytes 0x1040 ((List.range 50).map fun i => BitVec.ofNat 8 (i * i * 31 + i / 3)) }).onCore 0 fun k => { k with vector := [o] }
def l1 := ba [(1, 5), (2, 7)] m0
def l2 := ba [(1, 65), (2, 7)] m0
def x2  := (l1.onSlot 0 fun x => { x with lease := .spent })
def l3 :=
  (l1.onSlot 0 fun x => { x with lease := .held, budget := 5, remain := 3 }).onTile 0 fun t => { t with holder := some 0 }
def lq :=
  (l1.onSlot 0 fun x => { x with lease := .queued, budget := 9, leaseDst := [.win 3], regs := (3, { val := 0, pres := .empty, owed := true }) :: x.regs }).onTile 0 fun t => { t with leaseQueues := [(0, [(0, 9), (1, 4)])] }
def l4 :=
  ((l1.onSlot 64 fun _ => { thread [] with lease := .queued, budget := 9 })).onTile 0 fun t => { t with leaseQueues := [(1, [(64, 9)])], lastGrant := 1 }
def l5 := (l3.onTile 0 fun t => { t with leaseQueues := [(1, [(64, 9)])] }).onCore 0 fun k => { k with clock := 5000 }
def trs (p : Nat) : Translation :=
  { slice := p, page := 0, size := 0x10000, frame := 0x50000, host := false, r := true, w := true, x := false, dirty := true, heap := false, hstate := 0, epoch := 0, av := false, adie := 0 }
def allowed (s : State) : State :=
  s.onCore 0 fun k => { k with plb := [{ domain := 0, generation := 0, region := 0, rights := 7 }] }
def pool5 :=
  (((((m0.setWord 0x1000 0x2000).setWord 0x1008 32).setWord 0x1010 (16 + 2 * 2^40)).setWord 0x1020 0x3000).setWord 0x1028 128).setWord 0x1030 (16 + 2 * 2^40)
def l6 : State :=
  mapped (allowed ((({ l3 with pool := pool5 }).onSlot 0 fun x => { x with remain := 1, regs := regsOf [(1, 0xF000000000001000), (2, 0xF000000000001020), (3, 0)] }).onTile 0 fun t => { t with translations := [trs 0, trs 1] })) 0xC000000000050026
def x3 : List Page := [{ first := 0, frame := 0x50000, host := false }]
def x4  := (l6.onSlot 0 fun x => { x with lease := .none })
def l7 :=
  { l6 with pool := pool5 }.onSlot 0 fun x => { x with regs := regsOf [(1, 0xF000000000001000), (2, 1), (3, 0x1000)] }
def op6 : ArrayOp :=
  ((tt l6 (.mm 3 1 2 true false)).tile 0).arrayOps.headD { slot := 0, instr := none, sel := 0, a := 0, b := 0, descA := [], descB := [], fmtA := 0, fmtB := 0, scl0 := 0, scl1 := 0, dst := [], spans := [], copies := [], copy := 0, pages := [], lines := [], pinned := [], stores := [], sent := 0, done := true, status := 0, flags := 0 }
def l8 := tt l6 (.mm 3 1 2 true false)
def op9 : ArrayOp := { op6 with lines := (List.range 80).map fun k => (k, []) }
def l9 := (l6.onTile 0 fun t => { t with arrayOps := [op9] })
def secB : Sector := { sec with bytes := (List.range 48).map (fun n => BitVec.ofNat 8 (100 + n)), pa := 0x20030 }
def l8h : State := { l8 with l2 := [(2 ^ 56 + 8160, some sec), (2 ^ 56 + 8208, some secB)] }
def l8p : Option (List Byte × State) := l8h.pageBytes 1 0 op6.pages (op6.lineSpan 0).1 (op6.lineSpan 0).2
def l8s : State := (l8p.getD ([], l8h)).2
def l8q : Option (State × List Nat) := l8s.pinKeys true (l8h.lineKeys 1 (op6.lineSpan 0).1 (op6.lineSpan 0).2) op6.pinned
def opc (i : Instr) (sel a b : Word) : ArrayOp :=
  { op6 with instr := some i, sel := sel, a := a, b := b, descA := [], descB := [], lines := [] }
def acc0 : List (Nat × AccElem) :=
  [(0, { sum := 0x19800000000000000, isEmpty := false, nan := false, nx := false, anchor := 0x7c0 }), (1, { sum := 0xbf48000000000000, isEmpty := false, nan := false, nx := false, anchor := 0x7c2 })]
def l11 (o : ArrayOp) :=
  (({ base with acc := acc0 }.onSlot 0 fun x => x).onTile 0 fun t => { t with arrayOps := [o], holder := some 0 })
def oc := opc (.accClr 3) 0 0 0
def sp16 : Memory := m0.setBytes 0x1000 ((List.range 80).map fun i => BitVec.ofNat 8 (i * i * 37 + i / 3))
def ord_ := { opc (.accRd 3 1 true) 0 (ds 0 2 3 1 0x1800) 0 with scl0 := 0xF000000000001000, scl1 := 0 }
def one : FVal := .fin false 1 0
def scs (k : Nat) : List FVal := (List.range k).map fun i => fp32.value (natOfBytes (sp16.bytes (0x1000 + 4 * i) 4))
def l11s (o : ArrayOp) : State :=
  { (l11 o) with pool := sp16, jobs := [(1, some { newJob with pb0 := 2048, pb1 := 2048 + 16384 })] }
def after (o : ArrayOp) (r c : Nat) : State :=
  match ((l11s o).keepConfig o).scales o o.scl0 0 r with | some (_, m) => (match m.scales o o.scl1 0 c with | some (_, v) => v | none => l11s o) | none => l11s o
def ordq := { opc (.accRdq 3 1 true) 0x101 (ds 9 1 32 1 0x1800) 0 with scl0 := 0, scl1 := 0 }
def ost := { opc (.accSt 3 1 2 true false) 0 0x4000 256 with scl0 := 0, scl1 := 0 }
def x5  := { clearedElem 0 with nan := true }
def old := opc (.accLd 3 1 true) 0x1001 (ds 0 2 5 1 0x1000) 0
def oldn := opc (.accLd 3 1 true) 0x1001 (ds 0 1 4 1 0x1000) 0
def l11n : State :=
  { l11s oldn with pool := (m0.setBytes 0x1000 (bytesOfNat 8 0x7F8000017F800000 ++ bytesOfNat 8 0xFF8000007FC00000)) }
def os := opc (.accSv 3 1 2 true false) 0x3000 0xF000000000001000 2
def osr := opc (.accRs 3 1 2 true false) 0x2001 0xF000000000001000 2
def svs (s : State) : State := match execAccOperation 0 s with | .next t => t | _ => s
def l12 : State := { l11 osr with pool := (svs (l11 os)).pool }
def oss : ArrayOp := { opc (.accSt 3 1 2 true false) 0 0x4000 256 with stores := [(0x4000, [1,2,3,4]), (0x4004, [5,6,7,8])] }
def od := { opc (.accClr 3) 0x80 0 0 with done := true, flags := 3 }
def osel := { od with sel := 0x1234567800000080 }

set_option maxRecDepth 4000 in
theorem witness_VectorInstructionsAreAccepted :
    (usable v1 [1, 2, 3] [3] = true) ∧
    (v1.checkVector v1.focus (Instr.vadd 3 1 2 true false) (val v1 1) (val v1 2) (val v1 3) (v1.slot v1.focus).vmask =
          none) ∧
    ((v1.core (coreOfSlot v1.focus)).vector.length < 16) ∧
    ((v1.tile (tileOfSlot v1.focus)).arrayOps = []) ∧
    (usable v1 [1, 3] [3] = true) ∧
    (v1.checkVector v1.focus (Instr.vabs 3 1 true) (val v1 1) 0 (val v1 3) (v1.slot v1.focus).vmask = none) ∧
    (usable v2 [1, 2, 3] [3] = true) ∧
    (plainUser v2 v2.focus = true) ∧
    (v2.checkVector v2.focus (Instr.vadd 3 1 2 true false) (val v2 1) (val v2 2) (val v2 3) (v2.slot v2.focus).vmask = some
      (1, (Instr.vadd 3 1 2 true false).word)) ∧
    ((v3.core 0).vector = [x1]) ∧
    (x1.done = true) ∧
    (usable l6 (List.map (fun x ↦ x.fst) ([(1, true), (2, false)]) ++ [3]) [3] = true) ∧
    (selectorOk (arrayKind (some (Instr.mm 3 1 2 true false))) (val l6 3) = true) ∧
    (limitsOk (arrayKind (some (Instr.mm 3 1 2 true false))) (val l6 3) (arrayWords l6 ([(1, true), (2, false)])).snd =
      true) ∧
    (l6.prepare l6.focus (arrayKind (some (Instr.mm 3 1 2 true false))) (Instr.mm 3 1 2 true false).word (val l6 3)
      (arrayWords l6 ([(1, true), (2, false)])).fst (arrayWords l6 ([(1, true), (2, false)])).snd = Prepared.ok [(8192,
      AccKind.tileFetch)] [] [8192, 32, 2199023255568, 0] [12288, 128, 2199023255568, 0]) ∧
    ((l6.slot l6.focus).lease = LeaseState.held) ∧
    ((arrayKind (some (Instr.mm 3 1 2 true false))).isMatrix = true ∨ arrayKind (some (Instr.mm 3 1 2 true false)) =
      ArrayKind.st → mayRelease l6) ∧
    (l6.tryPages l6.focus [(8192, AccKind.tileFetch)] = PageTry.ok x3) ∧
    ((l6.tile (tileOfSlot l6.focus)).arrayOps.length < 8) ∧
    ((l6.core (coreOfSlot l6.focus)).vector = []) ∧
    (usable x4 (List.map (fun x ↦ x.fst) ([(1, true), (2, false)]) ++ [3]) [3] = true) ∧
    (selectorOk (arrayKind (some (Instr.mm 3 1 2 true false))) (val x4 3) = true) ∧
    (limitsOk (arrayKind (some (Instr.mm 3 1 2 true false))) (val x4 3) (arrayWords x4 ([(1, true), (2, false)])).snd =
      true) ∧
    (x4.prepare x4.focus (arrayKind (some (Instr.mm 3 1 2 true false))) (Instr.mm 3 1 2 true false).word (val x4 3)
      (arrayWords x4 ([(1, true), (2, false)])).fst (arrayWords x4 ([(1, true), (2, false)])).snd = Prepared.ok [(8192,
      AccKind.tileFetch)] [] [8192, 32, 2199023255568, 0] [12288, 128, 2199023255568, 0]) ∧
    ((x4.slot x4.focus).lease = LeaseState.none) ∧
    (plainUser x4 x4.focus = true) ∧
    (usable l7 (List.map (fun x ↦ x.fst) ([(1, true), (2, false)]) ++ [3]) [3] = true) ∧
    (selectorOk (arrayKind (some (Instr.accSv 3 1 2 true false))) (val l7 3) = true) ∧
    (limitsOk (arrayKind (some (Instr.accSv 3 1 2 true false))) (val l7 3) (arrayWords l7 ([(1, true), (2, false)])).snd =
      true) ∧
    (l7.prepare l7.focus (arrayKind (some (Instr.accSv 3 1 2 true false))) (Instr.accSv 3 1 2 true false).word (val l7 3)
      (arrayWords l7 ([(1, true), (2, false)])).fst (arrayWords l7 ([(1, true), (2, false)])).snd = Prepared.ok [] [(4096,
      1280)] [] []) ∧
    ((l7.slot l7.focus).lease = LeaseState.held) ∧
    ((arrayKind (some (Instr.accSv 3 1 2 true false))).isMatrix = true ∨ arrayKind (some (Instr.accSv 3 1 2 true false)) =
      ArrayKind.st → mayRelease l7) ∧
    (l7.tryPages l7.focus [] = PageTry.ok []) ∧
    ((l7.tile (tileOfSlot l7.focus)).arrayOps.length < 8) ∧
    ((l7.core (coreOfSlot l7.focus)).vector = []) := by
  and_intros <;> first | decide | rfl | exact fun _ => by simp only [mayRelease]; decide

set_option maxRecDepth 4000 in
theorem witness_ElementwiseVectorArithmetic :
    (vectorReady v4 0 vo) ∧
    (vo.instr = Instr.vadd 3 1 2 true false) ∧
    ((tileDesc vo.d).fmt ≤ 6 ∨ (tileDesc vo.d).fmt = 10) ∧
    (spansMeet (tileDesc vo.d).spans (List.flatMap TileDesc.spans (tilesAB vo)) = false) ∧
    (vectorReady v5 0 vi) ∧
    (vi.instr = Instr.vmul 3 1 2 true false) ∧
    ((tileDesc vi.d).fmt ≤ 6 ∨ (tileDesc vi.d).fmt = 10) ∧
    (spansMeet (tileDesc vi.d).spans (List.flatMap TileDesc.spans (tilesAB vi)) = false) ∧
    (vectorReady (unit vt) 0 vt) ∧
    (vt.instr = Instr.vtr 3 1 true) ∧
    (vectorReady (unit vcq) 0 vcq) ∧
    (vcq.instr = Instr.vcopy 3 1 true) ∧
    (isQuireCode (tileDesc vcq.d).fmt = true) ∧
    (spansMeet (tileDesc vcq.d).spans (tileDesc vcq.a).spans = false) ∧
    (vectorReady (unit vsm) 0 vsm) ∧
    (vsm.instr = Instr.vsum 3 1 true) ∧
    (vectorReady (unit2 (vqo 0 9)) 0 (vqo 0 9)) ∧
    ((vqo 0 9).instr = Instr.vq 3 1 true) ∧
    (vectorReady (unit2 (vdo 0 9)) 0 (vdo 0 9)) ∧
    ((vdo 0 9).instr = Instr.vdq 3 1 true) := by
  and_intros <;> first | decide | rfl | (simp only [vectorReady]; decide)

set_option maxRecDepth 4000 in
theorem witness_LeasesAndArrayCommands :
    (usable l1 [1] [3] = true) ∧
    (1 ≤ BitVec.toNat (val l1 1)) ∧
    (BitVec.toNat (val l1 1) ≤ 64) ∧
    ((l1.slot l1.focus).lease = LeaseState.none) ∧
    (usable l2 [1] [3] = true) ∧
    (plainUser l2 l2.focus = true) ∧
    (BitVec.toNat (val l2 1) = 0 ∨ 64 < BitVec.toNat (val l2 1) ∨ (l2.slot l2.focus).lease ≠ LeaseState.none) ∧
    (usable x2 [1] [3] = true) ∧
    (plainUser x2 x2.focus = true) ∧
    (BitVec.toNat (val x2 1) = 0 ∨ 64 < BitVec.toNat (val x2 1) ∨ (x2.slot x2.focus).lease ≠ LeaseState.none) ∧
    ((l3.slot l3.focus).lease = LeaseState.held ∨ (l3.slot l3.focus).lease = LeaseState.spent) ∧
    ((l3.slot l3.focus).leaseDst = []) ∧
    ((x2.slot x2.focus).lease = LeaseState.held ∨ (x2.slot x2.focus).lease = LeaseState.spent) ∧
    ((x2.slot x2.focus).leaseDst = []) ∧
    ((lq.slot lq.focus).lease = LeaseState.queued) ∧
    (plainUser l1 l1.focus = true) ∧
    (usable l3 [] [3] = true) ∧
    (usable l1 [] [3] = true) ∧
    ((l4.tile 0).holder = none) ∧
    (List.find? (fun k ↦ (l4.tile 0).requests k != []) [((l4.tile 0).lastGrant + 1) % 4, ((l4.tile 0).lastGrant + 2) % 4,
      ((l4.tile 0).lastGrant + 3) % 4, (l4.tile 0).lastGrant % 4] = some 1) ∧
    ((l4.tile 0).requests 1 = [(64, 9)]) ∧
    ((l5.tile 0).holder = some 0) ∧
    (tileOfSlot 0 = 0) ∧
    ((l5.tile 0).anyRequest = true) ∧
    ((l5.tile 0).idleFrom + 4096 ≤ (l5.core (coreOfSlot 0)).clock) := by
  and_intros <;> first | decide | rfl | simp

set_option maxRecDepth 4000 in
theorem witness_MatrixCommandsAddTheirBlocks :
    (arrayAt l9 0 op9) ∧
    (tileOfSlot op9.slot = 0) ∧
    (op9.instr = some ((Instr.mm, false, false).fst 3 1 2 true false)) ∧
    (op9.lineTotal ≤ op9.lines.length) ∧
    (storeWf clearedElem l9.acc = true) ∧
    ((l8h.tile 0).arrayOps = [op6]) ∧
    (op6.done = false) ∧
    (op6.lines.length < op6.lineTotal) ∧
    (0 < op6.lineTotal) ∧
    (∀ (e : Nat × List Byte), e ∈ op6.lines → e.fst ≠ 0) ∧
    (∀ (m : Nat), m < 0 → ∃ e, e ∈ op6.lines ∧ e.fst = m) ∧
    (l8h.pageBytes (l8h.slot op6.slot).job 0 op6.pages (op6.lineSpan 0).fst (op6.lineSpan 0).snd = some ((l8p.getD ([],
      l8h)).fst, l8s)) ∧
    (l8s.pinKeys true (l8h.lineKeys (l8h.slot op6.slot).job (op6.lineSpan 0).fst (op6.lineSpan 0).snd) op6.pinned = some
      ((l8q.getD (l8h, [])).fst, (l8q.getD (l8h, [])).snd)) := by
  and_intros <;> first | decide | rfl | simp

set_option maxRecDepth 4000 in
theorem witness_AccumulatorOperations :
    (accReady (l11 oc) 0 oc) ∧
    (oc.instr = some (Instr.accClr 3)) ∧
    (storeWf clearedElem (l11 oc).acc = true) ∧
    (accReady (l11s ord_) 0 ord_) ∧
    (scalesRead (l11s ord_) ord_ (tileDesc ord_.a).rows (tileDesc ord_.a).cols (scs 2) [one, one, one] (after ord_ 2 3)) ∧
    ((tileDesc ord_.a).rows = 1 ∨ (tileDesc ord_.a).width ≤ (tileDesc ord_.a).stride) ∧
    (ord_.instr = some (Instr.accRd 3 1 true)) ∧
    ((tileDesc ord_.a).fmt = 0) ∧
    (accReady (l11s ordq) 0 ordq) ∧
    (scalesRead (l11s ordq) ordq (tileDesc ordq.a).rows (tileDesc ordq.a).cols [one] (List.replicate 32 one) (after ordq 1
      32)) ∧
    ((tileDesc ordq.a).rows = 1 ∨ (tileDesc ordq.a).width ≤ (tileDesc ordq.a).stride) ∧
    (ordq.instr = some (Instr.accRdq 3 1 true)) ∧
    (isQuireCode (tileDesc ordq.a).fmt = true) ∧
    (16 * ((tileDesc ordq.a).cols / 16) = (tileDesc ordq.a).cols) ∧
    (accReady (l11s ost) 0 ost) ∧
    (ost.instr = some (Instr.accSt 3 1 2 true false)) ∧
    (scalesRead (l11s ost) ost 64 64 (List.replicate 64 one) (List.replicate 64 one) (after ost 64 64)) ∧
    (region 17293822569102708736 = 240) ∧
    (x5.nan = true) ∧
    ((clearedElem 0).nan = false) ∧
    ((clearedElem 0).isEmpty = true) ∧
    (accReady (l11s old) 0 old) ∧
    (old.instr = some (Instr.accLd 3 1 true)) ∧
    (storeWf clearedElem (l11s old).acc = true) ∧
    ((tileDesc old.a).fmt = 0) ∧
    (selRow old.sel + (tileDesc old.a).rows ≤ 64) ∧
    (selCol old.sel + (tileDesc old.a).cols ≤ 64) ∧
    (accReady l11n 0 oldn) ∧
    (oldn.instr = some (Instr.accLd 3 1 true)) ∧
    (storeWf clearedElem l11n.acc = true) ∧
    ((tileDesc oldn.a).fmt = 0) ∧
    (selRow oldn.sel + (tileDesc oldn.a).rows ≤ 64) ∧
    (selCol oldn.sel + (tileDesc oldn.a).cols ≤ 64) ∧
    (accReady (l11 os) 0 os) ∧
    (selRow os.sel + BitVec.toNat os.b ≤ 64) ∧
    (os.instr = some (Instr.accSv 3 1 2 true false)) ∧
    (accReady l12 0 osr) ∧
    (selRow osr.sel + BitVec.toNat osr.b ≤ 64) ∧
    (osr.instr = some (Instr.accRs 3 1 2 true false)) ∧
    (arrayAt (l11 oss) 0 oss) ∧
    (oss.stores = [(16384, [1, 2, 3, 4]), (16388, [5, 6, 7, 8])]) ∧
    (((l11 oss).slot oss.slot).opc < 32) ∧
    (((l11 od).tile 0).arrayOps = [od]) ∧
    (od.done = true) ∧
    (od.instr.isSome = true) ∧
    (((l11 osel).tile 0).arrayOps = [osel]) ∧
    (osel.done = true) ∧
    (osel.instr.isSome = true) := by
  and_intros <;> first | decide | rfl | (simp only [accReady, arrayAt]; decide) | exact ⟨_, rfl, rfl⟩

end Part8

namespace Part9

def net (s : State) (ps : List Packet) : State := { s with net := ps }
def sec : Sector :=
  { bytes := (List.range 48).map (BitVec.ofNat 8), dirty := false, owners := [], version := 0, pa := 0x20000, host := false }
def held (s : State) (x : Sector) : State := { s with l2 := [(2 ^ 56 + 8160, some x)] }
def mapped (s : State) (leaf : Word) : State :=
  { s with ptroot := 0x10000, hbm := ((((s.hbm.setWord 0x10000 0x8000000000020000).setWord 0x20000 0x8000000000030000).setWord 0x30000 0x8000000000040000).setWord 0x40000 leaf) }
def sc (s : State) : State := { s with jobs := [(1, some { newJob with pb0 := 2048, pb1 := 2048 + 16384 })] }
def ba (l : List (Nat × Word)) (m : Memory) : State := { sc (machine { thread l with winSize := 8 }) with pool := m }
def m0 : Memory := State.reset.pool
def words (m : Memory) (a : Nat) (ws : List Word) : Memory := m.setBytes a (ws.flatMap fun w => bytesOfNat 8 w.toNat)
def ttw (r : Result) (s : State) : State := match r with | .next t => t | _ => s
def allowed (s : State) : State :=
  s.onCore 0 fun k => { k with plb := [{ domain := 0, generation := 0, region := 0, rights := 7 }] }
def blk : List Word := [0xF000000000003000, 0xF000000000003800, 40, 2, 64, 64, 0xF000000000002000, 0x5000]
def c1 := ba [(1, 0xF000000000001000)] (words m0 0x1000 blk)
def nblk : List Word := [0xF000000000003000, 0, 40, 2, 64, 0, 0, 0x5000]
def c2 := ba [(1, 0xF000000000001000)] (words m0 0x1000 nblk)
def cpy : Copy :=
  (((ttw (execCp 3 1 true c1) c1).core 0).copies.getD 0 { id := 1, slot := 0, job := 1, src := 0, dst := 0, bytes := 0, rows := 0, sstride := 0, dstride := 0, bar := 0, hpc := 0, net := false, array := false, delivered := 0, acked := 0, held := [], status := none, cancelling := false, cancels := [], fault := none, notice := none, posted := false })
def c3 := (ba [(1, 1)] c1.pool).onCore 0 fun k => { k with copies := [{ cpy with delivered := 16 }] }
def x1  := { cpy with delivered := 16 }
def withc (x : Copy) : State :=
  { (ba [(1, 1)] ((m0.setWord 0x3000 0x1122334455667788).setWord 0x3040 0x99)).onCore 0 fun k => { k with copies := [x] } with }
def big := { cpy with bytes := 100, sstride := 128, dstride := 256 }
def big2 := { big with delivered := 148 }
def x2  := (withc { big with delivered := 48, bar := 0 })
def x3  := { big with delivered := 48, bar := 0 }
def x4  := (withc { big with delivered := 48 })
def x5  := { big with delivered := 48 }
def x6  := (withc { big with fault := some 3, notice := some true })
def x7  := { big with fault := some 3, notice := some true }
def fin := { big with delivered := 200, acked := 200 }
def fin0 := { fin with hpc := 0 }
def p1 :=
  ba [(1, 5), (2, 0x1ABC000500000000), (3, 0xF000000000001000)] ((m0.setWord 0x1000 0x4000).setWord 0x1008 0x5500000006)
def p2 :=
  (p1.onSlot 0 fun x => { x with bindings := [{ reg := 4, dir := .wr, port := 5 }] }).onCore 0 fun k => { k with queues := [(5, [{ val := 3, marker := false }])] }
def p3 :=
  p1.onCore 0 fun k => { k with stages := (List.range 16).map fun i => { slot := i + 1, id := 0, mask := 0, entry := 0, running := true } }
def p4 :=
  p1.onCore 0 fun k => { k with moves := [{ source := 1, target := 2, slot := 3 }], queues := [(1, [{ val := 9, marker := false }])] }
def x8 : QueueMove := { source := 1, target := 2, slot := 3 }
def x9 : QEntry := { val := 9, marker := false }
def hsec : Sector :=
  { sec with pa := 0x51FE0, bytes := (List.replicate 32 0) ++ bytesOfNat 8 (64 * 2 ^ 32) ++ bytesOfNat 8 0 }
def ref1 : Word := 0xF200000000002000
def hp : HeapPage := { page := 0, hstate := 0, epoch := 0 }
def hb (l : List (Nat × Word)) (hs : List (Nat × Word)) : State :=
  mapped (held ((allowed (sc (machine { thread l with winSize := 8, href := regsOf hs }))).onCore 0 fun k =>
        { k with heapCache := [hp] }) hsec) 0xC000000000058026
def g1 := hb [(1, 8), (2, 55)] [(1, ref1), (2, 0)]
def g1c := g1.onCore 0 fun k => { k with l1 := [(0x2018 / 8, some { val := 0xABCD, owned := false })] }
def g2 := hb [(1, ref1), (2, 55)] [(1, ref1), (2, 0)]

theorem witness_Copies :
    (usable c1 [1] [3] = true) ∧
    (c1.readBlock c1.focus (val c1 1) 8 = Prepared.ok [] [] blk []) ∧
    (c1.copyFault c1.focus (copyBlock blk) false (if false = true then Instr.cpNet 3 1 true else Instr.cp 3 1 true).word =
      none) ∧
    (∀ (e : RowSpan), e ∈ (copyBlock blk).spans false → region e.word ≠ 243) ∧
    (mayRelease c1) ∧
    ((c1.core (coreOfSlot c1.focus)).copies.length + (List.filter (fun h ↦ h.core != coreOfSlot c1.focus) (c1.slot
      c1.focus).handlers).length < 16) ∧
    (usable c2 [1] [3] = true) ∧
    (c2.readBlock c2.focus (val c2 1) 8 = Prepared.ok [] [] nblk []) ∧
    (c2.copyFault c2.focus (copyBlock nblk) true (if true = true then Instr.cpNet 3 1 true else Instr.cp 3 1 true).word =
      none) ∧
    (∀ (e : RowSpan), e ∈ (copyBlock nblk).spans true → region e.word ≠ 243) ∧
    (mayRelease c2) ∧
    ((c2.core (coreOfSlot c2.focus)).copies.length + (List.filter (fun h ↦ h.core != coreOfSlot c2.focus) (c2.slot
      c2.focus).handlers).length < 16) ∧
    (List.find? (fun x ↦ x.id == BitVec.setWidth 32 (val c1 1) && !x.posted) (c1.core (coreOfSlot c1.focus)).copies = none) ∧
    (usable c3 [1] [3] = true) ∧
    (List.find? (fun x ↦ x.id == BitVec.setWidth 32 (val c3 1) && !x.posted) (c3.core (coreOfSlot c3.focus)).copies = some
      x1) ∧
    (((withc big).core 0).running 1 = some big) ∧
    (big.stopped = false) ∧
    (big.fault = none) ∧
    ((withc big).suspended big = false) ∧
    ((withc big).copyTurn 0 big = true) ∧
    (big.net = false) ∧
    ((withc big).sectorTry 0 big PeerAnswer.none = SectorTry.ok) ∧
    ((withc big).copyFair 0 big = true) ∧
    (big.delivered % big.bytes + min 48 (big.bytes * big.rows - big.delivered) ≤ big.bytes) ∧
    (region (big.src + BitVec.ofNat 64 (big.delivered / big.bytes * big.sstride) + BitVec.ofNat 64 (big.delivered %
      big.bytes)) = 240) ∧
    (region (big.dst + BitVec.ofNat 64 (big.delivered / big.bytes * big.dstride) + BitVec.ofNat 64 (big.delivered %
      big.bytes)) = 240) ∧
    (((withc big2).core 0).running 1 = some big2) ∧
    (big2.stopped = false) ∧
    (big2.fault = none) ∧
    ((withc big2).suspended big2 = false) ∧
    ((withc big2).copyTurn 0 big2 = true) ∧
    (big2.net = false) ∧
    ((withc big2).sectorTry 0 big2 PeerAnswer.none = SectorTry.ok) ∧
    ((withc big2).copyFair 0 big2 = true) ∧
    (big2.delivered % big2.bytes + min 48 (big2.bytes * big2.rows - big2.delivered) ≤ big2.bytes) ∧
    (region (big2.src + BitVec.ofNat 64 (big2.delivered / big2.bytes * big2.sstride) + BitVec.ofNat 64 (big2.delivered %
      big2.bytes)) = 240) ∧
    (region (big2.dst + BitVec.ofNat 64 (big2.delivered / big2.bytes * big2.dstride) + BitVec.ofNat 64 (big2.delivered %
      big2.bytes)) = 240) ∧
    ((x2.core 0).running 1 = some x3) ∧
    (x3.acked < x3.delivered) ∧
    (x2.revoking x3 (x3.sector x3.acked) = false) ∧
    (x3.bar = 0) ∧
    ((x4.core 0).running 1 = some x5) ∧
    (x5.acked < x5.delivered) ∧
    (x4.revoking x5 (x5.sector x5.acked) = false) ∧
    (region x5.bar = 240) ∧
    (x4.scratchLeaf 0 (BitVec.toNat x5.bar % 2 ^ 18) = LeafState.full) ∧
    (x4.busyFor 0 (BitVec.toNat x5.bar % 2 ^ 18) 16 0 1 none = false) ∧
    ((x6.core 0).running 1 = some x7) ∧
    (x7.fault = some 3) ∧
    (x7.notice = some true) ∧
    (((withc fin).core 0).running 1 = some fin) ∧
    (fin.stopped = true) ∧
    (fin.acked = fin.delivered) ∧
    (fin.net = false) ∧
    (fin.cancels = []) ∧
    (((withc fin0).core 0).running 1 = some fin0) ∧
    (fin0.stopped = true) ∧
    (fin0.acked = fin0.delivered) ∧
    (fin0.net = false) ∧
    (fin0.cancels = []) := by
  and_intros <;> first | decide | rfl | simp

theorem witness_Pipelines :
    (usable p2 [1, 2] [] = true) ∧
    (p2.endHolder (coreOfSlot p2.focus) (BitVec.toNat (val p2 1) % 16) true = some p2.focus) ∧
    (BitVec.extractLsb' 60 4 (val p2 2) ∈ [1#4, 2#4, 3#4]) ∧
    ((p2.queue (coreOfSlot p2.focus) (BitVec.toNat (val p2 1) % 16)).length < 32) ∧
    (∀ (e : QueueMove), e ∈ (p2.core (coreOfSlot p2.focus)).moves → e.target ≠ BitVec.toNat (val p2 1) % 16) ∧
    ((p2.core (coreOfSlot p2.focus)).splices.length < 8) ∧
    (usable p1 [3] [4] = true) ∧
    (isUserSlot p1.focus = true) ∧
    (descriptor p1 (val p1 3) 4096 16384 6 85) ∧
    ((p1.core (coreOfSlot p1.focus)).stages.length < 16) ∧
    ((p1.freeSlotsOf (coreOfSlot p1.focus)).head? = some 1) ∧
    (p1.freeWindow (coreOfSlot p1.focus) 32 = some 8) ∧
    (1 ≠ p1.focus) ∧
    (usable p3 [3] [4] = true) ∧
    (isUserSlot p3.focus = true) ∧
    (descriptor p3 (val p3 3) 4096 16384 6 85) ∧
    (16 ≤ (p3.core (coreOfSlot p3.focus)).stages.length ∨ p3.freeSlotsOf (coreOfSlot p3.focus) = [] ∨ p3.freeWindow
      (coreOfSlot p3.focus) 32 = none) ∧
    (usable p1 [3] [] = true) ∧
    (∀ (e : StageEntry), e ∈ (p1.core (coreOfSlot p1.focus)).stages → e.slot ≠ p1.focus) ∧
    ((p4.core 0).moves = [x8]) ∧
    (x8.source ≠ x8.target) ∧
    (p4.queue 0 x8.source = [x9]) ∧
    ((p4.queue 0 x8.target).length < 32) := by
  and_intros <;> first | decide | rfl | (simp only [descriptor, ownScratch, served]; decide) | simp

theorem witness_HeapAccesses :
    (hready g1 1) ∧
    (refersTo g1 (refIn g1 1) 8192 hp) ∧
    (usable g1 [1] [] = true) ∧
    (bodyWord g1 8192 (BitVec.toNat (val g1 1)) hsec AccKind.read) ∧
    (hready g1c 1) ∧
    (refersTo g1c (refIn g1c 1) 8192 hp) ∧
    (usable g1c [1] [] = true) ∧
    (bodyWord g1c 8192 (BitVec.toNat (val g1c 1)) hsec AccKind.read) ∧
    (usable g1 [] [3] = true) ∧
    (bodyWord g1 8192 (8 * (1 : Reg).toNat) hsec AccKind.read) ∧
    (usable g1c [] [3] = true) ∧
    (bodyWord g1c 8192 (8 * (1 : Reg).toNat) hsec AccKind.read) ∧
    (usable g1 [2] [] = true) ∧
    (bodyWord g1 8192 (8 * (1 : Reg).toNat) hsec AccKind.write) ∧
    ((g1.slot g1.focus).opc < 32) ∧
    (usable g1c [2] [] = true) ∧
    (bodyWord g1c 8192 (8 * (1 : Reg).toNat) hsec AccKind.write) ∧
    ((g1c.slot g1c.focus).opc < 32) ∧
    (hready g1 2) ∧
    (refIn g1 2 = 0 ∨ ∃ o2 p2, refersTo g1 (refIn g1 2) o2 p2) ∧
    (bodyWord g1 8192 (BitVec.toNat (val g1 1)) hsec AccKind.write) ∧
    (hready g1c 2) ∧
    (refIn g1c 2 = 0 ∨ ∃ o2 p2, refersTo g1c (refIn g1c 2) o2 p2) ∧
    (bodyWord g1c 8192 (BitVec.toNat (val g1c 1)) hsec AccKind.write) ∧
    (hready g2 1) ∧
    (refersTo g2 (refIn g2 1) 8192 hp) ∧
    (usable g2 [1] [] = true) ∧
    (hready g2 2) ∧
    (val g2 1 = 0 ∨ ∃ o2 p2, refersTo g2 (val g2 1) o2 p2) ∧
    (usable g2 [] [3] = true) ∧
    (refIn g2 2 = 0) := by
  and_intros <;> first | decide | rfl | (simp only [refersTo]; decide) | (refine .inl ?_; decide)
                       | (refine .inr ⟨0x2000, hp, ?_⟩; simp only [refersTo]; decide)

end Part9

namespace Part10

def base := machine { thread [(1, 5)] with regs := (3, { val := 0, pres := .empty, owed := true }) :: regsOf [(1, 5)] }
def sec : Sector :=
  { bytes := (List.range 48).map (BitVec.ofNat 8), dirty := false, owners := [], version := 0, pa := 0x20000, host := false }
def held (s : State) (x : Sector) : State := { s with l2 := [(2 ^ 56 + 8160, some x)] }
def mapped (s : State) (leaf : Word) : State :=
  { s with ptroot := 0x10000, hbm := ((((s.hbm.setWord 0x10000 0x8000000000020000).setWord 0x20000 0x8000000000030000).setWord 0x30000 0x8000000000040000).setWord 0x40000 leaf) }
def sc (s : State) : State := { s with jobs := [(1, some { newJob with pb0 := 2048, pb1 := 2048 + 16384 })] }
def ttw (r : Result) (s : State) : State := match r with | .next t => t | _ => s
def allowed (s : State) : State :=
  s.onCore 0 fun k => { k with plb := [{ domain := 0, generation := 0, region := 0, rights := 7 }] }
def hsec : Sector :=
  { sec with pa := 0x51FE0, bytes := (List.replicate 32 0) ++ bytesOfNat 8 (64 * 2 ^ 32) ++ bytesOfNat 8 0 }
def ref1 : Word := 0xF200000000002000
def hp : HeapPage := { page := 0, hstate := 0, epoch := 0 }
def hb (l : List (Nat × Word)) (hs : List (Nat × Word)) : State :=
  mapped (held ((allowed (sc (machine { thread l with winSize := 8, href := regsOf hs }))).onCore 0 fun k =>
        { k with heapCache := [hp] }) hsec) 0xC000000000058026
def n1 := (hb [(1, 20), (2, 0xABCDE)] [(1, ref1)]).onSlot 0 fun x => { x with hbump := 0x2000, hlim := 0x3000 }
def np1 :=
  (hb [(1, 200), (2, 0xABCDE)] [(1, ref1)]).onSlot 0 fun x => { x with hbump := 0x2000, hlim := 0x3000, opc := 30, odc := 1 }
def np2 := (ttw (execNewobj 2 1 2 true false np1) np1).onSlot 0 fun x => { x with opc := 3, odc := 3 }
def n2 := n1.onSlot 0 fun x => { x with hlim := 0x2020 }
def psec (p : Nat) : Sector :=
  { sec with pa := 0x51FE0, bytes := (List.replicate 32 0) ++ bytesOfNat 8 (64 * 2 ^ 32 + 9) ++ bytesOfNat 8 (p * 2^44 + 77) }
def pn (p : Nat) := held n1 (psec p)
def hleaf : Word := 0xC000000000058626
def q1 (b : Word) := mapped { hb [(1, 0), (2, b)] [] with l2 := [] } hleaf
def rg : CompactRange :=
  { job := 1, slot := 0, dst := [.win 3], pages := [0], targetDie := none, walk := none, moving := none, toPages := [(0x10000, 0x10040)], count := 4, held := [] }
def cal (r : CompactRange) : State :=
  { mapped (sc base) hleaf with calenders := [(0, [r])], sets := [{ base := 0x50000, size := 0x20000, channels := [0] }] }
def lfh : Translation := leafTranslation hleaf 0 0 0
def rge := { rg with pages := [], toPages := [] }
def obj (w1 : Word) (r : CompactRange) : State :=
  (cal r).setHbm 0x52000 (bytesOfNat 8 (64 * 2^32 + 9) ++ bytesOfNat 8 w1.toNat)
def lfo : Translation := leafTranslation hleaf 0 0 0x2000
def rgw := { rg with walk := some 0x2000 }
def rgm := { rgw with moving := some (0x2000, 0x10040) }
def obj2 : State := (obj (2^62 + 5) rgm).setHbm 0x40008 (bytesOfNat 8 0xC000000000068226) |>.setHbm 0x52018 [0x77, 0x77]

set_option maxRecDepth 4000 in
theorem witness_HeapAllocationAndPins :
    (usable n1 [1, 2] [] = true) ∧
    (hready n1 2) ∧
    (region (n1.slot n1.focus).hbump = 0) ∧
    (n1.heapPage n1.focus (BitVec.toNat (n1.slot n1.focus).hbump) = some hp) ∧
    ((BitVec.toNat (val n1 1) + 15) / 16 * 16 ≤ 65520) ∧
    (BitVec.toNat (n1.slot n1.focus).hbump + 16 + (BitVec.toNat (val n1 1) + 15) / 16 * 16 ≤ BitVec.toNat (n1.slot
      n1.focus).hlim) ∧
    (BitVec.toNat (n1.slot n1.focus).hbump / 65536 = (BitVec.toNat (n1.slot n1.focus).hbump + 15 + (BitVec.toNat (val n1 1)
      + 15) / 16 * 16) / 65536) ∧
    (hp.hstate = 0) ∧
    (n1.permits (coreOfSlot n1.focus) (n1.slot n1.focus).job AccKind.write (BitVec.toNat (n1.slot n1.focus).hbump) = true) ∧
    (heldAt n1 (n1.homeOf (n1.slot n1.focus).job (BitVec.toNat (n1.slot n1.focus).hbump)) (BitVec.toNat (n1.slot
      n1.focus).hbump) AccKind.write none hsec) ∧
    ((n1.slot n1.focus).allocated (BitVec.toNat (n1.slot n1.focus).hbump) ((BitVec.toNat (val n1 1) + 15) / 16 * 16) < 16 +
      (BitVec.toNat (val n1 1) + 15) / 16 * 16) ∧
    ((n1.slot n1.focus).opc < 32) ∧
    ((n1.slot n1.focus).opc + sectorCount (BitVec.toNat (n1.slot n1.focus).hbump + (n1.slot n1.focus).allocated
      (BitVec.toNat (n1.slot n1.focus).hbump) ((BitVec.toNat (val n1 1) + 15) / 16 * 16)) (16 + (BitVec.toNat (val n1 1) +
      15) / 16 * 16 - (n1.slot n1.focus).allocated (BitVec.toNat (n1.slot n1.focus).hbump) ((BitVec.toNat (val n1 1) + 15) /
      16 * 16)) ≤ 32) ∧
    (usable np1 [1, 2] [] = true) ∧
    (hready np1 2) ∧
    (region (np1.slot np1.focus).hbump = 0) ∧
    (np1.heapPage np1.focus (BitVec.toNat (np1.slot np1.focus).hbump) = some hp) ∧
    ((BitVec.toNat (val np1 1) + 15) / 16 * 16 ≤ 65520) ∧
    (BitVec.toNat (np1.slot np1.focus).hbump + 16 + (BitVec.toNat (val np1 1) + 15) / 16 * 16 ≤ BitVec.toNat (np1.slot
      np1.focus).hlim) ∧
    (BitVec.toNat (np1.slot np1.focus).hbump / 65536 = (BitVec.toNat (np1.slot np1.focus).hbump + 15 + (BitVec.toNat (val
      np1 1) + 15) / 16 * 16) / 65536) ∧
    (np1.permits (coreOfSlot np1.focus) (np1.slot np1.focus).job AccKind.write (BitVec.toNat (np1.slot np1.focus).hbump) =
      true) ∧
    (heldAt np1 (np1.homeOf (np1.slot np1.focus).job (BitVec.toNat (np1.slot np1.focus).hbump)) (BitVec.toNat (np1.slot
      np1.focus).hbump) AccKind.write none hsec) ∧
    ((np1.slot np1.focus).allocated (BitVec.toNat (np1.slot np1.focus).hbump) ((BitVec.toNat (val np1 1) + 15) / 16 * 16) <
      16 + (BitVec.toNat (val np1 1) + 15) / 16 * 16) ∧
    ((np1.slot np1.focus).opc < 32) ∧
    (32 < (np1.slot np1.focus).opc + sectorCount (BitVec.toNat (np1.slot np1.focus).hbump + (np1.slot np1.focus).allocated
      (BitVec.toNat (np1.slot np1.focus).hbump) ((BitVec.toNat (val np1 1) + 15) / 16 * 16)) (16 + (BitVec.toNat (val np1 1)
      + 15) / 16 * 16 - (np1.slot np1.focus).allocated (BitVec.toNat (np1.slot np1.focus).hbump) ((BitVec.toNat (val np1 1)
      + 15) / 16 * 16))) ∧
    (usable np2 [1, 2] [] = true) ∧
    (hready np2 2) ∧
    (region (np2.slot np2.focus).hbump = 0) ∧
    (np2.heapPage np2.focus (BitVec.toNat (np2.slot np2.focus).hbump) = some hp) ∧
    ((BitVec.toNat (val np2 1) + 15) / 16 * 16 ≤ 65520) ∧
    (BitVec.toNat (np2.slot np2.focus).hbump + 16 + (BitVec.toNat (val np2 1) + 15) / 16 * 16 ≤ BitVec.toNat (np2.slot
      np2.focus).hlim) ∧
    (BitVec.toNat (np2.slot np2.focus).hbump / 65536 = (BitVec.toNat (np2.slot np2.focus).hbump + 15 + (BitVec.toNat (val
      np2 1) + 15) / 16 * 16) / 65536) ∧
    (np2.permits (coreOfSlot np2.focus) (np2.slot np2.focus).job AccKind.write (BitVec.toNat (np2.slot np2.focus).hbump) =
      true) ∧
    (heldAt np2 (np2.homeOf (np2.slot np2.focus).job (BitVec.toNat (np2.slot np2.focus).hbump)) (BitVec.toNat (np2.slot
      np2.focus).hbump) AccKind.write none hsec) ∧
    ((np2.slot np2.focus).allocated (BitVec.toNat (np2.slot np2.focus).hbump) ((BitVec.toNat (val np2 1) + 15) / 16 * 16) <
      16 + (BitVec.toNat (val np2 1) + 15) / 16 * 16) ∧
    ((np2.slot np2.focus).opc < 32) ∧
    ((np2.slot np2.focus).opc + sectorCount (BitVec.toNat (np2.slot np2.focus).hbump + (np2.slot np2.focus).allocated
      (BitVec.toNat (np2.slot np2.focus).hbump) ((BitVec.toNat (val np2 1) + 15) / 16 * 16)) (16 + (BitVec.toNat (val np2 1)
      + 15) / 16 * 16 - (np2.slot np2.focus).allocated (BitVec.toNat (np2.slot np2.focus).hbump) ((BitVec.toNat (val np2 1)
      + 15) / 16 * 16)) ≤ 32) ∧
    (usable n2 [1, 2] [] = true) ∧
    (hready n2 2) ∧
    (region (n2.slot n2.focus).hbump = 0) ∧
    (n2.heapPage n2.focus (BitVec.toNat (n2.slot n2.focus).hbump) = some hp) ∧
    (65520 < (BitVec.toNat (val n2 1) + 15) / 16 * 16 ∨ BitVec.toNat (n2.slot n2.focus).hlim < BitVec.toNat (n2.slot
      n2.focus).hbump + 16 + (BitVec.toNat (val n2 1) + 15) / 16 * 16 ∨ BitVec.toNat (n2.slot n2.focus).hbump / 65536 ≠
      (BitVec.toNat (n2.slot n2.focus).hbump + 15 + (BitVec.toNat (val n2 1) + 15) / 16 * 16) / 65536 ∨ hp.hstate ≠ 0) ∧
    (hready (pn 3) 1) ∧
    (refersTo (pn 3) (refIn (pn 3) 1) 8192 hp) ∧
    (headerAt (pn 3) 8192 AccKind.atomic (psec 3)) ∧
    ((pn 3).armed 8192 = false) ∧
    (BitVec.extractLsb' 62 2 (headerWord (psec 3) 8192 1) = 0#2) ∧
    (BitVec.extractLsb' 60 2 (headerWord (psec 3) 8192 1) = 0#2) ∧
    (usable (pn 3) [] [3] = true) ∧
    ((BitVec.extractLsb' 44 16 (headerWord (psec 3) 8192 1)).toNat < 65535) ∧
    (hready (pn 65535) 1) ∧
    (refersTo (pn 65535) (refIn (pn 65535) 1) 8192 hp) ∧
    (headerAt (pn 65535) 8192 AccKind.atomic (psec 65535)) ∧
    ((pn 65535).armed 8192 = false) ∧
    (BitVec.extractLsb' 62 2 (headerWord (psec 65535) 8192 1) = 0#2) ∧
    (BitVec.extractLsb' 60 2 (headerWord (psec 65535) 8192 1) = 0#2) ∧
    (usable (pn 65535) [] [3] = true) ∧
    ((BitVec.extractLsb' 44 16 (headerWord (psec 65535) 8192 1)).toNat = 65535) ∧
    (0 < (BitVec.extractLsb' 44 16 (headerWord (psec 65535) 8192 1)).toNat) ∧
    (hready (pn 0) 1) ∧
    (refersTo (pn 0) (refIn (pn 0) 1) 8192 hp) ∧
    (headerAt (pn 0) 8192 AccKind.atomic (psec 0)) ∧
    ((pn 0).armed 8192 = false) ∧
    (BitVec.extractLsb' 62 2 (headerWord (psec 0) 8192 1) = 0#2) ∧
    (BitVec.extractLsb' 60 2 (headerWord (psec 0) 8192 1) = 0#2) ∧
    ((BitVec.extractLsb' 44 16 (headerWord (psec 0) 8192 1)).toNat = 0) := by
  and_intros <;> first | decide | rfl | (simp only [refersTo, hready, headerAt, heldAt]; decide) | simp

set_option maxRecDepth 4000 in
theorem witness_HeapCompaction :
    (usable (q1 0) [1, 2] [3] = true) ∧
    ((q1 0).target (q1 0).focus (val (q1 0) 1) 65536 65536 = Target.global 0) ∧
    (BitVec.toNat (val (q1 0) 2) / 2 ^ 19 = 0) ∧
    ((q1 0).rangeFault (q1 0).focus 0 (BitVec.toNat (val (q1 0) 2) % 2 ^ 16) = none) ∧
    (BitVec.toNat (val (q1 0) 2) % 2 ^ 16 = 0) ∧
    (usable (q1 1) [1, 2] [3] = true) ∧
    ((q1 1).target (q1 1).focus (val (q1 1) 1) 65536 65536 = Target.global 0) ∧
    (BitVec.toNat (val (q1 1) 2) / 2 ^ 19 = 0) ∧
    ((q1 1).rangeFault (q1 1).focus 0 (BitVec.toNat (val (q1 1) 2) % 2 ^ 16) = none) ∧
    (BitVec.toNat (val (q1 1) 2) % 2 ^ 16 ≠ 0) ∧
    (usable (q1 393217) [1, 2] [3] = true) ∧
    ((q1 393217).target (q1 393217).focus (val (q1 393217) 1) 65536 65536 = Target.global 0) ∧
    (BitVec.toNat (val (q1 393217) 2) / 2 ^ 19 = 0) ∧
    ((q1 393217).rangeFault (q1 393217).focus 0 (BitVec.toNat (val (q1 393217) 2) % 2 ^ 16) = none) ∧
    (BitVec.toNat (val (q1 393217) 2) % 2 ^ 16 ≠ 0) ∧
    (storeWf noSector (cal rg).l2 = true) ∧
    (headRange (cal rg) 0 = some rg) ∧
    (rg.walk = none) ∧
    ((cal rg).rangeWaits rg = false) ∧
    (rg.pages = [0]) ∧
    ((cal rg).heapLeaf 0 = some (262144, lfh)) ∧
    (lfh.hstate = 0) ∧
    (storeWf noSector (cal rge).l2 = true) ∧
    (headRange (cal rge) 0 = some rge) ∧
    (rge.walk = none) ∧
    ((cal rge).rangeWaits rge = false) ∧
    (rge.pages = []) ∧
    (rge.toPages = []) ∧
    (((cal rge).slot rge.slot).landable rge.dst = true) ∧
    (storeWf noSector (obj 5 rgw).l2 = true) ∧
    (headRange (obj 5 rgw) 0 = some rgw) ∧
    ((obj 5 rgw).heapLeaf 8192 = some (262144, lfo)) ∧
    (8192 % 65536 + 16 ≤ 65536) ∧
    ((obj 5 rgw).armed 8192 = false) ∧
    (rgw.walk = some 8192) ∧
    (rgw.moving = none) ∧
    ((obj 5 rgw).rangeWaits rgw = false) ∧
    (rgw.pages = [0]) ∧
    (BitVec.ofNat 64 (natOfBytes ((obj 5 rgw).physBytes (lfo.frame + 8192 % 65536) 8)) ≠ 0) ∧
    (8192 + 16 + (BitVec.extractLsb' 32 32 (BitVec.ofNat 64 (natOfBytes ((obj 5 rgw).physBytes (lfo.frame + 8192 % 65536)
      8)))).toNat ≤ 0 + 65536) ∧
    (BitVec.extractLsb' 62 2 (BitVec.ofNat 64 (natOfBytes ((obj 5 rgw).physBytes (lfo.frame + 8192 % 65536 + 8) 8))) = 0#2) ∧
    (BitVec.extractLsb' 44 16 (BitVec.ofNat 64 (natOfBytes ((obj 5 rgw).physBytes (lfo.frame + 8192 % 65536 + 8) 8))) =
      0#16) ∧
    ((obj 5 rgw).anyStoreTo 8192 (16 + (BitVec.extractLsb' 32 32 (BitVec.ofNat 64 (natOfBytes ((obj 5 rgw).physBytes
      (lfo.frame + 8192 % 65536) 8)))).toNat) = false) ∧
    ((obj 5 rgw).toPlace rgw (16 + (BitVec.extractLsb' 32 32 (BitVec.ofNat 64 (natOfBytes ((obj 5 rgw).physBytes (lfo.frame
      + 8192 % 65536) 8)))).toNat) (rgw.targetDie.getD ((obj 5 rgw).dieOfPage 0)) = some 65600) ∧
    (storeWf noSector (obj (2 ^ 44) rgw).l2 = true) ∧
    (headRange (obj (2 ^ 44) rgw) 0 = some rgw) ∧
    ((obj (2 ^ 44) rgw).heapLeaf 8192 = some (262144, lfo)) ∧
    ((obj (2 ^ 44) rgw).armed 8192 = false) ∧
    ((obj (2 ^ 44) rgw).rangeWaits rgw = false) ∧
    (BitVec.ofNat 64 (natOfBytes ((obj (2 ^ 44) rgw).physBytes (lfo.frame + 8192 % 65536) 8)) ≠ 0) ∧
    (8192 + 16 + (BitVec.extractLsb' 32 32 (BitVec.ofNat 64 (natOfBytes ((obj (2 ^ 44) rgw).physBytes (lfo.frame + 8192 %
      65536) 8)))).toNat ≤ 0 + 65536) ∧
    (BitVec.extractLsb' 62 2 (BitVec.ofNat 64 (natOfBytes ((obj (2 ^ 44) rgw).physBytes (lfo.frame + 8192 % 65536 + 8) 8)))
      ≠ 2#2) ∧
    (BitVec.extractLsb' 44 16 (BitVec.ofNat 64 (natOfBytes ((obj (2 ^ 44) rgw).physBytes (lfo.frame + 8192 % 65536 + 8) 8)))
      ≠ 0#16) ∧
    (storeWf noSector obj2.l2 = true) ∧
    (headRange obj2 0 = some rgm) ∧
    (obj2.heapLeaf 8192 = some (262144, lfo)) ∧
    (obj2.armed 8192 = false) ∧
    (rgm.moving = some (8192, 65600)) ∧
    (obj2.armed 65600 = false) ∧
    (rgm.held = []) := by
  and_intros <;> first | decide | rfl | simp

end Part10

namespace Part11

def base := machine { thread [(1, 5)] with regs := (3, { val := 0, pres := .empty, owed := true }) :: regsOf [(1, 5)] }
def sc (s : State) : State := { s with jobs := [(1, some { newJob with pb0 := 2048, pb1 := 2048 + 16384 })] }
def words (m : Memory) (a : Nat) (ws : List Word) : Memory := m.setBytes a (ws.flatMap fun w => bytesOfNat 8 w.toNat)
def t1 : State :=
  { sc base with tiles := [(3, { tileAt 0 with owner := some 1, pressure := 77 }), (33, { tileAt 0 with owner := some 1 }), (70, {tileAt 0 with owner := some 1})], slots := [(33 * 256, thread [(1, 5)])], focus := 33 * 256 }
def x1  := { newJob with pb0 := 2048, pb1 := 2048 + 16384 }
def t2 := (t1.onSlot (33*256) fun x => { x with regs := regsOf [(1, -5000)] }).onTile 33 fun t => { t with pressure := 9 }
def t2b := t2.onTile 33 fun t => { t with pressed := (0, 135) }
def t3 := t1.onCore 132 fun k => { k with outn := 3, skip := 1, shape := true }
def d0 (ts : List (Nat × Tile)) (js : List (Nat × Option Job)) : State :=
  { State.reset with stage := .full, tiles := ts, jobs := js, period := 20, periodStart := 0, cyc := 0 }
def ow (j : Nat) (p : Nat) : Tile := { tileAt 0 with owner := some j, pressure := BitVec.ofNat 16 p }
def d1 : State :=
  { d0 [(0, ow 1 300), (1, { ow 1 9 with bias := -5, seg0 := [{ words := [], addr := 0, job := 1, source := none, poster := .device }] }), (2, { tileAt 0 with pressure := 3 })] [] with cyc := 4000, lastSample := 1 }
def ja : Job := { newJob with count := 1, ceiling := 4, floor := 1 }
def d2 : State := d0 [(1, ow 1 9000)] [(1, some ja)]
def d3 (c f : Nat) (ch : Nat) : State :=
  { d0 [(0, { ow 2 10 with changed := ch }), (1, ow 1 9000), (32, ow 2 10)] [(1, some ja), (2, some { newJob with count := c, floor := f, ceiling := 9 })] with
  slots := [(5, { thread [] with job := 2 })] }
def jb (c f : Nat) : Job := { newJob with count := c, floor := f, ceiling := 9 }
def d5 : State :=
  { d0 [(1, ow 2 10), (33, ow 2 10), (34, ow 1 9000), (65, ow 2 10)] [(1, some ja), (2, some (jb 3 1))] with cyc := 4 * (64 * 2000 / 9) }
def d6 : State := d0 [(0, { ow 2 0 with zrun := 4 }), (32, ow 2 10)] [(2, some (jb 2 1))]
def z0 : Cession :=
  { gainer := some 1, loser := some 2, bidder := 1, heir := 32, decided := 0, graceEnd := 100, moved := false, emptied := false }
def c0 (z : Cession) : State :=
  { d3 2 1 0 with cyc := 200, tiles := [(0, { ow 2 10 with cession := some z }), (1, ow 1 9000), (32, ow 2 10)] }
def z1 := { z0 with moved := true }
def c1 : State :=
  { c0 z1 with slots := [(3, { thread [] with job := 2, state := .parked })], pool := [(5, 6), (2^20 * 32 + 7, 8)] }
def c2 : State :=
  { c0 z1 with jobs := [(1, some ja), (2, some { jb 2 1 with pb0 := 2048, pb1 := 2048 + 16384 })], slots := [(5, { thread [(1, 7), (4, 9)] with job := 2, winSize := 8, bindings := [{ reg := 4, dir := .rd, port := 3 }] })] }
def z2 := { z1 with emptied := true }
def c3 : State := { c0 z2 with cyc := 100000000 }
def z3 := { z2 with loser := none }
def x2  := { c0 z3 with cyc := 100000000 }

theorem witness_TerritoryInstructions :
    (usable t1 [] [3] = true) ∧
    (isUserSlot t1.focus = true) ∧
    (t1.job (t1.slot t1.focus).job = some x1) ∧
    ((t1.territory (t1.slot t1.focus).job).length ≤ 1024) ∧
    (∀ (t : Nat), t ∈ t1.territory (t1.slot t1.focus).job → t < 1024) ∧
    (leastOf (fun x ↦ x % 32) (t1.territory (t1.slot t1.focus).job) 1) ∧
    (leastOf (fun x ↦ x / 32) (t1.territory (t1.slot t1.focus).job) 0) ∧
    (greatestOf (fun x ↦ x % 32) (t1.territory (t1.slot t1.focus).job) 6) ∧
    (greatestOf (fun x ↦ x / 32) (t1.territory (t1.slot t1.focus).job) 2) ∧
    ((t1.territory (t1.slot t1.focus).job)[1]? = some (t1.focus / 256)) ∧
    (∀ (k : Nat), k < 1 → (t1.territory (t1.slot t1.focus).job)[k]? ≠ some (t1.focus / 256)) ∧
    (usable t2 [1] [3] = true) ∧
    (usable t2b [1] [3] = true) ∧
    (usable t3 [] [3] = true) := by
  and_intros <;> first | decide | rfl | (simp only [leastOf, greatestOf]; decide) | simp

set_option maxRecDepth 4000 in
theorem witness_DeckleDecisions :
    (storeWf tileAt d1.tiles = true) ∧
    (d1.cyc % 2000 = 0) ∧
    (d1.lastSample < d1.cyc / 2000) ∧
    (decides d2 0) ∧
    (winsBid d2 0 1 1 1 ja) ∧
    ((d2.tile 0).owner = none) ∧
    (d2.stage ≠ BootStage.reduced) ∧
    ((d2.tile 0).changed + 7 < d2.period) ∧
    (decides (d3 2 2 0) 0) ∧
    (winsBid (d3 2 2 0) 0 1 1 1 ja) ∧
    (ofJob (d3 2 2 0) 0 2 (jb 2 2)) ∧
    ((jb 2 2).count = (jb 2 2).floor) ∧
    (decides (d3 2 1 0) 0) ∧
    (winsBid (d3 2 1 0) 0 1 1 1 ja) ∧
    (ofJob (d3 2 1 0) 0 2 (jb 2 1)) ∧
    ((jb 2 1).count ≠ (jb 2 1).floor) ∧
    ((d3 2 1 0).connected 2 0 = true) ∧
    (((d3 2 1 0).tile 0).changed + 7 < (d3 2 1 0).period) ∧
    ((d3 2 1 0).heldTile (jb 2 1) 0 = false) ∧
    ((d3 2 1 0).pinnedTile 0 = false) ∧
    (decides (d3 2 1 15) 0) ∧
    (winsBid (d3 2 1 15) 0 1 1 1 ja) ∧
    (ofJob (d3 2 1 15) 0 2 (jb 2 1)) ∧
    ((d3 2 1 15).connected 2 0 = true) ∧
    ((d3 2 1 15).period ≤ ((d3 2 1 15).tile 0).changed + 7) ∧
    (decides d5 33) ∧
    (winsBid d5 33 34 1 1 ja) ∧
    (ofJob d5 33 2 (jb 3 1)) ∧
    ((jb 3 1).count ≠ (jb 3 1).floor) ∧
    (d5.connected 2 33 = false) ∧
    (decides d6 0) ∧
    (ofJob d6 0 2 (jb 2 1)) ∧
    (d6.bestBid 0 = none) ∧
    (4 ≤ d6.zrunOf 0) ∧
    ((jb 2 1).floor < (jb 2 1).count) ∧
    (d6.connected 2 0 = true) ∧
    ((d6.tile 0).changed + 7 < d6.period) ∧
    (d6.heldTile (jb 2 1) 0 = false) ∧
    (d6.pinnedTile 0 = false) ∧
    (∃ d u, d < 4 ∧ neighbour 0 d = some u ∧ d6.isFreeTile u = true) := by
  and_intros <;> first | decide | rfl | (simp only [ofJob, winsBid, decides]; decide)
                       | (intro e u he hne h; rcases e with _ | _ | _ | _ | e <;> first | contradiction | omega | (cases (show some _ = some u from h); decide) | (simp [neighbour] at h))
                       | exact ⟨1, 1, by decide⟩ | exact ⟨2, 32, by decide⟩ | exact ⟨3, 32, by decide⟩

theorem witness_Cessions :
    (((c0 z0).tile 0).cession = some z0) ∧
    (z0.loser = some 2) ∧
    (z0.moved = false) ∧
    (z0.graceEnd ≤ (c0 z0).cyc) ∧
    ((c1.tile 0).cession = some z1) ∧
    (z1.loser = some 2) ∧
    (z1.moved = true) ∧
    (z1.emptied = false) ∧
    (c1.quietTile 2 0 = true) ∧
    ((c2.tile 0).cession = some z1) ∧
    (5 / 256 = 0) ∧
    ((c2.movers 2 0).head? = some 5) ∧
    (c2.landingCore 5 z1.heir = some 128) ∧
    (c2.readyToMove 5 128 = true) ∧
    ((c2.freeSlotsOf 128).head? = some (128 * 64)) ∧
    (c2.freeWindow 128 (c2.slot 5).winSize = some 0) ∧
    ((inboxTakes (c2.core 128).inbox (List.map (fun q ↦ { w0 := retag (128 * 64) q.w0, w1 := q.w1, openedBy := none })
      (c2.messagesFor 5))).isSome = true) ∧
    ((c2.slot 5).waiting = none) ∧
    ((c2.slot 5).lease = LeaseState.none) ∧
    (((c0 z2).tile 0).cession = some z2) ∧
    (z2.gainer = some 1) ∧
    (z2.loser = some 2) ∧
    ((c0 z2).job 1 = some ja) ∧
    ((c0 z2).job 2 = some (jb 2 1)) ∧
    (z2.emptied = true) ∧
    ((c0 z2).cyc ≤ z2.graceEnd + 2 * (BitVec.toNat (c0 z2).deckle % 2048 * 2000)) ∧
    (ja.count < ja.ceiling) ∧
    ((jb 2 1).floor < (jb 2 1).count) ∧
    ((c3.tile 0).cession = some z2) ∧
    (z2.graceEnd + 2 * (BitVec.toNat c3.deckle % 2048 * 2000) < c3.cyc) ∧
    ((x2.tile 0).cession = some z3) ∧
    (z3.graceEnd + 2 * (BitVec.toNat x2.deckle % 2048 * 2000) < x2.cyc) := by
  and_intros <;> first | decide | rfl | simp

end Part11

namespace Part12

def base := machine { thread [(1, 5)] with regs := (3, { val := 0, pres := .empty, owed := true }) :: regsOf [(1, 5)] }
def net (s : State) (ps : List Packet) : State := { s with net := ps }
def mapped (s : State) (leaf : Word) : State :=
  { s with ptroot := 0x10000, hbm := ((((s.hbm.setWord 0x10000 0x8000000000020000).setWord 0x20000 0x8000000000030000).setWord 0x30000 0x8000000000040000).setWord 0x40000 leaf) }
def own1 (x : Job) : State := { base with jobs := [(1, some x)] }
def pausedS (s : State) : State := s.onTenant 0 fun t => { t with paused := true }
def e1 : State := pausedS { own1 { newJob with retired := 12 } with slots := [], pool := [(5, 6), (2^20 + 7, 8)] }
def x1  := { newJob with retired := 12 }
def x2  :=
  ({ e1 with stackFailed := true, tenants := [] }.onTenant 0 fun t => { t with evbase := 0x40006, evtail := 3, evhead := 2 })
def jw : Job := { newJob with interval := 10, ckptSize := 2 ^ 40 }
def s1 : State := { own1 jw with cyc := 2000000, stage := .full }
def js (p : JobPhase) : Job := { jw with phase := p, tenant := 0 }
def s2 (p : JobPhase) : State := pausedS { own1 (js p) with cyc := 2000000 }
def s3 : State :=
  net (s2 (.flushing .watermark 1000)) [.message { job := 1, core := 0, w0 := 6, w1 := 7, poster := .slot 5, sender := none, lands := [], follows := none }]
def s3b : State := s3.onCore 0 fun k => { k with inbox := List.replicate 56 { w0 := 6, w1 := 7, openedBy := none } }
def s4 : State :=
  { s2 (.flushing .watermark 1000) with tiles := [(0, { tileAt 0 with owner := some 1, token := true })], slots := [(0, thread [(1, 5), (2, 6)])] }
def fcm (s : State) := match execFlushComplete 1 s with | .next t => t | _ => s
def imgOf (s : State) : Image :=
  (((s.job 1).getD newJob).writing).getD { stop := 0, seq := 0, preempt := false, complete := false, version := 0, count := 0, homeTable := [], slots := [], cores := [], segments := [], pool := [], acc := [], captured := [], faults := [], heap := [], reserve := [], preImages := [] }
def i1 : Image := imgOf (fcm s4)
def jsv (k : StopKind) : Job := { js (.saving k 1000) with writing := some i1 }
def s5 (k : StopKind) : State := pausedS { own1 (jsv k) with cyc := 2000000 }
def jr : Job := { js (.restoring 1000 true) with image := some i1 }
def s6 : State := pausedS { own1 jr with cyc := 2000000, slots := [] }
def jp (_r : Nat) : Job := { js .running with image := some i1, armed := [0, 5] }
def s7 : State := mapped (pausedS { own1 (jp 0) with cyc := 2000000 }) 0xC000000000050026
def lf0 : Translation := leafTranslation 0xC000000000050026 0 0 0
def jp2 : Job := { jp 0 with ckptSize := 0 }
def s8 : State := { own1 jp2 with cyc := 2000000 }
def x3  := { State.reset with pool := [(5,6)] }
def jl : Job := { jp 0 with lockstep := true }
def s9 : State := own1 jl
def s9p : State := s9.onCore 0 fun k => { k with pairRetired := 4096 }
def x4  := (s9.onCore 0 fun k => { k with mismatched := true })
def w1 (f : Slot → Slot) (o : Nat) (sh : Bool) : State :=
  { own1 newJob with slots := [(61 - o, f (thread [(1, 5)]))], cores := [(0, { coreAt 0 with outn := o, shape := sh })] }
def x5  := (w1 (fun x => { x with winSize := 16, leaves := [(1, .off)] }) 0 true)
def x6  := { w1 id 0 false with slots := [] }
def x7  := { w1 id 0 false with slots := [(5, thread [])] }
def x8  := { w1 id 1 true with slots := [(61, { thread [] with leaves := [(0, .retain), (1, .off)] })] }
def w2 (k : Nat) (sh : Bool) : State := { w1 id 0 sh with cores := [(0, { coreAt 0 with skip := k, shape := sh })] }
theorem bytesOf_le_of_bound {x : Job} {i : Image} {n : Nat}
    (h : 0 < imageBound x.pb1 i.count + i.overflow - 63 ∧ imageBound x.pb1 i.count + i.overflow ≤ n) : x.bytesOf i ≤ n := by
  have := Nat.mod_lt (Config.imageBytes i.stop) h.1
  simp only [Job.bytesOf]
  omega

theorem witness_JobsEnd :
    (e1.job 1 = some x1) ∧
    (x1.phase = JobPhase.running) ∧
    (e1.jobDone 1 = true) ∧
    (x2.job 1 = some x1) ∧
    (x2.jobDone 1 = true) := by
  and_intros <;> first | decide | rfl | simp

set_option maxRecDepth 4000 in
theorem witness_StopsAndImages :
    (s1.job 1 = some jw) ∧
    (jw.phase = JobPhase.running) ∧
    (jw.interval ≠ 0) ∧
    (s1.stage = BootStage.full) ∧
    (jw.lastStop + (if jw.interval < 1000 then 1000 else jw.interval) * 2000 ≤ s1.cyc) ∧
    ((s2 (JobPhase.stopping StopKind.watermark 1000)).job 1 = some (js (JobPhase.stopping StopKind.watermark 1000))) ∧
    ((js (JobPhase.stopping StopKind.watermark 1000)).phase = JobPhase.stopping StopKind.watermark 1000) ∧
    (1000 ≤ (s2 (JobPhase.stopping StopKind.watermark 1000)).cyc) ∧
    (s3.job 1 = some (js (JobPhase.flushing StopKind.watermark 1000))) ∧
    ((js (JobPhase.flushing StopKind.watermark 1000)).phase = JobPhase.flushing StopKind.watermark 1000) ∧
    ((s3.tile 0).owner = some 1) ∧
    (s3b.job 1 = some (js (JobPhase.flushing StopKind.watermark 1000))) ∧
    ((s3b.tile 0).owner = some 1) ∧
    (s4.job 1 = some (js (JobPhase.flushing StopKind.watermark 1000))) ∧
    (saves StopKind.watermark) ∧
    (s4.flushed 1 = true) ∧
    ((s5 StopKind.watermark).job 1 = some (jsv StopKind.watermark)) ∧
    ((jsv StopKind.watermark).phase = JobPhase.saving StopKind.watermark 1000) ∧
    ((jsv StopKind.watermark).writing = some i1) ∧
    ((jsv StopKind.watermark).bytesOf i1 ≤ (jsv StopKind.watermark).ckptSize) ∧
    ((jsv StopKind.watermark).heldFaults = []) ∧
    (StopKind.watermark = StopKind.watermark) ∧
    ((s5 StopKind.preempt).job 1 = some (jsv StopKind.preempt)) ∧
    ((jsv StopKind.preempt).phase = JobPhase.saving StopKind.preempt 1000) ∧
    ((jsv StopKind.preempt).writing = some i1) ∧
    ((jsv StopKind.preempt).bytesOf i1 ≤ (jsv StopKind.preempt).ckptSize) ∧
    ((jsv StopKind.preempt).heldFaults = []) ∧
    (StopKind.preempt = StopKind.preempt) ∧
    (s6.job 1 = some jr) ∧
    (jr.phase = JobPhase.restoring 1000 true) ∧
    (jr.image = some i1) ∧
    (jr.heldFaults = []) ∧
    (∀ (e : Nat × Slot), e ∈ i1.slots → ∀ (f : Nat × Slot), f ∈ i1.slots → absolutePlace (s6.territory 1) e.fst =
      absolutePlace (s6.territory 1) f.fst → e = f) ∧
    (s7.job 1 = some (jp 0)) ∧
    (0 ∈ (jp 0).armed) ∧
    ((jp 0).image = some i1) ∧
    (i1.preImages.length + 1 < (jp 0).preImageRoom) ∧
    (s7.walk 0 (65536 * 0) = Walk.leaf 262144 lf0) ∧
    (s8.job 1 = some jp2) ∧
    (0 ∈ jp2.armed) ∧
    (jp2.image = some i1) ∧
    (jp2.preImageRoom ≤ i1.preImages.length + 1) ∧
    (jp2.phase = JobPhase.running) ∧
    (s8.stage = BootStage.full) := by
  and_intros <;> first | decide | rfl | (simp only [saves]; decide) | (refine bytesOf_le_of_bound ?_; decide)

set_option maxRecDepth 4000 in
theorem witness_SoftErrors :
    (false = true ↔ false = true ∨ ∃ c, (x3.tile 0).errors.lastUncorr = some c ∧ x3.cyc < c + 2000000000) ∧
    ((x3.tile 0).owner = none) ∧
    (true = true ↔ true = true ∨ ∃ c, (x3.tile 0).errors.lastUncorr = some c ∧ x3.cyc < c + 2000000000) ∧
    (true = true ↔ true = true ∨ ∃ c, (s7.tile 0).errors.lastUncorr = some c ∧ s7.cyc < c + 2000000000) ∧
    ((s7.tile 0).owner = some 1) ∧
    (s7.job 1 = some (jp 0)) ∧
    ((jp 0).image ≠ none) ∧
    (s7.stage ≠ BootStage.reduced) ∧
    ((jp 0).phase = JobPhase.running) ∧
    (true = true ↔ true = true ∨ ∃ c, (e1.tile 0).errors.lastUncorr = some c ∧ e1.cyc < c + 2000000000) ∧
    ((e1.tile 0).owner = some 1) ∧
    (e1.job 1 = some x1) ∧
    (x1.image = none) ∧
    (x1.phase ≠ JobPhase.waiting) ∧
    ((s9p.tile (1 / 4)).owner = some 1) ∧
    (s9p.job 1 = some jl) ∧
    (jl.lockstep = true) ∧
    (4096 ≤ (s9p.core (1 / 2 * 2)).pairRetired ∨ 512 ≤ (s9p.core (1 / 2 * 2)).pairLog.length) ∧
    ((s9p.core (1 / 2 * 2)).replay = none) ∧
    ((s9.tile (1 / 4)).owner = some 1) ∧
    (s9.job 1 = some jl) ∧
    ((s9.core (1 / 2 * 2)).mismatched = false) ∧
    ((x4.tile (1 / 4)).owner = some 1) ∧
    (x4.job 1 = some jl) ∧
    ((x4.core (1 / 2 * 2)).mismatched = true) ∧
    (jl.image ≠ none) ∧
    (x4.stage ≠ BootStage.reduced) ∧
    (jl.phase = JobPhase.running) := by
  and_intros <;> first | decide | rfl | (refine ⟨fun h => by cases h, fun h => ?_⟩; obtain h | ⟨c, h, -⟩ := h <;> cases h)
                       | exact ⟨fun _ => .inl rfl, fun _ => rfl⟩

theorem witness_PowerSteps :
    ((x5.tile (0 / 4)).owner = some 1) ∧
    (x5.job 1 = some newJob) ∧
    ((x5.core 0).skip = 0) ∧
    ((x5.core 0).outn < 62) ∧
    (x5.stepsNext 0 = true) ∧
    ((x5.slot (64 * 0 + (61 - (x5.core 0).outn))).unchecked = none) ∧
    ((x5.slot (64 * 0 + (61 - (x5.core 0).outn))).state ≠ SlotState.free) ∧
    ((x5.slot (64 * 0 + (61 - (x5.core 0).outn))).lease ≠ LeaseState.held) ∧
    ((x5.core 0).shape = true) ∧
    ((x6.tile (0 / 4)).owner = some 1) ∧
    (x6.job 1 = some newJob) ∧
    ((x6.core 0).skip = 0) ∧
    ((x6.core 0).outn < 62) ∧
    (x6.stepsNext 0 = true) ∧
    ((x6.slot (64 * 0 + (61 - (x6.core 0).outn))).unchecked = none) ∧
    ((x6.slot (64 * 0 + (61 - (x6.core 0).outn))).state = SlotState.free) ∧
    ((x6.core 0).shape = false) ∧
    ((x7.tile (0 / 4)).owner = some 1) ∧
    (x7.job 1 = some newJob) ∧
    ((x7.core 0).skip = 0) ∧
    ((x7.core 0).outn < 62) ∧
    (x7.stepsNext 0 = true) ∧
    ((x7.slot (64 * 0 + (61 - (x7.core 0).outn))).unchecked = none) ∧
    ((x7.slot (64 * 0 + (61 - (x7.core 0).outn))).state = SlotState.free) ∧
    ((x7.core 0).shape = false) ∧
    ((x8.core 0).skip = 0) ∧
    ((x8.core 0).outn ≠ 0) ∧
    (x8.returnsNext 0 = true) ∧
    ((x8.slot (64 * 0 + (62 - (x8.core 0).outn))).state ≠ SlotState.free) ∧
    (((w2 0 true).core 0).shape = true) ∧
    (((w2 0 true).core 0).skip < 2) ∧
    (((w2 1 true).core 0).shape = true) ∧
    (((w2 1 true).core 0).skip < 2) ∧
    (0 < ((w2 1 true).core 0).skip) ∧
    (((w2 1 true).core 0).outn = 0) := by
  and_intros <;> first | decide | rfl | simp

end Part12

namespace Part13

def base := machine { thread [(1, 5)] with regs := (3, { val := 0, pres := .empty, owed := true }) :: regsOf [(1, 5)] }
def sec : Sector :=
  { bytes := (List.range 48).map (BitVec.ofNat 8), dirty := false, owners := [], version := 0, pa := 0x20000, host := false }
def held (s : State) (x : Sector) : State := { s with l2 := [(2 ^ 56 + 8160, some x)] }
def mapped (s : State) (leaf : Word) : State :=
  { s with ptroot := 0x10000, hbm := ((((s.hbm.setWord 0x10000 0x8000000000020000).setWord 0x20000 0x8000000000030000).setWord 0x30000 0x8000000000040000).setWord 0x40000 leaf) }
def words (m : Memory) (a : Nat) (ws : List Word) : Memory := m.setBytes a (ws.flatMap fun w => bytesOfNat 8 w.toNat)
def allowed (s : State) : State :=
  s.onCore 0 fun k => { k with plb := [{ domain := 0, generation := 0, region := 0, rights := 7 }] }
def own1 (x : Job) : State := { base with jobs := [(1, some x)] }
def pausedS (s : State) : State := s.onTenant 0 fun t => { t with paused := true }
def jw : Job := { newJob with interval := 10, ckptSize := 2 ^ 40 }
def js (p : JobPhase) : Job := { jw with phase := p, tenant := 0 }
def s2 (p : JobPhase) : State := pausedS { own1 (js p) with cyc := 2000000 }
def s4 : State :=
  { s2 (.flushing .watermark 1000) with tiles := [(0, { tileAt 0 with owner := some 1, token := true })], slots := [(0, thread [(1, 5), (2, 6)])] }
def fcm (s : State) := match execFlushComplete 1 s with | .next t => t | _ => s
def imgOf (s : State) : Image :=
  (((s.job 1).getD newJob).writing).getD { stop := 0, seq := 0, preempt := false, complete := false, version := 0, count := 0, homeTable := [], slots := [], cores := [], segments := [], pool := [], acc := [], captured := [], faults := [], heap := [], reserve := [], preImages := [] }
def i1 : Image := imgOf (fcm s4)
def rec1 : List Word := [0x2000, 0x5000, 0x100000, 0x100000, 4 * 2^24 + 20 * 2^32 + 64 * 2^40, 3 + 1 * 2^16 + 4 * 2^32, 0, 0]
def tbl : State := { (mapped State.reset 0xC000000000050026) with stage := .full }
def q0 : State :=
  pausedS { tbl with hbm := tbl.hbm.setBytes 64 (rec1.flatMap fun w => bytesOfNat 8 w.toNat) |>.setBytes 0x52000 (([0x1000, 5, 0, 0, 0, 1, 2, 3] : List Word).flatMap fun w => bytesOfNat 8 w.toNat) }
def ws1 : List Word := [0x1000, 5, 0, 0, 0, 1, 2, 3]
def x1  := { q0 with stage := .reduced, trained := 0xFFFF }
def q1 : State := pausedS { own1 jw with cyc := 5000, stage := .full }
def jwait : Job := { js .waiting with image := some i1, oldTiles := [0], heldEvents := [eventNow base 1 9 0 5] }
def q2 : State := pausedS { own1 jwait with cyc := 5000, stage := .full, tiles := [] }
def x2  := (q2.onTenant 0 fun t => { t with rtiles := 3 })
def fr : FaultRecord := { seq := 7, va := 0x2008, job := 1, who := [.slot 0] }
def f1 : State := (({ own1 newJob with stage := .full }).onTenant 0 fun t => { t with faults := [fr] })
def f2 := f1.onSlot 0 fun x => { x with state := .wait, unchecked := some { va := 0x2008, kind := .read, retry := true } }
def x3  := (f1.onSlot 0 fun x => { x with state := .blocked })
def f3 := f1.onSlot 0 fun x => { x with state := .debug }
def x4  := (f3.onTenant 0 fun t => { t with dbgpc := 0x7770 })
def ev : HostEvent := eventNow base 1 3 4 0x123456789
def f4 : State :=
  { own1 newJob with stage := .full }.onTenant 0 fun t => { t with events := [ev], evbase := 0x7004, evtail := 3, eventCount := 9 }
def hx : Sector := { sec with host := true, pa := 0x7010, dirty := true }
def rt1 : State :=
  { base with tiles := [(3, { (tileAt 0) with owner := some 0, withheld := true, errors := { (tileAt 0).errors with retired := true, corr := 7 } })], pool := [(3 * 2^20 + 5, 1)] }
def sw (v : Word) (b : Nat) (h l : Bool) : SendWord := { val := v, bytes := b, header := h, last := l }
def sq1 : SendQueue :=
  { words := [sw (0x1234 * 2^16) 0 true false, sw 0x1122334455667788 8 false false, sw 0x99 3 false true, sw 5 8 true false], left := 0, copy := none, leaving := [] }
def n1 : State :=
  ({ own1 newJob with stage := .full }.onTenant 0 fun t => { t with nsqctx := [(2, 1 + 5 * 2^48 + 7 * 2^42)] }).onCore 0 fun k => { k with sendQueues := [(2, sq1)] }
def nm : NetMessage :=
  { package := 3, tenant := 2, tag := 77, source := 5, service := 1, payload := (List.range 20).map (BitVec.ofNat 8) }
def n2 : State :=
  (mapped { own1 newJob with stage := .full } 0xC000000000050026).onTenant 0 fun t => { t with rxbase := 0x2000, rxcfg := 0x1000C }
def dd1 : State :=
  allowed { n2 with ddir := 0x100000, hbm := ((n2.hbm.setWord 0x100000 0x200000).setWord 0x200000 0x300000).setWord 0x300000 7 |>.setWord 0x52000 4080 }
def dd2 : State := { dd1 with hbm := dd1.hbm.setWord 0x52000 0xFE8 |>.setWord 0x52008 0xFE0 }
def ra (k : RemoteKind) : RemoteAccess := { package := 9, kind := k, core := 0, address := 0x2008, size := 8 }
def lf5 : Translation := leafTranslation 0xC000000000050026 0 0 0x2008
def ddh : State := held dd1 { sec with pa := 0x51FE0 }
def ehp : Place := { tile := 0, slice := 1 }
def dd3 : State := mapped dd1 0xC000000000050024
def lf6 : Translation := leafTranslation 0xC000000000050024 0 0 0x2008
def dd4 : State := { dd1 with ptroot := 0x400000 }
def dd5 : State := mapped dd1 0xC000000000050027
def ra6 : RemoteAccess := { package := 9, kind := .revoke, core := 3, address := 0x0004000000002008, size := 8 }
def dd6 : State :=
  dd1.onCore 3 fun k => { k with l1 := [(0x0004000000002008 / 8, some { val := 77, owned := true }), (0x405, some { val := 78, owned := true })] }
def x5  := { ra6 with kind := .recall }
def fw1 : Firmware := { measures := 1, body := [1,2,3], key := [4], signature := [5], version := 9 }
def x7  := { State.reset with stage := .reduced }
def x8  := { State.reset with stage := .reduced, jobs := [(1, some newJob)] }
def x9  := { State.reset with stage := .reduced, trained := 0xFFFF, hbm := [(5, 6), (96 * 2^20, 9)] }

set_option maxRecDepth 4000 in
theorem witness_JobRequests :
    (serving q0) ∧
    (¬(q0.stage = BootStage.reduced ∧ q0.trained = 65535)) ∧
    (q0.launchFault ((0 : BitVec 6).toNat) (jobNamed 0) (q0.readRecord (q0.recordOf ((0 : BitVec 6).toNat) (jobNamed 0)))
          = some 1) ∧
    (jobNamed 1 ≠ 0) ∧
    (q0.job (jobNamed 1) = none) ∧
    ((q0.readRecord (q0.recordOf ((0 : BitVec 6).toNat) (jobNamed 1))).zerosHold = true) ∧
    (boundsOk (q0.readRecord (q0.recordOf ((0 : BitVec 6).toNat) (jobNamed 1))).bounds = true) ∧
    ((q0.readRecord (q0.recordOf ((0 : BitVec 6).toNat) (jobNamed 1))).shapeOk = true) ∧
    (q0.tileOpen (q0.readRecord (q0.recordOf ((0 : BitVec 6).toNat) (jobNamed 1))).seed = true) ∧
    (q0.entryWords (BitVec.toNat (q0.readRecord (q0.recordOf ((0 : BitVec 6).toNat) (jobNamed 1))).entry) = some ws1) ∧
    (serving x1) ∧
    (x1.stage = BootStage.reduced ∧ x1.trained = 65535) ∧
    (serving q1) ∧
    (hosts q1 ((0 : BitVec 6).toNat) (jobNamed 1) jw) ∧
    (∀ (x : Job), q1.job (jobNamed 2) = some x → x.tenant ≠ (0 : BitVec 6).toNat) ∧
    (serving q2) ∧
    (q2.job (jobNamed 1) = some jwait) ∧
    (jwait.tenant = (0 : BitVec 6).toNat) ∧
    (jwait.phase = JobPhase.waiting) ∧
    (serving x2) ∧
    (x2.job (jobNamed 1) = some jwait) ∧
    (x2.resumeFault jwait (x2.tenant ((0 : BitVec 6).toNat)).rtiles (if (x2.tenant ((0 : BitVec 6).toNat)).rtiles = 0 then
      jwait.oldTiles else x2.tileList (BitVec.toNat (x2.tenant ((0 : BitVec 6).toNat)).rtiles)) = some 2) ∧
    (q2.resumeFault jwait (q2.tenant ((0 : BitVec 6).toNat)).rtiles (if (q2.tenant ((0 : BitVec 6).toNat)).rtiles = 0 then
      jwait.oldTiles else q2.tileList (BitVec.toNat (q2.tenant ((0 : BitVec 6).toNat)).rtiles)) = none) ∧
    (jwait.image = some i1) := by
  and_intros <;> first | decide | rfl | (simp only [hosts, serving]; decide)
                       | (intro x h; first | (cases (show some _ = some x from h); decide) | cases h)

set_option maxRecDepth 4000 in
theorem witness_FunctionRegisters :
    (serving f2) ∧
    (List.find? (fun x ↦ x.seq == (7 + 2 ^ 63 : Word).toNat % 2 ^ 63) (f2.tenant ((0 : BitVec 6).toNat)).faults = some fr) ∧
    (fr.who = [Requester.slot 0]) ∧
    (∀ (y : Job), f2.job fr.job = some y → y.halted = false) ∧
    (f2.holdsThread fr.job 0 = true) ∧
    ((f2.slot 0).state ≠ SlotState.blocked) ∧
    (serving x3) ∧
    (List.find? (fun x ↦ x.seq == (7 : Word).toNat % 2 ^ 63) (x3.tenant ((0 : BitVec 6).toNat)).faults = some fr) ∧
    (∀ (y : Job), x3.job fr.job = some y → y.halted = false) ∧
    ((x3.slot 0).state = SlotState.blocked) ∧
    (BitVec.getLsbD (7 : Word) 63 = false) ∧
    (serving (pausedS f1)) ∧
    (List.find? (fun x ↦ x.seq == (8 : Word).toNat % 2 ^ 63) ((pausedS f1).tenant ((0 : BitVec 6).toNat)).faults = none) ∧
    (serving f1) ∧
    (f1.job (jobNamed 8589869057) = some newJob) ∧
    (newJob.tenant = (0 : BitVec 6).toNat) ∧
    (∀ (y : Job), (pausedS f1).job (jobNamed 2) = some y → y.tenant ≠ (0 : BitVec 6).toNat) ∧
    (serving x4) ∧
    ((x4.slot (256 * ((2 ^ 18 : Word).toNat % 1024) + 64 * ((2 ^ 18 : Word).toNat / 1024 % 4) + (2 ^ 18 : Word).toNat / 4096
      % 64)).state = SlotState.debug) ∧
    (x4.job (x4.slot (256 * ((2 ^ 18 : Word).toNat % 1024) + 64 * ((2 ^ 18 : Word).toNat / 1024 % 4) + (2 ^ 18 : Word).toNat
      / 4096 % 64)).job = some newJob) ∧
    ((x4.slot (256 * ((0 : BitVec 6).toNat % 1024) + 64 * ((0 : BitVec 6).toNat / 1024 % 4) + (0 : BitVec 6).toNat / 4096
          % 64)).state =
      SlotState.debug) ∧
    (x4.job (x4.slot (256 * ((0 : BitVec 6).toNat % 1024) + 64 * ((0 : BitVec 6).toNat / 1024 % 4) + (0 : BitVec 6).toNat
          / 4096 % 64)).job
      = some newJob) ∧
    (f1.job (jobNamed 5242881) = some newJob) ∧
    ((5242881 : Word).toNat / 2 ^ 20 % 4096 ≠ 0) ∧
    ((f1.tenant ((0 : BitVec 6).toNat)).events = []) ∧
    (serving f4) ∧
    ((f4.tenant ((0 : BitVec 6).toNat)).events = [ev]) ∧
    ((f4.tenant ((0 : BitVec 6).toNat)).paused = false) ∧
    (roomFor (f4.tenant ((0 : BitVec 6).toNat)).evbase 1 (f4.tenant ((0 : BitVec 6).toNat)).evtail 4) ∧
    ((f1.tenant ((0 : BitVec 6).toNat)).pagerWaiting = []) ∧
    ((f1.tenant ((0 : BitVec 6).toNat)).events = [] ∧ (f1.tenant ((0 : BitVec 6).toNat)).pagerWaiting = []) := by
  and_intros <;> first | decide | rfl | (simp only [serving, roomFor]; decide)
                       | (intro x h; first | (cases (show some _ = some x from h); decide) | cases h)

set_option maxRecDepth 4000 in
theorem witness_FunctionsAndHostMemory :
    (storeWf jobAt f4.jobs = true) ∧
    (∀ (e : Nat × Option Job), e ∈ f4.jobs → ∀ (x : Job), e.snd = some x → x.tenant =
          (0 : BitVec 6).toNat → x.heldEvents = []) ∧
    (((pausedS f1).tenant ((0 : BitVec 6).toNat)).events = []) ∧
    (((pausedS f1).tenant ((0 : BitVec 6).toNat)).pagerWaiting = []) ∧
    (tbl.tripped = false) ∧
    (tbl.stage = BootStage.full) ∧
    (65536 + 64 ≤ 2 ^ 40) ∧
    (65536 + [1, 2, 3].length ≤ 2 ^ 40) ∧
    (storeWf noSector (held base hx).l2 = true) ∧
    (List.filter (fun e ↦ e.snd.any fun y => y.host && decide (y.pa < 28672 / 64 * 64 + 64) && decide (28672 / 64 * 64 <
      y.pa + y.bytes.length)) (held base hx).l2 = [(2 ^ 56 + 8160, some hx)]) ∧
    ((rt1.tile 3).withheld = true) := by
  and_intros <;> first | decide | rfl

set_option maxRecDepth 4000 in
theorem witness_FabricTraffic :
    ((n1.tile (0 / 4)).owner = some 1) ∧
    (n1.job 1 = some newJob) ∧
    (newJob.halted = false) ∧
    (storeGet noSend (n1.core 0).sendQueues ((2 : BitVec 3).toNat) = sq1) ∧
    (sq1.words = List.take 2 sq1.words ++ sw 153 3 false true :: List.drop 3 sq1.words) ∧
    (∀ (m : SendWord), m ∈ List.take 2 sq1.words → m.last = false) ∧
    ((sw 153 3 false true).last = true) ∧
    (BitVec.getLsbD (storeGet noVal (n1.tenant newJob.tenant).nsqctx ((2 : BitVec 3).toNat)) 0 = true) ∧
    (BitVec.toNat (storeGet noVal (n1.tenant newJob.tenant).nsqctx ((2 : BitVec 3).toNat)) / 2 ^ 62 ≠ 3) ∧
    (serving dd2) ∧
    (hosts dd2 ((0 : BitVec 6).toNat) (BitVec.toNat (dd2.tenant ((0 : BitVec 6).toNat)).rxcfg / 2 ^ 16 % 2 ^ 16) newJob) ∧
    (∀ (r : Inbound), r ∈ dd2.inbound → r.tenant ≠ (0 : BitVec 6).toNat) ∧
    (12 ≤ BitVec.toNat (dd2.tenant ((0 : BitVec 6).toNat)).rxcfg % 64) ∧
    (BitVec.toNat (dd2.tenant ((0 : BitVec 6).toNat)).rxcfg % 64 ≤ 30) ∧
    (4096 = 2 ^ (BitVec.toNat (dd2.tenant ((0 : BitVec 6).toNat)).rxcfg % 64)) ∧
    (dd2.deviceWord (BitVec.toNat (dd2.tenant ((0 : BitVec 6).toNat)).rxbase) = some 4072) ∧
    (dd2.deviceWord (BitVec.toNat (dd2.tenant ((0 : BitVec 6).toNat)).rxbase + 8) = some 4064) ∧
    ((4072 - 4064 : Word).toNat + 8 * (BitVec.ofNat 64 (nm.package.toNat * 2 ^ 48 + nm.source.toNat * 2 ^ 42 + nm.tag.toNat)
      :: BitVec.ofNat 64 nm.payload.length :: List.map (fun i ↦ BitVec.ofNat 64 (natOfBytes (List.take 8 (List.drop (8 * i)
      nm.payload)))) (List.range ((nm.payload.length + 15) / 16 * 2))).length ≤ 4096 - 16) ∧
    (((BitVec.toNat (dd2.tenant ((0 : BitVec 6).toNat)).rxbase :: List.map (fun i ↦ BitVec.toNat (dd2.tenant ((0 :
      Reg).toNat)).rxbase + 16 + ((4072 : Word).toNat + 8 * i) % (4096 - 16)) (List.range (BitVec.ofNat 64 (nm.package.toNat
      * 2 ^ 48 + nm.source.toNat * 2 ^ 42 + nm.tag.toNat) :: BitVec.ofNat 64 nm.payload.length :: List.map (fun i ↦
      BitVec.ofNat 64 (natOfBytes (List.take 8 (List.drop (8 * i) nm.payload)))) (List.range ((nm.payload.length + 15) / 16
      * 2))).length)).all fun x ↦ dd2.deviceWrites newJob x) = true) ∧
    (serving ddh) ∧
    (ddh.stage = BootStage.full) ∧
    (ddh.isOurs (ra RemoteKind.load).address.toNat = true) ∧
    (ddh.walk 0 (ra RemoteKind.load).address.toNat = Walk.leaf 262144 lf5) ∧
    (ddh.exportHold (ra RemoteKind.load).address.toNat lf5 = some (ehp, 8200, ddh)) ∧
    (ddh.armedAt 262144 = []) ∧
    ((ra RemoteKind.load).kind = RemoteKind.load) ∧
    (lf5.r = true) ∧
    (ddh.isOurs (ra (RemoteKind.store [1, 2, 3, 4, 5, 6, 7, 8])).address.toNat = true) ∧
    (ddh.walk 0 (ra (RemoteKind.store [1, 2, 3, 4, 5, 6, 7, 8])).address.toNat = Walk.leaf 262144 lf5) ∧
    (ddh.exportHold (ra (RemoteKind.store [1, 2, 3, 4, 5, 6, 7, 8])).address.toNat lf5 = some (ehp, 8200, ddh)) ∧
    ((ra (RemoteKind.store [1, 2, 3, 4, 5, 6, 7, 8])).kind = RemoteKind.store [1, 2, 3, 4, 5, 6, 7, 8]) ∧
    (lf5.w = true) ∧
    (ddh.armed (ra (RemoteKind.store [1, 2, 3, 4, 5, 6, 7, 8])).address.toNat = false) ∧
    (serving dd3) ∧
    (dd3.stage = BootStage.full) ∧
    (dd3.isOurs (ra RemoteKind.load).address.toNat = true) ∧
    (dd3.walk 0 (ra RemoteKind.load).address.toNat = Walk.leaf 262144 lf6) ∧
    (lf6.r = false) ∧
    (serving dd4) ∧
    (dd4.stage = BootStage.full) ∧
    (dd4.isOurs (ra RemoteKind.load).address.toNat = true) ∧
    (dd4.walk 0 (ra RemoteKind.load).address.toNat = Walk.invalid) ∧
    (serving dd5) ∧
    (dd5.stage = BootStage.full) ∧
    (dd5.isOurs (ra RemoteKind.load).address.toNat = true) ∧
    (dd5.walk 0 (ra RemoteKind.load).address.toNat = Walk.malformed 262144) ∧
    (serving dd6) ∧
    (dd6.stage = BootStage.full) ∧
    (dd6.isOurs ra6.address.toNat = false) ∧
    (ra6.kind = RemoteKind.revoke) ∧
    (dd6.isOurs x5.address.toNat = false) ∧
    (x5.kind = RemoteKind.recall) := by
  and_intros <;> first | decide | rfl | (simp only [hosts, serving]; decide)

set_option maxRecDepth 4000 in
theorem witness_BringUp :
    (State.reset.stage = BootStage.rom) ∧
    (fw1.measures ≠ 0) ∧
    (fw1.measures.toNat ≤ 5) ∧
    (x7.stage = BootStage.reduced) ∧
    (x7.jobs = []) ∧
    (x8.stage = BootStage.reduced) ∧
    (x8.jobs ≠ []) ∧
    (x9.stage = BootStage.reduced) ∧
    (x9.trained = 65535) ∧
    (x9.jobs = []) ∧
    (x9.heldLaunches = []) ∧
    (x9.hbm.wf = true) := by
  and_intros <;> first | decide | rfl

end Part13

namespace Part14

/-- Slot 0's turn comes next, and its L1 holds `add g3, [g1], g2` at its pc. -/
def fetching : State :=
  { (machine (thread [(1, 5), (2, 7)])).onCore 0 fun k => { k with
      plb := [{ domain := 0, generation := 0, region := 0, rights := 7 }]
      l1 := [(0x200, some { val := 0x80404181, owned := false })] } with
    agenda := [{ dt := 0, rotations := 0, turn := .issue 0 }] }
def fetched : State := match (turnOf fetching 0).fetch 0 with | .word _ t => t | .stop t => t
def event (e : Instr) : State := { State.reset with agenda := [{ dt := 5, rotations := 0, turn := .event e }] }
def missing : State := fetching.onCore 0 fun k => { k with l1 := [] }
def homed : State :=
  { missing with l2 := [(2 ^ 56 + 4080, some { bytes := List.replicate 48 1, dirty := false, owners := [], version := 0, pa := 0x20000, host := false })] }
def standing : State := { event .pressureSample with tripped := true }

theorem witness_AStepRunsTheDecodedInstruction :
    (fetching.nextMove.turn = .issue 0) ∧
    (fetching.tripped = false) ∧
    ((turnOf fetching 0).focus = 0) ∧
    (taking (turnOf fetching 0) (turnOf fetching 0).focus) ∧
    (fetches (turnOf fetching 0) fetched (turnOf fetching 0).focus 0x80404181 (.add 3 1 2 true false)) ∧
    (fetching.beginMove.canIssue (64 * 0 + (4 * (fetching.beginMove.core 0).clock + (fetching.beginMove.core 0).ring + 1 +
          60) % 64)
      = true) ∧
    ((List.range 60).all (fun k => !fetching.beginMove.canIssue
      (64 * 0 + (4 * (fetching.beginMove.core 0).clock + (fetching.beginMove.core 0).ring + 1 + k) % 64)) = true) ∧
    ((fetched.slot 0).acqHold = false) ∧
    ((fetching.slot 0).heldFault = none) ∧
    ((fetching.slot 0).pc.toNat % 4 = 0) ∧
    ((fetching.slot 0).pc.toNat < 2 ^ 56) ∧
    (isUserSlot 63 = false) ∧
    (isUserSlot 0 = true) ∧
    (fetching.permits (0 / 64) (fetching.slot 0).job .fetch (fetching.slot 0).pc.toNat = true) ∧
    (fetching.l1Read (0 / 64) ((fetching.slot 0).pc.toNat / 8) ((fetching.slot 0).pc.toNat % 8) 4 = some [129, 65, 64,
          128]) ∧
    (homed.permits (0 / 64) (homed.slot 0).job .fetch (homed.slot 0).pc.toNat = true) ∧
    (homed.l1Read (0 / 64) ((homed.slot 0).pc.toNat / 8) ((homed.slot 0).pc.toNat % 8) 4 = none) ∧
    (homed.isOurs (homed.slot 0).pc.toNat = true) ∧
    (homed.proxiedAhead (dieOfTile (tileOfSlot 0)) (homed.slot 0).pc.toNat none = false) ∧
    (homed.homeCheck (homed.homeOf (homed.slot 0).job (homed.slot 0).pc.toNat) (homed.slot 0).pc.toNat .fetch none = .held) ∧
    ((event .pressureSample).nextMove.turn = .event .pressureSample) ∧
    (Instr.pressureSample.isWord = false) ∧
    ((event .pressureSample).tripped = false) := by
  and_intros <;> first | decide | rfl | (simp only [taking, fetches]; decide)

theorem witness_StepsKeepTheMemories :
    (Safety.memoriesOk (event .pressureSample)) ∧
    (∃ t, step (event .pressureSample) = .next t) := by
  exact ⟨by simp only [Safety.memoriesOk]; decide, _, rfl⟩

theorem witness_StepsKeepTheLimits :
    (Safety.limitsOk (event .pressureSample)) ∧
    (∃ t, step (event .pressureSample) = .next t) := by
  exact ⟨by simp only [Safety.limitsOk]; decide, _, rfl⟩

theorem witness_ATrippedMachineStands :
    (standing.tripped = true) ∧
    (standing.nextMove.turn ≠ .event .packageReset) ∧
    (∃ t, step standing = .next t) := by
  exact ⟨by decide, by decide, _, rfl⟩

/-- The lists of forms that the statements range over have members. -/

theorem witness_forms :
    integerOps.isEmpty = false ∧ immediateOps.isEmpty = false ∧ divideOps.isEmpty = false ∧ shiftOps.isEmpty = false
    ∧ branchOps.isEmpty = false ∧ floatOps.isEmpty = false ∧ floatTests.isEmpty = false ∧ floatConversions.isEmpty = false
    ∧ plainLoads.isEmpty = false ∧ plainStores.isEmpty = false ∧ atomicOps.isEmpty = false ∧ presenceForms.isEmpty = false
    ∧ csrWrites.isEmpty = false ∧ slotRegisters.isEmpty = false ∧ dequeForms.isEmpty = false ∧ vectorOne.isEmpty = false
    ∧ vectorTwo.isEmpty = false ∧ elementForms.isEmpty = false
    ∧ reductionForms.isEmpty = false ∧ supervisorRegisters.isEmpty = false ∧ arrayForms.isEmpty = false
    ∧ matrixForms.isEmpty = false := by
  and_intros <;> rfl

end Part14

end Sys2Proof.Tests
end

section
/-! SUPPORT. What a single-pass form (R110, R122) does to the machine when its registers can be read and written at once, in
the words of the statements: `gives` and `givesFlags`. -/

namespace Sys2Proof.Claims

open Sys2Proof Sys2Proof.Machine

/-! ## The words of the statements and the laws of operands -/

/-- `readable` tests what the laws of operands call `readsAt`. -/
theorem readable_iff (x : Slot) (r : Reg) : readable x r = true ↔ x.readsAt r := by
  simp [readable, Slot.readsAt, and_assoc]

/-- `writable` tests what the laws of operands call `writesAt`. -/
theorem writable_iff (x : Slot) (r : Reg) : writable x r = true ↔ x.writesAt r := by
  simp [writable, Slot.writesAt, and_assoc]

/-- The names of an instruction whose registers are usable are plain. -/
theorem plain_of_usable {s : State} {u : Named} (hu : u.also = [])
    (h : usable s (u.reads.map (·.1)) u.dests = true) : u.plain (s.slot s.focus) := by
  simp only [usable, Bool.and_eq_true, List.all_eq_true, readable_iff, writable_iff] at h
  obtain ⟨hr, hd⟩ := h
  exact ⟨fun e he => hr e.1 (List.mem_map_of_mem he), hd, hu⟩

/-! ## Slots that differ in general registers and shadows alone -/

/-- Two slots that differ in general registers and shadows alone: what writing a named register can change. Unlike
`Slot.sameButRegs` it keeps the reference registers and the held results. -/
def sameButGeneral (x y : Slot) : Prop := y = { x with regs := y.regs, shadow := y.shadow }

theorem sameButGeneral_trans {x y z : Slot} (h1 : sameButGeneral x y) (h2 : sameButGeneral y z) : sameButGeneral x z := by
  unfold sameButGeneral at *
  rw [h2, h1]

theorem sameButGeneral_setCell (x : Slot) (l : RegLoc) (c : RegCell) (hl : ∀ i, l ≠ .href i) :
    sameButGeneral x (x.setCell l c) := by
  cases l with
  | win i => rfl
  | shadow i => rfl
  | href i => exact absurd rfl (hl i)

theorem sameButGeneral_put (x : Slot) (r : Reg) (v : Word) : sameButGeneral x (x.put r v) := by
  unfold Slot.put
  split
  · rfl
  · exact sameButGeneral_setCell x _ _ (x.loc_not_href r)

theorem sameButGeneral_deadAll (ls : List RegLoc) (x : Slot) (hl : ∀ l ∈ ls, ∀ i, l ≠ .href i) :
    sameButGeneral x (ls.foldl (fun z l => z.setPres l .dead) x) := by
  induction ls generalizing x with
  | nil => rfl
  | cons k ks ih =>
    exact sameButGeneral_trans (sameButGeneral_setCell x k _ (hl k (by simp))) (ih _ fun l h => hl l (by simp [h]))

/-- Once a slot has retired, register writes leave it retired. -/
theorem retired_of_sameButGeneral {x y z : Slot} {pc : Word} (h1 : retired x y pc) (h2 : sameButGeneral y z) :
    retired x z pc := by
  unfold retired sameButGeneral at *
  rw [h2, h1]

/-! ## Last use -/

/-- Last use reaches no reference register. -/
theorem lastUses_ne_href (x : Slot) (reads : List (Reg × Bool)) : ∀ l ∈ x.lastUses reads, ∀ i, l ≠ .href i := by
  intro l hl
  obtain ⟨e, -, rfl⟩ := List.mem_map.mp hl
  exact x.loc_not_href e.1

/-- Where every source is plain, no port shields a register from its last use. -/
theorem mem_lastUses_iff (x : Slot) (reads : List (Reg × Bool)) (l : RegLoc) (h : ∀ e ∈ reads, x.readsAt e.1) :
    l ∈ x.lastUses reads ↔ (reads.any fun e => e.2 && e.1 != 0 && x.loc e.1 == l) = true := by
  have hb (e) (he : e ∈ reads) (h0 : e.1 ≠ 0) : x.bound e.1 = none := ((h e he).2.resolve_left h0).1
  simp only [Slot.lastUses, List.mem_map, List.mem_filter, List.any_eq_true, Bool.and_eq_true, bne_iff_ne, ne_eq, beq_iff_eq]
  exact ⟨fun ⟨e, ⟨he, hu, _⟩, hl⟩ => ⟨e, he, hu, hl⟩,
    fun ⟨e, he, hu, hl⟩ => ⟨e, ⟨he, hu, by simp [hb e he hu.2]⟩, hl⟩⟩

/-! ## The registers that the statements expect -/

/-- A result in front of the others goes to its register. -/
theorem cellAfter_cons (x : Slot) (reads : List (Reg × Bool)) (d : Reg) (v : Word) (writes : List (Reg × Word))
    (l : RegLoc) :
    cellAfter x reads ((d, v) :: writes) l
      = if d != 0 && x.loc d == l then { val := v, pres := .full, owed := false } else cellAfter x reads writes l := by
  simp only [cellAfter, List.find?_cons]
  cases h : d != 0 && x.loc d == l <;> simp only [Bool.false_eq_true, if_true, if_false]

/-- Last use alone changes no debt. -/
theorem owed_cellAfter_nil (x : Slot) (reads : List (Reg × Bool)) (l : RegLoc) :
    (cellAfter x reads [] l).owed = (x.cell l).owed := by
  simp only [cellAfter, List.find?_nil]
  split <;> rfl

/-- Sources without a last-use bit leave no trace. -/
theorem cellAfter_of_noLastUse (x : Slot) (reads : List (Reg × Bool)) (writes : List (Reg × Word)) (l : RegLoc)
    (h : ∀ e ∈ reads, e.2 = false) : cellAfter x reads writes l = cellAfter x [] writes l := by
  have hno : (reads.any fun e => e.2 && e.1 != 0 && x.loc e.1 == l) = false := by
    rw [List.any_eq_false]
    intro e he
    simp [h e he]
  rw [cellAfter, cellAfter, hno]
  rfl

theorem gives_of_noLastUse {s t : State} {reads : List (Reg × Bool)} {writes : List (Reg × Word)} {pc : Word}
    (hg : gives s t reads writes pc) (h : ∀ e ∈ reads, e.2 = false) : gives s t [] writes pc := by
  obtain ⟨honly, hret, hcell⟩ := hg
  exact ⟨honly, hret, fun l => by rw [hcell l, cellAfter_of_noLastUse _ reads writes l h]⟩

/-- Raising no flag leaves fsr as it was. -/
theorem retired_noFlags (x y : Slot) (pc : Word) :
    retired { x with fsr := x.fsr ||| noFlags } y pc ↔ retired x y pc := by
  have h : x.fsr ||| noFlags = x.fsr := BitVec.or_zero
  rw [h]

/-! ## A pass in its two stages: it reads and retires, then it writes its results -/

/-- The slot once a single-pass form has read `reads` and retired, its results not yet written. -/
def afterReads (x : Slot) (reads : List (Reg × Bool)) (pc : Word) : Slot :=
  x.retire { dead := x.lastUses reads, owe := [], puts := [], pc := pc, stores := 0, count := 1 }

/-- A result goes to its register, unless its name is bound to a port. -/
def writeResult (x : Slot) (e : Reg × Word) : Slot := if (x.bound e.1).isSome then x else x.put e.1 e.2

/-- The slot once the form has written its results and raised its flags too (`State.deliver` on plain names). -/
def afterPass (x : Slot) (reads : List (Reg × Bool)) (results : List (Reg × Word)) (flags : FlagSet) (pc : Word) : Slot :=
  let z := results.foldl writeResult (afterReads x reads pc)
  { z with fsr := z.fsr ||| flags }

theorem retired_afterReads (x : Slot) (reads : List (Reg × Bool)) (pc : Word) :
    retired x (afterReads x reads pc) pc := by
  have h := sameButGeneral_deadAll (x.lastUses reads) x (lastUses_ne_href x reads)
  unfold sameButGeneral at h
  unfold retired afterReads Slot.retire
  simp only [List.foldl_nil]
  rw [h]
  rfl

theorem loc_afterReads (x : Slot) (reads : List (Reg × Bool)) (pc : Word) (r : Reg) :
    (afterReads x reads pc).loc r = x.loc r := by
  rw [retired_afterReads x reads pc]
  rfl

theorem bound_afterReads (x : Slot) (reads : List (Reg × Bool)) (pc : Word) (r : Reg) :
    (afterReads x reads pc).bound r = x.bound r := by
  rw [retired_afterReads x reads pc]
  rfl

theorem cell_afterReads (x : Slot) (reads : List (Reg × Bool)) (pc : Word) (l : RegLoc)
    (h : ∀ e ∈ reads, x.readsAt e.1) : (afterReads x reads pc).cell l = cellAfter x reads [] l := by
  rw [afterReads, Slot.cell_retire x _ l rfl]
  simp [cellAfter, mem_lastUses_iff x reads l h]

theorem sameButGeneral_writeResult (x : Slot) (e : Reg × Word) : sameButGeneral x (writeResult x e) := by
  unfold writeResult
  split
  · rfl
  · exact sameButGeneral_put x e.1 e.2

theorem sameButGeneral_writeResults (results : List (Reg × Word)) (x : Slot) :
    sameButGeneral x (results.foldl writeResult x) := by
  induction results generalizing x with
  | nil => rfl
  | cons e es ih => exact sameButGeneral_trans (sameButGeneral_writeResult x e) (ih _)

/-- A result for g0 is dropped; another register that is unbound and owed nothing holds it, FULL (R15, R23). -/
theorem cell_writeResult (x : Slot) (d : Reg) (v : Word) (l : RegLoc)
    (h : d ≠ 0 → x.bound d = none ∧ (x.cell (x.loc d)).owed = false) :
    (writeResult x (d, v)).cell l
      = if d != 0 && x.loc d == l then { val := v, pres := .full, owed := false } else x.cell l := by
  by_cases h0 : d = 0
  · simp [writeResult, Slot.put, h0]
  · obtain ⟨hb, ho⟩ := h h0
    have hput : writeResult x (d, v) = x.setCell (x.loc d) { val := v, pres := .full, owed := false } := by
      simp only [writeResult, Slot.put, hb, h0, ho, Option.isSome_none, Bool.false_eq_true, if_false]
    rw [hput, Slot.cell_setCell]
    simp only [bne_iff_ne.mpr h0, Bool.true_and, beq_iff_eq, eq_comm (a := l)]

theorem retired_afterPass (x : Slot) (reads : List (Reg × Bool)) (results : List (Reg × Word)) (flags : FlagSet)
    (pc : Word) : retired { x with fsr := x.fsr ||| flags } (afterPass x reads results flags pc) pc := by
  have h := retired_of_sameButGeneral (retired_afterReads x reads pc) (sameButGeneral_writeResults results _)
  unfold retired at h ⊢
  unfold afterPass
  rw [h]

/-- The registers after a pass with at most one result. -/
theorem cell_afterPass (x : Slot) (reads : List (Reg × Bool)) (result : Option (Reg × Word)) (flags : FlagSet) (pc : Word)
    (l : RegLoc) (hr : ∀ e ∈ reads, x.readsAt e.1) (hw : ∀ e ∈ result, x.writesAt e.1) :
    (afterPass x reads result.toList flags pc).cell l = cellAfter x reads result.toList l := by
  have hfsr : (afterPass x reads result.toList flags pc).cell l
      = (result.toList.foldl writeResult (afterReads x reads pc)).cell l := by
    cases l <;> rfl
  rw [hfsr]
  cases result with
  | none => exact cell_afterReads x reads pc l hr
  | some e =>
    obtain ⟨d, v⟩ := e
    have hplain (h0 : d ≠ 0) : (afterReads x reads pc).bound d = none
        ∧ ((afterReads x reads pc).cell ((afterReads x reads pc).loc d)).owed = false := by
      obtain ⟨hb, -, ho⟩ := (hw (d, v) rfl).2.resolve_left h0
      rw [bound_afterReads, cell_afterReads x reads pc _ hr, owed_cellAfter_nil, loc_afterReads]
      exact ⟨hb, ho⟩
    simp only [Option.toList_some, List.foldl_cons, List.foldl_nil]
    rw [cellAfter_cons, cell_writeResult _ d v l hplain, loc_afterReads, cell_afterReads x reads pc l hr]

/-! ## The single-pass forms -/

/-- A pass of the issuing slot with plain sources and at most one plain destination: the slot retires with its flags
raised, its registers are those of `cellAfter`, and nothing else differs. -/
theorem setSlot_afterPass (s : State) (reads : List (Reg × Bool)) (result : Option (Reg × Word)) (flags : FlagSet)
    (pc : Word) (hr : ∀ e ∈ reads, (s.slot s.focus).readsAt e.1) (hw : ∀ e ∈ result, (s.slot s.focus).writesAt e.1) :
    let x := s.slot s.focus
    let t := s.setSlot s.focus (afterPass x reads result.toList flags pc)
    onlySlot s t s.focus ∧ retired { x with fsr := x.fsr ||| flags } (t.slot s.focus) pc
      ∧ ∀ l, (t.slot s.focus).cell l = cellAfter x reads result.toList l := by
  refine ⟨⟨rfl, fun m hm => s.slot_setSlot_other s.focus m _ hm⟩, ?_, fun l => ?_⟩
  · rw [State.slot_setSlot_same]
    exact retired_afterPass _ _ _ _ _
  · rw [State.slot_setSlot_same]
    exact cell_afterPass _ _ _ _ _ l hr hw

/-- A single-pass form that writes d with a function of its operands (R110, R59). -/
theorem compute_givesFlags (s : State) (i : Instr) (u : Named) (d : Reg) (f : Slot → List Word → Word × FlagSet)
    (hd : u.dests = [d]) (hu : u.also = []) (h : usable s (u.reads.map (·.1)) [d] = true) :
    let r := f (s.slot s.focus) (u.reads.map fun e => val s e.1)
    givesFlags s (s.compute i u d f) u.reads [(d, r.1)] r.2 := by
  have hp : u.plain (s.slot s.focus) := plain_of_usable hu (hd ▸ h)
  have hw : (s.slot s.focus).writesAt d := hp.2.1 d (by simp [hd])
  intro r
  rw [s.compute_plain i u d f hp hw]
  exact setSlot_afterPass s u.reads (some (d, r.1)) r.2 (pcOf s + 4) hp.1 (by simpa using hw)

/-- Such a form that raises no flag. -/
theorem compute_gives (s : State) (i : Instr) (u : Named) (d : Reg) (f : Slot → List Word → Word × FlagSet) (v : Word)
    (hf : f (s.slot s.focus) (u.reads.map fun e => val s e.1) = (v, noFlags))
    (hd : u.dests = [d]) (hu : u.also = []) (h : usable s (u.reads.map (·.1)) [d] = true) :
    gives s (s.compute i u d f) u.reads [(d, v)] (pcOf s + 4) := by
  have hg := compute_givesFlags s i u d f hd hu h
  rw [hf] at hg
  obtain ⟨honly, hret, hcell⟩ := hg
  exact ⟨honly, (retired_noFlags _ _ _).mp hret, hcell⟩

/-- A transfer of control with at most one result (R122-R124). -/
theorem branch_gives (s : State) (i : Instr) (u : Named) (f : Slot → List Word → List (Reg × Word) × Word)
    (result : Option (Reg × Word)) (pc : Word)
    (hf : f (s.slot s.focus) (u.reads.map fun e => (s.slot s.focus).val e.1) = (result.toList, pc))
    (hd : u.dests = result.toList.map (·.1)) (hu : u.also = []) (h : usable s (u.reads.map (·.1)) u.dests = true) :
    gives s (s.branch i u f) u.reads result.toList pc := by
  have hp : u.plain (s.slot s.focus) := plain_of_usable hu h
  have hw : ∀ e ∈ result, (s.slot s.focus).writesAt e.1 := fun e he =>
    hp.2.1 e.1 (hd ▸ List.mem_map_of_mem (Option.mem_toList.mpr he))
  have hb : s.branch i u f = s.setSlot s.focus (afterPass (s.slot s.focus) u.reads result.toList noFlags pc) := by
    rw [s.branch_plain i u f hp (by simpa [hf] using hw)]
    simp only [hf]
    rfl
  rw [hb]
  obtain ⟨honly, hret, hcell⟩ := setSlot_afterPass s u.reads result noFlags pc hp.1 hw
  exact ⟨honly, (retired_noFlags _ _ _).mp hret, hcell⟩

end Sys2Proof.Claims
end

section
/-! SUPPORT. Integer results (R113-R115, R117, R118): the model's pure functions are those of the statement, and each
two-source instruction computes its own. -/

namespace Sys2Proof.Claims

open Sys2Proof Sys2Proof.Machine

/-! ## Functions of two sources -/

theorem truth_decide (p : Prop) [Decidable p] : truth (decide p) = if p then 1 else 0 := by
  by_cases h : p <;> simp [truth, h]

theorem sraOf_eq (a b : Word) : sraOf a b = a.sshiftRight (b.toNat % 64) := by
  rw [BitVec.sshiftRight, Int.shiftRight_eq_div_pow]
  rfl

theorem rolOf_eq (a b : Word) : rolOf a b = a.rotateLeft (b.toNat % 64) := by
  simp [rolOf, shiftCount, BitVec.rotateLeft, BitVec.rotateLeftAux]

/-- The high half of an unsigned product, taken over the integers, is that over the naturals. -/
theorem highHalf_toNat_eq (a b : Word) :
    highHalf a.toNat b.toNat = BitVec.ofNat 64 (a.toNat * b.toNat / 2 ^ 64) :=
  BitVec.ofInt_natCast 64 (a.toNat * b.toNat / 2 ^ 64)

theorem fieldPos_eq (b : Word) : fieldPos b = b.toNat % 64 := by
  simp [fieldPos, fieldOf, bitsOf]

theorem fieldLen_eq (b : Word) : fieldLen b = b.toNat / 256 % 64 + 1 := rfl

theorem bfxzOf_eq (a b : Word) :
    bfxzOf a b = BitVec.ofNat 64 (a.toNat / 2 ^ (b.toNat % 64) % 2 ^ (b.toNat / 256 % 64 + 1)) := by
  rw [bfxzOf, fieldPos_eq, fieldLen_eq]
  rfl

theorem bfxOf_eq (a b : Word) :
    bfxOf a b =
      let f : Nat := a.toNat / 2 ^ (b.toNat % 64) % 2 ^ (b.toNat / 256 % 64 + 1)
      if 2 ^ (b.toNat / 256 % 64) ≤ f then BitVec.ofInt 64 ((f : Int) - 2 ^ (b.toNat / 256 % 64 + 1))
      else BitVec.ofNat 64 f := by
  rw [bfxOf, fieldPos_eq, fieldLen_eq]
  rfl

/-! ## Bit counts (R117) -/

theorem onesBelow_eq_countP (a : Word) (n : Nat) : onesBelow a n = (List.range n).countP a.getLsbD := by
  induction n with
  | zero => rfl
  | succ n ih => simp [onesBelow, ih, List.range_succ]

theorem popcOf_eq (a : Word) : popcOf a = BitVec.ofNat 64 (onesBelow a 64) := by
  rw [onesBelow_eq_countP, List.countP_eq_length_filter]
  rfl

theorem clzOf_zero : clzOf 0 = 64 := rfl

/-- `clz` is 63 less the place of the highest one, which bounds the word between two powers. -/
theorem clzOf_of_ne_zero (a : Word) (h : a ≠ 0) :
    ∃ k, k < 64 ∧ clzOf a = BitVec.ofNat 64 k ∧ 2 ^ (63 - k) ≤ a.toNat ∧ a.toNat < 2 ^ (64 - k) := by
  have h0 : a.toNat ≠ 0 := fun e => h (BitVec.eq_of_toNat_eq e)
  have hlog : Nat.log2 a.toNat < 64 := (Nat.log2_lt h0).mpr a.isLt
  refine ⟨63 - Nat.log2 a.toNat, by omega, if_neg h, ?_, ?_⟩
  · rw [show 63 - (63 - Nat.log2 a.toNat) = Nat.log2 a.toNat by omega]
    exact Nat.log2_self_le h0
  · rw [show 64 - (63 - Nat.log2 a.toNat) = Nat.log2 a.toNat + 1 by omega]
    exact Nat.lt_log2_self

theorem bitOf_eq_getLsbD (a : Word) (n : Nat) : bitOf a n = a.getLsbD n := rfl

theorem ctzOf_zero : ctzOf 0 = 64 := by decide

/-- `ctz` is the place of the lowest one: the search finds it, since a word of 64 zeros is zero. -/
theorem ctzOf_of_ne_zero (a : Word) (h : a ≠ 0) :
    ∃ k, k < 64 ∧ ctzOf a = BitVec.ofNat 64 k ∧ a.getLsbD k = true ∧ ∀ m, m < k → a.getLsbD m = false := by
  cases hf : (List.range 64).find? fun k => bitOf a k with
  | none =>
    refine absurd (BitVec.eq_of_getLsbD_eq fun i hi => ?_) h
    simpa [bitOf_eq_getLsbD] using List.find?_eq_none.mp hf i (List.mem_range.mpr hi)
  | some k =>
    obtain ⟨hk, hlt, hlow⟩ := List.find?_range_eq_some.mp hf
    refine ⟨k, List.mem_range.mp hlt, ?_, hk, fun m hm => ?_⟩
    · rw [ctzOf, hf]
      rfl
    · simpa [bitOf_eq_getLsbD] using hlow m hm

theorem getLsbD_brevOf (a : Word) (k : Nat) (h : k < 64) : (brevOf a).getLsbD k = a.getLsbD (63 - k) := by
  rw [brevOf, BitVec.getLsbD_reverse, BitVec.getMsbD]
  simp [h]

theorem bytesOfNat_eq_map (n v : Nat) :
    bytesOfNat n v = (List.range n).map fun j => BitVec.ofNat 8 (v / 2 ^ (8 * j)) := by
  induction n generalizing v with
  | zero => rfl
  | succ n ih =>
    have hshift (j : Nat) : v / 256 / 2 ^ (8 * j) = v / 2 ^ (8 * (j + 1)) := by
      rw [Nat.div_div_eq_div_mul, Nat.mul_succ, Nat.pow_add, Nat.mul_comm]
    simp [bytesOfNat, ih, List.range_succ_eq_map, hshift]

theorem cnzOf_eq (a : Word) :
    cnzOf a = BitVec.ofNat 64 ((List.range 8).countP fun j => a.extractLsb' (8 * j) 8 != 0) := by
  rw [cnzOf, bytesOfNat_eq_map, ← List.countP_eq_length_filter, List.countP_map]
  simp only [BitVec.extractLsb', Nat.shiftRight_eq_div_pow]
  rfl

/-! ## The instructions -/

/-- A two-source instruction writes a function of its sources in its pass. -/
def ComputesAB (mk : Reg → Reg → Reg → Bool → Bool → Instr) (f : Word → Word → Word) : Prop :=
  ∀ (d a b : Reg) (la lb : Bool) (s : State),
    exec (mk d a b la lb) s = .next (s.compute (mk d a b la lb) (readAB d a b la lb) d (bin f))

theorem computesAB_congr {mk : Reg → Reg → Reg → Bool → Bool → Instr} {f g : Word → Word → Word}
    (hfg : ∀ a b, f a b = g a b) (h : ComputesAB mk f) : ComputesAB mk g := by
  have heq : f = g := funext fun a => funext (hfg a)
  exact heq ▸ h

/-- Every instruction of the statement's table computes the table's function. The named rows are those where the model
writes the function in another way. -/
theorem computesAB_of_mem_integerOps : ∀ op ∈ integerOps, ComputesAB op.1 op.2 := by
  simp only [integerOps, List.forall_mem_cons]
  refine ⟨?add, ?sub, ?and, ?or, ?xor, ?andn, ?orn, ?xnor, ?min, ?max, ?minz, ?maxz, ?slt, ?sltz, ?seq, ?sne, ?shl, ?shr,
    ?sra, ?rol, ?mul, ?mulh, ?mulhz, ?mulhsz, ?bfxz, ?bfx, by simp⟩
  case slt => exact computesAB_congr (fun _ _ => truth_decide _) fun _ _ _ _ _ _ => rfl
  case sltz => exact computesAB_congr (fun _ _ => truth_decide _) fun _ _ _ _ _ _ => rfl
  case seq => exact computesAB_congr (fun _ _ => truth_decide _) fun _ _ _ _ _ _ => rfl
  case sne => exact computesAB_congr (fun _ _ => by rw [← truth_decide, decide_not]; rfl) fun _ _ _ _ _ _ => rfl
  case sra => exact computesAB_congr sraOf_eq fun _ _ _ _ _ _ => rfl
  case rol => exact computesAB_congr rolOf_eq fun _ _ _ _ _ _ => rfl
  case mulhz => exact computesAB_congr highHalf_toNat_eq fun _ _ _ _ _ _ => rfl
  case bfxz => exact computesAB_congr bfxzOf_eq fun _ _ _ _ _ _ => rfl
  case bfx => exact computesAB_congr bfxOf_eq fun _ _ _ _ _ _ => rfl
  all_goals exact fun _ _ _ _ _ _ => rfl

theorem compute_bin_gives (s : State) (i : Instr) (d a b : Reg) (la lb : Bool) (f : Word → Word → Word)
    (h : usable s [a, b] [d] = true) :
    gives s (s.compute i (readAB d a b la lb) d (bin f)) [(a, la), (b, lb)] [(d, f (val s a) (val s b))] (pcOf s + 4) :=
  compute_gives s i (readAB d a b la lb) d (bin f) _ rfl rfl rfl h

theorem compute_una_gives (s : State) (i : Instr) (d a : Reg) (la : Bool) (f : Word → Word)
    (h : usable s [a] [d] = true) :
    gives s (s.compute i (readA d a la) d (una f)) [(a, la)] [(d, f (val s a))] (pcOf s + 4) :=
  compute_gives s i (readA d a la) d (una f) _ rfl rfl rfl h

/-- Settles O1: every instruction is one pass (`compute_gives`) whose function is the statement's. -/
theorem integerResults : Obligations.IntegerResults := by
  refine ⟨fun op hop d a b la lb s h => ?twoSources, fun d a la s h => ⟨?popc, ?clz, ?ctz, ?brev, ?cnz⟩⟩
  case twoSources =>
    exact ⟨_, computesAB_of_mem_integerOps op hop d a b la lb s, compute_bin_gives s _ d a b la lb op.2 h⟩
  case popc =>
    rw [← popcOf_eq]
    exact ⟨_, rfl, compute_una_gives s _ d a la popcOf h⟩
  case clz =>
    exact ⟨_, _, rfl, compute_una_gives s _ d a la clzOf h, fun h0 => h0 ▸ clzOf_zero, clzOf_of_ne_zero _⟩
  case ctz =>
    exact ⟨_, _, rfl, compute_una_gives s _ d a la ctzOf h, fun h0 => h0 ▸ ctzOf_zero, ctzOf_of_ne_zero _⟩
  case brev =>
    exact ⟨_, _, rfl, compute_una_gives s _ d a la brevOf h, getLsbD_brevOf _⟩
  case cnz =>
    rw [← cnzOf_eq]
    exact ⟨_, rfl, compute_una_gives s _ d a la cnzOf h⟩

end Sys2Proof.Claims
end

section
/-! SUPPORT. Branches and jumps (R80, R122-R124). -/

namespace Sys2Proof.Claims

open Sys2Proof Sys2Proof.Machine

theorem branchTarget_eq (pc : Word) (imm : BitVec 11) : branchTarget pc imm = pc + imm.signExtend 64 * 4 := by
  rw [branchTarget, BitVec.shiftLeft_eq_mul_twoPow]
  rfl

theorem jumpTarget_eq (pc : Word) (imm : BitVec 18) : jumpTarget pc imm = pc + imm.signExtend 64 * 4 := by
  rw [jumpTarget, BitVec.shiftLeft_eq_mul_twoPow]
  rfl

/-- A conditional branch is taken on its condition. -/
def BranchesOn (mk : Reg → Reg → BitVec 11 → Instr) (cond : Word → Word → Bool) : Prop :=
  ∀ (a b : Reg) (imm : BitVec 11) (s : State), exec (mk a b imm) s = .next (s.condBranch (mk a b imm) a b imm cond)

theorem branchesOn_of_mem_branchOps : ∀ op ∈ branchOps, BranchesOn op.1 op.2 := by
  simp only [branchOps, List.forall_mem_cons]
  refine ⟨?beq, ?bne, ?blt, ?bge, ?bltz, ?bgez, by simp⟩
  all_goals exact fun _ _ _ _ => rfl

theorem condBranch_gives (s : State) (i : Instr) (a b : Reg) (imm : BitVec 11) (cond : Word → Word → Bool)
    (h : usable s [a, b] [] = true) :
    gives s (s.condBranch i a b imm cond) [] []
      (if cond (val s a) (val s b) then pcOf s + imm.signExtend 64 * 4 else pcOf s + 4) := by
  rw [← branchTarget_eq]
  exact gives_of_noLastUse (branch_gives s i (onlyAB a b false false) _ none _ rfl rfl rfl h) (by simp [onlyAB])

/-- Settles O3: every instruction is one transfer (`branch_gives`) whose sources have no last-use bit. -/
theorem branchesAndJumps : Obligations.BranchesAndJumps := by
  refine ⟨fun op hop a b imm s h => ?branches, fun a imm s h => ⟨_, rfl, ?dbnz⟩,
    fun d imm s h => ⟨_, rfl, ?jal⟩, fun d a imm s h => ⟨_, rfl, ?jalr⟩⟩
  case branches =>
    exact ⟨_, branchesOn_of_mem_branchOps op hop a b imm s, condBranch_gives s _ a b imm op.2 h⟩
  case dbnz =>
    rw [← branchTarget_eq]
    refine gives_of_noLastUse
      (branch_gives s _ (readA a a false) _ (some (a, val s a - 1)) _ ?_ rfl rfl h) (by simp [readA])
    simp only [bne_iff_ne]
    rfl
  case jal =>
    rw [← jumpTarget_eq]
    exact branch_gives s _ (writeD d) _ (some (d, pcOf s + 4)) _ rfl rfl rfl h
  case jalr =>
    exact gives_of_noLastUse
      (branch_gives s _ (readA d a false) _ (some (d, pcOf s + 4)) _ rfl rfl rfl h) (by simp [readA])

end Sys2Proof.Claims
end

section
/-! SUPPORT. Scalar floating point beside the arithmetic: comparisons, `fmin` and `fmax`, conversions, `fclass` and the sign
operations (R189-R191, R193). -/

namespace Sys2Proof.Claims

open Sys2Proof Sys2Proof.Machine

/-! ## The functions of the statement -/

theorem ofValue_eq_converted (g : FloatFormat) (mode : BitVec 2) (x : FVal) : g.ofValue mode x = converted g mode x := by
  cases x <;> rfl

/-! ## Classes (R191) -/

theorem classBit_of_nan {f : FloatFormat} {bits : Nat} {signalling : Bool} (h : f.value bits = .nan signalling) :
    f.classBit bits = if signalling then 8 else 9 := by
  simp only [FloatFormat.classBit, h]

theorem classBit_of_inf {f : FloatFormat} {bits : Nat} {neg : Bool} (h : f.value bits = .inf neg) :
    f.classBit bits = if neg then 0 else 7 := by
  simp only [FloatFormat.classBit, h]

/-- The classes of the finite values lie between those of the infinities, the zeros in the middle. -/
theorem classBit_of_fin {f : FloatFormat} {bits m : Nat} {neg : Bool} {e : Int} (h : f.value bits = .fin neg m e) :
    0 < f.classBit bits ∧ f.classBit bits < 7 ∧ (f.classBit bits = 3 ∨ f.classBit bits = 4 ↔ m = 0) := by
  simp only [FloatFormat.classBit, h]
  by_cases hzero : m = 0
  · cases neg <;> simp [hzero]
  · by_cases hsubnormal : m < 2 ^ f.fbits
    · cases neg <;> simp [hzero, hsubnormal]
    · cases neg <;> simp [hzero, hsubnormal]

/-- What the class tells of a value. -/
theorem classBit_spec (f : FloatFormat) (bits : Nat) :
    f.classBit bits < 10
      ∧ (f.classBit bits = 8 ↔ (f.value bits).signals = true) ∧ (f.classBit bits = 0 ↔ f.value bits = .inf true)
      ∧ (f.classBit bits = 7 ↔ f.value bits = .inf false)
      ∧ (f.classBit bits = 3 ∨ f.classBit bits = 4 ↔ (f.value bits).isZero = true) := by
  cases h : f.value bits with
  | nan signalling =>
    rw [classBit_of_nan h]
    cases signalling <;> simp [FVal.signals, FVal.isZero]
  | inf neg =>
    rw [classBit_of_inf h]
    cases neg <;> simp [FVal.signals, FVal.isZero]
  | fin neg m e =>
    obtain ⟨hpos, hlt, hzero⟩ := classBit_of_fin h
    simp only [FVal.signals, FVal.isZero, reduceCtorEq, beq_iff_eq, Bool.false_eq_true, iff_false]
    exact ⟨by omega, by omega, by omega, by omega, hzero⟩

/-! ## Sign operations (R193) -/

/-- On a number, a sign operation is a function of the low halves of its sources. -/
theorem signForm_of_not_nan (f : Nat → Nat → Nat) (x : Slot) (v : List Word)
    (h : (floatOf fp32 (v.getD 0 0)).isNan = false) :
    signForm f x v = (wordOf (f ((v.getD 0 0).toNat % 2 ^ 32) ((v.getD 1 0).toNat % 2 ^ 32)), noFlags) := by
  change (fp32.value ((v.getD 0 0).toNat % 2 ^ 32)).isNan = false at h
  unfold signForm
  cases hv : fp32.value ((v.getD 0 0).toNat % 2 ^ 32) with
  | nan signalling =>
    rw [hv] at h
    exact absurd h.symm Bool.false_ne_true
  | inf neg => simp only [hv]
  | fin neg m e => simp only [hv]

/-- On a NaN, whatever the operation, the result is the canonical NaN. -/
theorem signForm_of_nan (f : Nat → Nat → Nat) (x : Slot) (v : List Word)
    (h : (floatOf fp32 (v.getD 0 0)).isNan = true) :
    signForm f x v = (0x7FC00000, if (floatOf fp32 (v.getD 0 0)).signals then flagNV else noFlags) := by
  change (fp32.value ((v.getD 0 0).toNat % 2 ^ 32)).isNan = true at h
  change _ = (_, if (fp32.value ((v.getD 0 0).toNat % 2 ^ 32)).signals then flagNV else noFlags)
  unfold signForm
  cases hv : fp32.value ((v.getD 0 0).toNat % 2 ^ 32) with
  | nan signalling =>
    simp only [hv]
    rfl
  | inf neg =>
    rw [hv] at h
    exact absurd h Bool.false_ne_true
  | fin neg m e =>
    rw [hv] at h
    exact absurd h Bool.false_ne_true

/-- A mask of the low bits keeps a word modulo their power. -/
theorem toNat_and_lowMask (w mask : Word) (n : Nat) (hmask : mask.toNat = 2 ^ n - 1) :
    (w &&& mask).toNat = w.toNat % 2 ^ n := by
  rw [BitVec.toNat_and, hmask, Nat.and_two_pow_sub_one_eq_mod]

/-- The sign bit of FP32 alone. -/
theorem toNat_and_signBit (w : Word) : (w &&& 0x80000000#64).toNat = w.toNat % 2 ^ 32 / 2 ^ 31 * 2 ^ 31 := by
  have hmask : 0x80000000#64 = BitVec.twoPow 64 31 := rfl
  have hbit : w.getLsbD 31 = decide (w.toNat / 2 ^ 31 % 2 = 1) := Nat.testBit_eq_decide_div_mod_eq
  rw [hmask, BitVec.and_twoPow, hbit]
  by_cases h : w.toNat / 2 ^ 31 % 2 = 1
  · rw [if_pos (decide_eq_true h), show (BitVec.twoPow 64 31).toNat = 2 ^ 31 from rfl]
    omega
  · rw [if_neg (by simpa using h), show (0#64).toNat = 0 from rfl]
    omega

theorem fnegBits_eq (a : Word) :
    wordOf (a.toNat % 2 ^ 32 ^^^ 2 ^ 31) = (a ^^^ 0x80000000#64) &&& 0xFFFFFFFF#64 := by
  refine BitVec.eq_of_toNat_eq ?_
  have hlt : a.toNat % 2 ^ 32 ^^^ 2 ^ 31 < 2 ^ 32 := Nat.xor_lt_two_pow (Nat.mod_lt _ (by decide)) (by decide)
  rw [toNat_and_lowMask _ 0xFFFFFFFF#64 32 rfl, BitVec.toNat_xor, Nat.xor_mod_two_pow]
  exact Nat.mod_eq_of_lt (by omega)

theorem fabsBits_eq (a : Word) : wordOf (a.toNat % 2 ^ 32 % 2 ^ 31) = a &&& 0x7FFFFFFF#64 := by
  refine BitVec.eq_of_toNat_eq ?_
  rw [toNat_and_lowMask a 0x7FFFFFFF#64 31 rfl, wordOf, BitVec.toNat_ofNat]
  omega

/-- The magnitude of a and the sign of b share no bit: putting them together is adding them. -/
theorem fsgnBits_eq (a b : Word) :
    wordOf (a.toNat % 2 ^ 32 % 2 ^ 31 + b.toNat % 2 ^ 32 / 2 ^ 31 * 2 ^ 31)
      = (a &&& 0x7FFFFFFF#64) ||| (b &&& 0x80000000#64) := by
  refine BitVec.eq_of_toNat_eq ?_
  have hmagnitude : a.toNat % 2 ^ 31 < 2 ^ 31 := Nat.mod_lt _ (by decide)
  have hjoin := Nat.two_pow_add_eq_or_of_lt hmagnitude (b.toNat % 2 ^ 32 / 2 ^ 31)
  rw [BitVec.toNat_or, toNat_and_lowMask a 0x7FFFFFFF#64 31 rfl, toNat_and_signBit, Nat.or_comm,
    Nat.mul_comm (b.toNat % 2 ^ 32 / 2 ^ 31), ← hjoin, wordOf, BitVec.toNat_ofNat]
  omega

/-! ## The instructions -/

/-- `compute_givesFlags` for a result that is known in other words. -/
theorem compute_givesFlags_of_eq (s : State) (i : Instr) (u : Named) (d : Reg) (f : Slot → List Word → Word × FlagSet)
    (r : Word × FlagSet) (hf : f (s.slot s.focus) (u.reads.map fun e => val s e.1) = r)
    (hd : u.dests = [d]) (hu : u.also = []) (h : usable s (u.reads.map (·.1)) [d] = true) :
    givesFlags s (s.compute i u d f) u.reads [(d, r.1)] r.2 :=
  hf ▸ compute_givesFlags s i u d f hd hu h

theorem compute_test_gives (s : State) (i : Instr) (d a b : Reg) (la lb : Bool) (f : FloatFormat) (quiet : Bool)
    (p : FVal → FVal → Bool) (h : usable s [a, b] [d] = true) :
    givesFlags s (s.compute i (readAB d a b la lb) d (f.test quiet p)) [(a, la), (b, lb)]
      [(d, if p (floatOf f (val s a)) (floatOf f (val s b)) then 1 else 0)]
      (compareFlags quiet (floatOf f (val s a)) (floatOf f (val s b))) :=
  compute_givesFlags s i (readAB d a b la lb) d (f.test quiet p) rfl rfl h

theorem compute_pick_gives (s : State) (i : Instr) (d a b : Reg) (la lb : Bool) (f : FloatFormat) (wantMax : Bool)
    (h : usable s [a, b] [d] = true) :
    let r := f.minMax wantMax ((val s a).toNat % 2 ^ f.width) ((val s b).toNat % 2 ^ f.width)
    givesFlags s (s.compute i (readAB d a b la lb) d (f.pick wantMax)) [(a, la), (b, lb)]
      [(d, BitVec.ofNat 64 r.bits)] r.flags :=
  compute_givesFlags s i (readAB d a b la lb) d (f.pick wantMax) rfl rfl h

theorem compute_from_gives (s : State) (i : Instr) (d a : Reg) (la : Bool) (f g : FloatFormat)
    (h : usable s [a] [d] = true) :
    let r := converted g (s.slot s.focus).frm (floatOf f (val s a))
    givesFlags s (s.compute i (readA d a la) d (g.from f)) [(a, la)] [(d, BitVec.ofNat 64 r.bits)] r.flags := by
  rw [← ofValue_eq_converted]
  exact compute_givesFlags s i (readA d a la) d (g.from f) rfl rfl h

/-- A sign operation on a number. -/
theorem compute_signForm_gives (s : State) (i : Instr) (u : Named) (d : Reg) (f : Nat → Nat → Nat)
    (hnum : (floatOf fp32 ((u.reads.map fun e => val s e.1).getD 0 0)).isNan = false)
    (hd : u.dests = [d]) (hu : u.also = []) (h : usable s (u.reads.map (·.1)) [d] = true) :
    let v := u.reads.map fun e => val s e.1
    gives s (s.compute i u d (signForm f)) u.reads
      [(d, wordOf (f ((v.getD 0 0).toNat % 2 ^ 32) ((v.getD 1 0).toNat % 2 ^ 32)))] (pcOf s + 4) :=
  compute_gives s i u d (signForm f) _ (signForm_of_not_nan f _ _ hnum) hd hu h

/-- A sign operation with one source, on a NaN. -/
theorem compute_signForm_nan_gives (s : State) (i : Instr) (d a : Reg) (la : Bool) (f : Nat → Nat → Nat)
    (hnan : (floatOf fp32 (val s a)).isNan = true) (h : usable s [a] [d] = true) :
    givesFlags s (s.compute i (readA d a la) d (signForm f)) [(a, la)] [(d, 0x7FC00000)]
      (if (floatOf fp32 (val s a)).signals then flagNV else noFlags) :=
  compute_givesFlags_of_eq s i (readA d a la) d (signForm f) _ (signForm_of_nan f _ [val s a] hnan) rfl rfl h

/-- Settles O5: every instruction is one pass (`compute_givesFlags`) whose function is the statement's. -/
theorem floatTestsAndSigns : Obligations.FloatTestsAndSigns := by
  refine ⟨⟨?tests, ?picks, ?conversions, fun d a la s h => ⟨⟨_, rfl, ?fcvtSI⟩, ⟨_, rfl, ?fcvtIS⟩, ?fclass⟩⟩,
    fun d a b la lb s => ⟨fun h hnum => ⟨⟨_, rfl, ?fneg⟩, ⟨_, rfl, ?fabs⟩⟩, fun h hnum => ⟨_, rfl, ?fsgn⟩,
      fun h hnan => ⟨_, rfl, ?fnegNan⟩⟩⟩
  case tests =>
    simp only [floatTests, List.forall_mem_cons]
    refine ⟨?flt, ?fle, ?feq, by simp⟩
    all_goals exact fun d a b fmt la lb s h => ⟨_, rfl, compute_test_gives s _ d a b la lb (formatOf fmt) _ _ h⟩
  case picks =>
    simp only [List.forall_mem_cons]
    refine ⟨?fmin, ?fmax, by simp⟩
    all_goals exact fun d a b fmt la lb s h => ⟨_, rfl, compute_pick_gives s _ d a b la lb (formatOf fmt) _ h⟩
  case conversions =>
    simp only [floatConversions, List.forall_mem_cons]
    refine ⟨?fcvtSH, ?fcvtHS, ?fcvtSB, ?fcvtBS, by simp⟩
    all_goals exact fun d a la s h => ⟨_, rfl, compute_from_gives s _ d a la _ _ h⟩
  case fcvtSI => exact compute_givesFlags s _ (readA d a la) d _ rfl rfl h
  case fcvtIS => exact compute_givesFlags s _ (readA d a la) d _ rfl rfl h
  case fclass =>
    obtain ⟨hlt, hclasses⟩ := classBit_spec fp32 ((val s a).toNat % 2 ^ fp32.width)
    exact ⟨_, _, rfl, hlt, compute_gives s _ (readA d a la) d _ _ rfl rfl rfl h, hclasses⟩
  case fneg =>
    rw [← fnegBits_eq]
    exact compute_signForm_gives s _ (readA d a la) d (fun x _ => x ^^^ 2 ^ 31) hnum rfl rfl h
  case fabs =>
    rw [← fabsBits_eq]
    exact compute_signForm_gives s _ (readA d a la) d (fun x _ => x % 2 ^ 31) hnum rfl rfl h
  case fsgn =>
    rw [← fsgnBits_eq]
    exact compute_signForm_gives s _ (readAB d a b la lb) d (fun x y => x % 2 ^ 31 + y / 2 ^ 31 * 2 ^ 31) hnum rfl rfl h
  case fnegNan => exact compute_signForm_nan_gives s _ d a la (fun x _ => x ^^^ 2 ^ 31) hnan h

end Sys2Proof.Claims
end
